-- ==== Sys2Proof/Word.lean ====
section
/-! DEFINITION. The word types of VRDI: nothing but widths (spec 00 R11, 10 R24, R32). -/

namespace Sys2Proof

/-- One byte of a register window or of shared memory. -/
abbrev Byte := BitVec 8

/-- One word of the command, response and event ports (30 R100). -/
abbrev Word := BitVec 32

/-- A bus address (10 R46, 20 R63). -/
abbrev Addr := BitVec 64

/-- The number of a pool slot (10 R32). -/
abbrev Handle := BitVec 16

/-- The index of a descriptor of a queue's table (10 R24). -/
abbrev DescIdx := BitVec 16

end Sys2Proof
end

