-- ==== Sys2Proof/Config.lean ====
section
/-! DEFINITION. What is fixed for one machine: the parameters of spec 00 R8 and R9, with the defaults of R9, and the
free values that stand for what the spec leaves open (93 U3 to U7). -/

namespace Sys2Proof

/-- Byte order of the host; used only by window 1 (00 R9, 20 R66). -/
inductive Endian where
  | little
  | big
deriving DecidableEq, Repr

/-- The three queues (00 R8), by role number (00 R9: a role number is 0, 1 or 2). Which of them is the receive, the
transmit and the control queue is a parameter: `Config.qRx`, `qTx`, `qCtrl`. -/
inductive Role where
  | q0
  | q1
  | q2
deriving DecidableEq, Repr

/-- The role's number, as header field Q and QUEUE_SELECT carry it (00 R9, 30 R101). -/
def Role.num : Role → Nat
  | .q0 => 0
  | .q1 => 1
  | .q2 => 2

/-- The order in which BU.DETACH takes the queues: 43 R215 writes 0, 1, 2, 20 R85 says the order of the `acq` stack,
newest first. The spec settles it nowhere, so it is the model's own parameter (log 11). -/
inductive DetachOrder where
  | byRole
  | byAcquisition
deriving DecidableEq, Repr

/-- The parameters of 00 R9, "each is a named argument of the model", and after them one of the model's own: the order of
BU.DETACH (log 11). -/
structure Config where
  qRx               : Role
  qTx               : Role
  qCtrl             : Role
  offDeviceFeatures : Nat
  offGuestFeatures  : Nat
  offQueueAddress   : Nat
  offQueueSize      : Nat
  offQueueSelect    : Nat
  offQueueNotify    : Nat
  offDeviceStatus   : Nat
  offIsr            : Nat
  win0Bytes         : Nat
  offMac            : Nat
  offLinkStatus     : Nat
  linkUpBit         : Nat
  win1Bytes         : Nat
  pciOffVendor      : Nat
  pciOffDevice      : Nat
  pciOffRevision    : Nat
  expVendor         : BitVec 16
  expDevice         : BitVec 16
  expRevision       : BitVec 8
  stAck             : BitVec 8
  stDriver          : BitVec 8
  stDriverOk        : BitVec 8
  stFailed          : BitVec 8
  isrQueueUpdate    : BitVec 8
  isrConfigChange   : BitVec 8
  fMac              : Nat
  fCtrlVq           : Nat
  fStatus           : Nat
  fIndirect         : Nat
  driverSupported   : BitVec 32
  dfChained         : BitVec 16
  dfWritable        : BitVec 16
  dfIndirect        : BitVec 16
  ufNoNotify        : BitVec 16
  hostEndian        : Endian
  poolSlots         : Nat
  paCeiling         : Nat
  indThresh         : Nat
  detachOrder       : DetachOrder
deriving DecidableEq, Repr

/-- The defaults of 00 R9. POOL_SLOTS, PA_CEILING and IND_THRESH are OPEN there: 16 and 2^44 are the values of the
spec's test vectors; 32768 ("larger than any chain used") is a DESIGN CHOICE, log 4. `detachOrder` is the
model's own (log 11). -/
def Config.default : Config where
  qRx               := .q0
  qTx               := .q1
  qCtrl             := .q2
  offDeviceFeatures := 0
  offGuestFeatures  := 4
  offQueueAddress   := 8
  offQueueSize      := 12
  offQueueSelect    := 14
  offQueueNotify    := 16
  offDeviceStatus   := 18
  offIsr            := 19
  win0Bytes         := 20
  offMac            := 0
  offLinkStatus     := 6
  linkUpBit         := 0
  win1Bytes         := 8
  pciOffVendor      := 0x00
  pciOffDevice      := 0x02
  pciOffRevision    := 0x08
  expVendor         := 0x1AF4#16
  expDevice         := 0x1000#16
  expRevision       := 0x00#8
  stAck             := 0x01#8
  stDriver          := 0x02#8
  stDriverOk        := 0x04#8
  stFailed          := 0x80#8
  isrQueueUpdate    := 0x01#8
  isrConfigChange   := 0x02#8
  fMac              := 5
  fCtrlVq           := 17
  fStatus           := 16
  fIndirect         := 28
  driverSupported   := 0x00030020#32
  dfChained         := 0x1#16
  dfWritable        := 0x2#16
  dfIndirect        := 0x4#16
  ufNoNotify        := 0x1#16
  hostEndian        := .little
  poolSlots         := 16
  paCeiling         := 2 ^ 44
  indThresh         := 32768
  detachOrder       := .byRole

/-- Two byte ranges `a .. a+n-1` and `b .. b+m-1` share no byte. -/
def Config.apart (a n b m : Nat) : Bool := decide (a + n ≤ b) || decide (b + m ≤ a)

/-- The window 0 registers as (offset, width in bytes), in the order of 10 R36 to R43. -/
def Config.window0 (c : Config) : List (Nat × Nat) :=
  [(c.offDeviceFeatures, 4), (c.offGuestFeatures, 4), (c.offQueueAddress, 4), (c.offQueueSize, 2),
   (c.offQueueSelect, 2), (c.offQueueNotify, 2), (c.offDeviceStatus, 1), (c.offIsr, 1)]

/-- The window 1 registers as (offset, width in bytes) (10 R44): the MAC bytes taken together, the link status. -/
def Config.window1 (c : Config) : List (Nat × Nat) := [(c.offMac, 6), (c.offLinkStatus, 2)]

/-- No two ranges of a list share a byte. -/
def Config.allApart : List (Nat × Nat) → Bool
  | [] => true
  | r :: rest => rest.all (fun x => Config.apart r.1 r.2 x.1 x.2) && Config.allApart rest

/-- The mask has exactly one bit, and no two masks of the list share it: the four status bits of 10 R42, the three
descriptor flags of 20 R74, the two cause bits of 10 R43. -/
def Config.oneBit {w : Nat} (m : BitVec w) : Bool := m != 0 && (m &&& (m - 1)) == 0

def Config.masksApart {w : Nat} : List (BitVec w) → Bool
  | [] => true
  | m :: rest => Config.oneBit m && rest.all (fun x => m &&& x == 0) && Config.masksApart rest

/-- What 00 R9, 42 R181 and the register tables ask of the parameters: three different queue roles; registers inside
their window, naturally aligned and apart; one distinct bit per flag; POOL_SLOTS in 1..65536; PA_CEILING at most 2^44;
IND_THRESH in 1..32768; bit numbers inside their register. A window may be of any size. -/
def Config.wf (c : Config) : Bool :=
  c.qRx != c.qTx && c.qRx != c.qCtrl && c.qTx != c.qCtrl
  && Config.allApart c.window0 && c.window0.all (fun r => r.1 % r.2 == 0 && decide (r.1 + r.2 ≤ c.win0Bytes))
  && Config.allApart c.window1 && c.window1.all (fun r => decide (r.1 + r.2 ≤ c.win1Bytes))
  && c.offLinkStatus % 2 == 0
  && Config.allApart [(c.pciOffVendor, 2), (c.pciOffDevice, 2), (c.pciOffRevision, 1)]
  && Config.masksApart [c.stAck, c.stDriver, c.stDriverOk, c.stFailed]
  && Config.masksApart [c.isrQueueUpdate, c.isrConfigChange]
  && Config.masksApart [c.dfChained, c.dfWritable, c.dfIndirect]
  && Config.oneBit c.ufNoNotify
  && [c.fMac, c.fCtrlVq, c.fStatus, c.fIndirect].all (fun b => decide (b < 32))
  && decide (c.linkUpBit < 16)
  && decide (1 ≤ c.poolSlots) && decide (c.poolSlots ≤ 65536) && decide (c.paCeiling ≤ 2 ^ 44)
  && decide (1 ≤ c.indThresh) && decide (c.indThresh ≤ 32768)

/-- FREE VALUE (log 8): the k-th value that the spec leaves to DEV or PLAT: a byte read where no register matches
(93 U3), QUEUE_NOTIFY read (93 U5), window 1 after a write (93 U4), a bus address (93 U7). Nothing fixes it. -/
opaque Config.drawBits : Nat → BitVec 64

/-- FREE VALUE (log 6): what the byte at an address of a fresh slot holds before anything has written it, for the
reservation that made the k-th draw (10 R46 "a draw per byte", 93 U6). Nothing fixes it. -/
opaque Config.freshByte : Nat → Nat → Byte

/-- FREE VALUE (log 8): the k-th yes or no that the spec leaves to DEV or PLAT: whether a side effect of a
mismatched access happens (93 U3), whether PLAT maps the windows or grants memory (93 U7). -/
opaque Config.drawFlag : Nat → Bool

end Sys2Proof
end

