-- ==== Sys2Proof/Syntax.lean ====
section
/-! DEFINITION. The thirty commands of spec/opcode_table.json as one inductive, with their operands (30 R102, R105). -/

namespace Sys2Proof

/-- Direction of a buffer (10 R32): header bit D, 0 TO_DEVICE, 1 FROM_DEVICE. -/
inductive Dir where
  | toDevice
  | fromDevice
deriving DecidableEq, Repr

/-- One segment of VQ.SUBMIT as it stands in the frame (30 R113): the word with W, the must-be-zero bits and
HANDLE, and the length word. The must-be-zero bits are judged by 41 R161, so the word is kept whole. -/
structure Seg where
  ctl : Word
  len : Word
deriving DecidableEq, Repr

/-- The commands. `off`, `size`, `h` are IMM16; `value` and `len` are operand words. -/
inductive Instr where
  | rd8 (off : BitVec 16)
  | rd16 (off : BitVec 16)
  | rd32 (off : BitVec 16)
  | wr8 (off : BitVec 16) (value : Word)
  | wr16 (off : BitVec 16) (value : Word)
  | wr32 (off : BitVec 16) (value : Word)
  | drd8 (off : BitVec 16)
  | drd16 (off : BitVec 16)
  | drd32 (off : BitVec 16)
  | dwr8 (off : BitVec 16) (value : Word)
  | dwr16 (off : BitVec 16) (value : Word)
  | dwr32 (off : BitVec 16) (value : Word)
  | vqCreate (q : Role) (size : BitVec 16)
  | vqDestroy (q : Role)
  | vqSubmit (q : Role) (segs : List Seg)
  | vqDrain (q : Role)
  | poolReserve (dir : Dir) (len : Word)
  | poolRelease (h : Handle)
  | buReset
  | buAck
  | buDriver
  | buFeatures
  | buQwire (q : Role)
  | buIrq
  | buOk
  | buFail
  | buDetach
  | linkState
  | propFeat
  | propQsize (q : Role)
deriving DecidableEq, Repr

end Sys2Proof
end

