-- ==== Sys2Proof/Machine/State.lean ====
section
/-! DEFINITION. Everything the spec gives the machine as plain data (10_state.md), the agents' inputs that decide what
happens between its accesses, and the machine right after hardware reset (70 R300). -/

namespace Sys2Proof.Machine

/-! ## Small types -/

/-- One value for each queue role (10 R20: "its three Virtqueues"). -/
structure PerRole (α : Type) where
  q0 : α
  q1 : α
  q2 : α
deriving DecidableEq, Repr

/-- `fsm` (10 R23). -/
inductive Fsm where
  | detached
  | reset
  | acknowledged
  | driverLoaded
  | featuresOk
  | driverReady
  | failed
deriving DecidableEq, Repr

/-- An acquired resource (10 R22: `acq`). -/
inductive Resource where
  | win
  | qr (q : Role)
  | irq
deriving DecidableEq, Repr

/-- The two agents of the block, as lock holders and in the bus trace (00 R10, 20 R84). -/
inductive Agent where
  | cmd
  | disp
deriving DecidableEq, Repr

/-- The per-descriptor tag (10 R29). -/
inductive Tag where
  | free
  | submitted (head : DescIdx)
  | completedPendingReturn
deriving DecidableEq, Repr

/-- What the block keeps for one descriptor index: its tag, and for a head the chain length, the cookie and the
indirect table's slot (10 R24, R29, R30). -/
structure Desc where
  tag : Tag
  chainLen : BitVec 16
  cookie : Handle
  ind : Option Handle
deriving DecidableEq, Repr

/-- A queue context (10 R24). -/
structure Queue where
  valid : Bool
  wired : Bool
  broken : Bool
  n : BitVec 16
  region : Handle
  base : Addr
  availIdx : BitVec 16
  lastUsed : BitVec 16
  free : List DescIdx
  desc : List Desc
  lock : Option Agent
deriving DecidableEq, Repr

/-- A queue context at reset (10 R24, 70 R300). -/
def Queue.empty : Queue :=
  { valid := false, wired := false, broken := false, n := 0, region := 0, base := 0, availIdx := 0, lastUsed := 0,
    free := [], desc := [], lock := none }

/-- A loan: the queue and head of the chain the slot is part of (10 R32). -/
structure Loan where
  q : Role
  head : DescIdx
deriving DecidableEq, Repr

/-- What the bytes of a slot read as until something is written there (log 6). -/
inductive Fill where
  /-- 0: MemZero has cleared the slot (20 R72) -/
  | zero
  /-- unspecified (10 R46, 93 U6): the free values of the reservation that made the k-th draw -/
  | draw (k : Nat)
deriving DecidableEq, Repr

/-- A pool slot (10 R32). `fill` is the model's own (log 6). -/
structure Slot where
  alloc : Bool
  bus : Addr
  len : BitVec 32
  dir : Dir
  internal : Bool
  loan : Option Loan
  orphan : Bool
  fill : Fill
deriving DecidableEq, Repr

/-- A FREE slot (10 R32, R33; 42 R186). -/
def Slot.free : Slot :=
  { alloc := false, bus := 0, len := 0, dir := .toDevice, internal := false, loan := none, orphan := false,
    fill := .zero }

/-- The dispatcher's state (10 R34). -/
inductive Disp where
  | idle
  | isr
  | walk
  | config
  | ret
deriving DecidableEq, Repr

/-! ## A drain in progress (41 R164, R165) -/

/-- One reclaimed chain: what the drain reports and the handles it gives back (41 R165). -/
structure Drained where
  cookie : Handle
  len : Word
  handles : List Handle
deriving DecidableEq, Repr

/-- The chain a drain is walking (41 R165): how many pending chains come after it, `id` and `len` of its used element,
the descriptors it has tagged CompletedPendingReturn so far (`order`), and the descriptor it stands at. -/
structure Visit where
  rest : Nat
  id : DescIdx
  len : Word
  visited : List DescIdx
  cur : DescIdx
deriving DecidableEq, Repr

/-- Where a drain stands: which access or which step on the slot table comes next. -/
inductive DrainPos where
  /-- the read of the used index (41 R164) -/
  | start
  /-- the read of `id` of the next used element; `rest` chains are pending after it -/
  | element (rest : Nat)
  /-- the read of `len` of that element -/
  | length (rest : Nat) (id : Nat)
  /-- the read of `flags` of descriptor `cur`, not visited yet -/
  | flags (v : Visit)
  /-- the read of `next` of descriptor `cur`, visited already -/
  | link (v : Visit)
  /-- the walk has been accepted: the end of the chain's loans, those of `done` ended already (none for DISP, log 2), then
  the rest of 41 R165 -/
  | unlend (v : Visit) (done : List Handle)
  /-- the end, in corruption or not -/
  | finished (corrupt : Bool)
deriving DecidableEq, Repr

/-- A drain in progress: the chains it has reclaimed and where it stands. -/
structure DrainRun where
  out : List Drained
  pos : DrainPos
deriving DecidableEq, Repr

/-- Where the dispatcher stands in D_WALK (44 R233, R234; log 12): which single step comes next. -/
inductive WalkPos where
  /-- the log of the unknown causes, and whether there is a queue to walk -/
  | enter
  /-- whether queue `dq` is to be drained -/
  | test
  /-- the lock of queue `dq` -/
  | wantLock
  /-- one step of the drain of queue `dq`, under its lock; the last one reports what was drained -/
  | drain (r : DrainRun)
deriving DecidableEq, Repr

/-- Shared memory: (address, byte) with strictly rising addresses (log 6). -/
abbrev Memory := List Host.Cell

/-! ## The device (45 R253) -/

/-- One segment of a chain as the device has read it (45 R256). -/
structure DevSeg where
  addr : Nat
  len : Nat
  writable : Bool
deriving DecidableEq, Repr

/-- A chain the device has consumed and not completed (45 R253), with the addresses it has written in the chain's
writable buffers, each once (45 R257). -/
structure Chain where
  q : Role
  head : DescIdx
  segs : List DevSeg
  written : List Nat
deriving DecidableEq, Repr

/-- What a device that uses the notify hint of a queue owes it (45 R259, 70 R317); the model's own (log 13). -/
inductive Poll where
  /-- nothing -/
  | no
  /-- it has set the hint: it looks at `avail.idx` without being notified, until it clears the hint -/
  | polling
  /-- it has cleared the hint and not looked at `avail.idx` since: one more look -/
  | recheck
deriving DecidableEq, Repr

/-- The device's registers and private state (10 R35 to R45, 45 R253). Two fields are the model's own: `poll`, and
`win1Open`: window 1 was written, so its contents are DEV's choice from then on (93 U4, log 8). -/
structure Device where
  dstatus : BitVec 8
  dguest : BitVec 32
  dsel : BitVec 16
  dsize : PerRole (BitVec 16)
  daddr : PerRole (BitVec 32)
  dlast : PerRole (BitVec 16)
  dused : PerRole (BitVec 16)
  poll : PerRole Poll
  disr : BitVec 8
  doffered : BitVec 32
  mac : List Byte
  link : BitVec 16
  vendor : BitVec 16
  device : BitVec 16
  revision : BitVec 8
  consumed : List Chain
  irqLine : Bool
  win1Open : Bool
deriving DecidableEq, Repr

/-! ## The other agents' acts (log 1, log 2) -/

/-- What an agent other than CMD may do in one turn, or between two accesses of the block. -/
inductive Act where
  /-- DISP takes one step (44 R239) -/
  | disp
  /-- PLAT pulses IRQ_DELIVER (44 R230) -/
  | irqPulse
  /-- the k-th oldest pending store of CMD takes effect (20 R80 (e)) -/
  | commit (k : Nat)
  /-- the host appends words to the command port (30 R100) -/
  | hostSend (ws : List Word)
  /-- the host stores into buffers it owns (70 R312) -/
  | hostStore (a : Nat) (bs : List Byte)
  /-- the host reads `n` bytes of buffers it owns (70 R312) -/
  | hostRead (a n : Nat)
  /-- DEV stores to live memory (45 R250) -/
  | devStore (a : Nat) (bs : List Byte)
  /-- an untrusted DEV changes what its registers will return, and its line, at will (45 R250) -/
  | devForge (d : Device)
  /-- a conforming DEV consumes one available entry (45 R256) -/
  | devConsume (q : Role)
  /-- a conforming DEV writes into writable buffer `g` of its k-th consumed chain, from offset `off` (45 R256) -/
  | devWrite (k g off : Nat) (bs : List Byte)
  /-- a conforming DEV completes its k-th consumed chain (45 R257) -/
  | devComplete (k : Nat)
  /-- a conforming DEV sets or clears the notify hint of a queue (45 R259) -/
  | devHint (q : Role) (on : Bool)
  /-- the device's link status changes (45 R260) -/
  | devLink (v : BitVec 16)
deriving DecidableEq, Repr

/-- Which agent moves in a step. -/
inductive Turn where
  | cmd
  | act (a : Act)
deriving DecidableEq, Repr

/-! ## The bus trace (log 9) -/

/-- The two register windows (20 R61). -/
inductive Win where
  | w0
  | w1
deriving DecidableEq, Repr

/-- One access of the block, or one FENCE (20 R70 to R72, R81; 40 R130, R131; 20 R64). Window accesses carry the bytes
on the bus, lowest offset first. -/
inductive BusOp where
  | regRead (w : Win) (off : Nat) (bytes : List Byte)
  | regWrite (w : Win) (off : Nat) (bytes : List Byte)
  | pciRead (off n value : Nat)
  | memRead (addr n value : Nat)
  | memWrite (addr n value : Nat)
  | memZero (addr len : Nat)
  | fence
deriving DecidableEq, Repr

/-- A bus operation and the agent that made it. -/
structure Access where
  agent : Agent
  op : BusOp
deriving DecidableEq, Repr

/-- A store of CMD that DEV may not see yet (20 R80 (e), log 5). -/
structure Store where
  addr : Nat
  bytes : List Byte
deriving DecidableEq, Repr

/-! ## State -/

/-- The whole machine. -/
structure State where
  /-- parameters (00 R8, R9); constant, log 4 -/
  cfg : Config
  /-- block-private global fields (10 R22) -/
  fsm : Fsm
  stShadow : BitVec 8
  offered : BitVec 32
  negotiated : BitVec 32
  qsize : PerRole (BitVec 16)
  winMapped : Bool
  irqEn : Bool
  acq : List Resource
  errLatch : BitVec 8
  /-- the queue contexts (10 R24) -/
  queues : PerRole Queue
  /-- the pool slot table, slot h at position h (10 R32) -/
  pool : List Slot
  /-- the dispatcher (10 R34) -/
  disp : Disp
  isrLat : BitVec 8
  dq : Role
  /-- the model's own: where DISP stands inside D_WALK; `enter` outside it (log 12) -/
  walk : WalkPos
  /-- the device (10 R35 to R45, 45 R253) -/
  dev : Device
  /-- shared memory (10 R46) -/
  mem : Memory
  /-- the ports (30 R100) -/
  cmdPort : List Word
  respPort : List Word
  eventPort : List Word
  /-- the model's own: what the host has read from its buffers, oldest first (log 14) -/
  hostSeen : List Byte
  /-- the model's own: CMD's pending stores, oldest first (log 5) -/
  wbuf : List Store
  /-- the model's own: what the block has done on its buses, oldest first (log 9) -/
  bus : List Access
  /-- the model's own: who moves next (log 1), and what others do before each single access (log 2) -/
  turns : List Turn
  gaps : List (List Act)
  /-- the model's own: PLAT's next answers (log 7) -/
  platAllocs : List (Option Addr)
  platMaps : List Bool
  /-- the model's own: how many free values have been drawn (log 8) -/
  draws : Nat
deriving DecidableEq, Repr

/-- Why the machine stops. No state that a run from reset reaches raises one (20 R79, 60 R289, Safety.lean). -/
inductive Fault where
  /-- raised by a MEM access of the block to an address that no live slot covers (10 R46: only bytes of live slots
  exist; 20 R79: cannot happen). SAFE: the machine stops where the spec gives no byte. -/
  | deadByte (addr : Nat)
  /-- raised when CMD waits for a lock that DISP does not give back (20 R84: "A has no step"). SAFE: a stuck state;
  44 R238 says every delivery ends. -/
  | stuckOnLock (q : Role)
  /-- raised when CMD waits for DISP to become idle (43 R215, 60 R276) and DISP has no step left. SAFE: a stuck state;
  44 R238 says every delivery ends. -/
  | dispatcherStuck
  /-- raised when a drain of CMD does not end. SAFE: a stuck state; 41 R165 says the walk of a chain ends, 41 R164 that
  the sequence is finite. -/
  | drainUnfinished
deriving DecidableEq, Repr

/-- Why an instruction has no meaning. -/
inductive Refusal where
  /-- raised by Dispatch.lean alone, for an instruction not modelled yet. SAFE: the machine stops. -/
  | notModelled (mnemonic : String)
deriving DecidableEq, Repr

/-! ## Reset (70 R300) -/

/-- The device as the model finds it at time zero. The spec leaves every device register unspecified then (10 R35,
70 R301); these are the values of the spec's test device (95, program C1 and B2). DESIGN CHOICE, log 3. -/
def Device.initial : Device :=
  { dstatus := 0, dguest := 0, dsel := 0, dsize := ⟨256, 256, 64⟩, daddr := ⟨0, 0, 0⟩, dlast := ⟨0, 0, 0⟩,
    dused := ⟨0, 0, 0⟩, poll := ⟨.no, .no, .no⟩, disr := 0, doffered := 0x00020020, mac := [0x52, 0x54, 0x00, 0x12, 0x34, 0x56], link := 1,
    vendor := 0x1AF4, device := 0x1000, revision := 0x00, consumed := [], irqLine := false, win1Open := false }

/-- The machine right after `RST` (70 R300, 10 R49), with the default parameters (log 4). -/
def State.reset : State :=
  { cfg := Config.default, fsm := .detached, stShadow := 0, offered := 0, negotiated := 0, qsize := ⟨0, 0, 0⟩,
    winMapped := false, irqEn := false, acq := [], errLatch := 0,
    queues := ⟨Queue.empty, Queue.empty, Queue.empty⟩,
    pool := List.replicate Config.default.poolSlots Slot.free, disp := .idle, isrLat := 0, dq := .q0, walk := .enter,
    dev := Device.initial, mem := [], cmdPort := [], respPort := [], eventPort := [], hostSeen := [], wbuf := [], bus := [],
    turns := [], gaps := [], platAllocs := [], platMaps := [], draws := 0 }

end Sys2Proof.Machine
end

