-- ==== Sys2Proof/Machine/Bytes.lean ====
section
/-! DEFINITION. Byte order and the small arithmetic of 00 R11, and access to one role's value. -/

namespace Sys2Proof.Machine

/-- `n` bytes of a value, lowest first: byte i is (v div 256^i) mod 256 (20 R71, 40 R131). -/
def leBytes : Nat → Nat → List Byte
  | 0, _ => []
  | n + 1, v => BitVec.ofNat 8 v :: leBytes n (v / 256)

/-- The value of bytes given lowest first: the sum of b[i] * 256^i (20 R65, R70). -/
def ofLe : List Byte → Nat
  | [] => 0
  | b :: rest => b.toNat + 256 * ofLe rest

/-- The value `n` bus bytes carry in a byte order (20 R65, R66). -/
def busValue (e : Endian) (bytes : List Byte) : Nat :=
  match e with
  | .little => ofLe bytes
  | .big => ofLe bytes.reverse

/-- The bytes sent for a value in a byte order (40 R131). -/
def busBytes (e : Endian) (n v : Nat) : List Byte :=
  match e with
  | .little => leBytes n v
  | .big => (leBytes n v).reverse

/-- `round_up(x, a)` (00 R11). -/
def roundUp (x a : Nat) : Nat := a * ((x + a - 1) / a)

/-- `ispow2(n)` (00 R11). -/
def isPow2 (n : Nat) : Bool := decide (1 ≤ n) && (n &&& (n - 1)) == 0

/-- A required size of memory and its alignment (00 R8: ALIGN). -/
def pageBytes : Nat := 4096

/-- The value of one role. -/
def PerRole.get {α : Type} (x : PerRole α) : Role → α
  | .q0 => x.q0
  | .q1 => x.q1
  | .q2 => x.q2

/-- Replace the value of one role. -/
def PerRole.set {α : Type} (x : PerRole α) (q : Role) (v : α) : PerRole α :=
  match q with
  | .q0 => { x with q0 := v }
  | .q1 => { x with q1 := v }
  | .q2 => { x with q2 := v }

/-- Every role has the property. -/
def PerRole.all {α : Type} (x : PerRole α) (p : α → Bool) : Bool := p x.q0 && p x.q1 && p x.q2

/-- Some role has the property. -/
def PerRole.any {α : Type} (x : PerRole α) (p : α → Bool) : Bool := p x.q0 || p x.q1 || p x.q2

/-- The role a number names, if the device has such a queue (10 R40: roles 0 to 2). -/
def roleOfNum : Nat → Option Role
  | 0 => some .q0
  | 1 => some .q1
  | 2 => some .q2
  | _ => none

/-! ## Layout of a queue region (20 R73 to R77) -/

/-- `avail_off = 16*N` (20 R73). -/
def availOff (n : Nat) : Nat := 16 * n

/-- `used_off = round_up(16*N + 4 + 2*N, 4096)` (20 R73). -/
def usedOff (n : Nat) : Nat := roundUp (16 * n + 4 + 2 * n) pageBytes

/-- `total = used_off + round_up(4 + 8*N, 4096)` (20 R73). -/
def regionBytes (n : Nat) : Nat := usedOff n + roundUp (4 + 8 * n) pageBytes

/-- Address of descriptor i of a table: fields addr +0, len +8, flags +12, next +14 (20 R74, R77). -/
def descAddr (table i : Nat) : Nat := table + 16 * i

/-- Address of the available ring's index (20 R75). -/
def availIdxAddr (base n : Nat) : Nat := base + availOff n + 2

/-- Address of available-ring element k (20 R75). -/
def availElemAddr (base n k : Nat) : Nat := base + availOff n + 4 + 2 * k

/-- Address of the used ring's flags (20 R76). -/
def usedFlagsAddr (base n : Nat) : Nat := base + usedOff n

/-- Address of the used ring's index (20 R76). -/
def usedIdxAddr (base n : Nat) : Nat := base + usedOff n + 2

/-- Address of the id of used-ring element k (20 R76). -/
def usedIdAddr (base n k : Nat) : Nat := base + usedOff n + 4 + 8 * k

/-- Address of the len of used-ring element k (20 R76). -/
def usedLenAddr (base n k : Nat) : Nat := base + usedOff n + 8 + 8 * k

end Sys2Proof.Machine
end

