-- ==== Sys2Proof/Machine/Mem.lean ====
section
/-! DEFINITION. Shared memory (10 R46, 20 R70 to R72): a list of (address, byte) in one canonical form, and what an
unlisted address reads as: nothing where no live slot covers it, 0 in a slot MemZero has cleared, a free value in a
fresh slot (log 6). -/

namespace Sys2Proof.Machine

/-! ## The list -/

/-- The byte listed at an address. -/
def Memory.find : Memory → Nat → Option Byte
  | [], _ => none
  | c :: rest, a => if c.1 = a then some c.2 else Memory.find rest a

/-- List a byte at an address, keeping the addresses rising. -/
def Memory.put : Memory → Nat → Byte → Memory
  | [], a, b => [(a, b)]
  | c :: rest, a, b =>
    if a < c.1 then (a, b) :: c :: rest
    else if a = c.1 then (a, b) :: rest
    else c :: Memory.put rest a b

/-- Drop the entries with `lo ≤ address < hi`. -/
def Memory.eraseRange (m : Memory) (lo hi : Nat) : Memory := m.filter (fun c => !(decide (lo ≤ c.1) && decide (c.1 < hi)))

/-- Addresses strictly rise. -/
def Memory.rising : Memory → Bool
  | [] => true
  | c :: rest =>
    match rest with
    | [] => true
    | d :: _ => decide (c.1 < d.1) && Memory.rising rest

/-! ## Which bytes exist -/

/-- How many bytes of bus addresses a slot covers: round_up(len, 4096) (10 R32). -/
def Slot.extent (x : Slot) : Nat := roundUp x.len.toNat pageBytes

/-- A live slot covers the address (10 R32). -/
def Slot.covers (x : Slot) (a : Nat) : Bool :=
  x.alloc && decide (x.bus.toNat ≤ a) && decide (a < x.bus.toNat + x.extent)

/-- What an address is when nothing is listed there. -/
inductive ByteKind where
  /-- no live slot covers it: the byte does not exist (10 R46) -/
  | dead
  /-- in a fresh slot: the free value of the reservation that made the k-th draw (10 R46, 93 U6) -/
  | fresh (k : Nat)
  /-- in a slot MemZero has cleared: it reads 0 (20 R72) -/
  | zero
deriving DecidableEq, Repr

/-- The kind of an address of a slot. -/
def Fill.kind : Fill → ByteKind
  | .zero => .zero
  | .draw k => .fresh k

/-- The kind of an address in a slot table. -/
def poolKind (pool : List Slot) (a : Nat) : ByteKind :=
  match pool.find? (fun x => x.covers a) with
  | none => .dead
  | some x => x.fill.kind

/-- The canonical form: rising addresses, only existing bytes, no listed 0 in a cleared slot. In a fresh slot every
written byte is listed: no written value is known to be the free value there. -/
def Memory.wf (kind : Nat → ByteKind) (m : Memory) : Bool :=
  Memory.rising m && m.all (fun c =>
    match kind c.1 with
    | .dead => false
    | .fresh _ => true
    | .zero => c.2 != 0)

/-- The byte at an address: none where it does not exist. -/
def State.byteAt (s : State) (a : Nat) : Option Byte :=
  match poolKind s.pool a with
  | .dead => none
  | .fresh k => some ((Memory.find s.mem a).getD (Config.freshByte k a))
  | .zero => some ((Memory.find s.mem a).getD 0)

/-- Store one byte. A store to an address outside every live slot has no effect (45 R251). -/
def State.putByte (s : State) (a : Nat) (b : Byte) : State :=
  match poolKind s.pool a with
  | .dead => s
  | .fresh _ => { s with mem := Memory.put s.mem a b }
  | .zero =>
    if b = 0 then { s with mem := Memory.eraseRange s.mem a (a + 1) } else { s with mem := Memory.put s.mem a b }

/-- Store bytes at rising addresses (20 R71). -/
def State.putBytes (s : State) (a : Nat) : List Byte → State
  | [] => s
  | b :: rest => State.putBytes (s.putByte a b) (a + 1) rest

/-- The little-endian value of `n` bytes, if every one exists (20 R70). -/
def State.readLe (s : State) (a : Nat) : Nat → Option Nat
  | 0 => some 0
  | n + 1 =>
    match s.byteAt a, State.readLe s (a + 1) n with
    | some b, some rest => some (b.toNat + 256 * rest)
    | _, _ => none

/-! ## CMD's pending stores (20 R80, log 5) -/

/-- Let stores take effect in the order given. -/
def State.applyStores (s : State) : List Store → State
  | [] => s
  | st :: rest => State.applyStores (s.putBytes st.addr st.bytes) rest

/-- Every pending store takes effect, oldest first. -/
def State.settle (s : State) : State := { s.applyStores s.wbuf with wbuf := [] }

/-- Two stores touch a common byte. -/
def Store.overlaps (x y : Store) : Bool :=
  decide (x.addr < y.addr + y.bytes.length) && decide (y.addr < x.addr + x.bytes.length)

/-- The k-th oldest pending store takes effect, unless an older pending store touches one of its bytes: accesses of one
agent to the same address take effect in program order (20 R80 (b), (e)). -/
def State.commitStore (s : State) (k : Nat) : State :=
  match s.wbuf[k]? with
  | none => s
  | some st =>
    if (s.wbuf.take k).any (fun x => x.overlaps st) then s
    else { s.putBytes st.addr st.bytes with wbuf := s.wbuf.eraseIdx k }

/-! ## The slot table -/

/-- Slot h; a FREE one beyond the table. -/
def State.slot (s : State) (h : Nat) : Slot := s.pool.getD h Slot.free

/-- Replace slot h. -/
def State.setSlot (s : State) (h : Nat) (x : Slot) : State := { s with pool := s.pool.set h x }

/-- OWNED (10 R33). -/
def Slot.owned (x : Slot) : Bool := x.alloc && !x.internal && x.loan.isNone && !x.orphan

/-- The five states of 10 R33. -/
inductive SlotState where
  | free
  | owned
  | loaned
  | orphan
  | internal
deriving DecidableEq, Repr

/-- The state of a slot, read off its fields (10 R33). An INTERNAL slot stays INTERNAL while its chain is in flight. -/
def Slot.state (x : Slot) : SlotState :=
  if !x.alloc then .free
  else if x.internal then .internal
  else if x.loan.isSome then .loaned
  else if x.orphan then .orphan
  else .owned

/-- Some OWNED slot covers the address (70 R312). -/
def State.ownedByte (s : State) (a : Nat) : Bool := s.pool.any (fun x => x.owned && x.covers a)

/-! ## Queues -/

/-- The context of a queue. -/
def State.queue (s : State) (q : Role) : Queue := s.queues.get q

/-- Replace the context of a queue. -/
def State.setQueue (s : State) (q : Role) (x : Queue) : State := { s with queues := s.queues.set q x }

/-- A descriptor entry that does not exist. -/
def Desc.blank : Desc := { tag := .free, chainLen := 0, cookie := 0, ind := none }

/-- Descriptor entry i of a queue. -/
def Queue.descAt (x : Queue) (i : DescIdx) : Desc := x.desc.getD i.toNat Desc.blank

/-- The tag of descriptor i (10 R29). -/
def Queue.tagAt (x : Queue) (i : DescIdx) : Tag := (x.descAt i).tag

/-- Set the tag of descriptor i. -/
def Queue.setTag (x : Queue) (i : DescIdx) (t : Tag) : Queue :=
  { x with desc := x.desc.set i.toNat { x.descAt i with tag := t } }

/-- Set the tag of several descriptors. -/
def Queue.setTags (x : Queue) (t : Tag) : List DescIdx → Queue
  | [] => x
  | i :: rest => Queue.setTags (x.setTag i t) t rest

/-! ## Free values (log 8) -/

/-- A byte the spec leaves open. -/
def State.drawByte (s : State) : Byte × State :=
  ((Config.drawBits s.draws).setWidth 8, { s with draws := s.draws + 1 })

/-- `n` bytes the spec leaves open. -/
def State.drawBytes (s : State) : Nat → List Byte × State
  | 0 => ([], s)
  | n + 1 => ((s.drawByte).1 :: (State.drawBytes (s.drawByte).2 n).1, (State.drawBytes (s.drawByte).2 n).2)

/-- A yes or no the spec leaves to another agent. -/
def State.drawFlag (s : State) : Bool × State := (Config.drawFlag s.draws, { s with draws := s.draws + 1 })

end Sys2Proof.Machine
end

