-- ==== Sys2Proof/Machine/Device.lean ====
section
/-! DEFINITION. The device: what its registers answer, how it reacts to register writes (10 R35 to R45, 45 R254, R255;
40 R135 and 93 U3 to U5 for accesses that match no register), and the steps of a conforming device on the rings
(45 R256 to R261). -/

namespace Sys2Proof.Machine

/-! ## Registers of window 0 -/

/-- The eight registers of the generic header (10 R36 to R43). -/
inductive Reg0 where
  | deviceFeatures
  | guestFeatures
  | queueAddress
  | queueSize
  | queueSelect
  | queueNotify
  | deviceStatus
  | isr
deriving DecidableEq, Repr

/-- All of them, in offset order of the defaults. -/
def Reg0.every : List Reg0 :=
  [.deviceFeatures, .guestFeatures, .queueAddress, .queueSize, .queueSelect, .queueNotify, .deviceStatus, .isr]

/-- The register's byte offset (00 R9). -/
def Reg0.off (c : Config) : Reg0 → Nat
  | .deviceFeatures => c.offDeviceFeatures
  | .guestFeatures => c.offGuestFeatures
  | .queueAddress => c.offQueueAddress
  | .queueSize => c.offQueueSize
  | .queueSelect => c.offQueueSelect
  | .queueNotify => c.offQueueNotify
  | .deviceStatus => c.offDeviceStatus
  | .isr => c.offIsr

/-- The register's width in bytes (00 R9). -/
def Reg0.bytes : Reg0 → Nat
  | .deviceFeatures => 4
  | .guestFeatures => 4
  | .queueAddress => 4
  | .queueSize => 2
  | .queueSelect => 2
  | .queueNotify => 2
  | .deviceStatus => 1
  | .isr => 1

/-- The register an access matches exactly, same offset and same width (40 R130, R135). -/
def exactReg0 (c : Config) (off n : Nat) : Option Reg0 :=
  Reg0.every.find? (fun r => r.off c == off && r.bytes == n)

/-- The access touches a byte of the register. -/
def Reg0.touched (c : Config) (off n : Nat) (r : Reg0) : Bool := !Config.apart (r.off c) r.bytes off n

/-- The access covers the whole register. -/
def Reg0.covered (c : Config) (off n : Nat) (r : Reg0) : Bool :=
  decide (off ≤ r.off c) && decide (r.off c + r.bytes ≤ off + n)

/-! ## The device's state -/

/-- Set ISR; the line of a conforming device is high exactly while ISR is nonzero (45 R261). -/
def Device.setIsr (d : Device) (v : BitVec 8) : Device := { d with disr := v, irqLine := v != 0 }

/-- The reset of the device by a zero status byte: "device clears all queue/feature state" (45 R254, 70 R303). That a look
still owed for a notify hint is forgotten with it is the model's choice (DESIGN CHOICE, log 13): the device "makes no
further access to `MEM`". -/
def Device.resetByStatus (d : Device) : Device :=
  { d.setIsr 0 with dstatus := 0, dguest := 0, dsel := 0, daddr := ⟨0, 0, 0⟩, dlast := ⟨0, 0, 0⟩, dused := ⟨0, 0, 0⟩,
                    poll := ⟨.no, .no, .no⟩, consumed := [] }

/-- Change the device. -/
def State.setDev (s : State) (d : Device) : State := { s with dev := d }

/-- The value of a register that has one; none for QUEUE_NOTIFY, and for QUEUE_ADDRESS when the selected role does not
exist (45 R255). -/
def Device.regValue (d : Device) : Reg0 → Option Nat
  | .deviceFeatures => some d.doffered.toNat
  | .guestFeatures => some d.dguest.toNat
  | .queueAddress => (roleOfNum d.dsel.toNat).map (fun q => (d.daddr.get q).toNat)
  | .queueSize =>
    match roleOfNum d.dsel.toNat with
    | some q => some (d.dsize.get q).toNat
    | none => some 0
  | .queueSelect => some d.dsel.toNat
  | .queueNotify => none
  | .deviceStatus => some d.dstatus.toNat
  | .isr => some d.disr.toNat

/-- The side effect of reading a register: ISR clears itself, no other read has one (10 R43, 20 R78). -/
def Device.readEffect (d : Device) : Reg0 → Device
  | .isr => d.setIsr 0
  | _ => d

/-- The device's reaction to a write of `v` to a register (45 R254). A look owed for a notify hint stays recorded under any
other status write and any QUEUE_ADDRESS; while the device is not active on the queue it is not owed (`State.hintsKept`;
DESIGN CHOICE, log 13). -/
def Device.react (d : Device) (r : Reg0) (v : Nat) : Device :=
  match r with
  | .deviceStatus => if BitVec.ofNat 8 v = 0 then d.resetByStatus else { d with dstatus := BitVec.ofNat 8 v }
  | .guestFeatures => { d with dguest := BitVec.ofNat 32 v }
  | .queueSelect => { d with dsel := BitVec.ofNat 16 v }
  | .queueAddress =>
    match roleOfNum d.dsel.toNat with
    | some q => { d with daddr := d.daddr.set q (BitVec.ofNat 32 v) }
    | none => d
  | .queueNotify => d
  | .deviceFeatures => d
  | .queueSize => d
  | .isr => d

/-! ## One access to a window -/

/-- Each register of the list that is ISR clears itself or not, at DEV's choice (93 U3). -/
def State.maybeReadEffects (s : State) : List Reg0 → State
  | [] => s
  | r :: rest =>
    let (yes, s1) := s.drawFlag
    State.maybeReadEffects (if yes then s1.setDev (s1.dev.readEffect r) else s1) rest

/-- The bytes window 0 answers to a read of `n` bytes at `off`, lowest offset first, and what the read does: an exact
match answers the register in little-endian order (40 R130), any other access free bytes (40 R135, 93 U3, U5). -/
def State.window0Read (s : State) (off n : Nat) : List Byte × State :=
  match exactReg0 s.cfg off n with
  | some r =>
    match s.dev.regValue r with
    | some v => (leBytes n v, s.setDev (s.dev.readEffect r))
    | none => s.drawBytes n
  | none =>
    let (bytes, s1) := s.drawBytes n
    (bytes, s1.maybeReadEffects (Reg0.every.filter (fun r => r == .isr && Reg0.touched s.cfg off n r)))

/-- The bytes window 1 answers: the MAC bytes and the link status (10 R44, 45 R255), free bytes where the access
matches neither or the window has been written (93 U3, U4). -/
def State.window1Read (s : State) (off n : Nat) : List Byte × State :=
  if s.dev.win1Open then s.drawBytes n
  else if n = 1 ∧ s.cfg.offMac ≤ off ∧ off < s.cfg.offMac + 6 then ([s.dev.mac.getD (off - s.cfg.offMac) 0], s)
  else if n = 2 ∧ off = s.cfg.offLinkStatus then (leBytes 2 s.dev.link.toNat, s)
  else s.drawBytes n

/-- One bus read (40 R130). -/
def State.windowRead (s : State) (w : Win) (off n : Nat) : List Byte × State :=
  match w with
  | .w0 => s.window0Read off n
  | .w1 => s.window1Read off n

/-- A write that matches no register exactly: each register it touches takes it or not, at DEV's choice; one covered
only in part takes a free value (40 R135, 93 U3). The registers of one such write take effect in the order of
`Reg0.every`; the spec gives no order (DESIGN CHOICE, log 8). -/
def State.maybeWrites (s : State) (off n : Nat) (bytes : List Byte) : List Reg0 → State
  | [] => s
  | r :: rest =>
    let (yes, s1) := s.drawFlag
    let (open_, s2) := s1.drawBytes r.bytes
    let taken := if r.covered s.cfg off n then (bytes.drop (r.off s.cfg - off)).take r.bytes else open_
    State.maybeWrites (if yes then s2.setDev (s2.dev.react r (ofLe taken)) else s2) off n bytes rest

/-- One bus write of bytes at `off` (40 R131): window 0 reacts by 45 R254; what a write to window 1 does is DEV's
choice, and its later reads are free values (93 U4). -/
def State.windowWrite (s : State) (w : Win) (off : Nat) (bytes : List Byte) : State :=
  match w with
  | .w0 =>
    match exactReg0 s.cfg off bytes.length with
    | some r => s.setDev (s.dev.react r (ofLe bytes))
    | none => s.maybeWrites off bytes.length bytes (Reg0.every.filter (Reg0.touched s.cfg off bytes.length))
  | .w1 => s.setDev { s.dev with win1Open := true }

/-! ## The conforming device on the rings -/

/-- The device may use its queues: not after a status write of 0, when it "makes no further access to `MEM`", and not
under FAILED, when it "stops using the queues" (45 R254). -/
def State.devRunning (s : State) : Bool := s.dev.dstatus != 0 && (s.dev.dstatus &&& s.cfg.stFailed) == 0

/-- It may use its queues and has a ring for this one: an address has been given, and the size is not 0. That a role of
size 0 has no ring is the model's choice (DESIGN CHOICE, log 13). -/
def State.devHasRing (s : State) (q : Role) : Bool :=
  s.devRunning && (s.dev.daddr.get q) != 0 && (s.dev.dsize.get q) != 0

/-- Active on a queue: DRIVER_OK and an address given (45 R253), not FAILED (45 R254). -/
def State.devActive (s : State) (q : Role) : Bool := s.devHasRing q && (s.dev.dstatus &&& s.cfg.stDriverOk) != 0

/-- Where the device takes the queue's region to be (45 R254). -/
def Device.regionBase (d : Device) (q : Role) : Nat := pageBytes * (d.daddr.get q).toNat

/-- The descriptors of a chain as the device reads them, from entry `i` of a table of `limit` entries: (addr, len,
flags), following `next` while DF_CHAINED is set (45 R256). none, and so no step of the device, when an entry lies outside
the table, in dead memory, or when the fuel is spent: a chain whose links loop (DESIGN CHOICE, log 13). -/
def State.devDescs (s : State) (table limit : Nat) : Nat → Nat → Option (List (Nat × Nat × Nat))
  | 0, _ => none
  | fuel + 1, i =>
    if limit ≤ i then none
    else
      match s.readLe (descAddr table i) 8, s.readLe (descAddr table i + 8) 4, s.readLe (descAddr table i + 12) 2,
            s.readLe (descAddr table i + 14) 2 with
      | some a, some l, some f, some nx =>
        if BitVec.ofNat 16 f &&& s.cfg.dfChained = 0 then some [(a, l, f)]
        else (State.devDescs s table limit fuel nx).map (fun rest => (a, l, f) :: rest)
      | _, _, _, _ => none

/-- A descriptor without DF_WRITABLE is read by the device, one with it is written (20 R74). -/
def State.devSegOf (s : State) (d : Nat × Nat × Nat) : DevSeg :=
  { addr := d.1, len := d.2.1, writable := (BitVec.ofNat 16 d.2.2 &&& s.cfg.dfWritable) != 0 }

/-- The segments of a chain, an indirect descriptor standing for the table it names (20 R77, 45 R256). DF_INDIRECT inside
an indirect table is not followed: the entry is taken as a plain segment (DESIGN CHOICE, log 13). -/
def State.devSegs (s : State) : List (Nat × Nat × Nat) → Option (List DevSeg)
  | [] => some []
  | d :: rest =>
    match State.devSegs s rest with
    | none => none
    | some tail =>
      if BitVec.ofNat 16 d.2.2 &&& s.cfg.dfIndirect = 0 then some (s.devSegOf d :: tail)
      else
        match s.devDescs d.1 (d.2.1 / 16) (d.2.1 / 16) 0 with
        | none => none
        | some table => some (table.map s.devSegOf ++ tail)

/-- The entry at the device's own position of the available ring, when the chain it names can be read (45 R256). -/
def State.devConsumeEntry (s : State) (q : Role) : State :=
  let n := (s.dev.dsize.get q).toNat
  let base := s.dev.regionBase q
  let last := s.dev.dlast.get q
  match s.readLe (availElemAddr base n (last.toNat % n)) 2 with
  | none => s
  | some head =>
    match (s.devDescs base n n head).bind s.devSegs with
    | none => s
    | some segs =>
      s.setDev { s.dev with
        dlast := s.dev.dlast.set q (last + 1),
        consumed := s.dev.consumed ++ [{ q := q, head := BitVec.ofNat 16 head, segs := segs, written := [] }] }

/-- A look at `avail.idx`: it settles the one owed since the notify hint was cleared; while the hint is set, the device goes on
polling (45 R259, 70 R317). -/
def Poll.look : Poll → Poll
  | .no => .no
  | .polling => .polling
  | .recheck => .no

/-- The notify hint set, or cleared: a device that has set it and clears it must look once more (45 R259, 70 R317). -/
def Poll.hint (p : Poll) (on : Bool) : Poll :=
  if on then .polling
  else
    match p with
    | .no => .no
    | .polling => .recheck
    | .recheck => .recheck

/-- Look at `avail.idx` and consume the next available entry, if there is one (45 R256). -/
def State.devConsume (s : State) (q : Role) : State :=
  if s.devActive q then
    match s.readLe (availIdxAddr (s.dev.regionBase q) (s.dev.dsize.get q).toNat) 2 with
    | none => s
    | some idx =>
      let s := s.setDev { s.dev with poll := s.dev.poll.set q (s.dev.poll.get q).look }
      if idx = (s.dev.dlast.get q).toNat then s else s.devConsumeEntry q
  else s

/-- Addresses joined to those written before, each once. -/
def recordWritten : List Nat → List Nat → List Nat
  | old, [] => old
  | old, a :: rest => recordWritten (if old.contains a then old else old ++ [a]) rest

/-- Write into writable buffer `g` of the k-th consumed chain, from offset `off`, within the buffer (45 R256). Not once
it has stopped using the queues (45 R254). -/
def State.devWrite (s : State) (k g off : Nat) (bs : List Byte) : State :=
  match s.dev.consumed[k]? with
  | none => s
  | some c =>
    match c.segs[g]? with
    | none => s
    | some seg =>
      if s.devRunning && seg.writable && decide (off + bs.length ≤ seg.len) then
        let written := recordWritten c.written ((List.range bs.length).map (fun i => seg.addr + off + i))
        (s.putBytes (seg.addr + off) bs).setDev { s.dev with
          consumed := s.dev.consumed.set k { c with written := written } }
      else s

/-- Complete the k-th consumed chain: used element, barrier, used index, cause bit, line (45 R257, R258). `len` is the
number of bytes the device wrote into the chain's writable buffers; one written twice counts once (log 13). Not once it
has stopped using the queues (45 R254), and not while it has no ring for the queue: that a QUEUE_ADDRESS of 0 holds back the
completion of chains already consumed is the model's choice (DESIGN CHOICE, log 13). -/
def State.devComplete (s : State) (k : Nat) : State :=
  match s.dev.consumed[k]? with
  | none => s
  | some c =>
    if s.devHasRing c.q then
      let n := (s.dev.dsize.get c.q).toNat
      let base := s.dev.regionBase c.q
      let used := s.dev.dused.get c.q
      let pos := used.toNat % n
      let s1 := s.putBytes (usedIdAddr base n pos) (leBytes 4 c.head.toNat)
      let s2 := s1.putBytes (usedLenAddr base n pos) (leBytes 4 c.written.length)
      let s3 := s2.putBytes (usedIdxAddr base n) (leBytes 2 (used + 1).toNat)
      s3.setDev { s3.dev.setIsr (s3.dev.disr ||| s.cfg.isrQueueUpdate) with
        dused := s3.dev.dused.set c.q (used + 1), consumed := s3.dev.consumed.eraseIdx k }
    else s

/-- Set or clear UF_NO_NOTIFY in the used-ring header flags; no other bit is ever written (45 R259). Setting it
begins polling, and clearing it owes a look at `avail.idx` (`Poll.hint`). At any time at which the device has a ring for the queue and has not stopped using the queues
(45 R254); that it has none while QUEUE_ADDRESS is 0 is the model's choice (DESIGN CHOICE, log 13). -/
def State.devHint (s : State) (q : Role) (on : Bool) : State :=
  let at_ := usedFlagsAddr (s.dev.regionBase q) (s.dev.dsize.get q).toNat
  if s.devHasRing q then
    match s.readLe at_ 2 with
    | none => s
    | some f =>
      let cleared := BitVec.ofNat 16 f &&& ~~~s.cfg.ufNoNotify
      let s := s.putBytes at_ (leBytes 2 (if on then cleared ||| s.cfg.ufNoNotify else cleared).toNat)
      s.setDev { s.dev with poll := s.dev.poll.set q ((s.dev.poll.get q).hint on) }
  else s

/-- The link status changes: CONFIG_CHANGE and the line (45 R260). -/
def State.devLink (s : State) (v : BitVec 16) : State :=
  s.setDev { s.dev.setIsr (s.dev.disr ||| s.cfg.isrConfigChange) with link := v }

end Sys2Proof.Machine
end

