-- ==== Sys2Proof/Machine/Env.lean ====
section
/-! DEFINITION. What the agents outside the block do (00 R10): the host, the platform, the memory system and the
device. DISP's own steps are in Ops.lean. -/

namespace Sys2Proof.Machine

/-- A delivery is accepted when the handler is registered and idle; otherwise it has no effect (44 R231). -/
def State.deliver (s : State) : State :=
  if s.irqEn ∧ s.disp = .idle then { s with disp := .isr } else s

/-- A host store, allowed only on bytes of OWNED slots (70 R312). -/
def State.hostStore (s : State) (a : Nat) (bs : List Byte) : State :=
  if (List.range bs.length).all (fun i => s.ownedByte (a + i)) then s.putBytes a bs else s

/-- A host read, allowed only on bytes of OWNED slots; what it sees goes to the host (70 R312, log 14). -/
def State.hostRead (s : State) (a n : Nat) : State :=
  if (List.range n).all (fun i => s.ownedByte (a + i)) then
    { s with hostSeen := s.hostSeen ++ (List.range n).filterMap (fun i => s.byteAt (a + i)) }
  else s

/-- One act of an agent outside the block; DISP's turn is not one. -/
def State.external (s : State) : Act → State
  | .disp => s
  | .irqPulse => s.deliver
  | .commit k => s.commitStore k
  | .hostSend ws => { s with cmdPort := s.cmdPort ++ ws }
  | .hostStore a bs => s.hostStore a bs
  | .hostRead a n => s.hostRead a n
  | .devStore a bs => s.putBytes a bs
  | .devForge d => s.setDev d
  | .devConsume q => s.devConsume q
  | .devWrite k g off bs => s.devWrite k g off bs
  | .devComplete k => s.devComplete k
  | .devHint q on => s.devHint q on
  | .devLink v => s.devLink v

/-- Several acts in order. -/
def State.externals (s : State) : List Act → State
  | [] => s
  | a :: rest => State.externals (s.external a) rest

/-- What happens while CMD waits for DISP, before DISP's next step: the acts of the next gap, DISP's own turn excepted
(20 R80 (g)). -/
def State.waitGap (s : State) : State :=
  match s.gaps with
  | [] => s
  | acts :: rest => State.externals { s with gaps := rest } acts

/-! ## The platform's answers (42 R181, 43 R203, log 7) -/

/-- A bus address PLAT may answer for `len` bytes: page aligned, below the ceiling, clear of every live slot
(42 R181). -/
def State.allocLegal (s : State) (len : Nat) (b : Addr) : Bool :=
  b.toNat % pageBytes == 0 && decide (b.toNat + roundUp len pageBytes ≤ s.cfg.paCeiling)
    && s.pool.all (fun x => !x.alloc || Config.apart b.toNat (roundUp len pageBytes) x.bus.toNat x.extent)

/-- PLAT's wish: the next answer of the input list, a free value after its end. -/
def State.allocWish (s : State) : Option Addr × State :=
  match s.platAllocs with
  | w :: rest => (w, { s with platAllocs := rest })
  | [] => (if Config.drawFlag s.draws then some (Config.drawBits s.draws) else none, { s with draws := s.draws + 1 })

/-- `PlatAlloc(len)` (42 R181): none, or a legal bus address. A wish that is no legal answer counts as none. -/
def State.platAlloc (s : State) (len : Nat) : Option Addr × State :=
  match s.allocWish with
  | (some b, s1) => (if s.allocLegal len b then some b else none, s1)
  | (none, s1) => (none, s1)

/-- `PlatMap()` (43 R203): true for ok. -/
def State.platMap (s : State) : Bool × State :=
  match s.platMaps with
  | m :: rest => (m, { s with platMaps := rest })
  | [] => s.drawFlag

end Sys2Proof.Machine
end

