-- ==== Sys2Proof/Machine/Flags.lean ====
section
/-! DEFINITION. Every flag computation of the block (10 R47). None is a condition code. -/

namespace Sys2Proof.Machine

/-- The flags word of a descriptor the block writes: DF_CHAINED when the chain goes on, DF_WRITABLE when the device
writes the segment (41 R160, R163). -/
def segFlags (c : Config) (more writable : Bool) : BitVec 16 :=
  (if more then c.dfChained else 0) ||| (if writable then c.dfWritable else 0)

/-- DF_CHAINED of a flags word read from memory (41 R165). -/
def chainedFlag (c : Config) (fl : Nat) : Bool := (BitVec.ofNat 16 fl &&& c.dfChained) != 0

/-- The device's no-notify hint in a used-ring flags word (41 R162). -/
def noNotifyHint (c : Config) (fl : Nat) : Bool := (BitVec.ofNat 16 fl &&& c.ufNoNotify) != 0

/-- QUEUE_UPDATE of a cause byte (44 R234). -/
def queueUpdateCause (c : Config) (isr : BitVec 8) : Bool := (isr &&& c.isrQueueUpdate) != 0

/-- CONFIG_CHANGE of a cause byte (44 R236). -/
def configChangeCause (c : Config) (isr : BitVec 8) : Bool := (isr &&& c.isrConfigChange) != 0

/-- The bits outside the known causes: the complement of QUEUE_UPDATE and CONFIG_CHANGE (44 R233). -/
def unknownCauses (c : Config) (isr : BitVec 8) : BitVec 8 := isr &&& ~~~(c.isrQueueUpdate ||| c.isrConfigChange)

/-- A bit of a feature mask (10 R36). -/
def featureBit (mask : BitVec 32) (b : Nat) : Bool := mask.getLsbD b

/-- LINK_UP_BIT of a link-status value (43 R217). -/
def linkUp (c : Config) (v : Nat) : Bool := (BitVec.ofNat 16 v).getLsbD c.linkUpBit

/-- The negotiation law: the bitwise AND (43 R206). -/
def negotiate (offered supported : BitVec 32) : BitVec 32 := offered &&& supported

end Sys2Proof.Machine
end

