-- ==== Sys2Proof/Machine/Operands.lean ====
section
/-! DEFINITION. Operand validation, the third check of 60 R273. -/

namespace Sys2Proof.Machine

/-- The size of a window (40 R133). -/
def State.winBytes (s : State) : Win → Nat
  | .w0 => s.cfg.win0Bytes
  | .w1 => s.cfg.win1Bytes

/-- The offset of an `n`-byte access is aligned and inside a window of `size` bytes (40 R133). -/
def offsetOk (size n off : Nat) : Bool := off % n == 0 && decide (off + n ≤ size)

/-- An operand word fits `n` bytes (30 R110). -/
def valueFits (n : Nat) (v : Word) : Bool := decide (v.toNat < 256 ^ n)

/-- A legal queue size: a power of two, at most 32768 (41 R155, 43 R205). -/
def queueSizeOk (size : BitVec 16) : Bool := isPow2 size.toNat && decide (size.toNat ≤ 32768)

/-- HANDLE of a segment word, bits 15:0 (30 R113). -/
def segHandle (g : Seg) : Handle := g.ctl.extractLsb' 0 16

/-- W of a segment word, bit 31 (30 R113). -/
def segWritable (g : Seg) : Bool := g.ctl.getLsbD 31

/-- Bits 30:16 of a segment word are 0 (30 R113). -/
def segReservedZero (g : Seg) : Bool := g.ctl.extractLsb' 16 15 == 0

/-- One segment passes 41 R161: reserved bits 0, the handle names an OWNED slot, 1 ≤ len ≤ P[h].len, and W exactly
when the slot is FROM_DEVICE. -/
def State.segOk (s : State) (g : Seg) : Bool :=
  segReservedZero g && decide ((segHandle g).toNat < s.cfg.poolSlots) && (s.slot (segHandle g).toNat).owned
    && decide (1 ≤ g.len.toNat) && decide (g.len.toNat ≤ (s.slot (segHandle g).toNat).len.toNat)
    && (segWritable g == ((s.slot (segHandle g).toNat).dir == .fromDevice))

/-- The handles are pairwise distinct (41 R161). -/
def handlesDistinct : List Handle → Bool
  | [] => true
  | h :: rest => !rest.contains h && handlesDistinct rest

/-- The segment list passes 41 R161. -/
def State.segsOk (s : State) (segs : List Seg) : Bool :=
  decide (1 ≤ segs.length) && decide (segs.length ≤ 32768) && segs.all s.segOk && handlesDistinct (segs.map segHandle)

/-- `indirect(s)` (41 R152). -/
def State.indirectChain (s : State) (count : Nat) : Bool :=
  featureBit s.negotiated s.cfg.fIndirect && decide (s.cfg.indThresh < count)

/-- `need(s)`: descriptors of the queue's table a chain takes (41 R152). -/
def State.need (s : State) (count : Nat) : Nat := if s.indirectChain count then 1 else count

end Sys2Proof.Machine
end

