-- ==== Sys2Proof/Machine/Ports.lean ====
section
/-! DEFINITION. Error codes (60 R270), response frames (30 R114, R115), event frames (30 R116, R117). -/

namespace Sys2Proof.Machine

/-- The codes of 60 R270. -/
inductive Err where
  | ok
  | unsupportedDevice
  | featureNegotiationFailed
  | noUsableQueues
  | allocationError
  | queueFull
  | unexpectedInterruptCause
  | illegalCommand
  | illegalTransition
  | ringCorrupt
  | mapFailure
  | bufferInFlight
deriving DecidableEq, Repr

/-- The number of a code (60 R270). -/
def Err.code : Err → Nat
  | .ok => 0
  | .unsupportedDevice => 1
  | .featureNegotiationFailed => 2
  | .noUsableQueues => 3
  | .allocationError => 4
  | .queueFull => 5
  | .unexpectedInterruptCause => 6
  | .illegalCommand => 7
  | .illegalTransition => 8
  | .ringCorrupt => 9
  | .mapFailure => 10
  | .bufferInFlight => 11

/-- The first word of a response or event frame: code in bits 7:0, NDATA in bits 31:8 (30 R114, R116). -/
def frameWord (code ndata : Nat) : Word := BitVec.ofNat 32 (256 * ndata + code)

/-- Send the response frame of the command in progress (30 R114). -/
def State.respond (s : State) (e : Err) (data : List Word) : State :=
  { s with respPort := s.respPort ++ (frameWord e.code data.length :: data) }

/-- The events of 30 R117. -/
inductive Event where
  | packetReceived (h : Handle) (len : Word)
  | linkState (up : Bool)
  | unexpectedCause (bits : BitVec 8)
  | ringCorrupt (q : Role)
  | irqReturn (claimed : Bool)
  | txReclaimed (h : Handle) (len : Word)
deriving DecidableEq, Repr

/-- EVT (30 R117). -/
def Event.code : Event → Nat
  | .packetReceived _ _ => 1
  | .linkState _ => 2
  | .unexpectedCause _ => 3
  | .ringCorrupt _ => 4
  | .irqReturn _ => 5
  | .txReclaimed _ _ => 6

/-- One bit as a data word. -/
def flagWord (b : Bool) : Word := if b then 1 else 0

/-- The data words of an event (30 R117). -/
def Event.data : Event → List Word
  | .packetReceived h len => [h.setWidth 32, len]
  | .linkState up => [flagWord up]
  | .unexpectedCause bits => [bits.setWidth 32]
  | .ringCorrupt q => [BitVec.ofNat 32 q.num]
  | .irqReturn claimed => [flagWord claimed]
  | .txReclaimed h len => [h.setWidth 32, len]

/-- The words of an event frame (30 R116). -/
def Event.words (e : Event) : List Word := frameWord e.code e.data.length :: e.data

/-- `emit` (00 R11): put an event frame on the event port. -/
def State.emit (s : State) (e : Event) : State := { s with eventPort := s.eventPort ++ e.words }

end Sys2Proof.Machine
end

