-- ==== Sys2Proof/Machine/Ops.lean ====
section
/-! DEFINITION. The named operations of the block: accesses to registers and memory, the slot table, locks, the ring
procedures, the dispatcher's steps, the FAILED entry (the one trap-like sequence, 60 R276) and beside it the teardown
that is the only way out of FAILED (43 R215). -/

namespace Sys2Proof.Machine

/-! ## Running -/

/-- The outcome of a computation that may stop. -/
def finish (r : Except Fault State) : Host.Outcome State Fault Refusal :=
  match r with
  | .ok s => .next s
  | .error f => .fault f

/-- The one of two computations that another agent chose; `choose_eq` says it is `if m then a else b`. -/
def choose (m : Bool) (a b : Except Fault State) : Except Fault State :=
  match a, b with
  | .ok x, .ok y => .ok (if m then x else y)
  | a, b => if m then a else b

/-- The agent that makes an access, and what the other agents do before it (20 R80 (g)). -/
structure Ctx where
  agent : Agent
  gap : State → Except Fault State

/-- Add an operation to the bus trace (log 9). -/
def State.log (s : State) (a : Agent) (op : BusOp) : State := { s with bus := s.bus ++ [{ agent := a, op := op }] }

/-- An agent's own earlier stores take effect: only CMD stores (20 R80 (d), (f)). -/
def Ctx.drainStores (c : Ctx) (s : State) : State :=
  match c.agent with
  | .cmd => s.settle
  | .disp => s

/-! ## Register access (40 R130, R131; 20 R64) -/

/-- The byte order of a window (20 R65, R66). -/
def State.winEndian (s : State) : Win → Endian
  | .w0 => .little
  | .w1 => s.cfg.hostEndian

/-- `RegRead(w, off, n)` (40 R130): one bus read. A register access is ordered after the agent's earlier memory
accesses (20 R80 (f)). -/
def regRead (c : Ctx) (w : Win) (off n : Nat) (s : State) : Except Fault (Nat × State) := do
  let s ← c.gap s
  let (bytes, s) := (c.drainStores s).windowRead w off n
  .ok (busValue (s.winEndian w) bytes, s.log c.agent (.regRead w off bytes))

/-- `RegWrite(w, off, n, v)` (40 R131): one bus write; it cannot fail. -/
def regWrite (c : Ctx) (w : Win) (off n v : Nat) (s : State) : Except Fault State := do
  let s ← c.gap s
  let bytes := busBytes (s.winEndian w) n v
  .ok (((c.drainStores s).windowWrite w off bytes).log c.agent (.regWrite w off bytes))

/-- The three PCI identifiers (10 R45). -/
inductive PciReg where
  | vendor
  | device
  | revision
deriving DecidableEq, Repr

/-- Offset, width and value of a PCI identifier (10 R45, 00 R9). -/
def State.pciReg (s : State) : PciReg → Nat × Nat × Nat
  | .vendor => (s.cfg.pciOffVendor, 2, s.dev.vendor.toNat)
  | .device => (s.cfg.pciOffDevice, 2, s.dev.device.toNat)
  | .revision => (s.cfg.pciOffRevision, 1, s.dev.revision.toNat)

/-- `PciRead(off, n)` at the offset of an identifier; no side effect (20 R64). -/
def pciRead (c : Ctx) (r : PciReg) (s : State) : Except Fault (Nat × State) := do
  let s ← c.gap s
  let (off, n, v) := s.pciReg r
  .ok (v, s.log c.agent (.pciRead off n v))

/-! ## Memory access (20 R70 to R72, R80, R81) -/

/-- `n` bytes at rising addresses, or the first that does not exist. -/
def State.readBytes (s : State) (a : Nat) : Nat → Except Fault (List Byte)
  | 0 => .ok []
  | n + 1 =>
    match s.byteAt a with
    | none => .error (.deadByte a)
    | some b =>
      match State.readBytes s (a + 1) n with
      | .ok rest => .ok (b :: rest)
      | .error f => .error f

/-- All `n` bytes exist (20 R70: inside a live slot). -/
def State.checkLive (s : State) (a : Nat) : Nat → Except Fault Unit
  | 0 => .ok ()
  | n + 1 =>
    match poolKind s.pool a with
    | .dead => .error (.deadByte a)
    | _ => State.checkLive s (a + 1) n

/-- What an agent reads from: memory, for CMD with its own pending stores in effect (20 R80 (b)). -/
def Ctx.view (c : Ctx) (s : State) : State :=
  match c.agent with
  | .cmd => s.settle
  | .disp => s

/-- `MemRead(addr, n)` (20 R70). A read takes effect when it is made, before every later access of the agent: 20 R80 (e)
would let a read and a later store, or two reads, be seen in either order (DESIGN CHOICE, log 5). -/
def memRead (c : Ctx) (a n : Nat) (s : State) : Except Fault (Nat × State) := do
  let s ← c.gap s
  let bytes ← (c.view s).readBytes a n
  .ok (ofLe bytes, s.log c.agent (.memRead a n (ofLe bytes)))

/-- `MemWrite(addr, n, v)` (20 R71): the store is made; DEV may see it later, in any order with others up to the next
FENCE (20 R80 (e), log 5). -/
def memWrite (c : Ctx) (a n v : Nat) (s : State) : Except Fault State := do
  let s ← c.gap s
  s.checkLive a n
  .ok (({ s with wbuf := s.wbuf ++ [{ addr := a, bytes := leBytes n v }] } : State).log c.agent (.memWrite a n v))

/-- `FENCE` (20 R81): every memory access of the agent before it takes effect before any after it. Before the fence the
other agents act once more, so the agent's last store can be seen before its earlier ones (20 R80 (e)). -/
def fence (c : Ctx) (s : State) : Except Fault State := do
  let s ← c.gap s
  .ok ((c.drainStores s).log c.agent .fence)

/-- `MemZero` on the whole of slot h (20 R72): every byte of it reads 0. -/
def memZeroSlot (c : Ctx) (h : Nat) (s : State) : State :=
  let x := s.slot h
  ({ s.setSlot h { x with fill := .zero } with
     mem := Memory.eraseRange s.mem x.bus.toNat (x.bus.toNat + x.extent) } : State).log c.agent
    (.memZero x.bus.toNat x.len.toNat)

/-! ## The slot table (42 R182 to R186) -/

/-- The lowest free handle (42 R182). -/
def State.lowestFree (s : State) : Option Nat := s.pool.findIdx? (fun x => !x.alloc)

/-- Reserve a slot: the lowest free handle and PLAT's memory; none when either is exhausted (42 R182, R185). Its bytes
are unspecified: a fresh draw (10 R46, log 6). -/
def poolReserve (internal : Bool) (dir : Dir) (len : BitVec 32) (s : State) : Option Nat × State :=
  match s.lowestFree with
  | none => (none, s)
  | some h =>
    match s.platAlloc len.toNat with
    | (none, s1) => (none, s1)
    | (some b, s1) =>
      (some h, { s1 with draws := s1.draws + 1 }.setSlot h
        { alloc := true, bus := b, len := len, dir := dir, internal := internal, loan := none, orphan := false,
          fill := .draw s1.draws })

/-- `PoolReserveInternal(len)` (42 R185). -/
def poolReserveInternal (len : Nat) (s : State) : Option Nat × State :=
  poolReserve true .fromDevice (BitVec.ofNat 32 len) s

/-- `PoolFree(h)` (42 R186): the slot is FREE and its bytes leave MEM. -/
def poolFree (h : Nat) (s : State) : State :=
  let x := s.slot h
  { s.setSlot h Slot.free with mem := Memory.eraseRange s.mem x.bus.toNat (x.bus.toNat + x.extent) }

/-- Set or clear the loan of a slot (20 R86: one step). -/
def setLoan (h : Nat) (l : Option Loan) (s : State) : State := s.setSlot h { s.slot h with loan := l }

/-- Set or clear the loan of several slots. -/
def setLoans (l : Option Loan) : List Handle → State → State
  | [], s => s
  | h :: rest, s => setLoans l rest (setLoan h.toNat l s)

/-- `PoolFree` of each of these handles, in the order given (44 R234). -/
def poolFrees : List Handle → State → State
  | [], s => s
  | h :: rest, s => poolFrees rest (poolFree h.toNat s)

/-- Every handle, ascending. -/
def State.handles (s : State) : List Handle := (List.range s.pool.length).map (fun h => BitVec.ofNat 16 h)

/-- The handles lent to the chain with this head, tables excepted, ascending (41 R165). -/
def State.lentTo (s : State) (q : Role) (head : DescIdx) : List Handle :=
  s.handles.filter (fun h => (s.slot h.toNat).loan == some { q := q, head := head } && !(s.slot h.toNat).internal)

/-- Every ORPHAN slot becomes OWNED (43 R216). -/
def clearOrphans (s : State) : State := { s with pool := s.pool.map (fun x => { x with orphan := false }) }

/-! ## One step of a drain (41 R164, R165) -/

/-- The position when `pend` chains are pending (41 R164). -/
def nextElement : Nat → DrainPos
  | 0 => .finished false
  | n + 1 => .element n

/-- `Q[q].broken <- 1` (41 R166). -/
def markBroken (q : Role) (s : State) : State := s.setQueue q { s.queue q with broken := true }

/-- The drain ends in corruption: the queue is broken (41 R166). -/
def drainFault (q : Role) (s : State) : DrainPos × State := (.finished true, markBroken q s)

/-- The used index is read once, then FENCE; more than N pending is corruption (41 R164, R166). A broken queue is not
touched. -/
def drainStart (c : Ctx) (q : Role) (s : State) : Except Fault (DrainPos × State) :=
  if (s.queue q).broken then .ok (.finished true, s)
  else do
    let (idx, s) ← memRead c (usedIdxAddr (s.queue q).base.toNat (s.queue q).n.toNat) 2 s
    let s ← fence c s
    let pend := (BitVec.ofNat 16 idx - (s.queue q).lastUsed).toNat
    if (s.queue q).n.toNat < pend then .ok (drainFault q s) else .ok (nextElement pend, s)

/-- The used element the drain has reached: `last_used mod N` (41 R165). -/
def Queue.usedPos (x : Queue) : Nat := x.lastUsed.toNat % x.n.toNat

/-- `id` of the used element (41 R165). -/
def drainId (c : Ctx) (q : Role) (rest : Nat) (s : State) : Except Fault (DrainPos × State) := do
  let (id, s) ← memRead c (usedIdAddr (s.queue q).base.toNat (s.queue q).n.toNat (s.queue q).usedPos) 4 s
  .ok (.length rest id, s)

/-- `len` of the used element, then whether `id` is the head of a chain in flight (41 R165). -/
def drainLength (c : Ctx) (q : Role) (rest id : Nat) (s : State) : Except Fault (DrainPos × State) := do
  let (len, s) ← memRead c (usedLenAddr (s.queue q).base.toNat (s.queue q).n.toNat (s.queue q).usedPos) 4 s
  let head : DescIdx := BitVec.ofNat 16 id
  if id < (s.queue q).n.toNat ∧ (s.queue q).tagAt head = .submitted head then
    .ok (.flags { rest := rest, id := head, len := BitVec.ofNat 32 len, visited := [], cur := head }, s)
  else .ok (drainFault q s)

/-- Visit descriptor `cur`: its tag, its flags; at the end of the chain the number of descriptors is judged (41 R165). -/
def drainFlags (c : Ctx) (q : Role) (v : Visit) (s : State) : Except Fault (DrainPos × State) := do
  let s := s.setQueue q ((s.queue q).setTag v.cur .completedPendingReturn)
  let v := { v with visited := v.visited ++ [v.cur] }
  let (fl, s) ← memRead c (descAddr (s.queue q).base.toNat v.cur.toNat + 12) 2 s
  if chainedFlag s.cfg fl then .ok (.link v, s)
  else if v.visited.length = ((s.queue q).descAt v.id).chainLen.toNat then .ok (.unlend v [], s)
  else .ok (drainFault q s)

/-- `next` of descriptor `cur`, checked against the private tags (41 R165). -/
def drainLink (c : Ctx) (q : Role) (v : Visit) (s : State) : Except Fault (DrainPos × State) := do
  let (nx, s) ← memRead c (descAddr (s.queue q).base.toNat v.cur.toNat + 14) 2 s
  if nx < (s.queue q).n.toNat ∧ (s.queue q).tagAt (BitVec.ofNat 16 nx) = .submitted v.id then
    .ok (.flags { v with cur := BitVec.ofNat 16 nx }, s)
  else .ok (drainFault q s)

/-- The loan of one slot of a drained chain ends, and the slot is OWNED (41 R165, 42 R187). -/
def endLoan (h : Nat) (s : State) : State := s.setSlot h { s.slot h with loan := none }

/-- The end of 41 R165 once the chain's loans have ended: descriptors to the back of the free-list in link order, the
indirect table freed, `last_used` advanced. -/
def reclaim (q : Role) (id : DescIdx) (order : List DescIdx) (s : State) : State :=
  let x := (s.queue q).setTags .free order
  let s := s.setQueue q { x with free := x.free ++ order, lastUsed := x.lastUsed + 1 }
  match (x.descAt id).ind with
  | some t => poolFree t.toNat s
  | none => s

/-- One step of a drain by an agent that holds the queue's lock. A drain of CMD ends the loans of a chain one by one (41 R165).
One of DISP gathers the handles, and their loans end when its walk of the queue does (`handOver`): to CMD that walk is one
operation (20 R84; DEDUCED, log 2). -/
def drainStep (c : Ctx) (q : Role) (r : DrainRun) (s : State) : Except Fault (DrainRun × State) := do
  match r.pos with
  | .start =>
    let (p, s) ← drainStart c q s
    .ok ({ r with pos := p }, s)
  | .element rest =>
    let (p, s) ← drainId c q rest s
    .ok ({ r with pos := p }, s)
  | .length rest id =>
    let (p, s) ← drainLength c q rest id s
    .ok ({ r with pos := p }, s)
  | .flags v =>
    let (p, s) ← drainFlags c q v s
    .ok ({ r with pos := p }, s)
  | .link v =>
    let (p, s) ← drainLink c q v s
    .ok ({ r with pos := p }, s)
  | .unlend v done =>
    let s ← c.gap s
    match c.agent, s.lentTo q v.id with
    | .cmd, h :: _ => .ok ({ r with pos := .unlend v (done ++ [h]) }, endLoan h.toNat s)
    | _, lent =>
      let d : Drained := { cookie := ((s.queue q).descAt v.id).cookie, len := v.len, handles := done ++ lent }
      .ok ({ out := r.out ++ [d], pos := nextElement v.rest }, reclaim q v.id v.visited s)
  | .finished _ => .ok (r, s)

/-! ## The dispatcher (44) -/

/-- DISP's accesses. Each is one turn of DISP, so what the others do before it are their own turns. -/
def dispCtx : Ctx := { agent := .disp, gap := fun s => .ok s }

/-- `unlock(q)` (20 R84). -/
def unlock (q : Role) (s : State) : State := s.setQueue q { s.queue q with lock := none }

/-- The link state (43 R217, 44 R236): the status field when the feature is negotiated, else Up. -/
def readLink (c : Ctx) (s : State) : Except Fault (Bool × State) :=
  if featureBit s.negotiated s.cfg.fStatus then do
    let (v, s) ← regRead c .w1 s.cfg.offLinkStatus 2 s
    .ok (linkUp s.cfg v, s)
  else .ok (true, s)

/-- State D_ISR (44 R232): the one read of the cause register. -/
def dispIsr (s : State) : Except Fault State := do
  let (v, s) ← regRead dispCtx .w0 s.cfg.offIsr 1 s
  .ok { s with isrLat := BitVec.ofNat 8 v, disp := .walk, walk := .enter }

/-- The log of unknown cause bits (44 R233). -/
def reportUnknown (s : State) : State :=
  if unknownCauses s.cfg s.isrLat = 0 then s else s.emit (.unexpectedCause (unknownCauses s.cfg s.isrLat))

/-- The queue after one in the walk; none after the last (44 R235). -/
def nextRole : Role → Option Role
  | .q0 => some .q1
  | .q1 => some .q2
  | .q2 => none

/-- On to the next queue, or out of D_WALK (44 R234, R235). -/
def advanceWalk (s : State) : State :=
  match nextRole s.dq with
  | some q => { s with dq := q, walk := .test }
  | none => { s with disp := .config, walk := .enter }

/-- Entry to D_WALK (44 R233, R234): unknown causes, then the first queue if there is one to walk. -/
def walkEnter (s : State) : State :=
  if queueUpdateCause s.cfg s.isrLat then { reportUnknown s with dq := .q0, walk := .test }
  else { reportUnknown s with disp := .config }

/-- A queue that is absent or broken is passed over (44 R234). -/
def walkTest (s : State) : State :=
  if (s.queue s.dq).valid && !(s.queue s.dq).broken then { s with walk := .wantLock } else advanceWalk s

/-- The queue's lock. While CMD holds it DISP has no step (20 R84). -/
def walkLock (s : State) : State :=
  if (s.queue s.dq).lock = none then
    { s.setQueue s.dq { s.queue s.dq with lock := some .disp } with walk := .drain { out := [], pos := .start } }
  else s

/-- One chain that DISP has drained (44 R234): one of the receive queue is reported; the slots of any other are freed,
ascending, and it is reported. -/
def reportChain (d : Drained) (s : State) : State :=
  if s.dq = s.cfg.qRx then s.emit (.packetReceived d.cookie d.len)
  else (poolFrees d.handles s).emit (.txReclaimed d.cookie d.len)

/-- The chains drained, in used-ring order (44 R235). -/
def reportChains : List Drained → State → State
  | [], s => s
  | d :: rest, s => reportChains rest (reportChain d s)

/-- The end of DISP's walk of a queue, with no access in it (44 R234, R240): the loans of the chains drained end, so that their
slots are OWNED; the lock is dropped; then the frees and the events, corruption last. -/
def handOver (out : List Drained) (corrupt : Bool) (s : State) : State :=
  let s := unlock s.dq (setLoans none (out.flatMap (fun d => d.handles)) s)
  let s := reportChains out s
  if corrupt then s.emit (.ringCorrupt s.dq) else s

/-- One step of the drain; the last one hands over what was drained and goes on to the next queue (44 R234). -/
def walkDrain (r : DrainRun) (s : State) : Except Fault State := do
  let (r, s) ← drainStep dispCtx s.dq r s
  match r.pos with
  | .finished corrupt => .ok (advanceWalk (handOver r.out corrupt s))
  | _ => .ok { s with walk := .drain r }

/-- One step of state D_WALK (44 R233 to R235). -/
def dispWalk (s : State) : Except Fault State :=
  match s.walk with
  | .enter => .ok (walkEnter s)
  | .test => .ok (walkTest s)
  | .wantLock => .ok (walkLock s)
  | .drain r => walkDrain r s

/-- State D_CONFIG (44 R236). -/
def dispConfig (s : State) : Except Fault State :=
  if configChangeCause s.cfg s.isrLat then do
    let (up, s) ← readLink dispCtx s
    .ok { s.emit (.linkState up) with disp := .ret }
  else .ok { s with disp := .ret }

/-- State D_RET (44 R237): claimed exactly when the value read was nonzero. -/
def dispRet (s : State) : State := { s.emit (.irqReturn (s.isrLat != 0)) with disp := .idle }

/-- One step of DISP (44 R239, R240): at most one access, and what follows it before the next; none is available in
D_IDLE. -/
def dispTurn (s : State) : Except Fault State :=
  match s.disp with
  | .idle => .ok s
  | .isr => dispIsr s
  | .walk => dispWalk s
  | .config => dispConfig s
  | .ret => .ok (dispRet s)

/-! ## CMD waits for DISP -/

/-- More steps than a drain, or a delivery with its three drains, can take (44 R238): at most six for each of 3 * 32768
descriptors, two for each of 65536 slots, and a few for each queue. -/
def patience : Nat := 1048576

/-- CMD has no step until `p` holds (20 R84; 43 R215, 60 R276): DISP moves, and before each of its steps the agents
outside the block may. -/
def waitUntil (p : State → Bool) (f : Fault) : Nat → State → Except Fault State
  | 0, s => if p s then .ok s else .error f
  | n + 1, s =>
    if p s then .ok s
    else do
      let s ← dispTurn s.waitGap
      waitUntil p f n s

/-- "wait until disp = D_IDLE" (43 R215, 60 R276). -/
def waitIdle (s : State) : Except Fault State := waitUntil (fun s => s.disp == .idle) .dispatcherStuck patience s

/-- `lock(q)` of CMD (20 R84): while DISP holds the lock, CMD waits. -/
def lock (q : Role) (s : State) : Except Fault State := do
  let s ← waitUntil (fun s => (s.queue q).lock == none) (.stuckOnLock q) patience s
  .ok (s.setQueue q { s.queue q with lock := some .cmd })

/-! ## CMD's accesses -/

/-- What happens before one access of CMD: the acts of the next gap, DISP's steps among them (20 R80 (g), 44 R240). -/
def cmdActs : List Act → State → Except Fault State
  | [], s => .ok s
  | .disp :: rest, s => do
    let s ← dispTurn s
    cmdActs rest s
  | a :: rest, s => cmdActs rest (s.external a)

/-- The next gap before an access of CMD. -/
def cmdGap (s : State) : Except Fault State :=
  match s.gaps with
  | [] => .ok s
  | acts :: rest => cmdActs acts { s with gaps := rest }

/-- CMD's accesses. -/
def cmdCtx : Ctx := { agent := .cmd, gap := cmdGap }

/-! ## CMD's drain (41 R164) -/

/-- A drain of CMD from where it stands to its end: the chains reclaimed, whether it ended in corruption. -/
def drainRun (q : Role) : Nat → DrainRun → State → Except Fault ((List Drained × Bool) × State)
  | 0, _, _ => .error .drainUnfinished
  | fuel + 1, r, s => do
    match r.pos with
    | .finished corrupt => .ok ((r.out, corrupt), s)
    | _ =>
      let (r, s) ← drainStep cmdCtx q r s
      drainRun q fuel r s

/-- `DrainList(q)` of CMD (41 R164). -/
def drainList (q : Role) (s : State) : Except Fault ((List Drained × Bool) × State) := do
  let s ← lock q s
  let (res, s) ← drainRun q patience { out := [], pos := .start } s
  .ok (res, unlock q s)

/-! ## Freeing a queue (41 R159) -/

/-- What becomes of the slots on loan (41 R159). -/
inductive FreeMode where
  | giveBack
  | orphan
deriving DecidableEq, Repr

/-- One handle of a queue being freed (41 R159). -/
def freeLent (q : Role) (mode : FreeMode) (h : Handle) (s : State) : State :=
  match (s.slot h.toNat).loan with
  | none => s
  | some l =>
    if l.q = q then
      if (s.slot h.toNat).internal then poolFree h.toNat s
      else s.setSlot h.toNat { s.slot h.toNat with
        loan := none, orphan := (s.slot h.toNat).orphan || mode == .orphan }
    else s

/-- Every handle of a queue being freed, in the order given (41 R159). -/
def freeLents (q : Role) (mode : FreeMode) : List Handle → State → State
  | [], s => s
  | h :: rest, s => freeLents q mode rest (freeLent q mode h s)

/-- `FreeQueue(q, mode)` (41 R159). The fields that lose their meaning go back to their reset values (log 10). -/
def freeQueue (q : Role) (mode : FreeMode) (s : State) : Except Fault State := do
  let s ← lock q s
  let s := freeLents q mode s.handles s
  let s := poolFree (s.queue q).region.toNat s
  .ok (unlock q (s.setQueue q { Queue.empty with lock := (s.queue q).lock }))

/-! ## Status writes (43 R202, R216) -/

/-- `StatusWrite(bits)` (43 R202): the shadow gains the bits and is written whole. -/
def statusWrite (bits : BitVec 8) (s : State) : Except Fault State :=
  regWrite cmdCtx .w0 s.cfg.offDeviceStatus 1 (s.stShadow ||| bits).toNat { s with stShadow := s.stShadow ||| bits }

/-- `StatusWrite0()` (43 R202, R216): zero to the status register, then the orphans come back. -/
def statusWrite0 (s : State) : Except Fault State := do
  let s ← regWrite cmdCtx .w0 s.cfg.offDeviceStatus 1 0 { s with stShadow := 0 }
  .ok (clearOrphans s)

/-! ## The FAILED entry (60 R276): the block's one exception -/

/-- Release one acquired resource (60 R276). -/
def releaseResource (r : Resource) (s : State) : Except Fault State :=
  match r with
  | .irq => waitIdle { s with irqEn := false }
  | .qr q => freeQueue q .orphan s
  | .win => .ok { s with winMapped := false }

/-- Pop and release every element, newest first (60 R276, R277). -/
def releaseAll : List Resource → State → Except Fault State
  | [], s => .ok s
  | r :: rest, s => do
    let s ← releaseResource r { s with acq := rest }
    releaseAll rest s

/-- The FAILED bit is written while the windows are mapped, but for UnsupportedDevice (60 R276, 90 C1). -/
def writeFailedBit (e : Err) (s : State) : Except Fault State :=
  if s.winMapped ∧ e ≠ .unsupportedDevice then statusWrite s.cfg.stFailed s else .ok s

/-- `Fail(e)` (60 R276): saves the code, releases everything in reverse order of acquisition, enters FAILED. -/
def failEntry (e : Err) (s : State) : Except Fault State := do
  let s ← writeFailedBit e s
  let s ← releaseAll s.acq s
  .ok { s with errLatch := BitVec.ofNat 8 e.code, fsm := .failed }

/-- `Fail(e)` and the response that carries its code (60 R271: the entry runs before the response is sent). -/
def failWith (e : Err) (s : State) : Except Fault State := do
  let s ← failEntry e s
  .ok (s.respond e [])

/-! ## Teardown (43 R215): the way out -/

/-- The roles of the queues among acquired resources, newest first. -/
def acquiredQueues : List Resource → List Role
  | [] => []
  | .qr q :: rest => q :: acquiredQueues rest
  | _ :: rest => acquiredQueues rest

/-- The order of the queues in BU.DETACH: a parameter, since 43 R215 and 20 R85 differ (log 11). -/
def State.detachRoles (s : State) : List Role :=
  match s.cfg.detachOrder with
  | .byRole => [.q0, .q1, .q2]
  | .byAcquisition => acquiredQueues s.acq

/-- One queue of the teardown: drained unless broken, the result discarded, then freed (43 R215). -/
def detachQueue (q : Role) (s : State) : Except Fault State :=
  if (s.queue q).valid then do
    let s ← if (s.queue q).broken then .ok s else do
      let (_, s) ← drainList q s
      .ok s
    freeQueue q .giveBack s
  else .ok s

/-- The queues of the teardown, one after another (20 R85). -/
def detachQueues : List Role → State → Except Fault State
  | [], s => .ok s
  | q :: rest, s => do
    let s ← detachQueue q s
    detachQueues rest s

/-- The body of `BU.DETACH` (43 R215): interrupts off, the delivery in progress finishes, the device is reset, queues
are drained and freed, windows unmapped, the Device's fields cleared. The dispatcher's registers too have their reset
values after it: nothing but held slots and `err_latch` survives (43 R222). -/
def detachDevice (s : State) : Except Fault State := do
  let s ← waitIdle { s with irqEn := false }
  let s ← if s.winMapped then statusWrite0 s else .ok s
  let s ← detachQueues s.detachRoles s
  .ok { s with winMapped := false, acq := [], offered := 0, negotiated := 0, qsize := ⟨0, 0, 0⟩, stShadow := 0,
               isrLat := 0, dq := .q0, walk := .enter, fsm := .detached }

/-! ## Answering -/

/-- A refusal or transient error: the response and nothing else (60 R271, R274). -/
def refuse (e : Err) (s : State) : Host.Outcome State Fault Refusal := .next (s.respond e [])

end Sys2Proof.Machine
end

