-- ==== Sys2Proof/Machine/Bringup.lean ====
section
/-! DEFINITION. The bring-up sequencer and teardown (43 R203 to R215). -/

namespace Sys2Proof.Machine

/-- Some queue is valid. -/
def State.someValid (s : State) : Bool := s.queues.any (fun x => x.valid)

/-- Every queue is wired. -/
def State.allWired (s : State) : Bool := s.queues.all (fun x => x.wired)

/-- A new Device instance (43 R203). -/
def newInstance (s : State) : State :=
  { s with offered := 0, negotiated := 0, qsize := ⟨0, 0, 0⟩, errLatch := 0, stShadow := 0 }

/-- BU.RESET with the windows mapped (43 R203). -/
def resetMapped (s : State) : Except Fault State := do
  let s ← statusWrite0 { s with winMapped := true, acq := .win :: s.acq }
  .ok ({ s with fsm := .reset }.respond .ok [])

/-- BU.RESET (43 R203). -/
def execBuReset (s : State) : Host.Outcome State Fault Refusal :=
  if s.fsm = .detached ∧ s.someValid = false then
    let (ok, s) := (newInstance s).platMap
    finish (choose ok (resetMapped s) (failWith .mapFailure s))
  else refuse .illegalTransition s

/-- BU.ACK (43 R204): three identifier reads, the comparison, the ACK bit; a mismatch is fatal and touches no
register. -/
def execBuAck (s : State) : Host.Outcome State Fault Refusal :=
  if s.fsm = .reset then
    finish (do
      let (v, s) ← pciRead cmdCtx .vendor s
      let (d, s) ← pciRead cmdCtx .device s
      let (r, s) ← pciRead cmdCtx .revision s
      if v = s.cfg.expVendor.toNat ∧ d = s.cfg.expDevice.toNat ∧ r = s.cfg.expRevision.toNat then do
        let s ← statusWrite s.cfg.stAck s
        .ok ({ s with fsm := .acknowledged }.respond .ok [])
      else failWith .unsupportedDevice s)
  else refuse .illegalTransition s

/-- Select a queue and read its size (43 R205). -/
def readQueueSize (q : Role) (s : State) : Except Fault State := do
  let s ← regWrite cmdCtx .w0 s.cfg.offQueueSelect 2 q.num s
  let (n, s) ← regRead cmdCtx .w0 s.cfg.offQueueSize 2 s
  .ok { s with qsize := s.qsize.set q (BitVec.ofNat 16 n) }

/-- BU.DRIVER (43 R205): sizes of roles 0, 1, 2, then the feature mask, then the sizes are judged. -/
def execBuDriver (s : State) : Host.Outcome State Fault Refusal :=
  if s.fsm = .acknowledged then
    finish (do
      let s ← readQueueSize .q0 s
      let s ← readQueueSize .q1 s
      let s ← readQueueSize .q2 s
      let (f, s) ← regRead cmdCtx .w0 s.cfg.offDeviceFeatures 4 s
      let s := { s with offered := BitVec.ofNat 32 f }
      if s.qsize.all queueSizeOk then do
        let s ← statusWrite s.cfg.stDriver s
        .ok ({ s with fsm := .driverLoaded }.respond .ok [])
      else failWith .noUsableQueues s)
  else refuse .illegalTransition s

/-- BU.FEATURES (43 R207). -/
def execBuFeatures (s : State) : Host.Outcome State Fault Refusal :=
  if s.fsm = .driverLoaded then
    let s := { s with negotiated := negotiate s.offered s.cfg.driverSupported }
    finish (
      if s.negotiated = 0 then failWith .featureNegotiationFailed s
      else do
        let s ← regWrite cmdCtx .w0 s.cfg.offGuestFeatures 4 s.negotiated.toNat s
        .ok ({ s with fsm := .featuresOk }.respond .ok []))
  else refuse .illegalTransition s

/-- BU.QWIRE (43 R209): tells the device where the queue is. -/
def execBuQwire (q : Role) (s : State) : Host.Outcome State Fault Refusal :=
  if s.fsm = .featuresOk then
    if (s.queue q).valid = false ∨ (s.queue q).wired then refuse .illegalCommand s
    else
      finish (
        if s.qsize.get q = 0 then failWith .noUsableQueues s
        else do
          let s ← regWrite cmdCtx .w0 s.cfg.offQueueSelect 2 q.num s
          let s ← regWrite cmdCtx .w0 s.cfg.offQueueAddress 4 ((s.queue q).base.toNat / pageBytes) s
          .ok ((s.setQueue q { s.queue q with wired := true }).respond .ok []))
  else refuse .illegalTransition s

/-- BU.IRQ (43 R211): registers the handler; no register access. -/
def execBuIrq (s : State) : Host.Outcome State Fault Refusal :=
  if s.fsm = .featuresOk ∧ s.irqEn = false ∧ s.allWired then
    .next ({ s with irqEn := true, acq := .irq :: s.acq }.respond .ok [])
  else refuse .illegalTransition s

/-- BU.OK (43 R212). -/
def execBuOk (s : State) : Host.Outcome State Fault Refusal :=
  if s.fsm = .featuresOk ∧ s.irqEn ∧ s.allWired then
    finish (do
      let s ← statusWrite s.cfg.stDriverOk s
      .ok ({ s with fsm := .driverReady }.respond .ok []))
  else refuse .illegalTransition s

/-- BU.FAIL (43 R214): the commanded FAILED entry, `err_latch` 0, response OK. -/
def execBuFail (s : State) : Host.Outcome State Fault Refusal :=
  if s.fsm = .detached ∨ s.fsm = .failed then refuse .illegalTransition s
  else finish (failWith .ok s)

/-- BU.DETACH (43 R215). -/
def execBuDetach (s : State) : Host.Outcome State Fault Refusal :=
  if s.fsm = .detached then refuse .illegalTransition s
  else
    finish (do
      let s ← detachDevice s
      .ok (s.respond .ok []))

end Sys2Proof.Machine
end

