-- ==== Sys2Proof/Machine/Pool.lean ====
section
/-! DEFINITION. The DMA buffer pool commands (42 R182, R184). -/

namespace Sys2Proof.Machine

/-- POOL.RESERVE (42 R182): the lowest free handle and memory from PLAT, or QueueFull; legal in every `fsm` state. -/
def execPoolReserve (dir : Dir) (len : Word) (s : State) : Host.Outcome State Fault Refusal :=
  if len = 0 then refuse .illegalCommand s
  else
    .next (match poolReserve false dir len s with
      | (some h, s) => s.respond .ok [BitVec.ofNat 32 h]
      | (none, s) => s.respond .queueFull [])

/-- POOL.RELEASE (42 R184): an OWNED slot becomes FREE; a slot on loan or orphaned is refused with BufferInFlight. -/
def execPoolRelease (h : Handle) (s : State) : Host.Outcome State Fault Refusal :=
  if h.toNat < s.cfg.poolSlots ∧ (s.slot h.toNat).alloc then
    if (s.slot h.toNat).internal then refuse .illegalCommand s
    else if (s.slot h.toNat).loan.isSome || (s.slot h.toNat).orphan then refuse .bufferInFlight s
    else .next ((poolFree h.toNat s).respond .ok [])
  else refuse .illegalCommand s

end Sys2Proof.Machine
end

