-- ==== Sys2Proof/Machine/Query.lean ====
section
/-! DEFINITION. The upstream queries (43 R217 to R219). -/

namespace Sys2Proof.Machine

/-- LINKSTATE (43 R217): legal in FEATURES_OK and DRIVER_READY; no register is read when the feature is not
negotiated. -/
def execLinkState (s : State) : Host.Outcome State Fault Refusal :=
  if s.fsm = .featuresOk ∨ s.fsm = .driverReady then
    finish (do
      let (up, s) ← readLink cmdCtx s
      .ok (s.respond .ok [flagWord up]))
  else refuse .illegalTransition s

/-- PROP.FEAT (43 R218): legal in every state, no access of any kind. -/
def execPropFeat (s : State) : Host.Outcome State Fault Refusal := .next (s.respond .ok [s.negotiated])

/-- PROP.QSIZE (43 R219): what the device reported, not `Q[q].N`. -/
def execPropQsize (q : Role) (s : State) : Host.Outcome State Fault Refusal :=
  .next (s.respond .ok [(s.qsize.get q).setWidth 32])

end Sys2Proof.Machine
end

