-- ==== Sys2Proof/Machine/Regs.lean ====
section
/-! DEFINITION. The twelve register-access commands (40): one shared read and one shared write, one meaning each. -/

namespace Sys2Proof.Machine

/-- A register read command of `n` bytes on a window (40 R132, R133, R136): state check, operand check, one access,
the value zero-extended. -/
def regReadCommand (w : Win) (n : Nat) (off : BitVec 16) (s : State) : Host.Outcome State Fault Refusal :=
  if s.winMapped then
    if offsetOk (s.winBytes w) n off.toNat then
      finish (do
        let (v, s) ← regRead cmdCtx w off.toNat n s
        .ok (s.respond .ok [BitVec.ofNat 32 v]))
    else refuse .illegalCommand s
  else refuse .illegalTransition s

/-- A register write command of `n` bytes on a window (40 R132, R133, R139; 30 R110). -/
def regWriteCommand (w : Win) (n : Nat) (off : BitVec 16) (value : Word) (s : State) :
    Host.Outcome State Fault Refusal :=
  if s.winMapped then
    if offsetOk (s.winBytes w) n off.toNat && valueFits n value then
      finish (do
        let s ← regWrite cmdCtx w off.toNat n value.toNat s
        .ok (s.respond .ok []))
    else refuse .illegalCommand s
  else refuse .illegalTransition s

/-- RD8 (40 R136). -/
def execRd8 (off : BitVec 16) (s : State) : Host.Outcome State Fault Refusal := regReadCommand .w0 1 off s

/-- RD16 (40 R137). -/
def execRd16 (off : BitVec 16) (s : State) : Host.Outcome State Fault Refusal := regReadCommand .w0 2 off s

/-- RD32 (40 R138). -/
def execRd32 (off : BitVec 16) (s : State) : Host.Outcome State Fault Refusal := regReadCommand .w0 4 off s

/-- WR8 (40 R139). -/
def execWr8 (off : BitVec 16) (value : Word) (s : State) : Host.Outcome State Fault Refusal :=
  regWriteCommand .w0 1 off value s

/-- WR16 (40 R140). -/
def execWr16 (off : BitVec 16) (value : Word) (s : State) : Host.Outcome State Fault Refusal :=
  regWriteCommand .w0 2 off value s

/-- WR32 (40 R141). -/
def execWr32 (off : BitVec 16) (value : Word) (s : State) : Host.Outcome State Fault Refusal :=
  regWriteCommand .w0 4 off value s

/-- DRD8 (40 R142). -/
def execDrd8 (off : BitVec 16) (s : State) : Host.Outcome State Fault Refusal := regReadCommand .w1 1 off s

/-- DRD16 (40 R143). -/
def execDrd16 (off : BitVec 16) (s : State) : Host.Outcome State Fault Refusal := regReadCommand .w1 2 off s

/-- DRD32 (40 R144). -/
def execDrd32 (off : BitVec 16) (s : State) : Host.Outcome State Fault Refusal := regReadCommand .w1 4 off s

/-- DWR8 (40 R145). -/
def execDwr8 (off : BitVec 16) (value : Word) (s : State) : Host.Outcome State Fault Refusal :=
  regWriteCommand .w1 1 off value s

/-- DWR16 (40 R146). -/
def execDwr16 (off : BitVec 16) (value : Word) (s : State) : Host.Outcome State Fault Refusal :=
  regWriteCommand .w1 2 off value s

/-- DWR32 (40 R147). -/
def execDwr32 (off : BitVec 16) (value : Word) (s : State) : Host.Outcome State Fault Refusal :=
  regWriteCommand .w1 4 off value s

end Sys2Proof.Machine
end

