-- ==== Sys2Proof/Machine/Ring.lean ====
section
/-! DEFINITION. The virtqueue ring commands (41). -/

namespace Sys2Proof.Machine

/-! ## VQ.CREATE (41 R155) -/

/-- A fresh descriptor entry: tag Free (41 R155). The other fields are never read before a submit writes them. -/
def Desc.fresh : Desc := Desc.blank

/-- The queue context `create` leaves, its lock still held (41 R155). -/
def createdQueue (size : BitVec 16) (region : Nat) (base : Addr) (holder : Option Agent) : Queue :=
  { valid := true, wired := false, broken := false, n := size, region := BitVec.ofNat 16 region, base := base,
    availIdx := 0, lastUsed := 0, free := (List.range size.toNat).map (fun i => BitVec.ofNat 16 i),
    desc := List.replicate size.toNat Desc.fresh, lock := holder }

/-- `create` once memory has been granted in slot `r` (41 R155). -/
def createOn (q : Role) (size : BitVec 16) (r : Nat) (s : State) : State :=
  let s := memZeroSlot cmdCtx r s
  let s := s.setQueue q (createdQueue size r (s.slot r).bus (s.queue q).lock)
  let s := if s.fsm = .featuresOk then { s with acq := .qr q :: s.acq } else s
  unlock q s

/-- VQ.CREATE (41 R155). AllocationError runs the FAILED entry in FEATURES_OK and is merely returned in DETACHED. -/
def execVqCreate (q : Role) (size : BitVec 16) (s : State) : Host.Outcome State Fault Refusal :=
  if s.fsm = .detached ∨ s.fsm = .featuresOk then
    if (s.queue q).valid then refuse .illegalCommand s
    else if !queueSizeOk size then refuse .illegalCommand s
    else if s.fsm = .featuresOk ∧ size ≠ s.qsize.get q then refuse .illegalCommand s
    else
      finish (do
        let s ← lock q s
        match poolReserveInternal (regionBytes size.toNat) s with
        | (some r, s) => .ok ((createOn q size r s).respond .ok [])
        | (none, s) =>
          let s := unlock q s
          if s.fsm = .featuresOk then failWith .allocationError s else .ok (s.respond .allocationError []))
  else refuse .illegalTransition s

/-! ## VQ.DESTROY (41 R157) -/

/-- VQ.DESTROY (41 R157). -/
def execVqDestroy (q : Role) (s : State) : Host.Outcome State Fault Refusal :=
  if s.fsm = .detached then
    if (s.queue q).valid then
      finish (do
        let s ← freeQueue q .giveBack s
        .ok (s.respond .ok []))
    else refuse .illegalCommand s
  else refuse .illegalTransition s

/-! ## VQ.SUBMIT (41 R160 to R163) -/

/-- The four fields of descriptor `i` of a table, in the order 41 R160 writes them (20 R74). -/
def writeDesc (c : Ctx) (table i addr len : Nat) (fl : BitVec 16) (next : Nat) (s : State) : Except Fault State := do
  let s ← memWrite c (descAddr table i) 8 addr s
  let s ← memWrite c (descAddr table i + 8) 4 len s
  let s ← memWrite c (descAddr table i + 12) 2 fl.toNat s
  memWrite c (descAddr table i + 14) 2 next s

/-- The direct block (41 R160): one descriptor per segment, each chained to the next, each tagged with the head. -/
def submitDirect (c : Ctx) (q : Role) (head : DescIdx) : List (Seg × DescIdx) → State → Except Fault State
  | [], s => .ok s
  | (g, d) :: rest, s => do
    let next := (rest.head?.map (fun p => p.2.toNat)).getD 0
    let s ← writeDesc c (s.queue q).base.toNat d.toNat (s.slot (segHandle g).toNat).bus.toNat g.len.toNat
      (segFlags s.cfg (!rest.isEmpty) (segWritable g)) next s
    submitDirect c q head rest (s.setQueue q ((s.queue q).setTag d (.submitted head)))

/-- The entries of an indirect table at `table`, from entry `k` (41 R163, 20 R77). -/
def writeTable (c : Ctx) (table : Nat) : Nat → List Seg → State → Except Fault State
  | _, [], s => .ok s
  | k, g :: rest, s => do
    let s ← writeDesc c table k (s.slot (segHandle g).toNat).bus.toNat g.len.toNat
      (segFlags s.cfg (!rest.isEmpty) (segWritable g)) (if rest.isEmpty then 0 else k + 1) s
    writeTable c table (k + 1) rest s

/-- The indirect block (41 R163) once slot `t` holds the table. -/
def submitIndirect (c : Ctx) (q : Role) (head : DescIdx) (t : Nat) (segs : List Seg) (s : State) :
    Except Fault State := do
  let s ← writeTable c (s.slot t).bus.toNat 0 segs s
  let s ← writeDesc c (s.queue q).base.toNat head.toNat (s.slot t).bus.toNat (16 * segs.length) s.cfg.dfIndirect 0 s
  let s := s.setQueue q ((s.queue q).setTag head (.submitted head))
  .ok (setLoan t (some { q := q, head := head }) s)

/-- `Publish(q, head)` (41 R162): available element, FENCE, index, FENCE, the hint sampled once, the notify. -/
def publish (c : Ctx) (q : Role) (head : DescIdx) (s : State) : Except Fault State := do
  let x := s.queue q
  let k := x.availIdx.toNat % x.n.toNat
  let s ← memWrite c (availElemAddr x.base.toNat x.n.toNat k) 2 head.toNat s
  let s ← fence c s
  let s := s.setQueue q { s.queue q with availIdx := (s.queue q).availIdx + 1 }
  let s ← memWrite c (availIdxAddr x.base.toNat x.n.toNat) 2 (s.queue q).availIdx.toNat s
  let s ← fence c s
  let (f, s) ← memRead c (usedFlagsAddr x.base.toNat x.n.toNat) 2 s
  if noNotifyHint s.cfg f then .ok s
  else regWrite c .w0 s.cfg.offQueueNotify 2 q.num s

/-- What `submit` records for the head: chain length, cookie, indirect table (41 R160, R163; 10 R30). -/
def recordHead (q : Role) (head : DescIdx) (n : Nat) (cookie : Handle) (ind : Option Handle) (s : State) : State :=
  let x := s.queue q
  let e := { x.descAt head with chainLen := BitVec.ofNat 16 n, cookie := cookie, ind := ind }
  s.setQueue q { x with desc := x.desc.set head.toNat e }

/-- The end of `submit`: loans, the head's record, publication, unlock, the response (41 R160). -/
def submitTail (c : Ctx) (q : Role) (head : DescIdx) (n : Nat) (ind : Option Handle) (segs : List Seg) (s : State) :
    Except Fault State := do
  let handles := segs.map segHandle
  let s := setLoans (some { q := q, head := head }) handles s
  let s := recordHead q head n (handles.headD 0) ind s
  let s ← publish c q head s
  .ok ((unlock q s).respond .ok [])

/-- `submit` with the lock held and enough free descriptors: the indirect variant when it applies (41 R160, R163). -/
def submitChain (c : Ctx) (q : Role) (segs : List Seg) (s : State) : Except Fault State := do
  let n := s.need segs.length
  let x := s.queue q
  let d := x.free.take n
  let head := d.headD 0
  let indirect := s.indirectChain segs.length
  let s := s.setQueue q { x with free := x.free.drop n }
  if indirect then
    match poolReserveInternal (16 * segs.length) s with
    | (none, s) =>
      .ok ((unlock q (s.setQueue q { s.queue q with free := d ++ (s.queue q).free })).respond .queueFull [])
    | (some t, s) => do
      let s ← submitIndirect c q head t segs s
      submitTail c q head n (some (BitVec.ofNat 16 t)) segs s
  else do
    let s ← submitDirect c q head (segs.zip d) s
    submitTail c q head n none segs s

/-- VQ.SUBMIT (41 R160): checks in the order of 60 R273, then the chain. -/
def execVqSubmit (q : Role) (segs : List Seg) (s : State) : Host.Outcome State Fault Refusal :=
  if s.fsm = .driverReady then
    if q = s.cfg.qCtrl then refuse .illegalCommand s
    else if !s.segsOk segs then refuse .illegalCommand s
    else
      finish (do
        let s ← lock q s
        if (s.queue q).broken then .ok ((unlock q s).respond .ringCorrupt [])
        else if (s.queue q).free.length < s.need segs.length then .ok ((unlock q s).respond .queueFull [])
        else submitChain cmdCtx q segs s)
  else refuse .illegalTransition s

/-! ## VQ.DRAIN (41 R164) -/

/-- The data words of a drain: two per chain, handle then length (30 R115). -/
def drainWords : List Drained → List Word
  | [] => []
  | d :: rest => d.cookie.setWidth 32 :: d.len :: drainWords rest

/-- VQ.DRAIN (41 R164, R166): the chains drained before a fault are returned with it. -/
def execVqDrain (q : Role) (s : State) : Host.Outcome State Fault Refusal :=
  if (s.queue q).valid then
    finish (do
      let ((out, corrupt), s) ← drainList q s
      .ok (s.respond (if corrupt then .ringCorrupt else .ok) (drainWords out)))
  else refuse .illegalCommand s

end Sys2Proof.Machine
end

