-- ==== Sys2Proof/Machine/Dispatch.lean ====
section
/-! DEFINITION. Which meaning each command has: one arm per constructor of Instr. -/

namespace Sys2Proof.Machine

/-- One command, its frame taken from the port already (30 R100). -/
def exec (i : Instr) (s : State) : Host.Outcome State Fault Refusal :=
  match i with
  | .rd8 off => Sys2Proof.Machine.execRd8 off s
  | .rd16 off => Sys2Proof.Machine.execRd16 off s
  | .rd32 off => Sys2Proof.Machine.execRd32 off s
  | .wr8 off value => Sys2Proof.Machine.execWr8 off value s
  | .wr16 off value => Sys2Proof.Machine.execWr16 off value s
  | .wr32 off value => Sys2Proof.Machine.execWr32 off value s
  | .drd8 off => Sys2Proof.Machine.execDrd8 off s
  | .drd16 off => Sys2Proof.Machine.execDrd16 off s
  | .drd32 off => Sys2Proof.Machine.execDrd32 off s
  | .dwr8 off value => Sys2Proof.Machine.execDwr8 off value s
  | .dwr16 off value => Sys2Proof.Machine.execDwr16 off value s
  | .dwr32 off value => Sys2Proof.Machine.execDwr32 off value s
  | .vqCreate q size => Sys2Proof.Machine.execVqCreate q size s
  | .vqDestroy q => Sys2Proof.Machine.execVqDestroy q s
  | .vqSubmit q segs => Sys2Proof.Machine.execVqSubmit q segs s
  | .vqDrain q => Sys2Proof.Machine.execVqDrain q s
  | .poolReserve dir len => Sys2Proof.Machine.execPoolReserve dir len s
  | .poolRelease h => Sys2Proof.Machine.execPoolRelease h s
  | .buReset => Sys2Proof.Machine.execBuReset s
  | .buAck => Sys2Proof.Machine.execBuAck s
  | .buDriver => Sys2Proof.Machine.execBuDriver s
  | .buFeatures => Sys2Proof.Machine.execBuFeatures s
  | .buQwire q => Sys2Proof.Machine.execBuQwire q s
  | .buIrq => Sys2Proof.Machine.execBuIrq s
  | .buOk => Sys2Proof.Machine.execBuOk s
  | .buFail => Sys2Proof.Machine.execBuFail s
  | .buDetach => Sys2Proof.Machine.execBuDetach s
  | .linkState => Sys2Proof.Machine.execLinkState s
  | .propFeat => Sys2Proof.Machine.execPropFeat s
  | .propQsize q => Sys2Proof.Machine.execPropQsize q s

end Sys2Proof.Machine
end

