-- ==== Sys2Proof/WellFormed.lean ====
section
/-! DEFINITION. Which terms of Instr are commands: those a frame can carry. Every operand type is exact but one: the
segment count of VQ.SUBMIT is the 16-bit field IMM16 (30 R102, R113). -/

namespace Sys2Proof

/-- The segment list fits the 16-bit count of the header (30 R113). -/
def Instr.segCountFits : Instr → Bool
  | .vqSubmit _ segs => decide (segs.length < 65536)
  | _ => true

/-- The instruction has a frame (30 R102). Operand values the command refuses (a misaligned offset, a bad size, a bad
segment) are well formed: the command is then answered `IllegalCommand` (60 R273). -/
def Instr.wellFormed (i : Instr) : Bool := i.segCountFits

end Sys2Proof
end

