-- ==== Sys2Proof/Decode.lean ====
section
/-! DEFINITION. The command port's framing, decoder and encoder (30 R101 to R113). The decoder is total on every
word stream: it waits for a frame that is not complete, refuses by name, or gives the instruction and the rest. -/

namespace Sys2Proof

/-! ## The header word (30 R101) -/

/-- OPC, bits 31:26. -/
def hdrOpc (h : Word) : BitVec 6 := h.extractLsb' 26 6
/-- Q, bits 25:24. -/
def hdrQ (h : Word) : BitVec 2 := h.extractLsb' 24 2
/-- Bits 23:17, which must be 0. -/
def hdrZero (h : Word) : BitVec 7 := h.extractLsb' 17 7
/-- D, bit 16. -/
def hdrD (h : Word) : BitVec 1 := h.extractLsb' 16 1
/-- IMM16, bits 15:0. -/
def hdrImm (h : Word) : BitVec 16 := h.extractLsb' 0 16

/-- The formats of 30 R102. -/
inductive Format where
  | z | o | ow | qz | qi | qs | dl | h
deriving DecidableEq, Repr

/-- The format of each defined OPC (30 R105); none for the reserved values of 30 R106. -/
def formatOf (opc : BitVec 6) : Option Format :=
  match opc with
  | 0x01#6 => some .o
  | 0x02#6 => some .o
  | 0x03#6 => some .o
  | 0x05#6 => some .ow
  | 0x06#6 => some .ow
  | 0x07#6 => some .ow
  | 0x09#6 => some .o
  | 0x0A#6 => some .o
  | 0x0B#6 => some .o
  | 0x0D#6 => some .ow
  | 0x0E#6 => some .ow
  | 0x0F#6 => some .ow
  | 0x10#6 => some .qi
  | 0x11#6 => some .qz
  | 0x12#6 => some .qs
  | 0x13#6 => some .qz
  | 0x20#6 => some .dl
  | 0x21#6 => some .h
  | 0x30#6 => some .z
  | 0x31#6 => some .z
  | 0x32#6 => some .z
  | 0x33#6 => some .z
  | 0x34#6 => some .qz
  | 0x35#6 => some .z
  | 0x36#6 => some .z
  | 0x37#6 => some .z
  | 0x38#6 => some .z
  | 0x39#6 => some .z
  | 0x3A#6 => some .z
  | 0x3B#6 => some .qz
  | _ => none

/-- The formats that use field Q (30 R102). -/
def Format.usesQ : Format → Bool
  | .qz | .qi | .qs => true
  | _ => false

/-- The formats that use IMM16 (30 R102). -/
def Format.usesImm : Format → Bool
  | .o | .ow | .qi | .qs | .h => true
  | _ => false

/-- The formats that use D (30 R101: "must be 0 in every other command"). -/
def Format.usesD : Format → Bool
  | .dl => true
  | _ => false

/-- Operand words of a frame: a function of OPC and IMM16 alone, 0 for a reserved OPC (30 R103). -/
def operandCount (h : Word) : Nat :=
  match formatOf (hdrOpc h) with
  | some .ow => 1
  | some .dl => 1
  | some .qs => 2 * (hdrImm h).toNat
  | _ => 0

/-- Length of a frame in words (30 R103). -/
def frameLen (h : Word) : Nat := 1 + operandCount h

/-! ## Decoding -/

/-- Why a frame is refused at decode (30 R106, R107). -/
inductive Illegal where
  | reservedOpcode
  | nonzeroReservedField
  | reservedRole
deriving DecidableEq, Repr

/-- The role a Q field names; 3 is reserved (30 R101). -/
def roleOf (q : BitVec 2) : Option Role :=
  match q with
  | 0#2 => some .q0
  | 1#2 => some .q1
  | 2#2 => some .q2
  | _ => none

/-- The direction of bit D (30 R101). -/
def dirOf (d : BitVec 1) : Dir := if d = 1#1 then .fromDevice else .toDevice

/-- The segments of a VQ.SUBMIT frame, two words each (30 R113). -/
def segsOf : List Word → List Seg
  | a :: b :: rest => ⟨a, b⟩ :: segsOf rest
  | _ => []

/-- Every field the format has no use for is 0 (30 R101, R107). -/
def unusedFieldsZero (f : Format) (h : Word) : Bool :=
  hdrZero h == 0 && (f.usesD || hdrD h == 0) && (f.usesQ || hdrQ h == 0) && (f.usesImm || hdrImm h == 0)

/-- The instruction of a legal header and its operand words (30 R105). -/
def buildInstr (opc : BitVec 6) (q : Role) (d : Dir) (imm : BitVec 16) (ops : List Word) : Option Instr :=
  match opc with
  | 0x01#6 => some (.rd8 imm)
  | 0x02#6 => some (.rd16 imm)
  | 0x03#6 => some (.rd32 imm)
  | 0x05#6 => some (.wr8 imm (ops.headD 0))
  | 0x06#6 => some (.wr16 imm (ops.headD 0))
  | 0x07#6 => some (.wr32 imm (ops.headD 0))
  | 0x09#6 => some (.drd8 imm)
  | 0x0A#6 => some (.drd16 imm)
  | 0x0B#6 => some (.drd32 imm)
  | 0x0D#6 => some (.dwr8 imm (ops.headD 0))
  | 0x0E#6 => some (.dwr16 imm (ops.headD 0))
  | 0x0F#6 => some (.dwr32 imm (ops.headD 0))
  | 0x10#6 => some (.vqCreate q imm)
  | 0x11#6 => some (.vqDestroy q)
  | 0x12#6 => some (.vqSubmit q (segsOf ops))
  | 0x13#6 => some (.vqDrain q)
  | 0x20#6 => some (.poolReserve d (ops.headD 0))
  | 0x21#6 => some (.poolRelease imm)
  | 0x30#6 => some .buReset
  | 0x31#6 => some .buAck
  | 0x32#6 => some .buDriver
  | 0x33#6 => some .buFeatures
  | 0x34#6 => some (.buQwire q)
  | 0x35#6 => some .buIrq
  | 0x36#6 => some .buOk
  | 0x37#6 => some .buFail
  | 0x38#6 => some .buDetach
  | 0x39#6 => some .linkState
  | 0x3A#6 => some .propFeat
  | 0x3B#6 => some (.propQsize q)
  | _ => none

/-- The instruction of a complete frame, or why it is refused (30 R105 to R107). -/
def decodeFrame (h : Word) (ops : List Word) : Except Illegal Instr :=
  match formatOf (hdrOpc h) with
  | none => .error .reservedOpcode
  | some f =>
    if unusedFieldsZero f h then
      match roleOf (hdrQ h) with
      | none => .error .reservedRole
      | some q =>
        match buildInstr (hdrOpc h) q (dirOf (hdrD h)) (hdrImm h) ops with
        | some i => .ok i
        | none => .error .reservedOpcode
    else .error .nonzeroReservedField

/-- What the head of the command port holds. -/
inductive Decoded where
  /-- no complete frame yet -/
  | incomplete
  /-- a whole frame that is refused with IllegalCommand, and the words after it -/
  | illegal (why : Illegal) (rest : List Word)
  /-- a command, and the words after its frame -/
  | instr (i : Instr) (rest : List Word)
deriving DecidableEq, Repr

/-- Decode the frame at the head of a word stream (30 R103, R105 to R107). The whole frame is consumed whether or not
it is refused, "so the stream never loses frame alignment". -/
def decode : List Word → Decoded
  | [] => .incomplete
  | h :: rest =>
    if rest.length < operandCount h then .incomplete
    else
      match decodeFrame h (rest.take (operandCount h)) with
      | .ok i => .instr i (rest.drop (operandCount h))
      | .error why => .illegal why (rest.drop (operandCount h))

/-! ## Encoding -/

/-- A header word from its fields (30 R101). -/
def header (opc q d imm : Nat) : Word := BitVec.ofNat 32 (2 ^ 26 * opc + 2 ^ 24 * q + 2 ^ 16 * d + imm)

/-- Bit D of a direction (30 R101). -/
def Dir.bit : Dir → Nat
  | .toDevice => 0
  | .fromDevice => 1

/-- The operand words of a segment list (30 R113). -/
def segWords : List Seg → List Word
  | [] => []
  | s :: rest => s.ctl :: s.len :: segWords rest

/-- The frame of an instruction (30 R102, R105, R113). -/
def encode : Instr → List Word
  | .rd8 off => [header 0x01 0 0 off.toNat]
  | .rd16 off => [header 0x02 0 0 off.toNat]
  | .rd32 off => [header 0x03 0 0 off.toNat]
  | .wr8 off v => [header 0x05 0 0 off.toNat, v]
  | .wr16 off v => [header 0x06 0 0 off.toNat, v]
  | .wr32 off v => [header 0x07 0 0 off.toNat, v]
  | .drd8 off => [header 0x09 0 0 off.toNat]
  | .drd16 off => [header 0x0A 0 0 off.toNat]
  | .drd32 off => [header 0x0B 0 0 off.toNat]
  | .dwr8 off v => [header 0x0D 0 0 off.toNat, v]
  | .dwr16 off v => [header 0x0E 0 0 off.toNat, v]
  | .dwr32 off v => [header 0x0F 0 0 off.toNat, v]
  | .vqCreate q size => [header 0x10 q.num 0 size.toNat]
  | .vqDestroy q => [header 0x11 q.num 0 0]
  | .vqSubmit q segs => header 0x12 q.num 0 segs.length :: segWords segs
  | .vqDrain q => [header 0x13 q.num 0 0]
  | .poolReserve d len => [header 0x20 0 d.bit 0, len]
  | .poolRelease h => [header 0x21 0 0 h.toNat]
  | .buReset => [header 0x30 0 0 0]
  | .buAck => [header 0x31 0 0 0]
  | .buDriver => [header 0x32 0 0 0]
  | .buFeatures => [header 0x33 0 0 0]
  | .buQwire q => [header 0x34 q.num 0 0]
  | .buIrq => [header 0x35 0 0 0]
  | .buOk => [header 0x36 0 0 0]
  | .buFail => [header 0x37 0 0 0]
  | .buDetach => [header 0x38 0 0 0]
  | .linkState => [header 0x39 0 0 0]
  | .propFeat => [header 0x3A 0 0 0]
  | .propQsize q => [header 0x3B q.num 0 0]

/-! ## The rows of the opcode table -/

/-- One row of 30 R105. -/
structure OpRow where
  opc : BitVec 6
  pattern : Word
  mask : Word
deriving DecidableEq, Repr

/-- The match and mask of every row of 30 R105, in the table's order. -/
def opRows : List OpRow :=
  [⟨0x01#6, 0x04000000#32, 0xFFFF0000#32⟩, ⟨0x02#6, 0x08000000#32, 0xFFFF0000#32⟩,
   ⟨0x03#6, 0x0C000000#32, 0xFFFF0000#32⟩, ⟨0x05#6, 0x14000000#32, 0xFFFF0000#32⟩,
   ⟨0x06#6, 0x18000000#32, 0xFFFF0000#32⟩, ⟨0x07#6, 0x1C000000#32, 0xFFFF0000#32⟩,
   ⟨0x09#6, 0x24000000#32, 0xFFFF0000#32⟩, ⟨0x0A#6, 0x28000000#32, 0xFFFF0000#32⟩,
   ⟨0x0B#6, 0x2C000000#32, 0xFFFF0000#32⟩, ⟨0x0D#6, 0x34000000#32, 0xFFFF0000#32⟩]
  ++ [⟨0x0E#6, 0x38000000#32, 0xFFFF0000#32⟩, ⟨0x0F#6, 0x3C000000#32, 0xFFFF0000#32⟩,
   ⟨0x10#6, 0x40000000#32, 0xFCFF0000#32⟩, ⟨0x11#6, 0x44000000#32, 0xFCFFFFFF#32⟩,
   ⟨0x12#6, 0x48000000#32, 0xFCFF0000#32⟩, ⟨0x13#6, 0x4C000000#32, 0xFCFFFFFF#32⟩,
   ⟨0x20#6, 0x80000000#32, 0xFFFEFFFF#32⟩, ⟨0x21#6, 0x84000000#32, 0xFFFF0000#32⟩,
   ⟨0x30#6, 0xC0000000#32, 0xFFFFFFFF#32⟩, ⟨0x31#6, 0xC4000000#32, 0xFFFFFFFF#32⟩]
  ++ [⟨0x32#6, 0xC8000000#32, 0xFFFFFFFF#32⟩, ⟨0x33#6, 0xCC000000#32, 0xFFFFFFFF#32⟩,
   ⟨0x34#6, 0xD0000000#32, 0xFCFFFFFF#32⟩, ⟨0x35#6, 0xD4000000#32, 0xFFFFFFFF#32⟩,
   ⟨0x36#6, 0xD8000000#32, 0xFFFFFFFF#32⟩, ⟨0x37#6, 0xDC000000#32, 0xFFFFFFFF#32⟩,
   ⟨0x38#6, 0xE0000000#32, 0xFFFFFFFF#32⟩, ⟨0x39#6, 0xE4000000#32, 0xFFFFFFFF#32⟩,
   ⟨0x3A#6, 0xE8000000#32, 0xFFFFFFFF#32⟩, ⟨0x3B#6, 0xEC000000#32, 0xFCFFFFFF#32⟩]

/-- "A header selects a command when header & mask = match" (30 R105). -/
def OpRow.selects (r : OpRow) (h : Word) : Bool := h &&& r.mask == r.pattern

/-! ## Words numbered as the opcode table numbers bits -/

/-- The k-th 32-bit word of a number of `nbits` bits; bits from `nbits` up are 0. -/
def tableWord (nbits w k : Nat) : Word := BitVec.ofNat 32 ((w % 2 ^ nbits) >>> (32 * k))

/-- The whole frame the number stands for: its first word is the header, and as many operand words follow as the
header asks for (30 R103). -/
def tableFrame (nbits w : Nat) : List Word :=
  (List.range (frameLen (tableWord nbits w 0))).map (tableWord nbits w)

/-- The instruction the decoder reads from an instruction whose bits are `w`; none where it refuses. -/
def decodeTableWord (nbits w : Nat) : Option Instr :=
  match decode (tableFrame nbits w) with
  | .instr i _ => some i
  | _ => none

end Sys2Proof
end

