-- ==== Sys2Proof/Machine/Fetch.lean ====
section
/-! DEFINITION. How the block takes command frames, and which agent moves (00 R10, 30 R100, R103; log 1). -/

namespace Sys2Proof.Machine

/-- A whole frame stands at the head of the command port. -/
def State.frameReady (s : State) : Bool :=
  match decode s.cmdPort with
  | .incomplete => false
  | _ => true

/-- The agent that moves when the schedule says nothing: CMD when a frame is ready, else DISP when it has a step, else
nobody (log 1). -/
def State.nextTurn (s : State) : Turn × State :=
  match s.turns with
  | t :: rest => (t, { s with turns := rest })
  | [] => (if s.frameReady || s.disp == .idle then .cmd else .act .disp, s)

/-- The turn of an agent other than CMD. -/
def agentTurn (a : Act) (s : State) : Host.Outcome State Fault Refusal :=
  match a with
  | .disp => finish (dispTurn s)
  | a => .next (s.external a)

/-- A frame refused at decode: IllegalCommand, nothing else (30 R106, R107). -/
def illegalFrame (rest : List Word) (s : State) : Host.Outcome State Fault Refusal :=
  refuse .illegalCommand { s with cmdPort := rest }

/-- Put words where CMD takes its next frame, and make the next turn CMD's. -/
def State.placeFrame (s : State) (ws : List Word) : State :=
  { s with
    cmdPort := ws ++ s.cmdPort
    turns := match s.turns with
      | [] => []
      | t :: rest => .cmd :: t :: rest }

end Sys2Proof.Machine
end

