-- ==== Sys2Proof/Machine/Step.lean ====
section
/-! DEFINITION. One step of the machine: one turn of one agent (00 R10, log 1). -/

namespace Sys2Proof.Machine

/-- CMD's turn: the frame at the head of the command port; nothing while no frame is complete (30 R100). -/
def cmdTurn (s : State) : Host.Outcome State Fault Refusal :=
  match decode s.cmdPort with
  | .incomplete => .next s
  | .illegal _ rest => illegalFrame rest s
  | .instr i rest => exec i { s with cmdPort := rest }

/-- One step: the next agent's turn. -/
def step (s : State) : Host.Outcome State Fault Refusal :=
  match s.nextTurn with
  | (.cmd, s) => cmdTurn s
  | (.act a, s) => agentTurn a s

/-- The state with an instruction, its bits numbered as the opcode table numbers them, as CMD's next frame. -/
def State.withFetchWord (s : State) (nbits w : Nat) : State := s.placeFrame (tableFrame nbits w)

end Sys2Proof.Machine
end

