-- ==== Sys2Proof/Machine/Pseudo.lean ====
section
/-! DEFINITION. The pseudo-instructions of 30 R119 and the upstream code `Busy` of 30 R120. They are the host's: each
stands for commands issued in order. -/

namespace Sys2Proof.Machine

/-- The pseudo-instructions (30 R119). -/
inductive Pseudo where
  | buReady
  | attach
  | xmit (h : Handle) (len : Word)
  | rxPost (h : Handle) (len : Word)
deriving DecidableEq, Repr

/-- A command of an expansion; its operands may be what `PROP.QSIZE` returns when it is issued (30 R119). -/
abbrev Issue : Type := State → Instr

/-- `VQ.CREATE q, qsize[q]` and `BU.QWIRE q` (30 R119). -/
def wireUp (q : Role) : List Issue := [fun s => .vqCreate q (s.qsize.get q), fun _ => .buQwire q]

/-- The expansion of `BU.READY` (30 R119). -/
def readyCommands : List Issue := wireUp .q0 ++ wireUp .q1 ++ wireUp .q2 ++ [fun _ => .buIrq, fun _ => .buOk]

/-- The four commands of `ATTACH` before `BU.READY` (30 R119). -/
def openCommands : List Issue := [fun _ => .buReset, fun _ => .buAck, fun _ => .buDriver, fun _ => .buFeatures]

/-- A one-segment submission: `[h:len:r]` or `[h:len:w]` (30 R118). -/
def oneSegment (q : Role) (writable : Bool) (h : Handle) (len : Word) : Instr :=
  .vqSubmit q [{ ctl := h.setWidth 32 ||| (if writable then 0x80000000#32 else 0), len := len }]

/-- The expansion of a pseudo-instruction (30 R119). -/
def Pseudo.expand : Pseudo → List Issue
  | .buReady => readyCommands
  | .attach => openCommands ++ readyCommands
  | .xmit h len => [fun s => oneSegment s.cfg.qTx false h len]
  | .rxPost h len => [fun s => oneSegment s.cfg.qRx true h len]

/-- ERR of the response frame that stands from position `n` of the response port (30 R114). -/
def State.errFrom (s : State) (n : Nat) : Nat := ((s.respPort.drop n).headD 0).toNat % 256

/-- Issue commands in order; stop after the first response with ERR ≠ 0 (30 R119). -/
def issueAll : List Issue → State → Host.Outcome State Fault Refusal
  | [], s => .next s
  | f :: rest, s =>
    match exec (f s) s with
    | .next t => if t.errFrom s.respPort.length = 0 then issueAll rest t else .next t
    | .fault e => .fault e
    | .refused e => .refused e

/-- Run a pseudo-instruction (30 R119). -/
def runPseudo (p : Pseudo) (s : State) : Host.Outcome State Fault Refusal := issueAll p.expand s

/-- What `transmit` reports upstream (30 R120). -/
inductive Transmit where
  | ok
  | busy
  | error (code : Nat)
deriving DecidableEq, Repr

/-- `Busy` exactly for QueueFull; any other error passes unchanged (30 R120). -/
def transmitResult (code : Nat) : Transmit :=
  if code = Err.ok.code then .ok else if code = Err.queueFull.code then .busy else .error code

end Sys2Proof.Machine
end

