-- ==== Sys2Proof/Safety.lean ====
section
/-! DEFINITION. What a safe state is: the invariants the spec states about the whole machine, each a computable check.
`State.safe` is their conjunction; a claim about a run is about states that have it. -/

namespace Sys2Proof.Machine

/-! ## Shared memory -/

/-- Memory is in its canonical form (log 6). -/
def State.memCanonical (s : State) : Bool := Memory.wf (poolKind s.pool) s.mem

/-! ## Between two turns -/

/-- The drain the dispatcher is in, with its queue's lock taken. -/
def State.drainOf (s : State) : Option DrainRun :=
  match s.disp, s.walk with
  | .walk, .drain r => some r
  | _, _ => none

/-- The three roles. -/
def Role.every : List Role := [.q0, .q1, .q2]

/-- Between turns CMD holds no lock, and DISP holds one, that of the queue it is draining, or none: a lock is given back
by the operation that took it (20 R84), and no agent ever holds two (20 R85). -/
def State.locksOk (s : State) : Bool :=
  Role.every.all (fun q =>
    (s.queue q).lock == if s.drainOf.isSome && s.dq == q then some .disp else none)

/-- No store of CMD is pending between turns: every command that stores ends with a FENCE (41 R162). -/
def State.storesSettled (s : State) : Bool := s.wbuf == []

/-! ## The bring-up machine -/

/-- No element occurs twice. -/
def distinct {α : Type} [DecidableEq α] : List α → Bool
  | [] => true
  | a :: rest => !rest.contains a && distinct rest

/-- What is acquired in each `fsm` state, in the order of acquisition (60 R277): nothing outside a Device's life, the
windows from BU.RESET on, the valid queues in FEATURES_OK and DRIVER_READY, the interrupt path last. -/
def State.acqOk (s : State) : Bool :=
  match s.fsm with
  | .detached | .failed => s.acq == [] && !s.winMapped && !s.irqEn
  | .reset | .acknowledged | .driverLoaded => s.acq == [.win] && s.winMapped && !s.irqEn
  | .featuresOk | .driverReady =>
    s.winMapped && distinct (acquiredQueues s.acq)
      && s.acq == (if s.irqEn then [.irq] else []) ++ (acquiredQueues s.acq).map .qr ++ [.win]
      && Role.every.all (fun q => (acquiredQueues s.acq).contains q == (s.queue q).valid)

/-- Which queues exist and are wired, by `fsm` (41 R153, 43 R211, R212): valid queues only in DETACHED, FEATURES_OK and
DRIVER_READY; wired ones only in the last two; the handler only over three wired queues; DRIVER_READY only with the
handler. -/
def State.queuesByFsm (s : State) : Bool :=
  (s.queues.all (fun x => !x.valid) || s.fsm == .detached || s.fsm == .featuresOk || s.fsm == .driverReady)
    && (s.queues.all (fun x => !x.wired) || s.fsm == .featuresOk || s.fsm == .driverReady)
    && s.queues.all (fun x => !x.wired || x.valid)
    && (!s.irqEn || s.queues.all (fun x => x.wired))
    && (s.fsm != .driverReady || s.irqEn)

/-- The dispatcher is at work only while the handler is registered (44 R231, R239; 43 R215, 60 R276). -/
def State.dispOk (s : State) : Bool := s.disp == .idle || s.irqEn

/-- The status shadow (43 R202, R213): zero in DETACHED, no DRIVER_OK bit before DRIVER_READY. -/
def State.shadowOk (s : State) : Bool :=
  (s.fsm != .detached || s.stShadow == 0)
    && (s.fsm == .driverReady || s.fsm == .failed || (s.stShadow &&& s.cfg.stDriverOk) == 0)

/-- The negotiated mask (43 R206, R218): inside the offered and the supported masks, zero before BU.FEATURES, nonzero
from FEATURES_OK on. -/
def State.featuresNegotiated (s : State) : Bool :=
  (s.negotiated &&& ~~~s.offered) == 0 && (s.negotiated &&& ~~~s.cfg.driverSupported) == 0
    && (match s.fsm with
      | .detached | .reset | .acknowledged | .driverLoaded => s.negotiated == 0
      | .featuresOk | .driverReady => s.negotiated != 0
      | .failed => true)

/-- The reported sizes are 0 before BU.DRIVER and after BU.DETACH (43 R219), legal from DRIVER_LOADED on (43 R205). -/
def State.sizesOk (s : State) : Bool :=
  match s.fsm with
  | .detached | .reset | .acknowledged => s.qsize == ⟨0, 0, 0⟩
  | .driverLoaded | .featuresOk | .driverReady => s.qsize.all queueSizeOk
  | .failed => true

/-- Everything above about bring-up. -/
def State.bringUpOk (s : State) : Bool :=
  s.acqOk && s.queuesByFsm && s.dispOk && s.shadowOk && s.featuresNegotiated && s.sizesOk

/-! ## The slot table -/

/-- One slot (10 R32, R33; 42 R181): a FREE slot has every field at reset, a live one a page-aligned region below the
ceiling; an orphan is neither internal nor on loan; only internal slots are zero-filled. -/
def State.slotOk (s : State) (x : Slot) : Bool :=
  if x.alloc then
    x.bus.toNat % pageBytes == 0 && decide (x.bus.toNat + x.extent ≤ s.cfg.paCeiling) && decide (1 ≤ x.len.toNat)
      && (!x.orphan || (!x.internal && x.loan == none)) && (x.fill != .zero || x.internal)
  else x == Slot.free

/-- Live slots never overlap (10 R32). -/
def slotsApart : List Slot → Bool
  | [] => true
  | x :: rest =>
    rest.all (fun y => !x.alloc || !y.alloc || Config.apart x.bus.toNat x.extent y.bus.toNat y.extent)
      && slotsApart rest

/-- The slot table is well formed (10 R32, R33). -/
def State.poolOk (s : State) : Bool :=
  s.pool.length == s.cfg.poolSlots && s.pool.all s.slotOk && slotsApart s.pool

/-! ## The rings -/

/-- The region of a valid queue is a live, zero-filled, internal slot of the queue's size, never on loan, at `base`
(10 R24, 20 R73, 41 R155); in a Device's life N is the reported size (43 R209). -/
def State.regionOk (s : State) (q : Role) : Bool :=
  let x := s.queue q
  let r := s.slot x.region.toNat
  queueSizeOk x.n && x.desc.length == x.n.toNat && decide (x.region.toNat < s.cfg.poolSlots) && r.alloc && r.internal
    && r.fill == .zero && r.loan == none && r.len.toNat == regionBytes x.n.toNat && r.bus == x.base
    && (s.fsm == .detached || x.n == s.qsize.get q)

/-- The descriptor indices of a queue. -/
def Queue.indices (x : Queue) : List DescIdx := (List.range x.n.toNat).map (fun i => BitVec.ofNat 16 i)

/-- How many descriptors carry the tag Submitted(h). -/
def Queue.chainCount (x : Queue) (h : DescIdx) : Nat := (x.indices.filter (fun i => x.tagAt i == .submitted h)).length

/-- Every descriptor index is on the free-list, once, or in exactly one submitted chain, whose length is that of its
head; none is in the middle of a drain (10 R27). -/
def Queue.conserved (x : Queue) : Bool :=
  distinct x.free && x.free.all (fun i => decide (i.toNat < x.n.toNat))
    && x.indices.all (fun i =>
      match x.tagAt i with
      | .free => x.free.contains i
      | .submitted h =>
        !x.free.contains i && decide (h.toNat < x.n.toNat) && x.tagAt h == .submitted h
          && (i != h || (x.descAt h).chainLen.toNat == x.chainCount h)
      | .completedPendingReturn => false)

/-- The chain the dispatcher is walking, if it is inside one. -/
def DrainPos.visit : DrainPos → Option Visit
  | .flags v => some v
  | .link v => some v
  | .unlend v _ => some v
  | _ => none

/-- The queue as it was before the chain now being walked was visited: its tags say Submitted again. `conserved` holds
of it, because CompletedPendingReturn is held only inside a drain (10 R27). -/
def State.ring (s : State) (q : Role) : Queue :=
  match s.drainOf with
  | some r =>
    match r.pos.visit with
    | some v => if s.dq = q then (s.queue q).setTags (.submitted v.id) v.visited else s.queue q
    | none => s.queue q
  | none => s.queue q

/-- The indirect table of an in-flight head is an internal slot on loan to that chain (41 R163). -/
def State.tablesOk (s : State) (q : Role) : Bool :=
  (s.ring q).indices.all (fun i =>
    (s.ring q).tagAt i != .submitted i ||
      match ((s.ring q).descAt i).ind with
      | none => true
      | some t => (s.slot t.toNat).alloc && (s.slot t.toNat).internal
          && (s.slot t.toNat).loan == some { q := q, head := i })

/-- One queue: nothing when it does not exist; otherwise its region, and unless it is broken its descriptors and
tables (10 R27, R31). -/
def State.queueOk (s : State) (q : Role) : Bool :=
  if (s.queue q).valid then
    s.regionOk q && ((s.queue q).broken || ((s.ring q).conserved && s.tablesOk q))
  else { s.queue q with lock := none } == Queue.empty

/-- The handles of the chains that the dispatcher has drained in its walk of the present queue: they stay LOANED until the
walk hands them over (44 R234, log 2). -/
def State.toHandOver (s : State) : List Handle :=
  match s.drainOf with
  | some r => r.out.flatMap (fun d => d.handles)
  | none => []

/-- A loan names an in-flight chain of a valid queue, or one the dispatcher has drained and not handed over yet; an internal slot
on loan is an in-flight chain's table; an internal slot not on loan is the region of a valid queue (10 R28, R33; 42 R187). -/
def State.loanOk (s : State) (h : Handle) : Bool :=
  match (s.slot h.toNat).loan with
  | some l =>
    (s.queue l.q).valid && ((s.queue l.q).broken || (s.toHandOver.contains h && s.dq == l.q) ||
      (decide (l.head.toNat < (s.queue l.q).n.toNat) && (s.ring l.q).tagAt l.head == .submitted l.head
        && (!(s.slot h.toNat).internal || ((s.queue l.q).descAt l.head).ind == some h)))
  | none => !(s.slot h.toNat).internal || Role.every.any (fun q => (s.queue q).valid && (s.queue q).region == h)

/-- Two valid queues never share a region (10 R20). -/
def State.regionsDistinct (s : State) : Bool :=
  Role.every.all (fun p => Role.every.all (fun q =>
    p == q || !(s.queue p).valid || !(s.queue q).valid || (s.queue p).region != (s.queue q).region))

/-! ## The dispatcher's walk -/

/-- The walk of a chain (41 R165): the descriptors visited are distinct, exist and carry CompletedPendingReturn; the one
it stands at belongs to the chain; when it has ended it has as many descriptors as the chain. -/
def State.visitOk (s : State) (q : Role) (p : DrainPos) : Bool :=
  let x := s.queue q
  match p with
  | .flags v =>
    distinct v.visited && v.visited.all (fun i => decide (i.toNat < x.n.toNat) && x.tagAt i == .completedPendingReturn)
      && decide (v.cur.toNat < x.n.toNat) && x.tagAt v.cur == .submitted v.id && decide (v.id.toNat < x.n.toNat)
      && decide (v.rest < x.n.toNat)
  | .link v =>
    distinct v.visited && v.visited.all (fun i => decide (i.toNat < x.n.toNat) && x.tagAt i == .completedPendingReturn)
      && v.visited.contains v.cur && decide (v.id.toNat < x.n.toNat) && decide (v.rest < x.n.toNat)
  | .unlend v done =>
    done == [] && distinct v.visited && v.visited.all (fun i => decide (i.toNat < x.n.toNat) && x.tagAt i == .completedPendingReturn)
      && v.visited != [] && decide (v.id.toNat < x.n.toNat) && decide (v.rest < x.n.toNat)
      && v.visited.length == (x.descAt v.id).chainLen.toNat
  | .element rest => decide (rest < x.n.toNat)
  | .length rest _ => decide (rest < x.n.toNat)
  | .start => true
  | .finished _ => false

/-- The slots the dispatcher has to hand over are command slots on loan to the queue it walks, each named once: at the end the
loan makes each OWNED, and a free of it FREE (42 R187). -/
def State.toHandOverLent (s : State) : Bool :=
  distinct s.toHandOver && s.toHandOver.all (fun h =>
    (s.slot h.toNat).alloc && !(s.slot h.toNat).internal
      && match (s.slot h.toNat).loan with
        | some l => l.q == s.dq
        | none => false)

/-- The dispatcher inside D_WALK: outside that state nothing is left of a walk; a drain past its first step is of a
queue that is not broken; what it has to hand over is on loan. -/
def State.walkOk (s : State) : Bool :=
  (s.disp == .walk || s.walk == .enter) && s.toHandOverLent
    && match s.drainOf with
      | some r => (r.pos == .start || !(s.queue s.dq).broken) && s.visitOk s.dq r.pos
      | none => true

/-- Everything above about rings and loans. -/
def State.ringsOk (s : State) : Bool :=
  Role.every.all s.queueOk && s.handles.all s.loanOk && s.regionsDistinct

/-- A safe state. -/
def State.safe (s : State) : Bool :=
  s.cfg.wf && s.memCanonical && s.locksOk && s.storesSettled && s.bringUpOk && s.poolOk && s.ringsOk
    && s.walkOk

/-! ## Conforming devices -/

/-- The device owes no look at `avail.idx`: where it has set a notify hint, it has cleared it and looked again (45 R259, 70
R317). While it is not active on a queue it may not look, and owes nothing there (DESIGN CHOICE, log 13). -/
def State.hintsKept (s : State) : Bool := Role.every.all (fun q => s.dev.poll.get q == .no || !s.devActive q)

/-- The act is one a conforming device, the host, the platform or the memory system may do (45 R253 to R262): the stores
of a conforming device are `devWrite`, inside the writable buffers of a chain it has consumed (45 R256), and those of
`devComplete` and `devHint`. -/
def Act.conforms : Act → Bool
  | .devForge _ => false
  | .devStore _ _ => false
  | _ => true

/-- These acts, from this state, are a conforming device's that has stopped polling by the end: each conforms, and no look is
owed for a notify hint (45 R259, 70 R317). -/
def State.conformingRun (s : State) (acts : List Act) : Bool :=
  acts.all Act.conforms && (s.externals acts).hintsKept

end Sys2Proof.Machine
end

