-- ==== Sys2Proof/Certificates/Slice0/Obligations.lean ====
section
/-! DEFINITION. The statements for the provers. `s1` with `cmdGap s = .ok s1` is the state a command's one access meets:
`s` after whatever the other agents did just before it (20 R80 (g)). A statement about a command of several accesses
says `s.gaps = []` where it gives the exact outcome of the command's own effect; O2 and the invariants are about every
schedule. The schedule, the pending stores, memory's form, PLAT's input lists and the bus trace are the model's own: logs
1, 2, 5, 6, 7 and 9; no statement rests on the values of log 3, on the parameters log 4 chose, or on a free value. A
queue that DISP is draining is locked (20 R84): statements about a command on it say `lock = none`, and O57 says that
otherwise the command waits. -/

namespace Sys2Proof.Claims

open Sys2Proof Sys2Proof.Machine

/-! ## Words the statements share -/

/-- Access widths (20 R78). -/
inductive Width where
  | w8
  | w16
  | w32
deriving DecidableEq, Repr

/-- The width in bytes. -/
def Width.bytes : Width → Nat
  | .w8 => 1
  | .w16 => 2
  | .w32 => 4

/-- The six register read commands (40 R136 to R138, R142 to R144). -/
def readCommand : Win → Width → BitVec 16 → Instr
  | .w0, .w8, off => .rd8 off
  | .w0, .w16, off => .rd16 off
  | .w0, .w32, off => .rd32 off
  | .w1, .w8, off => .drd8 off
  | .w1, .w16, off => .drd16 off
  | .w1, .w32, off => .drd32 off

/-- The six register write commands (40 R139 to R141, R145 to R147). -/
def writeCommand : Win → Width → BitVec 16 → Word → Instr
  | .w0, .w8, off, v => .wr8 off v
  | .w0, .w16, off, v => .wr16 off v
  | .w0, .w32, off, v => .wr32 off v
  | .w1, .w8, off, v => .dwr8 off v
  | .w1, .w16, off, v => .dwr16 off v
  | .w1, .w32, off, v => .dwr32 off v

/-- The answer `e` with no data, and nothing else changed (60 R274). -/
def Refused (i : Instr) (e : Err) (s : State) : Prop := exec i s = .next (s.respond e [])

/-- Every byte of memory reads in `t` as in `s`. -/
def SameBytes (s t : State) : Prop := ∀ a, t.byteAt a = s.byteAt a

/-- Every byte outside the given ranges (first address, length) reads in `t` as in `s`. -/
def SameBytesOutside (ranges : List (Nat × Nat)) (s t : State) : Prop :=
  ∀ a, (∀ r ∈ ranges, a < r.1 ∨ r.1 + r.2 ≤ a) → t.byteAt a = s.byteAt a

/-- The queues other than `q` are unchanged. -/
def SameOtherQueues (q : Role) (s t : State) : Prop := ∀ p, p ≠ q → t.queue p = s.queue p

/-- The response frames of a command: `t`'s response port is `s`'s and this frame (30 R100, R114). -/
def Answered (e : Err) (data : List Word) (s t : State) : Prop :=
  t.respPort = s.respPort ++ (frameWord e.code data.length :: data)

/-- The bus operations of `t` are those of `s` and these, in order. -/
def Made (ops : List BusOp) (s t : State) : Prop := t.bus = s.bus ++ ops.map (fun o => { agent := .cmd, op := o })

/-- A status write of `v` as it stands on the bus (43 R202). -/
def statusOp (s : State) (v : BitVec 8) : BusOp := .regWrite .w0 s.cfg.offDeviceStatus [v]

/-- Everything but the named parts is unchanged: this holds of the global fields, the schedule and the ports that no
ring command writes. -/
def SameGlobals (s t : State) : Prop :=
  t.cfg = s.cfg ∧ t.fsm = s.fsm ∧ t.stShadow = s.stShadow ∧ t.offered = s.offered ∧ t.negotiated = s.negotiated
    ∧ t.qsize = s.qsize ∧ t.winMapped = s.winMapped ∧ t.irqEn = s.irqEn ∧ t.acq = s.acq ∧ t.errLatch = s.errLatch
    ∧ t.disp = s.disp ∧ t.isrLat = s.isrLat ∧ t.dq = s.dq ∧ t.walk = s.walk ∧ t.eventPort = s.eventPort
    ∧ t.cmdPort = s.cmdPort ∧ t.hostSeen = s.hostSeen ∧ t.turns = s.turns ∧ t.dev = s.dev

/-- The descriptor indices a submission of `n` descriptors takes, oldest first (10 R25). -/
def taken (x : Queue) (n : Nat) : List DescIdx := x.free.take n

/-- `indirect(s)`: negotiated[F_INDIRECT] = 1 and s > IND_THRESH (41 R152). -/
def goesIndirect (s : State) (count : Nat) : Bool :=
  s.negotiated.getLsbD s.cfg.fIndirect && decide (s.cfg.indThresh < count)

/-- `need(s)`: 1 if indirect(s), else s (41 R152). -/
def descsNeeded (s : State) (count : Nat) : Nat := if goesIndirect s count then 1 else count

/-- The four stores of descriptor `d` of a table: address, length, flags, next (20 R74, 41 R160). -/
def descOps (table d addr len flags next : Nat) : List BusOp :=
  [.memWrite (table + 16 * d) 8 addr, .memWrite (table + 16 * d + 8) 4 len, .memWrite (table + 16 * d + 12) 2 flags,
   .memWrite (table + 16 * d + 14) 2 next]

/-- The stores of one descriptor per segment, the k-th at entry `place k` of a table and chained to the next (41 R160,
R163). -/
def chainOps (s : State) (segs : List Seg) (table : Nat) (place : Nat → Nat) : List BusOp :=
  (List.range segs.length).flatMap (fun k =>
    let g := segs.getD k { ctl := 0, len := 0 }
    descOps table (place k) (s.slot (g.ctl.setWidth 16 : Handle).toNat).bus.toNat g.len.toNat
      ((if k + 1 < segs.length then s.cfg.dfChained else 0) ||| (if g.ctl.msb then s.cfg.dfWritable else 0)).toNat
      (if k + 1 < segs.length then place (k + 1) else 0))

/-- The descriptor stores of a submission (41 R160); of an indirect one, its table at `b` first and then the descriptor that
names the table (41 R163). -/
def submitOps (s : State) (q : Role) (segs : List Seg) (b : Addr) (head : DescIdx) : List BusOp :=
  if goesIndirect s segs.length then
    chainOps s segs b.toNat (fun k => k)
      ++ descOps (s.queue q).base.toNat head.toNat b.toNat (16 * segs.length) s.cfg.dfIndirect.toNat 0
  else chainOps s segs (s.queue q).base.toNat (fun k => ((s.queue q).free.getD k 0).toNat)

/-- Descriptor `d` of a table as memory holds it: address, length, flags, next (20 R74). -/
def DescIs (t : State) (table d addr len flags next : Nat) : Prop :=
  t.readLe (table + 16 * d) 8 = some addr ∧ t.readLe (table + 16 * d + 8) 4 = some len
    ∧ t.readLe (table + 16 * d + 12) 2 = some flags ∧ t.readLe (table + 16 * d + 14) 2 = some next

/-- Descriptor `d` of a table has DF_CHAINED as said (20 R74). -/
def ChainedIs (s : State) (base : Nat) (d : DescIdx) (chained : Bool) : Prop :=
  ∃ f, s.readLe (base + 16 * d.toNat + 12) 2 = some f ∧ ((BitVec.ofNat 16 f &&& s.cfg.dfChained) != 0) = chained

/-- In memory each of these descriptors but the last is chained to the one after it (20 R74, 41 R165). -/
def LinkedInMemory (s : State) (base : Nat) : List DescIdx → Prop
  | [] => True
  | [_] => True
  | d :: e :: rest =>
    ChainedIs s base d true ∧ s.readLe (base + 16 * d.toNat + 14) 2 = some e.toNat ∧ LinkedInMemory s base (e :: rest)

/-- A completed chain: its head, its descriptors in link order, the length the device reports. -/
structure DoneChain where
  id : DescIdx
  order : List DescIdx
  len : Nat

/-- The j-th used element not drained yet names `id` and `len` (20 R76, 41 R165). -/
def UsedElement (s : State) (q : Role) (j id len : Nat) : Prop :=
  let x := s.queue q
  let k := (x.lastUsed + BitVec.ofNat 16 j).toNat % x.n.toNat
  s.readLe (usedIdAddr x.base.toNat x.n.toNat k) 4 = some id ∧ s.readLe (usedLenAddr x.base.toNat x.n.toNat k) 4 = some len

/-- Different descriptors of the chain with head `id`, that head first (10 R29). -/
def MembersFrom (s : State) (q : Role) (id : DescIdx) (ds : List DescIdx) : Prop :=
  ds.head? = some id ∧ ds.Nodup ∧ ∀ d ∈ ds, d.toNat < (s.queue q).n.toNat ∧ (s.queue q).tagAt d = .submitted id

/-- The next used elements name these chains, different ones, in used-ring order; memory links each as it was submitted,
with `chain_len` descriptors. -/
def ChainsCompleted (s : State) (q : Role) (chains : List DoneChain) : Prop :=
  (chains.map (fun c => c.id)).Nodup ∧ ∀ j c, chains[j]? = some c →
    UsedElement s q j c.id.toNat c.len ∧ MembersFrom s q c.id c.order
      ∧ c.order.length = ((s.queue q).descAt c.id).chainLen.toNat
      ∧ LinkedInMemory s (s.queue q).base.toNat c.order
      ∧ ∃ d, c.order.getLast? = some d ∧ ChainedIs s (s.queue q).base.toNat d false

/-- The used element after those chains is corrupt (41 R166). `visited` are the descriptors the walk visits before it
finds that: none when `id` is out of range, free, no head, or already drained; otherwise up to a link that leads out of
range, out of the chain or back, or to the end of a chain of another length. -/
def ElementCorrupt (s : State) (q : Role) (chains : List DoneChain) (visited : List DescIdx) : Prop :=
  ∃ id len, UsedElement s q chains.length id len ∧
    ((visited = [] ∧ ((s.queue q).n.toNat ≤ id ∨ (s.queue q).tagAt (BitVec.ofNat 16 id) ≠ .submitted (BitVec.ofNat 16 id)
        ∨ ∃ c ∈ chains, c.id.toNat = id))
      ∨ (id < (s.queue q).n.toNat ∧ (∀ c ∈ chains, c.id.toNat ≠ id) ∧ MembersFrom s q (BitVec.ofNat 16 id) visited
        ∧ LinkedInMemory s (s.queue q).base.toNat visited
        ∧ ∃ d, visited.getLast? = some d
          ∧ ((ChainedIs s (s.queue q).base.toNat d false
                ∧ visited.length ≠ ((s.queue q).descAt (BitVec.ofNat 16 id)).chainLen.toNat)
            ∨ (ChainedIs s (s.queue q).base.toNat d true
                ∧ ∃ nx, s.readLe ((s.queue q).base.toNat + 16 * d.toNat + 14) 2 = some nx
                  ∧ ((s.queue q).n.toNat ≤ nx
                    ∨ (s.queue q).tagAt (BitVec.ofNat 16 nx) ≠ .submitted (BitVec.ofNat 16 id)
                    ∨ BitVec.ofNat 16 nx ∈ visited)))))

/-- What a drain of queue `q` finds (41 R164 to R166): these completed chains, and then the used index, or corruption: an
index ahead by more than N, or a corrupt element. -/
def DrainFinds (s : State) (q : Role) (chains : List DoneChain) (visited : List DescIdx) (corrupt : Bool) : Prop :=
  ChainsCompleted s q chains ∧ ∃ idx, s.readLe (usedIdxAddr (s.queue q).base.toNat (s.queue q).n.toNat) 2 = some idx ∧
    (if corrupt then
      ((s.queue q).n.toNat < (BitVec.ofNat 16 idx - (s.queue q).lastUsed).toNat ∧ chains = [] ∧ visited = [])
        ∨ (chains.length < (BitVec.ofNat 16 idx - (s.queue q).lastUsed).toNat
          ∧ (BitVec.ofNat 16 idx - (s.queue q).lastUsed).toNat ≤ (s.queue q).n.toNat ∧ ElementCorrupt s q chains visited)
    else BitVec.ofNat 16 idx = (s.queue q).lastUsed + BitVec.ofNat 16 chains.length ∧ visited = [])

/-- What a drain leaves of its queue (41 R164 to R166): the chains' descriptors at the back of the free-list in link order,
`last_used` past them, `broken` exactly after corruption, the tags of a walk that found corruption as it left them. -/
def QueueDrained (s t : State) (q : Role) (chains : List DoneChain) (visited : List DescIdx) (corrupt : Bool) : Prop :=
  (t.queue q).free = (s.queue q).free ++ chains.flatMap (fun c => c.order)
    ∧ (t.queue q).lastUsed = (s.queue q).lastUsed + BitVec.ofNat 16 chains.length ∧ (t.queue q).broken = corrupt
    ∧ (∀ c ∈ chains, ∀ d ∈ c.order, (t.queue q).tagAt d = .free)
    ∧ (∀ d ∈ visited, (t.queue q).tagAt d = .completedPendingReturn)
    ∧ (∀ d, (∀ c ∈ chains, d ∉ c.order) → d ∉ visited → (t.queue q).tagAt d = (s.queue q).tagAt d)
    ∧ (∀ d, { (t.queue q).descAt d with tag := (s.queue q).tagAt d } = (s.queue q).descAt d)
    ∧ { t.queue q with free := (s.queue q).free, lastUsed := (s.queue q).lastUsed, broken := (s.queue q).broken,
                       desc := (s.queue q).desc } = s.queue q

/-- A drain by CMD gives back what was lent to the chains: buffers OWNED, indirect tables FREE; no other slot changes
(41 R165). -/
def LoansGivenBack (s t : State) (q : Role) (chains : List DoneChain) : Prop :=
  ∀ k, t.slot k = if (∃ c ∈ chains, (s.slot k).loan = some { q := q, head := c.id })
    then (if (s.slot k).internal then Slot.free else { s.slot k with loan := none }) else s.slot k

/-- What a drain by CMD of queue `q` does on its buses: the read of the used index, a FENCE, and then reads alone, the first of
them of the id of the oldest used element not drained (20 R82, 41 R164, R165). There is such a read when there is a chain. -/
def DrainReads (s t : State) (q : Role) (chains : List DoneChain) : Prop :=
  ∃ idx reads, s.readLe (usedIdxAddr (s.queue q).base.toNat (s.queue q).n.toNat) 2 = some idx
    ∧ Made (.memRead (usedIdxAddr (s.queue q).base.toNat (s.queue q).n.toNat) 2 idx :: .fence :: reads) s t
    ∧ (∀ o ∈ reads, ∃ a n v, o = .memRead a n v) ∧ (chains ≠ [] → reads ≠ [])
    ∧ (∀ o, reads.head? = some o → ∃ id, o = .memRead (usedIdAddr (s.queue q).base.toNat (s.queue q).n.toNat
        ((s.queue q).lastUsed.toNat % (s.queue q).n.toNat)) 4 id)

/-- The data words of a drain: for each chain its cookie and the length the device reported (30 R115, 41 R164). -/
def drainedWords (x : Queue) (chains : List DoneChain) : List Word :=
  chains.flatMap (fun c => [(x.descAt c.id).cookie.setWidth 32, BitVec.ofNat 32 c.len])

/-- `n` steps of DISP with nobody else moving. -/
def dispSteps : Nat → State → Except Fault State
  | 0, s => .ok s
  | n + 1, s =>
    match dispTurn s with
    | .ok t => dispSteps n t
    | .error f => .error f

/-- Every byte that still exists in `t` reads as in `s`. -/
def SameLiveBytes (s t : State) : Prop := ∀ a, poolKind t.pool a ≠ .dead → t.byteAt a = s.byteAt a

end Sys2Proof.Claims

open Sys2Proof Sys2Proof.Machine Sys2Proof.Claims

/-! ## Decoding and stepping -/

/-- 00 R10, 30 R100: when the turn is CMD's and the words at the head of the command port decode to an instruction, the
step is exec of it, its frame taken from the port and the turn spent; another agent's turn is its act, DISP's is one
step of the dispatcher. Which turn comes next is the model's input (log 1). -/
def Obligations.StepRunsDecodedInstruction : Prop :=
  ∀ (s : State) (i : Instr) (rest : List Word), decode s.cmdPort = .instr i rest →
    (s.turns = [] → step s = exec i { s with cmdPort := rest })
      ∧ (∀ ts, s.turns = .cmd :: ts → step s = exec i { s with cmdPort := rest, turns := ts })
      ∧ (∀ a ts, a ≠ .disp → s.turns = .act a :: ts → step s = .next (State.external { s with turns := ts } a))
      ∧ (∀ ts, s.turns = .act .disp :: ts → step s = finish (dispTurn { s with turns := ts }))

/-- 30 R100, 60 R270, R289: from every safe state, whatever the other agents do between its accesses, a command that
fits a frame answers with exactly one response frame, whose code is one of 0 to 11 and whose data-word count is
right; it never stops the machine. -/
def Obligations.EveryCommandAnswersOnce : Prop :=
  ∀ (s : State) (i : Instr), s.safe = true → i.wellFormed = true →
    ∃ (t : State) (e : Err) (data : List Word), exec i s = .next t ∧ Answered e data s t

/-- 30 R103: the frame at the head of the port has the length its OPC and IMM16 alone give, and that many words are
consumed whether or not the command is refused. -/
def Obligations.FrameLengthByOpcAndImm : Prop :=
  ∀ (h : Word) (ops rest : List Word),
    (match formatOf (hdrOpc h) with
      | some .ow => ops.length = 1
      | some .dl => ops.length = 1
      | some .qs => ops.length = 2 * (hdrImm h).toNat
      | _ => ops.length = 0) →
    (∃ i, decode (h :: ops ++ rest) = .instr i rest) ∨ (∃ why, decode (h :: ops ++ rest) = .illegal why rest)

/-- 30 R105: a header that no row of the table selects is refused; a header that a row selects, with a role that
exists, is a command of that row's OPC; no header is selected by two rows. -/
def Obligations.HeaderSelectsByMaskAndMatch : Prop :=
  ∀ (h : Word) (ops rest : List Word), ops.length = operandCount h →
    ((∀ r ∈ opRows, r.selects h = false) → ∃ why, decode (h :: ops ++ rest) = .illegal why rest)
      ∧ (∀ r ∈ opRows, r.selects h = true → hdrQ h ≠ 3#2 →
          ∃ i, decode (h :: ops ++ rest) = .instr i rest ∧ r.opc = hdrOpc h
            ∧ (encode i).headD 0 = h)
      ∧ (∀ r ∈ opRows, ∀ r' ∈ opRows, r.selects h = true → r'.selects h = true → r = r')

/-- 30 R106, R107: a frame refused at decode is answered `IllegalCommand` with no data; its words are gone from the
port and nothing else changes. -/
def Obligations.RefusedFrameChangesNothing : Prop :=
  ∀ (s : State) (why : Illegal) (rest : List Word), s.turns = [] → decode s.cmdPort = .illegal why rest →
    step s = .next { s with cmdPort := rest, respPort := s.respPort ++ [0x00000007#32] }

/-- 30 R101 to R113: decoding the frame of a well-formed instruction gives the instruction back, with every operand at
every value, and leaves the words after it. -/
def Obligations.DecodeInvertsEncode : Prop :=
  ∀ (i : Instr) (rest : List Word), i.wellFormed = true → decode (encode i ++ rest) = .instr i rest

/-- 30 R108: a word stream that decodes to a command is that command's own frame and the rest: no bit of a frame is
ignored, no command has two frames, and what is decoded is well formed. -/
def Obligations.EncodeInvertsDecode : Prop :=
  ∀ (i : Instr) (ws rest : List Word), decode ws = .instr i rest → ws = encode i ++ rest ∧ i.wellFormed = true

/-- 95 B1: words of the spec's own table decode to what it says. -/
def Obligations.SampleWordsDecode : Prop :=
  decode [0x04000013#32] = .instr (.rd8 19) []
    ∧ decode [0x14000012#32, 0x00000001#32] = .instr (.wr8 18 1) []
    ∧ decode [0x40008000#32] = .instr (.vqCreate .q0 0x8000#16) []
    ∧ decode [0x49000002#32, 0x00000005#32, 0x0000000E#32, 0x00000006#32, 0x000005DC#32]
        = .instr (.vqSubmit .q1 [⟨5, 14⟩, ⟨6, 1500⟩]) []
    ∧ decode [0x80010000#32, 0x00000800#32] = .instr (.poolReserve .fromDevice 0x800#32) []
    ∧ decode [0xD2000000#32] = .instr (.buQwire .q2) []
    ∧ decode [0xE4000000#32] = .instr .linkState []
    ∧ decode [0x43000004#32] = .illegal .reservedRole []
    ∧ decode [0x80020000#32, 0x00000040#32] = .illegal .nonzeroReservedField []

/-! ## Register access -/

/-- 40 R132, R133, 30 R110: with the windows unmapped every register command is refused with IllegalTransition; with
them mapped, a misaligned offset, one out of the window, or a value too wide is refused with IllegalCommand; nothing
else changes. -/
def Obligations.RegisterAccessRefused : Prop :=
  ∀ (s : State) (w : Win) (k : Width) (off : BitVec 16) (v : Word),
    (s.winMapped = false →
      Refused (readCommand w k off) .illegalTransition s ∧ Refused (writeCommand w k off v) .illegalTransition s)
      ∧ (s.winMapped = true → (off.toNat % k.bytes ≠ 0 ∨ s.winBytes w < off.toNat + k.bytes) →
          Refused (readCommand w k off) .illegalCommand s ∧ Refused (writeCommand w k off v) .illegalCommand s)
      ∧ (s.winMapped = true → 256 ^ k.bytes ≤ v.toNat → Refused (writeCommand w k off v) .illegalCommand s)

/-- 40 R130, R136 to R138: a read command at a register's own offset and width makes one bus read and answers OK with
the register's value, zero-extended; the read is ordered after the stores before it (20 R80 (f)). -/
def Obligations.RegisterReadAnswersValue : Prop :=
  ∀ (s s1 : State) (k : Width) (off : BitVec 16) (r : Reg0) (v : Nat),
    s.cfg.wf = true → s.winMapped = true → off.toNat = r.off s.cfg → k.bytes = r.bytes → cmdGap s = .ok s1 →
    s1.dev.regValue r = some v →
    exec (readCommand .w0 k off) s = .next
      (((s1.settle.setDev (s1.dev.readEffect r)).log .cmd (.regRead .w0 off.toNat (leBytes k.bytes v))).respond .ok
        [BitVec.ofNat 32 v])

/-- 10 R43, 20 R78, 45 R255: which value each register of window 0 answers, and that only a read of ISR has a side
effect: it clears the register. -/
def Obligations.OnlyIsrReadHasEffect : Prop :=
  ∀ (d : Device),
    d.regValue .deviceFeatures = some d.doffered.toNat ∧ d.regValue .guestFeatures = some d.dguest.toNat
      ∧ d.regValue .queueSelect = some d.dsel.toNat ∧ d.regValue .deviceStatus = some d.dstatus.toNat
      ∧ d.regValue .isr = some d.disr.toNat
      ∧ (∀ q, d.dsel.toNat = q.num →
          d.regValue .queueSize = some (d.dsize.get q).toNat ∧ d.regValue .queueAddress = some (d.daddr.get q).toNat)
      ∧ (3 ≤ d.dsel.toNat → d.regValue .queueSize = some 0)
      ∧ (d.readEffect .isr).regValue .isr = some 0
      ∧ { d.readEffect .isr with disr := d.disr, irqLine := d.irqLine } = d
      ∧ (∀ r, r ≠ .isr → d.readEffect r = d)

/-- 40 R131, R139 to R141, 45 R254, 70 R303: a write command at a register's own offset and width makes one bus write
with the value's bytes lowest first, answers OK, and the device reacts as its register table says. Zero
to the status register clears the device's queue and feature state and its pending causes. `poll` is the model's own field,
and that this write clears it is the model's choice (log 13). -/
def Obligations.RegisterWriteReachesRegister : Prop :=
  ∀ (s s1 : State) (k : Width) (off : BitVec 16) (r : Reg0) (v : Word),
    s.cfg.wf = true → s.winMapped = true → off.toNat = r.off s.cfg → k.bytes = r.bytes → v.toNat < 256 ^ k.bytes →
    cmdGap s = .ok s1 →
    ∃ d, exec (writeCommand .w0 k off v) s = .next
        (((s1.settle.setDev d).log .cmd (.regWrite .w0 off.toNat (leBytes k.bytes v.toNat))).respond .ok [])
      ∧ (r = .guestFeatures → d = { s1.dev with dguest := v })
      ∧ (r = .queueSelect → d = { s1.dev with dsel := v.setWidth 16 })
      ∧ (r = .queueAddress → ∀ q, s1.dev.dsel.toNat = q.num → d = { s1.dev with daddr := s1.dev.daddr.set q v })
      ∧ (r = .queueAddress → 3 ≤ s1.dev.dsel.toNat → d = s1.dev)
      ∧ (r = .deviceStatus → v = 0 →
          d = { s1.dev with dstatus := 0, dguest := 0, dsel := 0, daddr := ⟨0, 0, 0⟩, dlast := ⟨0, 0, 0⟩,
                            dused := ⟨0, 0, 0⟩, poll := ⟨.no, .no, .no⟩, disr := 0, consumed := [], irqLine := false })
      ∧ (r = .deviceStatus → v ≠ 0 → d = { s1.dev with dstatus := v.setWidth 8 })
      ∧ (r = .deviceFeatures ∨ r = .queueSize ∨ r = .queueNotify ∨ r = .isr → d = s1.dev)

/-- 40 R130, R142, R143: a read of a MAC byte or of the link status answers OK with the value in host order. -/
def Obligations.DeviceWindowReadAnswersValue : Prop :=
  ∀ (s s1 : State) (off : BitVec 16), s.cfg.wf = true → s.winMapped = true → cmdGap s = .ok s1 →
    s1.dev.win1Open = false →
    (∀ i, i < 6 → off.toNat = s.cfg.offMac + i →
      exec (.drd8 off) s = .next
        ((s1.settle.log .cmd (.regRead .w1 off.toNat [s1.dev.mac.getD i 0])).respond .ok
          [(s1.dev.mac.getD i 0).setWidth 32]))
    ∧ (off.toNat = s.cfg.offLinkStatus →
      exec (.drd16 off) s = .next
        ((s1.settle.log .cmd (.regRead .w1 off.toNat
            [s1.dev.link.setWidth 8, (s1.dev.link >>> 8).setWidth 8])).respond .ok
          [match s.cfg.hostEndian with
            | .little => s1.dev.link.setWidth 32
            | .big => ((s1.dev.link.setWidth 8 : Byte) ++ ((s1.dev.link >>> 8).setWidth 8 : Byte) : BitVec 16).setWidth 32]))

/-- 40 R130 to R147: every aligned access of the twelve register commands inside a mapped window, of a value that fits,
whether or not it matches a register, is one bus access and answers OK. A read answers one word, the bytes' value in
the window's order; a write sends the value's bytes in the window's order. The block's own state stays. -/
def Obligations.RegisterAccessCompletes : Prop :=
  ∀ (s s1 : State) (w : Win) (k : Width) (off : BitVec 16) (v : Word), s.winMapped = true →
    off.toNat % k.bytes = 0 → off.toNat + k.bytes ≤ s.winBytes w → v.toNat < 256 ^ k.bytes → cmdGap s = .ok s1 →
    (∃ (d : Device) (n : Nat) (bytes : List Byte), bytes.length = k.bytes
      ∧ exec (readCommand w k off) s = .next
          ((State.log { s1.settle with dev := d, draws := n } .cmd (.regRead w off.toNat bytes)).respond .ok
            [BitVec.ofNat 32 (busValue (s.winEndian w) bytes)]))
    ∧ (∃ (d : Device) (n : Nat) (bytes : List Byte), bytes.length = k.bytes
      ∧ (∀ i, i < k.bytes → (bytes.getD i 0).toNat =
          match s.winEndian w with
          | .little => v.toNat / 256 ^ i % 256
          | .big => v.toNat / 256 ^ (k.bytes - 1 - i) % 256)
      ∧ exec (writeCommand w k off v) s = .next
          ((State.log { s1.settle with dev := d, draws := n } .cmd (.regWrite w off.toNat bytes)).respond .ok []))

/-- 40 R134: the twelve register commands touch no block-private state. With no store pending, all of State but the
device, the response port, the bus trace and the counter of free values is as the access found it, and so is every
byte of memory. -/
def Obligations.RegisterCommandFrame : Prop :=
  ∀ (s s1 t : State) (w : Win) (k : Width) (off : BitVec 16) (v : Word), s.winMapped = true →
    off.toNat % k.bytes = 0 → off.toNat + k.bytes ≤ s.winBytes w → v.toNat < 256 ^ k.bytes → cmdGap s = .ok s1 →
    s1.wbuf = [] → (exec (readCommand w k off) s = .next t ∨ exec (writeCommand w k off v) s = .next t) →
    { t with dev := s1.dev, respPort := s1.respPort, bus := s1.bus, draws := s1.draws } = s1 ∧ SameBytes s1 t

/-! ## The buffer pool -/

/-- 42 R182: a reservation takes the lowest free handle and PLAT's memory and answers the handle; the slot is OWNED,
its bytes hold unspecified values (10 R46), and every other slot, every byte that was live, and the global fields stay.
The `fill` of the slot that numbers those free values is the model's (log 6). -/
def Obligations.ReserveTakesLowestFreeHandle : Prop :=
  ∀ (s s1 : State) (dir : Dir) (len : Word) (h : Nat) (b : Addr), len ≠ 0 → s.pool.length ≤ 65536 →
    h < s.pool.length → (s.slot h).alloc = false → (∀ k, k < h → (s.slot k).alloc = true) →
    s.platAlloc len.toNat = (some b, s1) →
    ∃ t, exec (.poolReserve dir len) s = .next t ∧ Answered .ok [BitVec.ofNat 32 h] s t
      ∧ t.slot h = { alloc := true, bus := b, len := len, dir := dir, internal := false, loan := none, orphan := false,
                     fill := .draw s1.draws }
      ∧ (∀ k, k ≠ h → t.slot k = s.slot k) ∧ b.toNat % 4096 = 0
      ∧ { t with pool := s.pool, respPort := s.respPort, platAllocs := s.platAllocs, draws := s.draws } = s
      ∧ SameBytesOutside [(b.toNat, 4096 * ((len.toNat + 4095) / 4096))] s t
      ∧ (s.memCanonical = true → ∀ a, b.toNat ≤ a → a < b.toNat + 4096 * ((len.toNat + 4095) / 4096) →
          t.byteAt a = some (Config.freshByte s1.draws a))

/-- 42 R182, 60 R271: a reservation of zero bytes is refused with IllegalCommand; with every slot taken, or when PLAT
has no memory, it answers QueueFull; nothing but PLAT's answers is used up. -/
def Obligations.ReserveExhaustionIsQueueFull : Prop :=
  ∀ (s s1 : State) (dir : Dir) (len : Word),
    Refused (.poolReserve dir 0) .illegalCommand s
      ∧ (len ≠ 0 → (∀ k, k < s.pool.length → (s.slot k).alloc = true) → Refused (.poolReserve dir len) .queueFull s)
      ∧ (len ≠ 0 → (∃ k, k < s.pool.length ∧ (s.slot k).alloc = false) → s.platAlloc len.toNat = (none, s1) →
          exec (.poolReserve dir len) s = .next (s1.respond .queueFull [])
            ∧ { s1 with platAllocs := s.platAllocs, draws := s.draws } = s)

/-- 42 R184, R186: releasing an OWNED slot frees it and answers OK; its bytes no longer exist, every other byte, slot
and field stays. -/
def Obligations.ReleaseFreesOwnedSlot : Prop :=
  ∀ (s : State) (h : Handle), s.safe = true → h.toNat < s.cfg.poolSlots → (s.slot h.toNat).state = .owned →
    ∃ t, exec (.poolRelease h) s = .next t ∧ Answered .ok [] s t ∧ t.slot h.toNat = Slot.free
      ∧ (∀ k, k ≠ h.toNat → t.slot k = s.slot k)
      ∧ { t with pool := s.pool, mem := s.mem, respPort := s.respPort } = s
      ∧ (∀ a, (s.slot h.toNat).covers a = true → t.byteAt a = none)
      ∧ (∀ a, (s.slot h.toNat).covers a = false → t.byteAt a = s.byteAt a)

/-- 42 R184: a handle out of range, a FREE slot and an INTERNAL one are refused with IllegalCommand; a slot on loan or
quarantined is refused with BufferInFlight; nothing changes. -/
def Obligations.ReleaseRefusedUnlessOwned : Prop :=
  ∀ (s : State) (h : Handle),
    (s.cfg.poolSlots ≤ h.toNat → Refused (.poolRelease h) .illegalCommand s)
      ∧ (h.toNat < s.cfg.poolSlots → ((s.slot h.toNat).state = .free ∨ (s.slot h.toNat).state = .internal) →
          Refused (.poolRelease h) .illegalCommand s)
      ∧ (h.toNat < s.cfg.poolSlots → ((s.slot h.toNat).state = .loaned ∨ (s.slot h.toNat).state = .orphan) →
          Refused (.poolRelease h) .bufferInFlight s)

/-! ## Queues: create, destroy -/

/-- 41 R155, 20 R72, R73: VQ.CREATE makes the queue on fresh memory of the stated size, every byte of it zero, with the
full free-list in ascending order and no descriptor in flight; nothing else changes. The zeros in the descriptor
entries that the rule leaves open are the model's choice (log 10), and so is the `fill` of the slot (log 6). -/
def Obligations.CreateMakesZeroedQueue : Prop :=
  ∀ (s s1 : State) (q : Role) (size : BitVec 16) (h : Nat) (b : Addr),
    (s.fsm = .detached ∨ (s.fsm = .featuresOk ∧ size = s.qsize.get q)) → (s.queue q).valid = false →
    (s.queue q).lock = none → (∃ e, e ≤ 15 ∧ size.toNat = 2 ^ e) → s.lowestFree = some h → s.pool.length ≤ 65536 →
    s.platAlloc (regionBytes size.toNat) = (some b, s1) →
    ∃ t, exec (.vqCreate q size) s = .next t ∧ Answered .ok [] s t
      ∧ t.queue q = { valid := true, wired := false, broken := false, n := size, region := BitVec.ofNat 16 h, base := b,
                      availIdx := 0, lastUsed := 0,
                      free := (List.range size.toNat).map (fun i => BitVec.ofNat 16 i),
                      desc := List.replicate size.toNat { tag := .free, chainLen := 0, cookie := 0, ind := none },
                      lock := none }
      ∧ SameOtherQueues q s t
      ∧ t.slot h = { alloc := true, bus := b, len := BitVec.ofNat 32 (regionBytes size.toNat), dir := .fromDevice,
                     internal := true, loan := none, orphan := false, fill := .zero }
      ∧ (∀ k, k ≠ h → t.slot k = s.slot k)
      ∧ t.acq = (if s.fsm = .featuresOk then .qr q :: s.acq else s.acq)
      ∧ (∀ a, b.toNat ≤ a → a < b.toNat + regionBytes size.toNat → t.byteAt a = some 0)
      ∧ SameBytesOutside [(b.toNat, regionBytes size.toNat)] s t
      ∧ { t with queues := s.queues, pool := s.pool, mem := s.mem, acq := s.acq, respPort := s.respPort, bus := s.bus,
                 platAllocs := s.platAllocs, draws := s.draws } = s

/-- 41 R153, R155, R157, R164, 60 R273: VQ.CREATE outside DETACHED and FEATURES_OK and VQ.DESTROY outside DETACHED are
illegal transitions. Creating an existing queue, a size that is no power of two up to 32768, in FEATURES_OK a size
other than the reported one, and destroying or draining a queue that does not exist are illegal commands. Nothing
changes. -/
def Obligations.QueueCommandsRefused : Prop :=
  ∀ (s : State) (q : Role) (size : BitVec 16),
    (s.fsm ≠ .detached → s.fsm ≠ .featuresOk → Refused (.vqCreate q size) .illegalTransition s)
      ∧ (s.fsm = .detached ∨ s.fsm = .featuresOk →
          ((s.queue q).valid = true ∨ (∀ e, e ≤ 15 → size.toNat ≠ 2 ^ e)
            ∨ (s.fsm = .featuresOk ∧ size ≠ s.qsize.get q)) →
          Refused (.vqCreate q size) .illegalCommand s)
      ∧ (s.fsm ≠ .detached → Refused (.vqDestroy q) .illegalTransition s)
      ∧ (s.fsm = .detached → (s.queue q).valid = false → Refused (.vqDestroy q) .illegalCommand s)
      ∧ ((s.queue q).valid = false → Refused (.vqDrain q) .illegalCommand s)

/-- 41 R155, 42 R188: when the region cannot be had, VQ.CREATE in DETACHED merely answers AllocationError and changes
nothing but PLAT's answers. -/
def Obligations.CreateWithoutMemoryInDetached : Prop :=
  ∀ (s : State) (q : Role) (size : BitVec 16), s.fsm = .detached → (s.queue q).valid = false →
    (s.queue q).lock = none → (∃ e, e ≤ 15 ∧ size.toNat = 2 ^ e) →
    (s.lowestFree = none → Refused (.vqCreate q size) .allocationError s)
      ∧ (∀ h s1, s.lowestFree = some h → s.platAlloc (regionBytes size.toNat) = (none, s1) →
          exec (.vqCreate q size) s = .next (s1.respond .allocationError [])
            ∧ { s1 with platAllocs := s.platAllocs, draws := s.draws } = s)

/-- 41 R156: for every power of two in [1, 32768], create followed immediately by drain yields an empty sequence and
leaves the free-list at full size. -/
def Obligations.CreateThenDrainIsEmpty : Prop :=
  ∀ (s s1 : State) (q : Role) (e h : Nat) (b : Addr), e ≤ 15 → s.fsm = .detached → (s.queue q).valid = false →
    (s.queue q).lock = none → s.lowestFree = some h → s.pool.length ≤ 65536 → s.wbuf = [] → s.gaps = [] →
    s.platAlloc (regionBytes (2 ^ e)) = (some b, s1) →
    ∃ t u, exec (.vqCreate q (BitVec.ofNat 16 (2 ^ e))) s = .next t ∧ exec (.vqDrain q) t = .next u
      ∧ Answered .ok [] t u ∧ (u.queue q).free = (List.range (2 ^ e)).map (fun i => BitVec.ofNat 16 i)
      ∧ u.queues = t.queues ∧ u.pool = t.pool ∧ SameBytes t u

/-- 41 R157, R159: VQ.DESTROY in DETACHED frees the queue's region and every indirect table lent to it, gives back its
buffers as OWNED slots and leaves no queue; other queues, slots and fields stay, and so does every byte of a slot
that stays. -/
def Obligations.DestroyGivesBackLoans : Prop :=
  ∀ (s : State) (q : Role), s.safe = true → s.fsm = .detached → (s.queue q).valid = true →
    ∃ t, exec (.vqDestroy q) s = .next t ∧ Answered .ok [] s t ∧ (t.queue q).valid = false
      ∧ (t.queue q).wired = false ∧ (t.queue q).broken = false ∧ (t.queue q).lock = none ∧ SameOtherQueues q s t
      ∧ t.slot (s.queue q).region.toNat = Slot.free
      ∧ (∀ k, (∃ l, (s.slot k).loan = some l ∧ l.q = q) →
          t.slot k = if (s.slot k).internal then Slot.free else { s.slot k with loan := none })
      ∧ (∀ k, k ≠ (s.queue q).region.toNat → (∀ l, (s.slot k).loan = some l → l.q ≠ q) → t.slot k = s.slot k)
      ∧ (∀ a k, (s.slot k).covers a = true → (t.slot k).alloc = true → t.byteAt a = s.byteAt a)
      ∧ { t with queues := s.queues, pool := s.pool, mem := s.mem, respPort := s.respPort } = s

/-! ## Queues: submit -/

/-- 41 R153, R158, R160, R161, 60 R273: the checks of VQ.SUBMIT, in order: the state, then the control queue and the
segment list. On any of these errors nothing changes. -/
def Obligations.SubmitValidatesSegments : Prop :=
  ∀ (s : State) (q : Role) (segs : List Seg),
    (s.fsm ≠ .driverReady → Refused (.vqSubmit q segs) .illegalTransition s)
      ∧ (s.fsm = .driverReady → Refused (.vqSubmit s.cfg.qCtrl segs) .illegalCommand s)
      ∧ (s.fsm = .driverReady →
          (segs.length = 0 ∨ 32768 < segs.length
            ∨ (∃ g ∈ segs, g.ctl.extractLsb' 16 15 ≠ 0 ∨ s.cfg.poolSlots ≤ (g.ctl.setWidth 16).toNat
                ∨ (s.slot (g.ctl.setWidth 16).toNat).state ≠ .owned ∨ g.len = 0
                ∨ (s.slot (g.ctl.setWidth 16).toNat).len.toNat < g.len.toNat
                ∨ (g.ctl.msb = true ∧ (s.slot (g.ctl.setWidth 16).toNat).dir = .toDevice)
                ∨ (g.ctl.msb = false ∧ (s.slot (g.ctl.setWidth 16).toNat).dir = .fromDevice))
            ∨ ¬ (segs.map (fun g => (g.ctl.setWidth 16 : Handle))).Nodup) →
          Refused (.vqSubmit q segs) .illegalCommand s)

/-- 41 R160, R152, R163, R168 (b), 60 R273, R274: with a legal segment list, a broken queue answers RingCorrupt. One
with fewer free descriptors than needed answers QueueFull: with F_INDIRECT negotiated a chain of IND_THRESH segments still
needs as many, one of IND_THRESH + 1 needs one. So does an indirect submission for which no table can be had.
The free-list, memory, registers and pool are exactly as before. -/
def Obligations.SubmitBrokenOrFullChangesNothing : Prop :=
  ∀ (s : State) (q : Role) (segs : List Seg), s.fsm = .driverReady → q ≠ s.cfg.qCtrl →
    s.segsOk segs = true → (s.queue q).lock = none →
    ((s.queue q).broken = true → Refused (.vqSubmit q segs) .ringCorrupt s)
      ∧ ((s.queue q).broken = false → (s.queue q).free.length < descsNeeded s segs.length →
          Refused (.vqSubmit q segs) .queueFull s)
      ∧ ((s.queue q).broken = false → s.negotiated.getLsbD s.cfg.fIndirect = true →
          (segs.length = s.cfg.indThresh → (s.queue q).free.length < segs.length → Refused (.vqSubmit q segs) .queueFull s)
            ∧ (segs.length = s.cfg.indThresh + 1 → (s.queue q).free.length = 0 → Refused (.vqSubmit q segs) .queueFull s))
      ∧ ((s.queue q).broken = false → goesIndirect s segs.length = true → 1 ≤ (s.queue q).free.length →
          (s.lowestFree = none → Refused (.vqSubmit q segs) .queueFull s)
            ∧ (∀ h s1, s.lowestFree = some h → s.platAlloc (16 * segs.length) = (none, s1) →
                exec (.vqSubmit q segs) s = .next (s1.respond .queueFull [])
                  ∧ { s1 with platAllocs := s.platAllocs, draws := s.draws } = s))

/-- 41 R160, R152, R162, 20 R74, R75: an accepted submission without F_INDIRECT negotiated, or of at most IND_THRESH segments,
is direct and answers OK; it takes the oldest free descriptors, tags
them with the head, records the head, lends the slots, and leaves in memory one descriptor per segment, the head in
the available ring and the next available index. Everything else, every other byte included, stays. -/
def Obligations.SubmitDirectPublishesChain : Prop :=
  ∀ (s : State) (q : Role) (segs : List Seg), s.safe = true → s.gaps = [] → s.fsm = .driverReady →
    q ≠ s.cfg.qCtrl → s.segsOk segs = true → (s.queue q).lock = none → (s.queue q).broken = false →
    (s.negotiated.getLsbD s.cfg.fIndirect = false ∨ segs.length ≤ s.cfg.indThresh) →
    segs.length ≤ (s.queue q).free.length →
    ∃ (t : State) (head : DescIdx),
      exec (.vqSubmit q segs) s = .next t ∧ Answered .ok [] s t ∧ (taken (s.queue q) segs.length).head? = some head
        ∧ (t.queue q).free = (s.queue q).free.drop segs.length
        ∧ (t.queue q).availIdx = (s.queue q).availIdx + 1
        ∧ (∀ d ∈ taken (s.queue q) segs.length, (t.queue q).tagAt d = .submitted head)
        ∧ (∀ d, d ∉ taken (s.queue q) segs.length → (t.queue q).descAt d = (s.queue q).descAt d)
        ∧ ((t.queue q).descAt head).chainLen.toNat = segs.length
        ∧ (∃ g, segs.head? = some g ∧ ((t.queue q).descAt head).cookie = g.ctl.setWidth 16)
        ∧ ((t.queue q).descAt head).ind = none
        ∧ { t.queue q with free := (s.queue q).free, availIdx := (s.queue q).availIdx, desc := (s.queue q).desc }
            = s.queue q
        ∧ SameOtherQueues q s t
        ∧ (∀ k, t.slot k = if (∃ g ∈ segs, (g.ctl.setWidth 16 : Handle).toNat = k)
            then { s.slot k with loan := some { q := q, head := head } } else s.slot k)
        ∧ (∀ k g d, segs[k]? = some g → (s.queue q).free[k]? = some d →
            DescIs t (s.queue q).base.toNat d.toNat (s.slot (g.ctl.setWidth 16 : Handle).toNat).bus.toNat g.len.toNat
              ((if k + 1 < segs.length then s.cfg.dfChained else 0) ||| (if g.ctl.msb then s.cfg.dfWritable else 0)).toNat
              (if k + 1 < segs.length then ((s.queue q).free.getD (k + 1) 0).toNat else 0))
        ∧ t.readLe (availElemAddr (s.queue q).base.toNat (s.queue q).n.toNat
            ((s.queue q).availIdx.toNat % (s.queue q).n.toNat)) 2 = some head.toNat
        ∧ t.readLe (availIdxAddr (s.queue q).base.toNat (s.queue q).n.toNat) 2
            = some ((s.queue q).availIdx + 1).toNat
        ∧ SameBytesOutside
            (((taken (s.queue q) segs.length).map (fun d => ((s.queue q).base.toNat + 16 * d.toNat, 16)))
              ++ [(availElemAddr (s.queue q).base.toNat (s.queue q).n.toNat
                    ((s.queue q).availIdx.toNat % (s.queue q).n.toNat), 2),
                  (availIdxAddr (s.queue q).base.toNat (s.queue q).n.toNat, 2)]) s t
        ∧ SameGlobals s t

/-- 41 R160, R162, R163, R152, 20 R75, R77: an accepted submission with F_INDIRECT negotiated
and more than IND_THRESH segments is indirect: it writes its segments into a fresh internal
table lent to the chain and one descriptor that names the table; it takes one free descriptor, the head, records its
length 1, its cookie and its table, and leaves the head in the available ring and the next available index. The slot's
`fill` is the model's (log 6). -/
def Obligations.SubmitIndirectUsesTable : Prop :=
  ∀ (s s1 : State) (q : Role) (segs : List Seg) (h : Nat) (b : Addr) (head : DescIdx), s.safe = true → s.gaps = [] →
    s.fsm = .driverReady → q ≠ s.cfg.qCtrl → s.segsOk segs = true → (s.queue q).lock = none →
    (s.queue q).broken = false → s.negotiated.getLsbD s.cfg.fIndirect = true → s.cfg.indThresh < segs.length →
    (s.queue q).free.head? = some head → s.lowestFree = some h →
    s.platAlloc (16 * segs.length) = (some b, s1) →
    ∃ t, exec (.vqSubmit q segs) s = .next t ∧ Answered .ok [] s t
      ∧ (t.queue q).free = (s.queue q).free.drop 1 ∧ (t.queue q).availIdx = (s.queue q).availIdx + 1
      ∧ (t.queue q).tagAt head = .submitted head
      ∧ ((t.queue q).descAt head).chainLen = 1 ∧ ((t.queue q).descAt head).ind = some (BitVec.ofNat 16 h)
      ∧ (∃ g, segs.head? = some g ∧ ((t.queue q).descAt head).cookie = g.ctl.setWidth 16)
      ∧ t.readLe (availElemAddr (s.queue q).base.toNat (s.queue q).n.toNat
          ((s.queue q).availIdx.toNat % (s.queue q).n.toNat)) 2 = some head.toNat
      ∧ t.readLe (availIdxAddr (s.queue q).base.toNat (s.queue q).n.toNat) 2 = some ((s.queue q).availIdx + 1).toNat
      ∧ t.slot h = { alloc := true, bus := b, len := BitVec.ofNat 32 (16 * segs.length), dir := .fromDevice,
                     internal := true, loan := some { q := q, head := head }, orphan := false, fill := .draw s1.draws }
      ∧ (∀ k, k ≠ h → t.slot k = if (∃ g ∈ segs, (g.ctl.setWidth 16 : Handle).toNat = k)
          then { s.slot k with loan := some { q := q, head := head } } else s.slot k)
      ∧ (∀ k g, segs[k]? = some g →
          DescIs t b.toNat k (s.slot (g.ctl.setWidth 16 : Handle).toNat).bus.toNat g.len.toNat
            ((if k + 1 < segs.length then s.cfg.dfChained else 0) ||| (if g.ctl.msb then s.cfg.dfWritable else 0)).toNat
            (if k + 1 < segs.length then k + 1 else 0))
      ∧ DescIs t (s.queue q).base.toNat head.toNat b.toNat (16 * segs.length) s.cfg.dfIndirect.toNat 0
      ∧ (∀ d, d ≠ head → (t.queue q).descAt d = (s.queue q).descAt d)
      ∧ { t.queue q with free := (s.queue q).free, availIdx := (s.queue q).availIdx, desc := (s.queue q).desc }
          = s.queue q
      ∧ SameBytesOutside [(b.toNat, 4096 * ((16 * segs.length + 4095) / 4096)),
            ((s.queue q).base.toNat + 16 * head.toNat, 16),
            (availElemAddr (s.queue q).base.toNat (s.queue q).n.toNat
              ((s.queue q).availIdx.toNat % (s.queue q).n.toNat), 2),
            (availIdxAddr (s.queue q).base.toNat (s.queue q).n.toNat, 2)] s t
      ∧ SameOtherQueues q s t ∧ SameGlobals s t

/-- 41 R152, R160, R162, R163, 20 R74, R82: what a submission, direct or indirect, does on its buses: the stores of its
descriptors, each with its address, width and value, the table's before the descriptor that names it; then in order the
available element, a FENCE, the index, a FENCE, one read of the hint, and a notify of the queue's role exactly when the
hint is clear. -/
def Obligations.PublishOrdersIndexLast : Prop :=
  ∀ (s : State) (q : Role) (segs : List Seg) (hint : Nat) (b : Addr), s.safe = true → s.gaps = [] →
    s.fsm = .driverReady → q ≠ s.cfg.qCtrl → s.segsOk segs = true → (s.queue q).lock = none →
    (s.queue q).broken = false → descsNeeded s segs.length ≤ (s.queue q).free.length →
    (goesIndirect s segs.length = true → ∃ h s1, s.lowestFree = some h ∧ s.platAlloc (16 * segs.length) = (some b, s1)) →
    s.readLe (usedFlagsAddr (s.queue q).base.toNat (s.queue q).n.toNat) 2 = some hint →
    ∃ (t : State) (head : DescIdx), exec (.vqSubmit q segs) s = .next t ∧ (s.queue q).free.head? = some head
      ∧ (t.queue q).availIdx = (s.queue q).availIdx + 1
      ∧ Made (submitOps s q segs b head
          ++ [.memWrite (availElemAddr (s.queue q).base.toNat (s.queue q).n.toNat
                ((s.queue q).availIdx.toNat % (s.queue q).n.toNat)) 2 head.toNat, .fence,
              .memWrite (availIdxAddr (s.queue q).base.toNat (s.queue q).n.toNat) 2
                ((s.queue q).availIdx + 1).toNat, .fence,
              .memRead (usedFlagsAddr (s.queue q).base.toNat (s.queue q).n.toNat) 2 hint]
          ++ (if BitVec.ofNat 16 hint &&& s.cfg.ufNoNotify = 0
              then [.regWrite .w0 s.cfg.offQueueNotify [BitVec.ofNat 8 q.num, 0]] else [])) s t

/-! ## Queues: drain -/

/-- 41 R150, R151, R164, R166, 10 R31: a drain of a broken queue answers RingCorrupt and touches nothing. Otherwise it
reads the used index once. When it equals `last_used` the answer is OK with no data; when it is ahead by more than N,
modulo 2^16, the queue is marked broken and the answer is RingCorrupt with no data. In both cases nothing else
changes. -/
def Obligations.DrainComparesIndicesModulo : Prop :=
  ∀ (s : State) (q : Role) (idx : Nat), (s.queue q).valid = true → (s.queue q).lock = none →
    ((s.queue q).broken = true → Refused (.vqDrain q) .ringCorrupt s)
      ∧ ((s.queue q).broken = false → s.gaps = [] → s.wbuf = [] →
          s.readLe (usedIdxAddr (s.queue q).base.toNat (s.queue q).n.toNat) 2 = some idx →
          (BitVec.ofNat 16 idx = (s.queue q).lastUsed → exec (.vqDrain q) s = .next
            (((s.log .cmd (.memRead (usedIdxAddr (s.queue q).base.toNat (s.queue q).n.toNat) 2 idx)).log .cmd
              .fence).respond .ok []))
          ∧ ((s.queue q).n.toNat < (BitVec.ofNat 16 idx - (s.queue q).lastUsed).toNat → exec (.vqDrain q) s = .next
              ((((s.setQueue q { s.queue q with broken := true }).log .cmd
                (.memRead (usedIdxAddr (s.queue q).base.toNat (s.queue q).n.toNat) 2 idx)).log .cmd .fence).respond
                  .ringCorrupt [])))

/-- 20 R82, 41 R164, R165, R167: a drain of any number of completed chains reads the used index, executes a FENCE, and only
then reads a used element; it answers, in used-ring order, the cookie and the length
the device wrote of each, appends their descriptors to the free-list in link order, ends their loans, frees their
indirect tables, and advances `last_used` past them. -/
def Obligations.DrainReturnsCompletedChains : Prop :=
  ∀ (s : State) (q : Role) (chains : List DoneChain), s.safe = true → s.gaps = [] → (s.queue q).valid = true →
    (s.queue q).broken = false → (s.queue q).lock = none → DrainFinds s q chains [] false →
    ∃ t, exec (.vqDrain q) s = .next t ∧ Answered .ok (drainedWords (s.queue q) chains) s t
      ∧ QueueDrained s t q chains [] false ∧ LoansGivenBack s t q chains
      ∧ DrainReads s t q chains
      ∧ SameOtherQueues q s t ∧ SameGlobals s t ∧ SameLiveBytes s t

/-- 20 R82, 41 R164, R165, R166: a drain that meets corruption has read the used index, then executed a FENCE, before any used
element. It marks the queue broken and answers RingCorrupt with the chains
drained before it, which stay drained. The chain at fault is not reclaimed, `last_used` is not advanced past it, and the
tags its walk had changed stay as they are. The faults: an index ahead by more than N; an element that names no head
of a chain in flight, or one already drained; a link out of range, out of the chain, or back; a chain whose walk ends
with another length. -/
def Obligations.DrainStopsAtCorruption : Prop :=
  ∀ (s : State) (q : Role) (chains : List DoneChain) (visited : List DescIdx), s.safe = true → s.gaps = [] →
    (s.queue q).valid = true → (s.queue q).broken = false → (s.queue q).lock = none →
    DrainFinds s q chains visited true →
    ∃ t, exec (.vqDrain q) s = .next t ∧ Answered .ringCorrupt (drainedWords (s.queue q) chains) s t
      ∧ QueueDrained s t q chains visited true ∧ LoansGivenBack s t q chains
      ∧ DrainReads s t q chains
      ∧ SameOtherQueues q s t ∧ SameGlobals s t ∧ SameLiveBytes s t

/-! ## Bring-up -/

/-- 43 R200, R201: a bring-up command in a state the table does not allow is refused with IllegalTransition and nothing
changes; wiring a queue that does not exist or is wired already is an illegal command (43 R209). -/
def Obligations.BringUpOutOfOrderRefused : Prop :=
  ∀ (s : State) (q : Role),
    ((s.fsm ≠ .detached ∨ ∃ p, (s.queue p).valid = true) → Refused .buReset .illegalTransition s)
      ∧ (s.fsm ≠ .reset → Refused .buAck .illegalTransition s)
      ∧ (s.fsm ≠ .acknowledged → Refused .buDriver .illegalTransition s)
      ∧ (∀ size, s.fsm ≠ .featuresOk → s.fsm ≠ .detached → Refused (.vqCreate q size) .illegalTransition s)
      ∧ (s.fsm ≠ .driverLoaded → Refused .buFeatures .illegalTransition s)
      ∧ (s.fsm ≠ .featuresOk → Refused (.buQwire q) .illegalTransition s)
      ∧ ((s.fsm ≠ .featuresOk ∨ s.irqEn = true ∨ ∃ p, (s.queue p).wired = false) → Refused .buIrq .illegalTransition s)
      ∧ ((s.fsm ≠ .featuresOk ∨ s.irqEn = false ∨ ∃ p, (s.queue p).wired = false) → Refused .buOk .illegalTransition s)
      ∧ ((s.fsm = .detached ∨ s.fsm = .failed) → Refused .buFail .illegalTransition s)
      ∧ (s.fsm = .detached → Refused .buDetach .illegalTransition s)
      ∧ (s.fsm = .featuresOk → ((s.queue q).valid = false ∨ (s.queue q).wired = true) →
          Refused (.buQwire q) .illegalCommand s)

/-- 43 R203, R202, R216: BU.RESET makes a new Device, maps the windows, writes zero to the status register and brings
the quarantined buffers back. `poll` of the device is the model's own field, and that the write of zero clears it is the
model's choice (log 13). -/
def Obligations.ResetMapsWindowsAndResetsDevice : Prop :=
  ∀ (s s1 s2 : State), s.cfg.wf = true → s.fsm = .detached → (∀ q, (s.queue q).valid = false) →
    (newInstance s).platMap = (true, s1) →
    cmdGap { s1 with winMapped := true, acq := .win :: s1.acq, stShadow := 0 } = .ok s2 →
    ∃ t, exec .buReset s = .next t ∧ Answered .ok [] s t ∧ t.fsm = .reset ∧ t.winMapped = true
      ∧ t.acq = .win :: s.acq ∧ t.stShadow = 0 ∧ t.errLatch = 0 ∧ t.offered = 0 ∧ t.negotiated = 0
      ∧ t.qsize = ⟨0, 0, 0⟩
      ∧ t.dev = { s2.dev with dstatus := 0, dguest := 0, dsel := 0, daddr := ⟨0, 0, 0⟩, dlast := ⟨0, 0, 0⟩,
                              dused := ⟨0, 0, 0⟩, poll := ⟨.no, .no, .no⟩, disr := 0, consumed := [], irqLine := false }
      ∧ t.pool = s2.pool.map (fun x => { x with orphan := false })
      ∧ t.bus = s2.bus ++ [{ agent := .cmd, op := statusOp s 0 }] ∧ t.queues = s2.queues ∧ t.irqEn = s.irqEn
      ∧ t.cfg = s.cfg ∧ t.disp = s2.disp ∧ t.isrLat = s2.isrLat ∧ t.dq = s2.dq ∧ t.walk = s2.walk
      ∧ t.eventPort = s2.eventPort ∧ t.cmdPort = s2.cmdPort ∧ t.hostSeen = s2.hostSeen ∧ t.turns = s.turns
      ∧ (s2.wbuf = [] → SameBytes s2 t)

/-- 43 R203, 60 R276: when PLAT cannot map the windows, BU.RESET enters FAILED with code 10; no register is touched. -/
def Obligations.MapFailureIsFatal : Prop :=
  ∀ (s s1 : State), s.fsm = .detached → (∀ q, (s.queue q).valid = false) → s.acq = [] → s.winMapped = false →
    (newInstance s).platMap = (false, s1) →
    exec .buReset s = .next (State.respond { s1 with fsm := .failed, errLatch := 10 } .mapFailure [])
      ∧ s1.bus = s.bus ∧ s1.dev = s.dev

/-- 43 R204: BU.ACK reads the three identifiers and, when they are the expected ones, writes the ACK bit. -/
def Obligations.AckSetsAckBit : Prop :=
  ∀ (s : State), s.cfg.wf = true → s.fsm = .reset → s.gaps = [] → s.wbuf = [] → s.dev.vendor = s.cfg.expVendor →
    s.dev.device = s.cfg.expDevice → s.dev.revision = s.cfg.expRevision →
    ∃ t, exec .buAck s = .next t ∧ Answered .ok [] s t
      ∧ Made [.pciRead s.cfg.pciOffVendor 2 s.dev.vendor.toNat, .pciRead s.cfg.pciOffDevice 2 s.dev.device.toNat,
              .pciRead s.cfg.pciOffRevision 1 s.dev.revision.toNat, statusOp s (s.stShadow ||| s.cfg.stAck)] s t
      ∧ t.dev = s.dev.react .deviceStatus (s.stShadow ||| s.cfg.stAck).toNat
      ∧ { t with fsm := s.fsm, stShadow := s.stShadow, dev := s.dev, respPort := s.respPort, bus := s.bus } = s
      ∧ t.fsm = .acknowledged ∧ t.stShadow = s.stShadow ||| s.cfg.stAck

/-- 43 R204, 60 R276, 90 C1: identifiers that differ are fatal: BU.ACK makes no register access at all, unmaps the
windows and leaves FAILED with code 1. -/
def Obligations.WrongIdentifierIsFatal : Prop :=
  ∀ (s : State), s.fsm = .reset → s.acq = [.win] → s.gaps = [] →
    (s.dev.vendor ≠ s.cfg.expVendor ∨ s.dev.device ≠ s.cfg.expDevice ∨ s.dev.revision ≠ s.cfg.expRevision) →
    ∃ t, exec .buAck s = .next t ∧ Answered .unsupportedDevice [] s t
      ∧ Made [.pciRead s.cfg.pciOffVendor 2 s.dev.vendor.toNat, .pciRead s.cfg.pciOffDevice 2 s.dev.device.toNat,
              .pciRead s.cfg.pciOffRevision 1 s.dev.revision.toNat] s t
      ∧ t.fsm = .failed ∧ t.errLatch = 1 ∧ t.acq = [] ∧ t.winMapped = false
      ∧ { t with fsm := s.fsm, errLatch := s.errLatch, acq := s.acq, winMapped := s.winMapped, respPort := s.respPort,
                 bus := s.bus } = s

/-- 43 R205: BU.DRIVER reads the three sizes, then the features, in that order; legal sizes let it write the DRIVER
bit; any other size is fatal with NoUsableQueues after all seven accesses, and the sizes stay readable. -/
def Obligations.DriverReadsSizesThenFeatures : Prop :=
  ∀ (s : State), s.cfg.wf = true → s.fsm = .acknowledged → s.gaps = [] → s.wbuf = [] → s.acq = [.win] →
    s.winMapped = true →
    ∃ (t : State) (e : Err) (bits : BitVec 8), exec .buDriver s = .next t ∧ Answered e [] s t
      ∧ t.qsize = s.dev.dsize ∧ t.offered = s.dev.doffered
      ∧ t.dev = { s.dev with dsel := 2, dstatus := s.stShadow ||| bits }
      ∧ (if s.dev.dsize.all queueSizeOk
          then e = .ok ∧ bits = s.cfg.stDriver ∧ t.fsm = .driverLoaded ∧ t.winMapped = true ∧ t.acq = s.acq
            ∧ t.errLatch = s.errLatch
          else e = .noUsableQueues ∧ bits = s.cfg.stFailed ∧ t.fsm = .failed ∧ t.winMapped = false ∧ t.acq = []
            ∧ t.errLatch = 3)
      ∧ t.stShadow = s.stShadow ||| bits
      ∧ Made [.regWrite .w0 s.cfg.offQueueSelect [0, 0], .regRead .w0 s.cfg.offQueueSize (leBytes 2 s.dev.dsize.q0.toNat),
              .regWrite .w0 s.cfg.offQueueSelect [1, 0], .regRead .w0 s.cfg.offQueueSize (leBytes 2 s.dev.dsize.q1.toNat),
              .regWrite .w0 s.cfg.offQueueSelect [2, 0],
              .regRead .w0 s.cfg.offQueueSize (leBytes 2 s.dev.dsize.q2.toNat),
              .regRead .w0 s.cfg.offDeviceFeatures (leBytes 4 s.dev.doffered.toNat),
              statusOp s (s.stShadow ||| bits)] s t
      ∧ { t with fsm := s.fsm, stShadow := s.stShadow, offered := s.offered, qsize := s.qsize, winMapped := s.winMapped,
                 acq := s.acq, errLatch := s.errLatch, dev := s.dev, respPort := s.respPort, bus := s.bus } = s

/-- 43 R206, R207: BU.FEATURES takes the bitwise AND of the offered and the supported masks. A nonzero result goes to
the guest-features register and the state becomes FEATURES_OK; no status bit is written. Negotiating again gives the same
mask. -/
def Obligations.FeaturesAreBitwiseAnd : Prop :=
  ∀ (s s1 : State), s.cfg.wf = true → s.fsm = .driverLoaded → s.offered &&& s.cfg.driverSupported ≠ 0 →
    cmdGap { s with negotiated := s.offered &&& s.cfg.driverSupported } = .ok s1 →
    exec .buFeatures s = .next
      (State.respond { (s1.settle.setDev { s1.dev with dguest := s.offered &&& s.cfg.driverSupported }).log .cmd
          (.regWrite .w0 s.cfg.offGuestFeatures (leBytes 4 (s.offered &&& s.cfg.driverSupported).toNat)) with
        fsm := .featuresOk } .ok [])
      ∧ s1.negotiated = s.offered &&& s.cfg.driverSupported ∧ s1.stShadow = s.stShadow
      ∧ (∀ o v : BitVec 32, negotiate o v = o &&& v ∧ negotiate (negotiate o v) v = negotiate o v)

/-- 43 R207, 60 R276: an empty intersection is fatal: the FAILED bit is the only write, the windows are unmapped, the
code is 2. -/
def Obligations.EmptyFeaturesAreFatal : Prop :=
  ∀ (s : State), s.cfg.wf = true → s.fsm = .driverLoaded → s.acq = [.win] → s.winMapped = true → s.gaps = [] →
    s.wbuf = [] → s.offered &&& s.cfg.driverSupported = 0 →
    ∃ t, exec .buFeatures s = .next t ∧ Answered .featureNegotiationFailed [] s t
      ∧ Made [statusOp s (s.stShadow ||| s.cfg.stFailed)] s t ∧ t.negotiated = 0 ∧ t.fsm = .failed
      ∧ t.errLatch = 2 ∧ t.winMapped = false ∧ t.acq = [] ∧ t.stShadow = s.stShadow ||| s.cfg.stFailed
      ∧ t.dev = { s.dev with dstatus := s.stShadow ||| s.cfg.stFailed }
      ∧ { t with fsm := s.fsm, stShadow := s.stShadow, negotiated := s.negotiated, winMapped := s.winMapped,
                 acq := s.acq, errLatch := s.errLatch, dev := s.dev, respPort := s.respPort, bus := s.bus } = s

/-- 43 R209: BU.QWIRE selects the queue and hands the device the region's base divided by 4096. -/
def Obligations.QwireTellsDeviceTheRegion : Prop :=
  ∀ (s : State) (q : Role), s.cfg.wf = true → s.fsm = .featuresOk → (s.queue q).valid = true →
    (s.queue q).wired = false → s.qsize.get q ≠ 0 → s.gaps = [] → s.wbuf = [] → (s.queue q).base.toNat < 2 ^ 44 →
    ∃ t, exec (.buQwire q) s = .next t ∧ Answered .ok [] s t
      ∧ Made [.regWrite .w0 s.cfg.offQueueSelect (leBytes 2 q.num),
              .regWrite .w0 s.cfg.offQueueAddress (leBytes 4 ((s.queue q).base.toNat / 4096))] s t
      ∧ t.dev = { s.dev with dsel := BitVec.ofNat 16 q.num
                             daddr := s.dev.daddr.set q (BitVec.ofNat 32 ((s.queue q).base.toNat / 4096)) }
      ∧ t.queue q = { s.queue q with wired := true } ∧ SameOtherQueues q s t
      ∧ { t with queues := s.queues, dev := s.dev, respPort := s.respPort, bus := s.bus } = s

/-- 43 R211: BU.IRQ, with three wired queues, registers the handler and makes no access; it is refused elsewhere. -/
def Obligations.IrqRegistersHandler : Prop :=
  ∀ (s : State), decode [0xD4000000#32] = .instr .buIrq []
    ∧ (s.fsm = .featuresOk → s.irqEn = false → (∀ q, (s.queue q).wired = true) →
        exec .buIrq s = .next (State.respond { s with irqEn := true, acq := .irq :: s.acq } .ok []))
    ∧ ((s.fsm ≠ .featuresOk ∨ s.irqEn = true ∨ ∃ q, (s.queue q).wired = false) → Refused .buIrq .illegalTransition s)

/-- 43 R212, R213: BU.OK, with three wired queues and the handler, sets DRIVER_OK last; it is refused elsewhere. -/
def Obligations.OkSetsDriverOk : Prop :=
  ∀ (s s1 : State), decode [0xD8000000#32] = .instr .buOk []
    ∧ (s.cfg.wf = true → s.fsm = .featuresOk → s.irqEn = true → (∀ q, (s.queue q).wired = true) →
        cmdGap { s with stShadow := s.stShadow ||| s.cfg.stDriverOk } = .ok s1 →
        exec .buOk s = .next
          (State.respond { (s1.settle.setDev { s1.dev with dstatus := s.stShadow ||| s.cfg.stDriverOk }).log .cmd
              (statusOp s (s.stShadow ||| s.cfg.stDriverOk)) with fsm := .driverReady } .ok [])
          ∧ s1.stShadow = s.stShadow ||| s.cfg.stDriverOk)
    ∧ ((s.fsm ≠ .featuresOk ∨ s.irqEn = false ∨ ∃ q, (s.queue q).wired = false) → Refused .buOk .illegalTransition s)

/-- 43 R217: LINKSTATE answers Up with no access when the status feature is not negotiated. When it is, it makes one
read of the link-status register, in native byte order, and answers the link bit; of a window 1 that has been written the
value read is the device's choice (93 U4, log 8), and the answer is still 0 or 1. It is refused outside FEATURES_OK and
DRIVER_READY. -/
def Obligations.LinkStateReadsOnlyIfNegotiated : Prop :=
  ∀ (s s1 : State), decode [0xE4000000#32] = .instr .linkState []
    ∧ (s.fsm ≠ .featuresOk → s.fsm ≠ .driverReady → Refused .linkState .illegalTransition s)
    ∧ ((s.fsm = .featuresOk ∨ s.fsm = .driverReady) →
        (s.negotiated.getLsbD s.cfg.fStatus = false → exec .linkState s = .next (s.respond .ok [1]))
          ∧ (s.negotiated.getLsbD s.cfg.fStatus = true → cmdGap s = .ok s1 → s1.dev.win1Open = false →
              exec .linkState s = .next
                ((s1.settle.log .cmd (.regRead .w1 s.cfg.offLinkStatus (leBytes 2 s1.dev.link.toNat))).respond .ok
                  [if (BitVec.ofNat 16 (busValue s.cfg.hostEndian (leBytes 2 s1.dev.link.toNat))).getLsbD
                      s.cfg.linkUpBit then 1 else 0]))
          ∧ (s.negotiated.getLsbD s.cfg.fStatus = true → cmdGap s = .ok s1 → s1.dev.win1Open = true →
              ∃ t bytes, exec .linkState s = .next t
                ∧ (Answered .ok [0] s1 t ∨ Answered .ok [1] s1 t) ∧ bytes.length = 2
                ∧ t.bus = s1.bus ++ [{ agent := .cmd, op := .regRead .w1 s.cfg.offLinkStatus bytes }]
                ∧ { t with respPort := s1.respPort, bus := s1.bus, draws := s1.draws } = s1.settle))

/-- 43 R218, R219: the property queries answer in every state, make no access and change nothing else. In a state whose
bring-up machine is in order the mask is 0 before BU.FEATURES and after BU.DETACH, and so is every size before
BU.DRIVER and after BU.DETACH. -/
def Obligations.PropertiesAnswerEverywhere : Prop :=
  ∀ (s : State) (q : Role),
    decode [0xE8000000#32] = .instr .propFeat [] ∧ decode [0xED000000#32] = .instr (.propQsize .q1) []
      ∧ exec .propFeat s = .next (s.respond .ok [s.negotiated])
      ∧ exec (.propQsize q) s = .next (s.respond .ok [(s.qsize.get q).setWidth 32])
      ∧ (s.bringUpOk = true →
          (s.fsm = .detached ∨ s.fsm = .reset ∨ s.fsm = .acknowledged ∨ s.fsm = .driverLoaded → s.negotiated = 0)
            ∧ (s.fsm = .detached ∨ s.fsm = .reset ∨ s.fsm = .acknowledged → s.qsize.get q = 0))

/-- 43 R214, 60 R276, R277, R279: BU.FAIL writes the FAILED bit, releases everything and leaves FAILED with code 0. The
three queues are gone, their regions FREE, buffers on loan quarantined, OWNED slots kept; the diagnostics stay. A delivery in
progress is allowed to finish before the queues are freed: what it drains of the buffers on loan is FREE or OWNED instead, and
its events come first. That `walk` is back at `enter` then is the model's own field (log 12). -/
def Obligations.FailReleasesEverything : Prop :=
  ∀ (s : State), s.safe = true → s.gaps = [] → s.fsm ≠ .detached → s.fsm ≠ .failed →
    ∃ t, exec .buFail s = .next t ∧ Answered .ok [] s t ∧ t.fsm = .failed ∧ t.errLatch = 0 ∧ t.acq = []
      ∧ t.winMapped = false ∧ t.irqEn = false ∧ t.disp = .idle ∧ t.walk = .enter
      ∧ t.stShadow = s.stShadow ||| s.cfg.stFailed ∧ t.offered = s.offered ∧ t.negotiated = s.negotiated
      ∧ t.qsize = s.qsize ∧ t.cfg = s.cfg ∧ t.cmdPort = s.cmdPort ∧ t.hostSeen = s.hostSeen ∧ t.turns = s.turns
      ∧ (∃ ops, t.bus = s.bus ++ { agent := .cmd, op := statusOp s (s.stShadow ||| s.cfg.stFailed) } :: ops
          ∧ ∀ o ∈ ops, o.agent = .disp)
      ∧ (∃ events, t.eventPort = s.eventPort ++ events)
      ∧ (∀ q, (t.queue q).valid = false ∧ (t.queue q).wired = false ∧ (t.queue q).broken = false)
      ∧ (∀ k, (s.slot k).state = .loaned → t.slot k = { s.slot k with loan := none, orphan := true }
          ∨ t.slot k = { s.slot k with loan := none } ∨ t.slot k = Slot.free)
      ∧ (∀ k, (s.slot k).state = .internal → t.slot k = Slot.free)
      ∧ (∀ k, ((s.slot k).state = .owned ∨ (s.slot k).state = .orphan ∨ (s.slot k).state = .free) →
          t.slot k = s.slot k)
      ∧ { t.dev with disr := s.dev.disr, irqLine := s.dev.irqLine } = { s.dev with dstatus := s.stShadow ||| s.cfg.stFailed }
      ∧ (s.disp = .idle →
          Made [statusOp s (s.stShadow ||| s.cfg.stFailed)] s t ∧ t.isrLat = s.isrLat ∧ t.dq = s.dq
            ∧ t.eventPort = s.eventPort ∧ t.dev = { s.dev with dstatus := s.stShadow ||| s.cfg.stFailed }
            ∧ (∀ k, (s.slot k).state = .loaned → t.slot k = { s.slot k with loan := none, orphan := true }))
      ∧ SameLiveBytes s t

/-- 41 R155, 60 R276: in FEATURES_OK a region that cannot be had, because every slot is taken or because PLAT has no
memory, is fatal: the FAILED bit is written, everything acquired has been released at the end, and the code is 4. -/
def Obligations.CreateWithoutMemoryInBringUpIsFatal : Prop :=
  ∀ (s : State) (q : Role), s.safe = true → s.gaps = [] → s.fsm = .featuresOk → (s.queue q).valid = false →
    (s.lowestFree = none
      ∨ ∃ h s1, s.lowestFree = some h ∧ s.platAlloc (regionBytes (s.qsize.get q).toNat) = (none, s1)) →
    ∃ t, exec (.vqCreate q (s.qsize.get q)) s = .next t ∧ Answered .allocationError [] s t
      ∧ Made [statusOp s (s.stShadow ||| s.cfg.stFailed)] s t ∧ t.fsm = .failed ∧ t.errLatch = 4 ∧ t.acq = []
      ∧ t.winMapped = false ∧ t.irqEn = false ∧ t.stShadow = s.stShadow ||| s.cfg.stFailed
      ∧ t.dev = { s.dev with dstatus := s.stShadow ||| s.cfg.stFailed } ∧ t.offered = s.offered
      ∧ t.qsize = s.qsize ∧ t.negotiated = s.negotiated ∧ t.cfg = s.cfg ∧ t.disp = s.disp ∧ t.isrLat = s.isrLat
      ∧ t.dq = s.dq ∧ t.walk = s.walk ∧ t.eventPort = s.eventPort ∧ t.cmdPort = s.cmdPort ∧ t.hostSeen = s.hostSeen
      ∧ t.turns = s.turns
      ∧ (∀ p, (t.queue p).valid = false) ∧ (∀ k, (s.slot k).state = .internal → t.slot k = Slot.free)
      ∧ (∀ k, (s.slot k).state = .loaned → t.slot k = { s.slot k with loan := none, orphan := true })
      ∧ (∀ k, ((s.slot k).state = .owned ∨ (s.slot k).state = .orphan) → t.slot k = s.slot k)
      ∧ SameLiveBytes s t

/-- 43 R215, R216, R222: BU.DETACH ends in DETACHED with no queue, no handler and the windows unmapped, the dispatcher's
registers as hardware reset leaves them. A device that was mapped has been reset. OWNED slots stay; lent ones are freed
or given back as OWNED, and given back when no delivery was in progress; no slot is
on loan, and, when the windows were mapped, none is quarantined. That `isrLat` and `dq` are reset is DEDUCED from R222
against R215's pseudocode, and `walk` is the model's own field: those three clauses are the model's choice (log 12). So is,
by log 13, that the reset of the device clears `poll`, a field of the model's own. -/
def Obligations.DetachTearsEverythingDown : Prop :=
  ∀ (s : State), s.safe = true → s.gaps = [] → s.fsm ≠ .detached →
    ∃ t, exec .buDetach s = .next t ∧ Answered .ok [] s t ∧ t.fsm = .detached ∧ t.winMapped = false
      ∧ t.irqEn = false ∧ t.disp = .idle ∧ t.acq = [] ∧ t.offered = 0 ∧ t.negotiated = 0 ∧ t.qsize = ⟨0, 0, 0⟩
      ∧ t.stShadow = 0 ∧ t.isrLat = 0 ∧ t.dq = .q0 ∧ t.walk = .enter ∧ t.errLatch = s.errLatch
      ∧ (∀ q, (t.queue q).valid = false)
      ∧ (∀ k, (t.slot k).loan = none ∧ (t.slot k).internal = false)
      ∧ (∀ k, (s.slot k).state = .owned → t.slot k = s.slot k)
      ∧ (∀ k, (s.slot k).state = .loaned → t.slot k = Slot.free ∨ t.slot k = { s.slot k with loan := none })
      ∧ (s.winMapped = true → (∀ k, (t.slot k).orphan = false) ∧ t.dev.dstatus = 0 ∧ t.dev.daddr = ⟨0, 0, 0⟩)
      ∧ (s.disp = .idle →
          (∀ k, (s.slot k).state = .loaned → t.slot k = { s.slot k with loan := none })
            ∧ t.eventPort = s.eventPort
            ∧ (s.winMapped = true →
                t.dev = { s.dev with dstatus := 0, dguest := 0, dsel := 0, daddr := ⟨0, 0, 0⟩, dlast := ⟨0, 0, 0⟩,
                                     dused := ⟨0, 0, 0⟩, poll := ⟨.no, .no, .no⟩, disr := 0, consumed := [], irqLine := false }))
      ∧ t.cfg = s.cfg ∧ t.cmdPort = s.cmdPort ∧ t.hostSeen = s.hostSeen ∧ t.turns = s.turns
      ∧ SameLiveBytes s t
      ∧ (s.winMapped = false → t.dev = s.dev ∧ t.pool = s.pool ∧ t.mem = s.mem ∧ t.bus = s.bus)

/-! ## The dispatcher -/

/-- 44 R231, R239: a delivery is accepted exactly when the handler is registered and idle; otherwise it has no
effect. A registered handler implies mapped windows and three wired queues, in a state whose bring-up machine is in
order. -/
def Obligations.DeliveryAcceptedWhenIdle : Prop :=
  ∀ (s : State) (ts : List Turn),
    (s.turns = .act .irqPulse :: ts →
        (s.irqEn = true → s.disp = .idle → step s = .next { s with turns := ts, disp := .isr })
          ∧ (s.irqEn = false ∨ s.disp ≠ .idle → step s = .next { s with turns := ts }))
      ∧ (s.bringUpOk = true → s.irqEn = true →
          s.winMapped = true ∧ ∀ q, (s.queue q).valid = true ∧ (s.queue q).wired = true)

/-- 44 R232, R239: in D_ISR the dispatcher reads the cause register once; the read clears it, and the value is latched.
That D_WALK begins at its first step, `walk := .enter`, is the model's own field (log 12). -/
def Obligations.IsrIsReadOnce : Prop :=
  ∀ (s : State) (ts : List Turn), s.cfg.wf = true → s.turns = .act .disp :: ts → s.disp = .isr →
    step s = .next { s with
      turns := ts, isrLat := s.dev.disr, disp := .walk, walk := .enter,
      dev := { s.dev with disr := 0, irqLine := false },
      bus := s.bus ++ [{ agent := .disp, op := .regRead .w0 s.cfg.offIsr [s.dev.disr] }] }

/-- 44 R233, R234, R235, R239: on entry to D_WALK the unknown cause bits, if any, are logged; with no QUEUE_UPDATE cause
the walk drains nothing and goes on to D_CONFIG. Otherwise the queues are taken in the role order 0, 1, 2; one that is
absent or broken is passed over, and while CMD holds the lock of one the dispatcher has no step (20 R84). The
step that ends a drain hands over what was drained: when the events are emitted, in used-ring order, every slot of a chain of
the receive queue is OWNED, every slot of a chain of any other queue is FREE, and the lock is dropped; EV_RING_CORRUPT comes
last when the drain met corruption, and then the next queue's turn. How the walk is cut into steps (`walk`), and that `dq`
stays at role 2 after it, are the model's choice (log 12), and so is that the loans end in this step (DEDUCED, log 2); that
the mask of the unknown causes is the complement of the known ones is log 18 (DEDUCED). -/
def Obligations.WalkTakesSingleSteps : Prop :=
  ∀ (s : State) (ts : List Turn) (unknown : List Word), s.turns = .act .disp :: ts → s.disp = .walk →
    unknown = (if s.isrLat &&& ~~~(s.cfg.isrQueueUpdate ||| s.cfg.isrConfigChange) = 0 then []
      else [0x00000103#32, (s.isrLat &&& ~~~(s.cfg.isrQueueUpdate ||| s.cfg.isrConfigChange)).setWidth 32]) →
    (s.walk = .enter → s.isrLat &&& s.cfg.isrQueueUpdate = 0 →
        step s = .next { s with turns := ts, disp := .config, eventPort := s.eventPort ++ unknown })
      ∧ (s.walk = .enter → s.isrLat &&& s.cfg.isrQueueUpdate ≠ 0 →
          step s = .next { s with turns := ts, dq := .q0, walk := .test, eventPort := s.eventPort ++ unknown })
      ∧ (s.walk = .test → ((s.queue s.dq).valid = false ∨ (s.queue s.dq).broken = true) →
          (s.dq = .q0 → step s = .next { s with turns := ts, dq := .q1 })
            ∧ (s.dq = .q1 → step s = .next { s with turns := ts, dq := .q2 })
            ∧ (s.dq = .q2 → step s = .next { s with turns := ts, disp := .config, walk := .enter }))
      ∧ (s.walk = .test → (s.queue s.dq).valid = true → (s.queue s.dq).broken = false →
          step s = .next { s with turns := ts, walk := .wantLock })
      ∧ (s.walk = .wantLock → (s.queue s.dq).lock ≠ none → step s = .next { s with turns := ts })
      ∧ (∀ r r1 s1 corrupt, s.safe = true → s.walk = .drain r →
          drainStep dispCtx s.dq r { s with turns := ts } = .ok (r1, s1) → r1.pos = .finished corrupt →
          ∃ t, step s = .next t
            ∧ t.eventPort = s.eventPort
                ++ r1.out.flatMap (fun d => [if s.dq = s.cfg.qRx then 0x00000201#32 else 0x00000206#32,
                    d.cookie.setWidth 32, d.len])
                ++ (if corrupt then [0x00000104#32, BitVec.ofNat 32 s.dq.num] else [])
            ∧ (∀ d ∈ r1.out, ∀ h ∈ d.handles, (t.slot h.toNat).state = if s.dq = s.cfg.qRx then .owned else .free)
            ∧ (∀ k, t.slot k = if (∃ d ∈ r1.out, ∃ h ∈ d.handles, h.toNat = k)
                then (if s.dq = s.cfg.qRx then { s1.slot k with loan := none } else Slot.free) else s1.slot k)
            ∧ t.queue s.dq = { s1.queue s.dq with lock := none } ∧ SameOtherQueues s.dq s t ∧ SameLiveBytes s t
            ∧ (t.disp, t.dq, t.walk) = (match s.dq with
              | .q0 => (.walk, .q1, .test)
              | .q1 => (.walk, .q2, .test)
              | .q2 => (.config, .q2, .enter))
            ∧ { t with queues := s.queues, pool := s.pool, mem := s.mem, disp := s.disp, dq := s.dq, walk := s.walk,
                       eventPort := s.eventPort, bus := s.bus } = { s with turns := ts })

/-- 44 R234, R235: what the dispatcher does with a queue it finds valid and not broken, when nobody else moves until it
goes on to the next queue or leaves D_WALK. It drains the queue as VQ.DRAIN does. In the end a receive queue's buffers are
OWNED, any other queue's are FREE, and indirect tables are FREE; for each chain, in used-ring order, EV_PACKET_RECEIVED or
EV_TX_RECLAIMED has been emitted, and EV_RING_CORRUPT last when the drain met corruption. Every other slot, queue, byte and
field stays. That the slots are FREE, or OWNED, at the very step that emits the events is said by O51. The steps the walk is cut into (`walk`), and the value of `dq` after the last queue, are the
model's choice (log 12). -/
def Obligations.WalkReportsDrainedChains : Prop :=
  ∀ (s : State) (chains : List DoneChain) (visited : List DescIdx) (corrupt : Bool), s.safe = true → s.disp = .walk →
    s.walk = .test → (s.queue s.dq).valid = true → (s.queue s.dq).broken = false →
    DrainFinds s s.dq chains visited corrupt →
    ∃ n t, dispSteps n s = .ok t ∧ QueueDrained s t s.dq chains visited corrupt
      ∧ (t.disp, t.dq, t.walk) = (match s.dq with
        | .q0 => (.walk, .q1, .test)
        | .q1 => (.walk, .q2, .test)
        | .q2 => (.config, .q2, .enter))
      ∧ t.eventPort = s.eventPort
          ++ chains.flatMap (fun c => [if s.dq = s.cfg.qRx then 0x00000201#32 else 0x00000206#32,
              ((s.queue s.dq).descAt c.id).cookie.setWidth 32, BitVec.ofNat 32 c.len])
          ++ (if corrupt then [0x00000104#32, BitVec.ofNat 32 s.dq.num] else [])
      ∧ (∀ k, t.slot k = if (∃ c ∈ chains, (s.slot k).loan = some { q := s.dq, head := c.id })
          then (if (s.slot k).internal = true ∨ s.dq ≠ s.cfg.qRx then Slot.free else { s.slot k with loan := none })
          else s.slot k)
      ∧ SameOtherQueues s.dq s t ∧ SameLiveBytes s t
      ∧ { t with queues := s.queues, pool := s.pool, mem := s.mem, disp := s.disp, dq := s.dq, walk := s.walk,
                 eventPort := s.eventPort, bus := s.bus } = s

/-- 44 R236, R237, R239: D_CONFIG reports the link state exactly when CONFIG_CHANGE is set: Up with no access when the
status feature is not negotiated, else the bit read from the link-status register. D_RET reports claimed exactly when
the latched value is nonzero, and goes idle. -/
def Obligations.ConfigAndReturnEvents : Prop :=
  ∀ (s : State) (ts : List Turn), s.turns = .act .disp :: ts →
    (s.disp = .config → s.isrLat &&& s.cfg.isrConfigChange = 0 → step s = .next { s with turns := ts, disp := .ret })
      ∧ (s.disp = .config → s.isrLat &&& s.cfg.isrConfigChange ≠ 0 → s.negotiated.getLsbD s.cfg.fStatus = false →
          step s = .next { s with turns := ts, disp := .ret,
                                  eventPort := s.eventPort ++ [0x00000102#32, 0x00000001#32] })
      ∧ (s.disp = .config → s.isrLat &&& s.cfg.isrConfigChange ≠ 0 → s.negotiated.getLsbD s.cfg.fStatus = true →
          s.dev.win1Open = false →
          step s = .next { s with
            turns := ts, disp := .ret,
            bus := s.bus ++ [{ agent := .disp, op := .regRead .w1 s.cfg.offLinkStatus (leBytes 2 s.dev.link.toNat) }],
            eventPort := s.eventPort ++ [0x00000102#32,
              if (BitVec.ofNat 16 (busValue s.cfg.hostEndian (leBytes 2 s.dev.link.toNat))).getLsbD s.cfg.linkUpBit
                then 1 else 0] })
      ∧ (s.disp = .ret → step s = .next { s with
          turns := ts, disp := .idle,
          eventPort := s.eventPort ++ [0x00000105#32, if s.isrLat = 0 then 0 else 1] })

/-! ## Invariants -/

/-- 70 R300, 10 R49: the machine right after reset. The values the spec gives. -/
def Obligations.ResetState : Prop :=
  State.reset.fsm = .detached ∧ State.reset.stShadow = 0 ∧ State.reset.offered = 0 ∧ State.reset.negotiated = 0
    ∧ State.reset.qsize = ⟨0, 0, 0⟩ ∧ State.reset.winMapped = false ∧ State.reset.irqEn = false
    ∧ State.reset.acq = [] ∧ State.reset.errLatch = 0
    ∧ (∀ q, (State.reset.queue q).valid = false ∧ (State.reset.queue q).wired = false
        ∧ (State.reset.queue q).broken = false ∧ (State.reset.queue q).lock = none)
    ∧ (∀ h, State.reset.slot h = Slot.free) ∧ State.reset.pool.length = State.reset.cfg.poolSlots
    ∧ State.reset.disp = .idle ∧ State.reset.isrLat = 0 ∧ State.reset.dq = .q0
    ∧ State.reset.cmdPort = [] ∧ State.reset.respPort = [] ∧ State.reset.eventPort = []
    ∧ (∀ a, State.reset.byteAt a = none)

/-- The state right after reset is a safe one. -/
def Obligations.ResetIsSafe : Prop := State.reset.safe = true

/-- 10 R46: every step keeps memory in its canonical form: addresses rising, only bytes that exist, none listed with
the value it would have unlisted. The form is the model's own choice (log 6). -/
def Obligations.StepKeepsMemoryCanonical : Prop :=
  ∀ s t : State, s.memCanonical = true → step s = .next t → t.memCanonical = true

/-- 20 R84, R85, 41 R162: between two turns CMD holds no lock and has no store pending, and DISP holds the lock of the
queue it is draining and no other. A VQ.DRAIN or a legal VQ.SUBMIT of that queue waits until the dispatcher has given the
lock back: its outcome is that in the state the dispatcher's own steps lead to. -/
def Obligations.LocksAreGivenBackAndWaitedFor : Prop :=
  (∀ s t : State, s.locksOk = true → s.storesSettled = true → step s = .next t →
      t.locksOk = true ∧ t.storesSettled = true)
    ∧ (∀ (s : State) (q : Role) (segs : List Seg), s.safe = true → s.gaps = [] → (s.queue q).lock = some .disp →
        ∃ n t, dispSteps n s = .ok t ∧ (t.queue q).lock = none ∧ exec (.vqDrain q) s = exec (.vqDrain q) t
          ∧ (s.fsm = .driverReady → q ≠ s.cfg.qCtrl → s.segsOk segs = true →
              exec (.vqSubmit q segs) s = exec (.vqSubmit q segs) t))

/-- 43 R200, R206, R213, 44 R231, 60 R277: every step keeps the bring-up machine in order: what is acquired, which
queues exist and are wired, the handler, the status shadow and the masks fit the `fsm` state. -/
def Obligations.StepKeepsBringUpInOrder : Prop :=
  ∀ s t : State, s.cfg.wf = true → s.bringUpOk = true → step s = .next t →
    t.bringUpOk = true ∧ t.cfg = s.cfg

/-- 10 R27, R28, R33, 42 R187, 45 R252: every step of every agent, an untrusted device included, keeps a safe state
safe: descriptors are conserved, loans match chains in flight, live slots never overlap, regions are intact. -/
def Obligations.StepKeepsSafe : Prop :=
  ∀ s t : State, s.safe = true → step s = .next t → t.safe = true

/-- 20 R79, 44 R238, 60 R279, R289: from a safe state no step stops: no access faults, no wait is stuck. -/
def Obligations.SafeStateNeverStops : Prop :=
  ∀ s : State, s.safe = true → ∃ t, step s = .next t
end

