-- ==== Sys2Proof/Laws/Encoding.lean ====
section
/-! SUPPORT. The fields of a header word built from fields, and segment words taken apart again (30 R101, R113). -/

namespace Sys2Proof

/-- The number a header's fields make. -/
def hdrNat (opc q d imm : Nat) : Nat := 67108864 * opc + 16777216 * q + 65536 * d + imm

theorem hdrNat_fields {opc q d imm : Nat} (ho : opc < 64) (hq : q < 4) (hd : d < 2) (hi : imm < 65536) :
    hdrNat opc q d imm < 4294967296 ∧ hdrNat opc q d imm / 67108864 % 64 = opc
      ∧ hdrNat opc q d imm / 16777216 % 4 = q ∧ hdrNat opc q d imm / 131072 % 128 = 0
      ∧ hdrNat opc q d imm / 65536 % 2 = d ∧ hdrNat opc q d imm % 65536 = imm := by
  unfold hdrNat
  omega

theorem header_eq_hdrNat (opc q d imm : Nat) : header opc q d imm = BitVec.ofNat 32 (hdrNat opc q d imm) := by
  simp only [header, hdrNat, Nat.reducePow]

theorem header_toNat {opc q d imm : Nat} (ho : opc < 64) (hq : q < 4) (hd : d < 2) (hi : imm < 65536) :
    (header opc q d imm).toNat = hdrNat opc q d imm := by
  rw [header_eq_hdrNat, BitVec.toNat_ofNat]
  exact Nat.mod_eq_of_lt (hdrNat_fields ho hq hd hi).1

theorem hdrOpc_header {opc q d imm : Nat} (ho : opc < 64) (hq : q < 4) (hd : d < 2) (hi : imm < 65536) :
    hdrOpc (header opc q d imm) = BitVec.ofNat 6 opc := by
  apply BitVec.eq_of_toNat_eq
  rw [hdrOpc, BitVec.extractLsb'_toNat, header_toNat ho hq hd hi, Nat.shiftRight_eq_div_pow, BitVec.toNat_ofNat]
  exact (hdrNat_fields ho hq hd hi).2.1.trans (Nat.mod_eq_of_lt ho).symm

theorem hdrQ_header {opc q d imm : Nat} (ho : opc < 64) (hq : q < 4) (hd : d < 2) (hi : imm < 65536) :
    hdrQ (header opc q d imm) = BitVec.ofNat 2 q := by
  apply BitVec.eq_of_toNat_eq
  rw [hdrQ, BitVec.extractLsb'_toNat, header_toNat ho hq hd hi, Nat.shiftRight_eq_div_pow, BitVec.toNat_ofNat]
  exact (hdrNat_fields ho hq hd hi).2.2.1.trans (Nat.mod_eq_of_lt hq).symm

theorem hdrZero_header {opc q d imm : Nat} (ho : opc < 64) (hq : q < 4) (hd : d < 2) (hi : imm < 65536) :
    hdrZero (header opc q d imm) = 0#7 := by
  apply BitVec.eq_of_toNat_eq
  rw [hdrZero, BitVec.extractLsb'_toNat, header_toNat ho hq hd hi, Nat.shiftRight_eq_div_pow]
  exact (hdrNat_fields ho hq hd hi).2.2.2.1

theorem hdrD_header {opc q d imm : Nat} (ho : opc < 64) (hq : q < 4) (hd : d < 2) (hi : imm < 65536) :
    hdrD (header opc q d imm) = BitVec.ofNat 1 d := by
  apply BitVec.eq_of_toNat_eq
  rw [hdrD, BitVec.extractLsb'_toNat, header_toNat ho hq hd hi, Nat.shiftRight_eq_div_pow, BitVec.toNat_ofNat]
  exact (hdrNat_fields ho hq hd hi).2.2.2.2.1.trans (Nat.mod_eq_of_lt hd).symm

theorem hdrImm_header {opc q d imm : Nat} (ho : opc < 64) (hq : q < 4) (hd : d < 2) (hi : imm < 65536) :
    hdrImm (header opc q d imm) = BitVec.ofNat 16 imm := by
  apply BitVec.eq_of_toNat_eq
  rw [hdrImm, BitVec.extractLsb'_toNat, header_toNat ho hq hd hi, Nat.shiftRight_zero, BitVec.toNat_ofNat]
  exact ((hdrNat_fields ho hq hd hi).2.2.2.2.2).trans (Nat.mod_eq_of_lt hi).symm

theorem segWords_length (segs : List Seg) : (segWords segs).length = 2 * segs.length := by
  induction segs with
  | nil => rfl
  | cons s rest ih =>
    simp only [segWords, List.length_cons, ih]
    omega

theorem segsOf_segWords (segs : List Seg) : segsOf (segWords segs) = segs := by
  induction segs with
  | nil => rfl
  | cons s rest ih => simp [segWords, segsOf, ih]

theorem segWords_segsOf (ws : List Word) (n : Nat) (h : ws.length = 2 * n) : segWords (segsOf ws) = ws := by
  induction n generalizing ws with
  | zero =>
    have : ws = [] := List.eq_nil_of_length_eq_zero h
    subst this
    rfl
  | succ n ih =>
    match ws, h with
    | a :: b :: rest, h =>
      simp only [segsOf, segWords]
      rw [ih rest (by simp only [List.length_cons] at h; omega)]

theorem roleOf_num (q : Role) : roleOf (BitVec.ofNat 2 q.num) = some q := by cases q <;> rfl

theorem Role.num_lt (q : Role) : q.num < 4 := by cases q <;> decide

theorem dirOf_bit (d : Dir) : dirOf (BitVec.ofNat 1 d.bit) = d := by cases d <;> rfl

theorem Dir.bit_lt (d : Dir) : d.bit < 2 := by cases d <;> decide

end Sys2Proof
end

