-- ==== Sys2Proof/Laws/State.lean ====
section
/-! SUPPORT. One lemma per field per update of State, so that no proof unfolds a record update; lookups of one role's
value; what the memory operations leave alone. -/

namespace Sys2Proof.Machine

/-! ## Values per role -/

@[simp] theorem PerRole.get_set_self {α : Type} (x : PerRole α) (q : Role) (v : α) : (x.set q v).get q = v := by
  cases q <;> rfl

theorem PerRole.get_set_ne {α : Type} (x : PerRole α) {p q : Role} (v : α) (h : p ≠ q) :
    (x.set q v).get p = x.get p := by
  cases p <;> cases q <;> first | rfl | exact absurd rfl h

theorem PerRole.get_set {α : Type} (x : PerRole α) (p q : Role) (v : α) :
    (x.set q v).get p = if p = q then v else x.get p := by
  cases p <;> cases q <;> rfl

@[simp] theorem PerRole.set_set {α : Type} (x : PerRole α) (q : Role) (v w : α) : (x.set q v).set q w = x.set q w := by
  cases q <;> rfl

@[simp] theorem PerRole.set_get {α : Type} (x : PerRole α) (q : Role) : x.set q (x.get q) = x := by
  cases q <;> rfl

theorem PerRole.all_iff {α : Type} (x : PerRole α) (p : α → Bool) : x.all p = true ↔ ∀ q, p (x.get q) = true := by
  constructor
  · intro h q
    simp only [PerRole.all, Bool.and_eq_true] at h
    cases q
    · exact h.1.1
    · exact h.1.2
    · exact h.2
  · intro h
    simp only [PerRole.all, Bool.and_eq_true]
    exact ⟨⟨h .q0, h .q1⟩, h .q2⟩

theorem PerRole.any_iff {α : Type} (x : PerRole α) (p : α → Bool) : x.any p = true ↔ ∃ q, p (x.get q) = true := by
  constructor
  · intro h
    simp only [PerRole.any, Bool.or_eq_true] at h
    rcases h with (h | h) | h
    · exact ⟨.q0, h⟩
    · exact ⟨.q1, h⟩
    · exact ⟨.q2, h⟩
  · rintro ⟨q, h⟩
    simp only [PerRole.any, Bool.or_eq_true]
    cases q
    · exact .inl (.inl h)
    · exact .inl (.inr h)
    · exact .inr h

/-! ## Fields after an update -/

@[simp] theorem State.setQueue_cfg (s : State) (q : Role) (x : Queue) : (s.setQueue q x).cfg = s.cfg := rfl
@[simp] theorem State.setQueue_fsm (s : State) (q : Role) (x : Queue) : (s.setQueue q x).fsm = s.fsm := rfl
@[simp] theorem State.setQueue_stShadow (s : State) (q : Role) (x : Queue) : (s.setQueue q x).stShadow = s.stShadow := rfl
@[simp] theorem State.setQueue_offered (s : State) (q : Role) (x : Queue) : (s.setQueue q x).offered = s.offered := rfl
@[simp] theorem State.setQueue_negotiated (s : State) (q : Role) (x : Queue) : (s.setQueue q x).negotiated = s.negotiated := rfl
@[simp] theorem State.setQueue_qsize (s : State) (q : Role) (x : Queue) : (s.setQueue q x).qsize = s.qsize := rfl
@[simp] theorem State.setQueue_winMapped (s : State) (q : Role) (x : Queue) : (s.setQueue q x).winMapped = s.winMapped := rfl
@[simp] theorem State.setQueue_irqEn (s : State) (q : Role) (x : Queue) : (s.setQueue q x).irqEn = s.irqEn := rfl
@[simp] theorem State.setQueue_acq (s : State) (q : Role) (x : Queue) : (s.setQueue q x).acq = s.acq := rfl
@[simp] theorem State.setQueue_errLatch (s : State) (q : Role) (x : Queue) : (s.setQueue q x).errLatch = s.errLatch := rfl
@[simp] theorem State.setQueue_pool (s : State) (q : Role) (x : Queue) : (s.setQueue q x).pool = s.pool := rfl
@[simp] theorem State.setQueue_disp (s : State) (q : Role) (x : Queue) : (s.setQueue q x).disp = s.disp := rfl
@[simp] theorem State.setQueue_isrLat (s : State) (q : Role) (x : Queue) : (s.setQueue q x).isrLat = s.isrLat := rfl
@[simp] theorem State.setQueue_dq (s : State) (q : Role) (x : Queue) : (s.setQueue q x).dq = s.dq := rfl
@[simp] theorem State.setQueue_walk (s : State) (q : Role) (x : Queue) : (s.setQueue q x).walk = s.walk := rfl
@[simp] theorem State.setQueue_dev (s : State) (q : Role) (x : Queue) : (s.setQueue q x).dev = s.dev := rfl
@[simp] theorem State.setQueue_mem (s : State) (q : Role) (x : Queue) : (s.setQueue q x).mem = s.mem := rfl
@[simp] theorem State.setQueue_cmdPort (s : State) (q : Role) (x : Queue) : (s.setQueue q x).cmdPort = s.cmdPort := rfl
@[simp] theorem State.setQueue_respPort (s : State) (q : Role) (x : Queue) : (s.setQueue q x).respPort = s.respPort := rfl
@[simp] theorem State.setQueue_eventPort (s : State) (q : Role) (x : Queue) : (s.setQueue q x).eventPort = s.eventPort := rfl
@[simp] theorem State.setQueue_hostSeen (s : State) (q : Role) (x : Queue) : (s.setQueue q x).hostSeen = s.hostSeen := rfl
@[simp] theorem State.setQueue_wbuf (s : State) (q : Role) (x : Queue) : (s.setQueue q x).wbuf = s.wbuf := rfl
@[simp] theorem State.setQueue_bus (s : State) (q : Role) (x : Queue) : (s.setQueue q x).bus = s.bus := rfl
@[simp] theorem State.setQueue_turns (s : State) (q : Role) (x : Queue) : (s.setQueue q x).turns = s.turns := rfl
@[simp] theorem State.setQueue_gaps (s : State) (q : Role) (x : Queue) : (s.setQueue q x).gaps = s.gaps := rfl
@[simp] theorem State.setQueue_platAllocs (s : State) (q : Role) (x : Queue) : (s.setQueue q x).platAllocs = s.platAllocs := rfl
@[simp] theorem State.setQueue_platMaps (s : State) (q : Role) (x : Queue) : (s.setQueue q x).platMaps = s.platMaps := rfl
@[simp] theorem State.setQueue_draws (s : State) (q : Role) (x : Queue) : (s.setQueue q x).draws = s.draws := rfl

@[simp] theorem State.setSlot_cfg (s : State) (h : Nat) (x : Slot) : (s.setSlot h x).cfg = s.cfg := rfl
@[simp] theorem State.setSlot_fsm (s : State) (h : Nat) (x : Slot) : (s.setSlot h x).fsm = s.fsm := rfl
@[simp] theorem State.setSlot_stShadow (s : State) (h : Nat) (x : Slot) : (s.setSlot h x).stShadow = s.stShadow := rfl
@[simp] theorem State.setSlot_offered (s : State) (h : Nat) (x : Slot) : (s.setSlot h x).offered = s.offered := rfl
@[simp] theorem State.setSlot_negotiated (s : State) (h : Nat) (x : Slot) : (s.setSlot h x).negotiated = s.negotiated := rfl
@[simp] theorem State.setSlot_qsize (s : State) (h : Nat) (x : Slot) : (s.setSlot h x).qsize = s.qsize := rfl
@[simp] theorem State.setSlot_winMapped (s : State) (h : Nat) (x : Slot) : (s.setSlot h x).winMapped = s.winMapped := rfl
@[simp] theorem State.setSlot_irqEn (s : State) (h : Nat) (x : Slot) : (s.setSlot h x).irqEn = s.irqEn := rfl
@[simp] theorem State.setSlot_acq (s : State) (h : Nat) (x : Slot) : (s.setSlot h x).acq = s.acq := rfl
@[simp] theorem State.setSlot_errLatch (s : State) (h : Nat) (x : Slot) : (s.setSlot h x).errLatch = s.errLatch := rfl
@[simp] theorem State.setSlot_queues (s : State) (h : Nat) (x : Slot) : (s.setSlot h x).queues = s.queues := rfl
@[simp] theorem State.setSlot_disp (s : State) (h : Nat) (x : Slot) : (s.setSlot h x).disp = s.disp := rfl
@[simp] theorem State.setSlot_isrLat (s : State) (h : Nat) (x : Slot) : (s.setSlot h x).isrLat = s.isrLat := rfl
@[simp] theorem State.setSlot_dq (s : State) (h : Nat) (x : Slot) : (s.setSlot h x).dq = s.dq := rfl
@[simp] theorem State.setSlot_walk (s : State) (h : Nat) (x : Slot) : (s.setSlot h x).walk = s.walk := rfl
@[simp] theorem State.setSlot_dev (s : State) (h : Nat) (x : Slot) : (s.setSlot h x).dev = s.dev := rfl
@[simp] theorem State.setSlot_mem (s : State) (h : Nat) (x : Slot) : (s.setSlot h x).mem = s.mem := rfl
@[simp] theorem State.setSlot_cmdPort (s : State) (h : Nat) (x : Slot) : (s.setSlot h x).cmdPort = s.cmdPort := rfl
@[simp] theorem State.setSlot_respPort (s : State) (h : Nat) (x : Slot) : (s.setSlot h x).respPort = s.respPort := rfl
@[simp] theorem State.setSlot_eventPort (s : State) (h : Nat) (x : Slot) : (s.setSlot h x).eventPort = s.eventPort := rfl
@[simp] theorem State.setSlot_hostSeen (s : State) (h : Nat) (x : Slot) : (s.setSlot h x).hostSeen = s.hostSeen := rfl
@[simp] theorem State.setSlot_wbuf (s : State) (h : Nat) (x : Slot) : (s.setSlot h x).wbuf = s.wbuf := rfl
@[simp] theorem State.setSlot_bus (s : State) (h : Nat) (x : Slot) : (s.setSlot h x).bus = s.bus := rfl
@[simp] theorem State.setSlot_turns (s : State) (h : Nat) (x : Slot) : (s.setSlot h x).turns = s.turns := rfl
@[simp] theorem State.setSlot_gaps (s : State) (h : Nat) (x : Slot) : (s.setSlot h x).gaps = s.gaps := rfl
@[simp] theorem State.setSlot_platAllocs (s : State) (h : Nat) (x : Slot) : (s.setSlot h x).platAllocs = s.platAllocs := rfl
@[simp] theorem State.setSlot_platMaps (s : State) (h : Nat) (x : Slot) : (s.setSlot h x).platMaps = s.platMaps := rfl
@[simp] theorem State.setSlot_draws (s : State) (h : Nat) (x : Slot) : (s.setSlot h x).draws = s.draws := rfl

@[simp] theorem State.setDev_cfg (s : State) (d : Device) : (s.setDev d).cfg = s.cfg := rfl
@[simp] theorem State.setDev_fsm (s : State) (d : Device) : (s.setDev d).fsm = s.fsm := rfl
@[simp] theorem State.setDev_stShadow (s : State) (d : Device) : (s.setDev d).stShadow = s.stShadow := rfl
@[simp] theorem State.setDev_offered (s : State) (d : Device) : (s.setDev d).offered = s.offered := rfl
@[simp] theorem State.setDev_negotiated (s : State) (d : Device) : (s.setDev d).negotiated = s.negotiated := rfl
@[simp] theorem State.setDev_qsize (s : State) (d : Device) : (s.setDev d).qsize = s.qsize := rfl
@[simp] theorem State.setDev_winMapped (s : State) (d : Device) : (s.setDev d).winMapped = s.winMapped := rfl
@[simp] theorem State.setDev_irqEn (s : State) (d : Device) : (s.setDev d).irqEn = s.irqEn := rfl
@[simp] theorem State.setDev_acq (s : State) (d : Device) : (s.setDev d).acq = s.acq := rfl
@[simp] theorem State.setDev_errLatch (s : State) (d : Device) : (s.setDev d).errLatch = s.errLatch := rfl
@[simp] theorem State.setDev_queues (s : State) (d : Device) : (s.setDev d).queues = s.queues := rfl
@[simp] theorem State.setDev_pool (s : State) (d : Device) : (s.setDev d).pool = s.pool := rfl
@[simp] theorem State.setDev_disp (s : State) (d : Device) : (s.setDev d).disp = s.disp := rfl
@[simp] theorem State.setDev_isrLat (s : State) (d : Device) : (s.setDev d).isrLat = s.isrLat := rfl
@[simp] theorem State.setDev_dq (s : State) (d : Device) : (s.setDev d).dq = s.dq := rfl
@[simp] theorem State.setDev_walk (s : State) (d : Device) : (s.setDev d).walk = s.walk := rfl
@[simp] theorem State.setDev_mem (s : State) (d : Device) : (s.setDev d).mem = s.mem := rfl
@[simp] theorem State.setDev_cmdPort (s : State) (d : Device) : (s.setDev d).cmdPort = s.cmdPort := rfl
@[simp] theorem State.setDev_respPort (s : State) (d : Device) : (s.setDev d).respPort = s.respPort := rfl
@[simp] theorem State.setDev_eventPort (s : State) (d : Device) : (s.setDev d).eventPort = s.eventPort := rfl
@[simp] theorem State.setDev_hostSeen (s : State) (d : Device) : (s.setDev d).hostSeen = s.hostSeen := rfl
@[simp] theorem State.setDev_wbuf (s : State) (d : Device) : (s.setDev d).wbuf = s.wbuf := rfl
@[simp] theorem State.setDev_bus (s : State) (d : Device) : (s.setDev d).bus = s.bus := rfl
@[simp] theorem State.setDev_turns (s : State) (d : Device) : (s.setDev d).turns = s.turns := rfl
@[simp] theorem State.setDev_gaps (s : State) (d : Device) : (s.setDev d).gaps = s.gaps := rfl
@[simp] theorem State.setDev_platAllocs (s : State) (d : Device) : (s.setDev d).platAllocs = s.platAllocs := rfl
@[simp] theorem State.setDev_platMaps (s : State) (d : Device) : (s.setDev d).platMaps = s.platMaps := rfl
@[simp] theorem State.setDev_draws (s : State) (d : Device) : (s.setDev d).draws = s.draws := rfl

@[simp] theorem State.log_cfg (s : State) (a : Agent) (op : BusOp) : (s.log a op).cfg = s.cfg := rfl
@[simp] theorem State.log_fsm (s : State) (a : Agent) (op : BusOp) : (s.log a op).fsm = s.fsm := rfl
@[simp] theorem State.log_stShadow (s : State) (a : Agent) (op : BusOp) : (s.log a op).stShadow = s.stShadow := rfl
@[simp] theorem State.log_offered (s : State) (a : Agent) (op : BusOp) : (s.log a op).offered = s.offered := rfl
@[simp] theorem State.log_negotiated (s : State) (a : Agent) (op : BusOp) : (s.log a op).negotiated = s.negotiated := rfl
@[simp] theorem State.log_qsize (s : State) (a : Agent) (op : BusOp) : (s.log a op).qsize = s.qsize := rfl
@[simp] theorem State.log_winMapped (s : State) (a : Agent) (op : BusOp) : (s.log a op).winMapped = s.winMapped := rfl
@[simp] theorem State.log_irqEn (s : State) (a : Agent) (op : BusOp) : (s.log a op).irqEn = s.irqEn := rfl
@[simp] theorem State.log_acq (s : State) (a : Agent) (op : BusOp) : (s.log a op).acq = s.acq := rfl
@[simp] theorem State.log_errLatch (s : State) (a : Agent) (op : BusOp) : (s.log a op).errLatch = s.errLatch := rfl
@[simp] theorem State.log_queues (s : State) (a : Agent) (op : BusOp) : (s.log a op).queues = s.queues := rfl
@[simp] theorem State.log_pool (s : State) (a : Agent) (op : BusOp) : (s.log a op).pool = s.pool := rfl
@[simp] theorem State.log_disp (s : State) (a : Agent) (op : BusOp) : (s.log a op).disp = s.disp := rfl
@[simp] theorem State.log_isrLat (s : State) (a : Agent) (op : BusOp) : (s.log a op).isrLat = s.isrLat := rfl
@[simp] theorem State.log_dq (s : State) (a : Agent) (op : BusOp) : (s.log a op).dq = s.dq := rfl
@[simp] theorem State.log_walk (s : State) (a : Agent) (op : BusOp) : (s.log a op).walk = s.walk := rfl
@[simp] theorem State.log_dev (s : State) (a : Agent) (op : BusOp) : (s.log a op).dev = s.dev := rfl
@[simp] theorem State.log_mem (s : State) (a : Agent) (op : BusOp) : (s.log a op).mem = s.mem := rfl
@[simp] theorem State.log_cmdPort (s : State) (a : Agent) (op : BusOp) : (s.log a op).cmdPort = s.cmdPort := rfl
@[simp] theorem State.log_respPort (s : State) (a : Agent) (op : BusOp) : (s.log a op).respPort = s.respPort := rfl
@[simp] theorem State.log_eventPort (s : State) (a : Agent) (op : BusOp) : (s.log a op).eventPort = s.eventPort := rfl
@[simp] theorem State.log_hostSeen (s : State) (a : Agent) (op : BusOp) : (s.log a op).hostSeen = s.hostSeen := rfl
@[simp] theorem State.log_wbuf (s : State) (a : Agent) (op : BusOp) : (s.log a op).wbuf = s.wbuf := rfl
@[simp] theorem State.log_turns (s : State) (a : Agent) (op : BusOp) : (s.log a op).turns = s.turns := rfl
@[simp] theorem State.log_gaps (s : State) (a : Agent) (op : BusOp) : (s.log a op).gaps = s.gaps := rfl
@[simp] theorem State.log_platAllocs (s : State) (a : Agent) (op : BusOp) : (s.log a op).platAllocs = s.platAllocs := rfl
@[simp] theorem State.log_platMaps (s : State) (a : Agent) (op : BusOp) : (s.log a op).platMaps = s.platMaps := rfl
@[simp] theorem State.log_draws (s : State) (a : Agent) (op : BusOp) : (s.log a op).draws = s.draws := rfl

@[simp] theorem State.respond_cfg (s : State) (e : Err) (data : List Word) : (s.respond e data).cfg = s.cfg := rfl
@[simp] theorem State.respond_fsm (s : State) (e : Err) (data : List Word) : (s.respond e data).fsm = s.fsm := rfl
@[simp] theorem State.respond_stShadow (s : State) (e : Err) (data : List Word) : (s.respond e data).stShadow = s.stShadow := rfl
@[simp] theorem State.respond_offered (s : State) (e : Err) (data : List Word) : (s.respond e data).offered = s.offered := rfl
@[simp] theorem State.respond_negotiated (s : State) (e : Err) (data : List Word) : (s.respond e data).negotiated = s.negotiated := rfl
@[simp] theorem State.respond_qsize (s : State) (e : Err) (data : List Word) : (s.respond e data).qsize = s.qsize := rfl
@[simp] theorem State.respond_winMapped (s : State) (e : Err) (data : List Word) : (s.respond e data).winMapped = s.winMapped := rfl
@[simp] theorem State.respond_irqEn (s : State) (e : Err) (data : List Word) : (s.respond e data).irqEn = s.irqEn := rfl
@[simp] theorem State.respond_acq (s : State) (e : Err) (data : List Word) : (s.respond e data).acq = s.acq := rfl
@[simp] theorem State.respond_errLatch (s : State) (e : Err) (data : List Word) : (s.respond e data).errLatch = s.errLatch := rfl
@[simp] theorem State.respond_queues (s : State) (e : Err) (data : List Word) : (s.respond e data).queues = s.queues := rfl
@[simp] theorem State.respond_pool (s : State) (e : Err) (data : List Word) : (s.respond e data).pool = s.pool := rfl
@[simp] theorem State.respond_disp (s : State) (e : Err) (data : List Word) : (s.respond e data).disp = s.disp := rfl
@[simp] theorem State.respond_isrLat (s : State) (e : Err) (data : List Word) : (s.respond e data).isrLat = s.isrLat := rfl
@[simp] theorem State.respond_dq (s : State) (e : Err) (data : List Word) : (s.respond e data).dq = s.dq := rfl
@[simp] theorem State.respond_walk (s : State) (e : Err) (data : List Word) : (s.respond e data).walk = s.walk := rfl
@[simp] theorem State.respond_dev (s : State) (e : Err) (data : List Word) : (s.respond e data).dev = s.dev := rfl
@[simp] theorem State.respond_mem (s : State) (e : Err) (data : List Word) : (s.respond e data).mem = s.mem := rfl
@[simp] theorem State.respond_cmdPort (s : State) (e : Err) (data : List Word) : (s.respond e data).cmdPort = s.cmdPort := rfl
@[simp] theorem State.respond_eventPort (s : State) (e : Err) (data : List Word) : (s.respond e data).eventPort = s.eventPort := rfl
@[simp] theorem State.respond_hostSeen (s : State) (e : Err) (data : List Word) : (s.respond e data).hostSeen = s.hostSeen := rfl
@[simp] theorem State.respond_wbuf (s : State) (e : Err) (data : List Word) : (s.respond e data).wbuf = s.wbuf := rfl
@[simp] theorem State.respond_bus (s : State) (e : Err) (data : List Word) : (s.respond e data).bus = s.bus := rfl
@[simp] theorem State.respond_turns (s : State) (e : Err) (data : List Word) : (s.respond e data).turns = s.turns := rfl
@[simp] theorem State.respond_gaps (s : State) (e : Err) (data : List Word) : (s.respond e data).gaps = s.gaps := rfl
@[simp] theorem State.respond_platAllocs (s : State) (e : Err) (data : List Word) : (s.respond e data).platAllocs = s.platAllocs := rfl
@[simp] theorem State.respond_platMaps (s : State) (e : Err) (data : List Word) : (s.respond e data).platMaps = s.platMaps := rfl
@[simp] theorem State.respond_draws (s : State) (e : Err) (data : List Word) : (s.respond e data).draws = s.draws := rfl

@[simp] theorem State.emit_cfg (s : State) (e : Event) : (s.emit e).cfg = s.cfg := rfl
@[simp] theorem State.emit_fsm (s : State) (e : Event) : (s.emit e).fsm = s.fsm := rfl
@[simp] theorem State.emit_stShadow (s : State) (e : Event) : (s.emit e).stShadow = s.stShadow := rfl
@[simp] theorem State.emit_offered (s : State) (e : Event) : (s.emit e).offered = s.offered := rfl
@[simp] theorem State.emit_negotiated (s : State) (e : Event) : (s.emit e).negotiated = s.negotiated := rfl
@[simp] theorem State.emit_qsize (s : State) (e : Event) : (s.emit e).qsize = s.qsize := rfl
@[simp] theorem State.emit_winMapped (s : State) (e : Event) : (s.emit e).winMapped = s.winMapped := rfl
@[simp] theorem State.emit_irqEn (s : State) (e : Event) : (s.emit e).irqEn = s.irqEn := rfl
@[simp] theorem State.emit_acq (s : State) (e : Event) : (s.emit e).acq = s.acq := rfl
@[simp] theorem State.emit_errLatch (s : State) (e : Event) : (s.emit e).errLatch = s.errLatch := rfl
@[simp] theorem State.emit_queues (s : State) (e : Event) : (s.emit e).queues = s.queues := rfl
@[simp] theorem State.emit_pool (s : State) (e : Event) : (s.emit e).pool = s.pool := rfl
@[simp] theorem State.emit_disp (s : State) (e : Event) : (s.emit e).disp = s.disp := rfl
@[simp] theorem State.emit_isrLat (s : State) (e : Event) : (s.emit e).isrLat = s.isrLat := rfl
@[simp] theorem State.emit_dq (s : State) (e : Event) : (s.emit e).dq = s.dq := rfl
@[simp] theorem State.emit_walk (s : State) (e : Event) : (s.emit e).walk = s.walk := rfl
@[simp] theorem State.emit_dev (s : State) (e : Event) : (s.emit e).dev = s.dev := rfl
@[simp] theorem State.emit_mem (s : State) (e : Event) : (s.emit e).mem = s.mem := rfl
@[simp] theorem State.emit_cmdPort (s : State) (e : Event) : (s.emit e).cmdPort = s.cmdPort := rfl
@[simp] theorem State.emit_respPort (s : State) (e : Event) : (s.emit e).respPort = s.respPort := rfl
@[simp] theorem State.emit_hostSeen (s : State) (e : Event) : (s.emit e).hostSeen = s.hostSeen := rfl
@[simp] theorem State.emit_wbuf (s : State) (e : Event) : (s.emit e).wbuf = s.wbuf := rfl
@[simp] theorem State.emit_bus (s : State) (e : Event) : (s.emit e).bus = s.bus := rfl
@[simp] theorem State.emit_turns (s : State) (e : Event) : (s.emit e).turns = s.turns := rfl
@[simp] theorem State.emit_gaps (s : State) (e : Event) : (s.emit e).gaps = s.gaps := rfl
@[simp] theorem State.emit_platAllocs (s : State) (e : Event) : (s.emit e).platAllocs = s.platAllocs := rfl
@[simp] theorem State.emit_platMaps (s : State) (e : Event) : (s.emit e).platMaps = s.platMaps := rfl
@[simp] theorem State.emit_draws (s : State) (e : Event) : (s.emit e).draws = s.draws := rfl

@[simp] theorem State.setSlot_pool (s : State) (h : Nat) (x : Slot) : (s.setSlot h x).pool = s.pool.set h x := rfl
@[simp] theorem State.setDev_dev (s : State) (d : Device) : (s.setDev d).dev = d := rfl
@[simp] theorem State.setQueue_queues (s : State) (q : Role) (x : Queue) :
    (s.setQueue q x).queues = s.queues.set q x := rfl
@[simp] theorem State.log_bus (s : State) (a : Agent) (op : BusOp) :
    (s.log a op).bus = s.bus ++ [{ agent := a, op := op }] := rfl
@[simp] theorem State.respond_respPort (s : State) (e : Err) (data : List Word) :
    (s.respond e data).respPort = s.respPort ++ (frameWord e.code data.length :: data) := rfl
@[simp] theorem State.emit_eventPort (s : State) (e : Event) : (s.emit e).eventPort = s.eventPort ++ e.words := rfl

/-! ## Queues, slots and bytes after an update -/

@[simp] theorem State.queue_setQueue_self (s : State) (q : Role) (x : Queue) : (s.setQueue q x).queue q = x :=
  PerRole.get_set_self ..

theorem State.queue_setQueue_ne (s : State) {p q : Role} (x : Queue) (h : p ≠ q) :
    (s.setQueue q x).queue p = s.queue p := PerRole.get_set_ne _ _ h

theorem State.queue_setQueue (s : State) (p q : Role) (x : Queue) :
    (s.setQueue q x).queue p = if p = q then x else s.queue p := PerRole.get_set ..

@[simp] theorem State.setQueue_setQueue (s : State) (q : Role) (x y : Queue) :
    (s.setQueue q x).setQueue q y = s.setQueue q y := by
  simp only [State.setQueue, PerRole.set_set]

@[simp] theorem State.setQueue_queue (s : State) (q : Role) : s.setQueue q (s.queue q) = s := by
  simp only [State.setQueue, State.queue, PerRole.set_get]

@[simp] theorem State.slot_setQueue (s : State) (q : Role) (x : Queue) (h : Nat) :
    (s.setQueue q x).slot h = s.slot h := rfl
@[simp] theorem State.slot_setDev (s : State) (d : Device) (h : Nat) : (s.setDev d).slot h = s.slot h := rfl
@[simp] theorem State.slot_log (s : State) (a : Agent) (op : BusOp) (h : Nat) : (s.log a op).slot h = s.slot h := rfl
@[simp] theorem State.slot_respond (s : State) (e : Err) (d : List Word) (h : Nat) :
    (s.respond e d).slot h = s.slot h := rfl
@[simp] theorem State.slot_emit (s : State) (e : Event) (h : Nat) : (s.emit e).slot h = s.slot h := rfl
@[simp] theorem State.queue_setSlot (s : State) (h : Nat) (x : Slot) (q : Role) :
    (s.setSlot h x).queue q = s.queue q := rfl
@[simp] theorem State.queue_setDev (s : State) (d : Device) (q : Role) : (s.setDev d).queue q = s.queue q := rfl
@[simp] theorem State.queue_log (s : State) (a : Agent) (op : BusOp) (q : Role) :
    (s.log a op).queue q = s.queue q := rfl
@[simp] theorem State.queue_respond (s : State) (e : Err) (d : List Word) (q : Role) :
    (s.respond e d).queue q = s.queue q := rfl
@[simp] theorem State.queue_emit (s : State) (e : Event) (q : Role) : (s.emit e).queue q = s.queue q := rfl

theorem State.slot_setSlot_self (s : State) {h : Nat} (x : Slot) (hh : h < s.pool.length) :
    (s.setSlot h x).slot h = x := by
  simp [State.slot, List.getD, hh]

theorem State.slot_setSlot_ne (s : State) {h k : Nat} (x : Slot) (hk : k ≠ h) :
    (s.setSlot h x).slot k = s.slot k := by
  simp [State.slot, List.getD, Ne.symm hk]

@[simp] theorem State.byteAt_setQueue (s : State) (q : Role) (x : Queue) (a : Nat) :
    (s.setQueue q x).byteAt a = s.byteAt a := rfl
@[simp] theorem State.byteAt_setDev (s : State) (d : Device) (a : Nat) : (s.setDev d).byteAt a = s.byteAt a := rfl
@[simp] theorem State.byteAt_log (s : State) (g : Agent) (op : BusOp) (a : Nat) :
    (s.log g op).byteAt a = s.byteAt a := rfl
@[simp] theorem State.byteAt_respond (s : State) (e : Err) (d : List Word) (a : Nat) :
    (s.respond e d).byteAt a = s.byteAt a := rfl
@[simp] theorem State.byteAt_emit (s : State) (e : Event) (a : Nat) : (s.emit e).byteAt a = s.byteAt a := rfl

/-! ## Stores change memory alone -/

theorem State.putByte_eq (s : State) (a : Nat) (b : Byte) : s.putByte a b = { s with mem := (s.putByte a b).mem } := by
  unfold State.putByte
  split
  · rfl
  · rfl
  · split <;> rfl

theorem State.putBytes_eq (s : State) (a : Nat) (bs : List Byte) :
    s.putBytes a bs = { s with mem := (s.putBytes a bs).mem } := by
  induction bs generalizing s a with
  | nil => rfl
  | cons b rest ih =>
    rw [State.putBytes, ih (s.putByte a b) (a + 1)]
    rw [State.putByte_eq s a b]

theorem State.applyStores_eq (s : State) (sts : List Store) :
    s.applyStores sts = { s with mem := (s.applyStores sts).mem } := by
  induction sts generalizing s with
  | nil => rfl
  | cons st rest ih =>
    rw [State.applyStores, ih (s.putBytes st.addr st.bytes)]
    rw [State.putBytes_eq s st.addr st.bytes]

/-- Letting CMD's stores take effect changes memory and the store buffer alone. -/
theorem State.settle_eq (s : State) : s.settle = { s with mem := s.settle.mem, wbuf := [] } := by
  unfold State.settle
  rw [State.applyStores_eq s s.wbuf]

/-- With no store pending, letting them take effect does nothing. -/
theorem State.settle_of_nil (s : State) (h : s.wbuf = []) : s.settle = s := by
  cases s
  cases h
  rfl

/-- The early store that takes effect changes memory and the store buffer alone. -/
theorem State.commitStore_eq (s : State) (k : Nat) :
    s.commitStore k = { s with mem := (s.commitStore k).mem, wbuf := (s.commitStore k).wbuf } := by
  unfold State.commitStore
  split
  · rfl
  · split
    · rfl
    · rename_i st _ _
      rw [State.putBytes_eq s st.addr st.bytes]

/-! ## Free values change their counter alone -/

theorem State.drawBytes_snd (s : State) (n : Nat) :
    (s.drawBytes n).2 = { s with draws := (s.drawBytes n).2.draws } := by
  induction n generalizing s with
  | zero => rfl
  | succ n ih =>
    show ((s.drawByte).2.drawBytes n).2 = _
    rw [ih (s.drawByte).2]
    rfl

theorem State.drawBytes_length (s : State) (n : Nat) : (s.drawBytes n).1.length = n := by
  induction n generalizing s with
  | zero => rfl
  | succ n ih =>
    show ((s.drawByte).1 :: ((s.drawByte).2.drawBytes n).1).length = _
    rw [List.length_cons, ih]

/-! ## Freeing slots, ending loans: the pool and memory alone -/

theorem poolFree_eq (h : Nat) (s : State) :
    poolFree h s = { s with pool := s.pool.set h Slot.free, mem := (poolFree h s).mem } := rfl

theorem endLoan_eq (h : Nat) (s : State) : endLoan h s = { s with pool := (endLoan h s).pool } := rfl

theorem setLoans_eq (l : Option Loan) (hs : List Handle) (s : State) :
    setLoans l hs s = { s with pool := (setLoans l hs s).pool } := by
  induction hs generalizing s with
  | nil => rfl
  | cons h rest ih =>
    rw [setLoans, ih (setLoan h.toNat l s)]
    rfl

theorem poolFrees_eq (hs : List Handle) (s : State) :
    poolFrees hs s = { s with pool := (poolFrees hs s).pool, mem := (poolFrees hs s).mem } := by
  induction hs generalizing s with
  | nil => rfl
  | cons h rest ih =>
    rw [poolFrees, ih (poolFree h.toNat s)]
    rfl

/-- Reporting chains writes the pool, memory and the event port alone. -/
theorem reportChains_eq (out : List Drained) (s : State) :
    reportChains out s = { s with
      pool := (reportChains out s).pool, mem := (reportChains out s).mem, eventPort := (reportChains out s).eventPort } := by
  induction out generalizing s with
  | nil => rfl
  | cons d rest ih =>
    rw [reportChains, ih (reportChain d s)]
    unfold reportChain
    split
    · rfl
    · rw [poolFrees_eq]
      rfl

/-- What the end of a walk writes: the queues (a lock), the pool, memory and the event port. -/
theorem handOver_eq (out : List Drained) (corrupt : Bool) (s : State) :
    handOver out corrupt s = { s with
      queues := (handOver out corrupt s).queues, pool := (handOver out corrupt s).pool,
      mem := (handOver out corrupt s).mem, eventPort := (handOver out corrupt s).eventPort } := by
  simp only [handOver]
  rw [reportChains_eq, setLoans_eq]
  split <;> rfl

theorem freeLent_eq (q : Role) (mode : FreeMode) (h : Handle) (s : State) :
    freeLent q mode h s = { s with pool := (freeLent q mode h s).pool, mem := (freeLent q mode h s).mem } := by
  unfold freeLent
  split
  · rfl
  · split
    · split <;> rfl
    · rfl

theorem freeLents_eq (q : Role) (mode : FreeMode) (hs : List Handle) (s : State) :
    freeLents q mode hs s = { s with pool := (freeLents q mode hs s).pool, mem := (freeLents q mode hs s).mem } := by
  induction hs generalizing s with
  | nil => rfl
  | cons h rest ih =>
    rw [freeLents, ih (freeLent q mode h s)]
    rw [freeLent_eq q mode h s]

end Sys2Proof.Machine
end

