-- ==== Sys2Proof/Laws/Memory.lean ====
section
/-! SUPPORT. The laws of shared memory: read after write, and that every memory operation keeps the canonical form. -/

namespace Sys2Proof.Machine

/-! ## Bytes of a value -/

theorem leBytes_length (n v : Nat) : (leBytes n v).length = n := by
  induction n generalizing v with
  | zero => rfl
  | succ n ih => simp [leBytes, ih]

theorem busBytes_length (e : Endian) (n v : Nat) : (busBytes e n v).length = n := by
  cases e <;> simp [busBytes, leBytes_length]

theorem ofLe_leBytes (n v : Nat) (h : v < 256 ^ n) : ofLe (leBytes n v) = v := by
  induction n generalizing v with
  | zero =>
    simp only [Nat.pow_zero, Nat.lt_one_iff] at h
    subst h
    rfl
  | succ n ih =>
    have hd : v / 256 < 256 ^ n := by
      apply Nat.div_lt_of_lt_mul
      calc v < 256 ^ (n + 1) := h
        _ = 256 * 256 ^ n := by ring
    simp only [leBytes, ofLe, ih _ hd, BitVec.toNat_ofNat]
    omega

/-- Sending a value and reading it back in the same byte order gives the value (20 R65, R66). -/
theorem busValue_busBytes (e : Endian) (n v : Nat) (h : v < 256 ^ n) : busValue e (busBytes e n v) = v := by
  cases e <;> simp [busValue, busBytes, ofLe_leBytes n v h]

theorem ofLe_lt (bs : List Byte) : ofLe bs < 256 ^ bs.length := by
  induction bs with
  | nil => simp [ofLe]
  | cons b rest ih =>
    have hb : b.toNat < 256 := b.isLt
    simp only [ofLe, List.length_cons]
    have : 256 ^ (rest.length + 1) = 256 * 256 ^ rest.length := by ring
    omega

theorem busValue_lt (e : Endian) (bs : List Byte) : busValue e bs < 256 ^ bs.length := by
  cases e
  · exact ofLe_lt bs
  · simpa [busValue] using ofLe_lt bs.reverse

/-! ## The list -/

theorem Memory.find_put (m : Memory) (a c : Nat) (b : Byte) :
    Memory.find (Memory.put m a b) c = if c = a then some b else Memory.find m c := by
  induction m with
  | nil =>
    simp only [Memory.put, Memory.find]
    by_cases h : a = c <;> simp [h, eq_comm]
  | cons x rest ih =>
    simp only [Memory.put]
    split
    · simp only [Memory.find]
      by_cases h : a = c <;> simp [h, eq_comm]
    · split
      · rename_i h1 h2
        simp only [Memory.find]
        by_cases h : a = c
        · simp [h]
        · simp [h, Ne.symm h, ← h2]
      · rename_i h1 h2
        simp only [Memory.find, ih]
        by_cases h : x.1 = c
        · simp [h]
          intro hc
          exact absurd (hc.symm.trans h.symm) h2
        · simp [h]

theorem Memory.find_eraseRange (m : Memory) (lo hi a : Nat) :
    Memory.find (m.eraseRange lo hi) a = if lo ≤ a ∧ a < hi then none else Memory.find m a := by
  induction m with
  | nil => simp [Memory.eraseRange, Memory.find]
  | cons x rest ih =>
    unfold Memory.eraseRange at ih ⊢
    by_cases hx : lo ≤ x.1 ∧ x.1 < hi
    · rw [List.filter_cons_of_neg (by simp [hx]), ih]
      by_cases ha : x.1 = a
      · subst ha
        simp [hx]
      · simp [Memory.find, ha]
    · rw [List.filter_cons_of_pos (by simp only [Bool.not_eq_true', Bool.and_eq_false_iff, decide_eq_false_iff_not]; omega)]
      simp only [Memory.find, ih]
      by_cases ha : x.1 = a
      · subst ha
        simp [hx]
      · simp [ha]

theorem Memory.rising_iff (m : Memory) : Memory.rising m = true ↔ m.Pairwise (fun c d => c.1 < d.1) := by
  induction m with
  | nil => simp [Memory.rising]
  | cons c rest ih =>
    cases rest with
    | nil => simp [Memory.rising]
    | cons d tail =>
      rw [Memory.rising, Bool.and_eq_true, decide_eq_true_iff, ih, List.pairwise_cons (a := c)]
      constructor
      · rintro ⟨hcd, hp⟩
        refine ⟨?_, hp⟩
        intro e he
        rcases List.mem_cons.1 he with rfl | he
        · exact hcd
        · exact Nat.lt_trans hcd ((List.pairwise_cons.1 hp).1 e he)
      · rintro ⟨hc, hp⟩
        exact ⟨hc d (List.mem_cons_self ..), hp⟩

theorem Memory.mem_put {m : Memory} {a : Nat} {b : Byte} {c : Host.Cell} (h : c ∈ Memory.put m a b) :
    c = (a, b) ∨ c ∈ m := by
  induction m with
  | nil => simpa [Memory.put] using h
  | cons x rest ih =>
    simp only [Memory.put] at h
    split at h
    · simpa using h
    · split at h
      · rcases List.mem_cons.1 h with h | h
        · exact .inl h
        · exact .inr (List.mem_cons_of_mem _ h)
      · rcases List.mem_cons.1 h with h | h
        · exact .inr (h ▸ List.mem_cons_self ..)
        · rcases ih h with h | h
          · exact .inl h
          · exact .inr (List.mem_cons_of_mem _ h)

theorem Memory.rising_put (m : Memory) (a : Nat) (b : Byte) (h : Memory.rising m = true) :
    Memory.rising (Memory.put m a b) = true := by
  rw [Memory.rising_iff] at h ⊢
  induction m with
  | nil => simp [Memory.put]
  | cons x rest ih =>
    have hp := List.pairwise_cons.1 h
    simp only [Memory.put]
    split
    · rename_i hax
      refine List.pairwise_cons.2 ⟨?_, h⟩
      intro e he
      rcases List.mem_cons.1 he with rfl | he
      · exact hax
      · exact Nat.lt_trans hax (hp.1 e he)
    · split
      · rename_i hax
        refine List.pairwise_cons.2 ⟨?_, hp.2⟩
        intro e he
        show a < e.1
        rw [hax]
        exact hp.1 e he
      · rename_i h1 h2
        refine List.pairwise_cons.2 ⟨?_, ih hp.2⟩
        intro e he
        rcases Memory.mem_put he with rfl | he
        · show x.1 < a
          omega
        · exact hp.1 e he

theorem Memory.rising_eraseRange (m : Memory) (lo hi : Nat) (h : Memory.rising m = true) :
    Memory.rising (m.eraseRange lo hi) = true := by
  rw [Memory.rising_iff] at h ⊢
  exact h.filter _

theorem Memory.mem_eraseRange {m : Memory} {lo hi : Nat} {c : Host.Cell} :
    c ∈ m.eraseRange lo hi ↔ c ∈ m ∧ ¬(lo ≤ c.1 ∧ c.1 < hi) := by
  simp only [Memory.eraseRange, List.mem_filter, Bool.not_eq_true', Bool.and_eq_false_iff, decide_eq_false_iff_not]
  exact and_congr_right fun _ => by omega

/-! ## The canonical form -/

/-- What the canonical form says of one entry. -/
def ByteKind.admits (k : ByteKind) (b : Byte) : Prop :=
  match k with
  | .dead => False
  | .fresh _ => True
  | .zero => b ≠ 0

theorem Memory.wf_iff (kind : Nat → ByteKind) (m : Memory) :
    Memory.wf kind m = true ↔ Memory.rising m = true ∧ ∀ c ∈ m, (kind c.1).admits c.2 := by
  rw [Memory.wf, Bool.and_eq_true, List.all_eq_true]
  refine and_congr_right fun _ => forall₂_congr fun c _ => ?_
  cases kind c.1 <;> simp [ByteKind.admits]

/-- The form survives a change of what unlisted addresses read as, where nothing is listed at the changed ones. -/
theorem Memory.wf_of_kind {k k' : Nat → ByteKind} {m : Memory} (h : Memory.wf k m = true)
    (hk : ∀ c ∈ m, k' c.1 = k c.1) : Memory.wf k' m = true := by
  rw [Memory.wf_iff] at h ⊢
  refine ⟨h.1, fun c hc => ?_⟩
  rw [hk c hc]
  exact h.2 c hc

theorem Memory.wf_eraseRange {k : Nat → ByteKind} {m : Memory} (lo hi : Nat) (h : Memory.wf k m = true) :
    Memory.wf k (m.eraseRange lo hi) = true := by
  rw [Memory.wf_iff] at h ⊢
  exact ⟨Memory.rising_eraseRange m lo hi h.1, fun c hc => h.2 c (Memory.mem_eraseRange.1 hc).1⟩

theorem Memory.wf_put {k : Nat → ByteKind} {m : Memory} {a : Nat} {b : Byte} (h : Memory.wf k m = true)
    (hb : (k a).admits b) : Memory.wf k (Memory.put m a b) = true := by
  rw [Memory.wf_iff] at h ⊢
  refine ⟨Memory.rising_put m a b h.1, fun c hc => ?_⟩
  rcases Memory.mem_put hc with rfl | hc
  · exact hb
  · exact h.2 c hc

theorem Memory.find_mem {m : Memory} {a : Nat} {b : Byte} (h : Memory.find m a = some b) : (a, b) ∈ m := by
  induction m with
  | nil => simp [Memory.find] at h
  | cons x rest ih =>
    simp only [Memory.find] at h
    split at h
    · rename_i hx
      cases h
      rw [← hx]
      exact List.mem_cons_self ..
    · exact List.mem_cons_of_mem _ (ih h)

/-! ## One byte -/

/-- A store to an existing byte is what the byte then reads as. -/
theorem State.byteAt_putByte_self (s : State) (a : Nat) (b : Byte) (h : poolKind s.pool a ≠ .dead) :
    (s.putByte a b).byteAt a = some b := by
  unfold State.putByte State.byteAt
  cases hk : poolKind s.pool a with
  | dead => exact absurd hk h
  | fresh k => simp [hk, Memory.find_put]
  | zero =>
    by_cases hb : b = 0
    · simp [hk, hb, Memory.find_eraseRange]
    · rw [if_neg hb]
      simp [hk, Memory.find_put]

/-- A store leaves every other byte alone. -/
theorem State.byteAt_putByte_ne (s : State) {a c : Nat} (b : Byte) (h : c ≠ a) :
    (s.putByte a b).byteAt c = s.byteAt c := by
  unfold State.putByte
  split
  · rfl
  · simp [State.byteAt, Memory.find_put, h]
  · split
    · have : ¬(a ≤ c ∧ c < a + 1) := by omega
      simp only [State.byteAt, Memory.find_eraseRange, if_neg this]
    · simp [State.byteAt, Memory.find_put, h]

@[simp] theorem State.putByte_pool (s : State) (a : Nat) (b : Byte) : (s.putByte a b).pool = s.pool := by
  rw [State.putByte_eq]

@[simp] theorem State.putBytes_pool (s : State) (a : Nat) (bs : List Byte) : (s.putBytes a bs).pool = s.pool := by
  rw [State.putBytes_eq]

/-- Bytes outside the stored ones are unchanged (20 R71). -/
theorem State.byteAt_putBytes_outside (s : State) (a : Nat) (bs : List Byte) {c : Nat}
    (h : c < a ∨ a + bs.length ≤ c) : (s.putBytes a bs).byteAt c = s.byteAt c := by
  induction bs generalizing s a with
  | nil => rfl
  | cons b rest ih =>
    simp only [List.length_cons] at h
    rw [State.putBytes, ih (s.putByte a b) (a + 1) (by omega)]
    exact s.byteAt_putByte_ne b (by omega)

/-- The stored bytes read as they were stored (20 R71). -/
theorem State.byteAt_putBytes_inside (s : State) (a : Nat) (bs : List Byte) {k : Nat} (hk : k < bs.length)
    (h : poolKind s.pool (a + k) ≠ .dead) : (s.putBytes a bs).byteAt (a + k) = some bs[k] := by
  induction bs generalizing s a k with
  | nil => exact absurd hk (Nat.not_lt_zero k)
  | cons b rest ih =>
    rw [State.putBytes]
    cases k with
    | zero =>
      rw [State.byteAt_putBytes_outside _ _ _ (.inl (by omega))]
      exact s.byteAt_putByte_self a b h
    | succ k =>
      have hk' : k < rest.length := by simpa using hk
      have := ih (s.putByte a b) (a + 1) hk' (by rw [State.putByte_pool]; convert h using 2; omega)
      simpa [Nat.add_assoc, Nat.add_comm 1 k] using this

/-! ## What a change of the slot table does to unlisted addresses -/

@[simp] theorem Slot.free_covers (a : Nat) : Slot.free.covers a = false := rfl

theorem poolKind_cons (x : Slot) (rest : List Slot) (a : Nat) :
    poolKind (x :: rest) a =
      if x.covers a then x.fill.kind else poolKind rest a := by
  unfold poolKind
  by_cases h : x.covers a
  · simp [h]
  · simp [h]

/-- Replacing a slot changes nothing at an address neither the old nor the new slot covers. -/
theorem poolKind_set (pool : List Slot) (h : Nat) (y : Slot) (a : Nat)
    (hx : (pool.getD h Slot.free).covers a = false) (hy : y.covers a = false) :
    poolKind (pool.set h y) a = poolKind pool a := by
  induction pool generalizing h with
  | nil => rfl
  | cons x rest ih =>
    cases h with
    | zero =>
      have hx' : x.covers a = false := hx
      simp [poolKind_cons, hx', hy]
    | succ h =>
      simp only [List.set_cons_succ, poolKind_cons]
      rw [ih h hx]

/-- Replacing a slot by one with the same memory changes nothing. -/
theorem poolKind_set_same (pool : List Slot) (h : Nat) (y : Slot) (a : Nat)
    (hc : y.covers a = (pool.getD h Slot.free).covers a) (hz : y.fill = (pool.getD h Slot.free).fill) :
    poolKind (pool.set h y) a = poolKind pool a := by
  induction pool generalizing h with
  | nil => rfl
  | cons x rest ih =>
    cases h with
    | zero =>
      have hc' : y.covers a = x.covers a := hc
      have hz' : y.fill = x.fill := hz
      simp [poolKind_cons, hc', hz']
    | succ h =>
      simp only [List.set_cons_succ, poolKind_cons]
      rw [ih h hc hz]

theorem poolKind_dead_iff (pool : List Slot) (a : Nat) :
    poolKind pool a = .dead ↔ ∀ x ∈ pool, x.covers a = false := by
  induction pool with
  | nil => simp [poolKind]
  | cons x rest ih =>
    rw [poolKind_cons]
    by_cases h : x.covers a
    · simp only [h, if_true, List.forall_mem_cons]
      constructor
      · cases x.fill <;> intro hh <;> cases hh
      · rintro ⟨hh, -⟩
        cases hh
    · simp [h, ih]

/-! ## Every memory operation keeps the canonical form -/

/-- The canonical form, as Safety.lean names it: with the slot table's own reading of unlisted addresses. -/
abbrev State.canonical (s : State) : Prop := Memory.wf (poolKind s.pool) s.mem = true

theorem State.putByte_canonical {s : State} (h : s.canonical) (a : Nat) (b : Byte) : (s.putByte a b).canonical := by
  unfold State.canonical
  rw [State.putByte_pool]
  unfold State.putByte
  cases hk : poolKind s.pool a with
  | dead => simpa [hk] using h
  | fresh k => exact Memory.wf_put h (by rw [hk]; trivial)
  | zero =>
    by_cases hb : b = 0
    · simpa [hb] using Memory.wf_eraseRange a (a + 1) h
    · simp only [if_neg hb]
      exact Memory.wf_put h (show (poolKind s.pool a).admits b by rw [hk]; exact hb)

theorem State.putBytes_canonical {s : State} (h : s.canonical) (a : Nat) (bs : List Byte) :
    (s.putBytes a bs).canonical := by
  induction bs generalizing s a with
  | nil => exact h
  | cons b rest ih => exact ih (State.putByte_canonical h a b) (a + 1)

theorem State.applyStores_canonical {s : State} (h : s.canonical) (sts : List Store) :
    (s.applyStores sts).canonical := by
  induction sts generalizing s with
  | nil => exact h
  | cons st rest ih => exact ih (State.putBytes_canonical h st.addr st.bytes)

theorem State.settle_canonical {s : State} (h : s.canonical) : s.settle.canonical :=
  State.applyStores_canonical h s.wbuf

theorem State.commitStore_canonical {s : State} (h : s.canonical) (k : Nat) : (s.commitStore k).canonical := by
  unfold State.commitStore
  split
  · exact h
  · split
    · exact h
    · rename_i st _ _
      exact State.putBytes_canonical h st.addr st.bytes

/-- Replacing slot h after its bytes have been dropped keeps the form, whatever the new slot is, as long as it lies
inside the bytes dropped. -/
theorem State.replaceSlot_canonical {s : State} (hs : s.canonical) (h : Nat) (y : Slot)
    (hy : ∀ a, y.covers a = true → (s.slot h).covers a = true) :
    State.canonical { s with
      pool := s.pool.set h y
      mem := Memory.eraseRange s.mem (s.slot h).bus.toNat ((s.slot h).bus.toNat + (s.slot h).extent) } := by
  refine Memory.wf_of_kind (Memory.wf_eraseRange _ _ hs) fun c hc => ?_
  have hout := (Memory.mem_eraseRange.1 hc).2
  have hx : (s.slot h).covers c.1 = false := by
    unfold Slot.covers
    simp only [Bool.and_eq_false_imp, Bool.and_eq_true, decide_eq_true_eq, decide_eq_false_iff_not]
    omega
  refine poolKind_set s.pool h y c.1 hx ?_
  cases hyc : y.covers c.1 with
  | false => rfl
  | true => rw [hy c.1 hyc] at hx; cases hx

theorem poolFree_canonical {s : State} (hs : s.canonical) (h : Nat) : (poolFree h s).canonical :=
  State.replaceSlot_canonical hs h Slot.free (fun a ha => by cases ha)

theorem memZeroSlot_canonical {s : State} (hs : s.canonical) (c : Ctx) (h : Nat) : (memZeroSlot c h s).canonical :=
  State.replaceSlot_canonical hs h { s.slot h with fill := .zero } (fun _ ha => ha)

/-- Replacing slot h by one with the same memory keeps the form: loans and quarantine marks touch no byte. -/
theorem State.relabelSlot_canonical {s : State} (hs : s.canonical) (h : Nat) (y : Slot)
    (hc : ∀ a, y.covers a = (s.slot h).covers a) (hz : y.fill = (s.slot h).fill) :
    (s.setSlot h y).canonical :=
  Memory.wf_of_kind hs fun c _ => poolKind_set_same s.pool h y c.1 (hc c.1) hz

theorem setLoan_canonical {s : State} (hs : s.canonical) (h : Nat) (l : Option Loan) : (setLoan h l s).canonical :=
  State.relabelSlot_canonical hs h _ (fun _ => rfl) rfl

theorem endLoan_canonical {s : State} (hs : s.canonical) (h : Nat) : (endLoan h s).canonical :=
  State.relabelSlot_canonical hs h _ (fun _ => rfl) rfl

theorem setLoans_canonical {s : State} (hs : s.canonical) (l : Option Loan) (hl : List Handle) :
    (setLoans l hl s).canonical := by
  induction hl generalizing s with
  | nil => exact hs
  | cons h rest ih => exact ih (setLoan_canonical hs h.toNat l)

theorem poolFrees_canonical {s : State} (hs : s.canonical) (hl : List Handle) : (poolFrees hl s).canonical := by
  induction hl generalizing s with
  | nil => exact hs
  | cons h rest ih => exact ih (poolFree_canonical hs h.toNat)

theorem reportChains_canonical {s : State} (hs : s.canonical) (out : List Drained) : (reportChains out s).canonical := by
  induction out generalizing s with
  | nil => exact hs
  | cons d rest ih =>
    refine ih ?_
    unfold reportChain
    split
    · exact hs
    · exact poolFrees_canonical hs d.handles

theorem handOver_canonical {s : State} (hs : s.canonical) (out : List Drained) (corrupt : Bool) :
    (handOver out corrupt s).canonical := by
  have hu : (unlock s.dq (setLoans none (out.flatMap (fun d => d.handles)) s)).canonical :=
    (setLoans_canonical hs none _ : (setLoans none (out.flatMap (fun d => d.handles)) s).canonical)
  have h := reportChains_canonical hu out
  simp only [handOver]
  split
  · exact h
  · exact h

theorem clearOrphans_canonical {s : State} (hs : s.canonical) : (clearOrphans s).canonical := by
  refine Memory.wf_of_kind hs fun c _ => ?_
  show poolKind (s.pool.map fun x => { x with orphan := false }) c.1 = poolKind s.pool c.1
  generalize s.pool = pool
  induction pool with
  | nil => rfl
  | cons x rest ih =>
    rw [List.map_cons, poolKind_cons, poolKind_cons, ih]
    rfl

theorem freeLent_canonical {s : State} (hs : s.canonical) (q : Role) (mode : FreeMode) (h : Handle) :
    (freeLent q mode h s).canonical := by
  unfold freeLent
  split
  · exact hs
  · split
    · split
      · exact poolFree_canonical hs h.toNat
      · exact State.relabelSlot_canonical hs h.toNat _ (fun _ => rfl) rfl
    · exact hs

theorem freeLents_canonical {s : State} (hs : s.canonical) (q : Role) (mode : FreeMode) (hl : List Handle) :
    (freeLents q mode hl s).canonical := by
  induction hl generalizing s with
  | nil => exact hs
  | cons h rest ih => exact ih (freeLent_canonical hs q mode h)

/-- Memory PLAT has granted covers no byte of a live slot (42 R181). -/
theorem State.allocLegal_dead {s : State} {len : Nat} {b : Addr} (h : s.allocLegal len b = true) {a : Nat}
    (hlo : b.toNat ≤ a) (hhi : a < b.toNat + roundUp len pageBytes) : poolKind s.pool a = .dead := by
  rw [poolKind_dead_iff]
  intro x hx
  simp only [State.allocLegal, Bool.and_eq_true, List.all_eq_true, Bool.or_eq_true, Bool.not_eq_true',
    Config.apart, decide_eq_true_eq] at h
  have := h.2 x hx
  unfold Slot.covers
  cases ha : x.alloc with
  | false => simp
  | true =>
    rw [ha] at this
    simp only [Bool.true_and, Bool.and_eq_false_imp, decide_eq_true_eq, decide_eq_false_iff_not, Bool.true_eq_false,
      false_or] at this ⊢
    omega

/-- Reserving a slot keeps the form: the new bytes are not listed: they hold free values (10 R46, 93 U6). -/
theorem poolReserve_canonical {s : State} (hs : s.canonical) (internal : Bool) (dir : Dir) (len : BitVec 32) :
    (poolReserve internal dir len s).2.canonical := by
  unfold poolReserve
  split
  · exact hs
  · rename_i h hfree
    have hslot : (s.slot h).alloc = false := by
      obtain ⟨hlt, hp⟩ := List.findIdx?_eq_some_iff_getElem.1 hfree
      have := hp.1
      simp only [Bool.not_eq_true'] at this
      simpa [State.slot, List.getD, hlt] using this
    have hwish : ∀ w s1, s.allocWish = (w, s1) → s1.pool = s.pool ∧ s1.mem = s.mem := by
      intro w s1 hw
      unfold State.allocWish at hw
      split at hw <;> cases hw <;> exact ⟨rfl, rfl⟩
    have hplat : ∀ w s1, s.platAlloc len.toNat = (w, s1) →
        s1.pool = s.pool ∧ s1.mem = s.mem ∧ ∀ b, w = some b → s.allocLegal len.toNat b = true := by
      intro w s1 hw
      unfold State.platAlloc at hw
      split at hw
      · rename_i b s2 hb
        obtain ⟨hw1, hw2⟩ := Prod.mk.inj hw
        subst hw2
        refine ⟨(hwish _ _ hb).1, (hwish _ _ hb).2, fun b' hb' => ?_⟩
        subst hw1
        split at hb'
        · cases hb'
          assumption
        · cases hb'
      · rename_i s2 hb
        obtain ⟨hw1, hw2⟩ := Prod.mk.inj hw
        subst hw2
        refine ⟨(hwish _ _ hb).1, (hwish _ _ hb).2, fun b' hb' => ?_⟩
        subst hw1
        cases hb'
    split
    · rename_i s1 hp
      obtain ⟨h1, h2, -⟩ := hplat _ _ hp
      unfold State.canonical
      rw [h1, h2]
      exact hs
    · rename_i b s1 hp
      obtain ⟨h1, h2, h3⟩ := hplat _ _ hp
      have hleg := h3 b rfl
      refine Memory.wf_of_kind (k := poolKind s1.pool) (by rw [h1, State.setSlot_mem, h2]; exact hs) fun c hc => ?_
      rw [State.setSlot_mem, h2] at hc
      refine poolKind_set s1.pool h _ c.1 ?_ ?_
      · rw [h1]
        show (s.slot h).covers c.1 = false
        simp [Slot.covers, hslot]
      · by_contra hcov
        rw [Bool.not_eq_false] at hcov
        simp only [Slot.covers, Slot.extent, Bool.and_eq_true, decide_eq_true_eq, Bool.true_and] at hcov
        have hdead := State.allocLegal_dead hleg hcov.1 (of_decide_eq_true hcov.2)
        have := ((Memory.wf_iff _ _).1 hs).2 c hc
        rw [hdead] at this
        exact this

/-- Memory at reset lists nothing and is in the canonical form. -/
theorem reset_canonical : State.reset.canonical := rfl

end Sys2Proof.Machine
end

