-- ==== Sys2Proof/Laws/Ops.lean ====
section
/-! SUPPORT. What each shared operation of Ops.lean, Device.lean and Env.lean can do, said once: its result when the gap
before its access runs through, and which fields it leaves alone. -/

namespace Sys2Proof.Machine

/-! ## Running -/

theorem bind_ok {α β : Type} {x : Except Fault α} {f : α → Except Fault β} {r : β} :
    (x >>= f) = .ok r ↔ ∃ a, x = .ok a ∧ f a = .ok r := by
  cases x with
  | error e =>
    constructor
    · intro h
      cases h
    · rintro ⟨a, h, -⟩
      cases h
  | ok a =>
    constructor
    · intro h
      exact ⟨a, rfl, h⟩
    · rintro ⟨b, h, hf⟩
      cases h
      exact hf

@[simp] theorem ok_bind {α β : Type} (a : α) (f : α → Except Fault β) : ((Except.ok a : Except Fault α) >>= f) = f a :=
  rfl

@[simp] theorem finish_ok (s : State) : finish (.ok s) = .next s := rfl

theorem finish_next {r : Except Fault State} {t : State} : finish r = .next t ↔ r = .ok t := by
  cases r with
  | ok s =>
    constructor <;> intro h <;> cases h <;> rfl
  | error f =>
    constructor <;> intro h <;> cases h

/-- `choose` is a choice; it looks at both computations first only so that a step evaluates. -/
theorem choose_eq (m : Bool) (a b : Except Fault State) : choose m a b = if m then a else b := by
  cases a <;> cases b <;> cases m <;> rfl

@[simp] theorem refuse_eq (e : Err) (s : State) : refuse e s = .next (s.respond e []) := rfl

/-! ## Gaps -/

@[simp] theorem cmdGap_nil {s : State} (h : s.gaps = []) : cmdGap s = .ok s := by
  unfold cmdGap
  rw [h]

@[simp] theorem waitGap_nil {s : State} (h : s.gaps = []) : s.waitGap = s := by
  unfold State.waitGap
  rw [h]

@[simp] theorem dispCtx_gap (s : State) : dispCtx.gap s = .ok s := rfl
@[simp] theorem cmdCtx_gap : cmdCtx.gap = cmdGap := rfl
@[simp] theorem cmdCtx_agent : cmdCtx.agent = .cmd := rfl
@[simp] theorem dispCtx_agent : dispCtx.agent = .disp := rfl
@[simp] theorem cmdCtx_drainStores (s : State) : cmdCtx.drainStores s = s.settle := rfl
@[simp] theorem dispCtx_drainStores (s : State) : dispCtx.drainStores s = s := rfl

/-! ## The named registers -/

theorem Reg0.mem_every (r : Reg0) : r ∈ Reg0.every := by cases r <;> decide

theorem Config.wf_window0 {c : Config} (h : c.wf = true) : Config.allApart c.window0 = true := by
  simp only [Config.wf, Bool.and_eq_true] at h
  exact h.1.1.1.1.1.1.1.1.1.1.1.1.1.1.1.1.2

/-- Registers of one width stand at different offsets. -/
theorem Reg0.off_inj {c : Config} (h : c.wf = true) {q r : Reg0} (ho : q.off c = r.off c) (hb : q.bytes = r.bytes) :
    q = r := by
  have hw := Config.wf_window0 h
  simp only [Config.window0, Config.allApart, List.all_cons, List.all_nil, Config.apart, Bool.and_eq_true,
    Bool.or_eq_true, decide_eq_true_eq, Bool.and_true] at hw
  obtain ⟨⟨h12, h13, -⟩, ⟨h23, -⟩, -, ⟨h45, h46, -⟩, ⟨h56, -⟩, -, h78⟩ := hw
  have h12 : c.offDeviceFeatures ≠ c.offGuestFeatures := by omega
  have h13 : c.offDeviceFeatures ≠ c.offQueueAddress := by omega
  have h23 : c.offGuestFeatures ≠ c.offQueueAddress := by omega
  have h45 : c.offQueueSize ≠ c.offQueueSelect := by omega
  have h46 : c.offQueueSize ≠ c.offQueueNotify := by omega
  have h56 : c.offQueueSelect ≠ c.offQueueNotify := by omega
  have h78 : c.offDeviceStatus ≠ c.offIsr := by omega
  cases q <;> cases r <;> first
    | rfl
    | exact absurd hb (by decide)
    | exact absurd ho ‹_›
    | exact absurd ho.symm ‹_›

/-- Where the parameters are legal, an access at a register's offset and width is an access to that register. -/
theorem exactReg0_self {c : Config} (h : c.wf = true) (r : Reg0) : exactReg0 c (r.off c) r.bytes = some r := by
  unfold exactReg0
  cases hf : Reg0.every.find? (fun q => q.off c == r.off c && q.bytes == r.bytes) with
  | none =>
    have := List.find?_eq_none.1 hf r r.mem_every
    simp at this
  | some q =>
    have hq := List.find?_some hf
    simp only [Bool.and_eq_true, beq_iff_eq] at hq
    rw [Reg0.off_inj h hq.1 hq.2]

/-! ## What an access to a window changes: the device and the counter of free values -/

theorem State.maybeReadEffects_eq (s : State) (rs : List Reg0) :
    s.maybeReadEffects rs = { s with dev := (s.maybeReadEffects rs).dev, draws := (s.maybeReadEffects rs).draws } := by
  induction rs generalizing s with
  | nil => rfl
  | cons r rest ih =>
    show State.maybeReadEffects (if s.drawFlag.1 then s.drawFlag.2.setDev (s.drawFlag.2.dev.readEffect r)
      else s.drawFlag.2) rest = { s with
        dev := (State.maybeReadEffects (if s.drawFlag.1 then s.drawFlag.2.setDev (s.drawFlag.2.dev.readEffect r)
          else s.drawFlag.2) rest).dev
        draws := (State.maybeReadEffects (if s.drawFlag.1 then s.drawFlag.2.setDev (s.drawFlag.2.dev.readEffect r)
          else s.drawFlag.2) rest).draws }
    cases s.drawFlag.1
    · exact ih s.drawFlag.2
    · exact ih (s.drawFlag.2.setDev (s.drawFlag.2.dev.readEffect r))

theorem State.windowRead_eq (s : State) (w : Win) (off n : Nat) :
    (s.windowRead w off n).2
      = { s with dev := (s.windowRead w off n).2.dev, draws := (s.windowRead w off n).2.draws } := by
  cases w with
  | w0 =>
    simp only [State.windowRead, State.window0Read]
    split
    · split
      · rfl
      · rw [State.drawBytes_snd]
    · rw [State.maybeReadEffects_eq, State.drawBytes_snd]
  | w1 =>
    simp only [State.windowRead, State.window1Read]
    split
    · rw [State.drawBytes_snd]
    · split
      · rfl
      · split
        · rfl
        · rw [State.drawBytes_snd]

theorem State.windowRead_length (s : State) (w : Win) (off n : Nat) : (s.windowRead w off n).1.length = n := by
  cases w with
  | w0 =>
    simp only [State.windowRead, State.window0Read]
    split
    · split
      · exact leBytes_length ..
      · exact State.drawBytes_length ..
    · exact State.drawBytes_length ..
  | w1 =>
    simp only [State.windowRead, State.window1Read]
    split
    · exact State.drawBytes_length ..
    · split
      · rename_i h
        rw [h.1]
        rfl
      · split
        · rename_i h
          rw [h.1]
          exact leBytes_length ..
        · exact State.drawBytes_length ..

theorem State.maybeWrites_eq (s : State) (off n : Nat) (bytes : List Byte) (rs : List Reg0) :
    s.maybeWrites off n bytes rs
      = { s with dev := (s.maybeWrites off n bytes rs).dev, draws := (s.maybeWrites off n bytes rs).draws } := by
  induction rs generalizing s with
  | nil => rfl
  | cons r rest ih =>
    simp only [State.maybeWrites, State.drawFlag]
    have key : ∀ (b : Bool) (d : Device) (k : Nat),
        State.maybeWrites (if b then State.setDev { s with draws := k } d else { s with draws := k }) off n bytes rest
          = { s with
              dev := (State.maybeWrites (if b then State.setDev { s with draws := k } d else { s with draws := k })
                off n bytes rest).dev
              draws := (State.maybeWrites (if b then State.setDev { s with draws := k } d else { s with draws := k })
                off n bytes rest).draws } := by
      intro b d k
      cases b
      · exact ih { s with draws := k }
      · exact ih (State.setDev { s with draws := k } d)
    rw [State.drawBytes_snd]
    exact key _ _ _

theorem State.windowWrite_eq (s : State) (w : Win) (off : Nat) (bytes : List Byte) :
    s.windowWrite w off bytes
      = { s with dev := (s.windowWrite w off bytes).dev, draws := (s.windowWrite w off bytes).draws } := by
  cases w with
  | w0 =>
    simp only [State.windowWrite]
    split
    · rfl
    · rw [State.maybeWrites_eq]
  | w1 => rfl

/-! ## The accesses, once the gap before them has run through -/

theorem regRead_of_gap {c : Ctx} {s s1 : State} (h : c.gap s = .ok s1) (w : Win) (off n : Nat) :
    regRead c w off n s = .ok (busValue (s1.winEndian w) ((c.drainStores s1).windowRead w off n).1,
      ((c.drainStores s1).windowRead w off n).2.log c.agent
        (.regRead w off ((c.drainStores s1).windowRead w off n).1)) := by
  have hc : (c.drainStores s1).cfg = s1.cfg := by
    unfold Ctx.drainStores
    split
    · rw [State.settle_eq]
    · rfl
  have he : ((c.drainStores s1).windowRead w off n).2.winEndian w = s1.winEndian w := by
    rw [State.windowRead_eq]
    cases w
    · rfl
    · exact congrArg Config.hostEndian hc
  simp only [regRead, h, ok_bind, he]

theorem regWrite_of_gap {c : Ctx} {s s1 : State} (h : c.gap s = .ok s1) (w : Win) (off n v : Nat) :
    regWrite c w off n v s = .ok (((c.drainStores s1).windowWrite w off (busBytes (s1.winEndian w) n v)).log c.agent
      (.regWrite w off (busBytes (s1.winEndian w) n v))) := by
  simp only [regWrite, h, ok_bind]

theorem pciRead_of_gap {c : Ctx} {s s1 : State} (h : c.gap s = .ok s1) (r : PciReg) :
    pciRead c r s = .ok ((s1.pciReg r).2.2,
      s1.log c.agent (.pciRead (s1.pciReg r).1 (s1.pciReg r).2.1 (s1.pciReg r).2.2)) := by
  simp only [pciRead, h, ok_bind]

theorem memRead_of_gap {c : Ctx} {s s1 : State} (h : c.gap s = .ok s1) {a n : Nat} {bytes : List Byte}
    (hb : (c.view s1).readBytes a n = .ok bytes) :
    memRead c a n s = .ok (ofLe bytes, s1.log c.agent (.memRead a n (ofLe bytes))) := by
  simp only [memRead, h, hb, ok_bind]

theorem memWrite_of_gap {c : Ctx} {s s1 : State} (h : c.gap s = .ok s1) {a n : Nat} (hl : s1.checkLive a n = .ok ())
    (v : Nat) :
    memWrite c a n v s
      = .ok (State.log { s1 with wbuf := s1.wbuf ++ [{ addr := a, bytes := leBytes n v }] } c.agent
          (.memWrite a n v)) := by
  simp only [memWrite, h, hl, ok_bind]

/-- Reading bytes that all exist gives their values. -/
theorem State.readBytes_of_byteAt {s : State} {a n : Nat} {f : Nat → Byte}
    (h : ∀ k, k < n → s.byteAt (a + k) = some (f k)) : s.readBytes a n = .ok ((List.range n).map f) := by
  induction n generalizing a f with
  | zero => rfl
  | succ n ih =>
    have h0 : s.byteAt a = some (f 0) := h 0 (Nat.succ_pos n)
    have hr := ih (a := a + 1) (f := fun k => f (k + 1)) (fun k hk => by
      rw [Nat.add_assoc, Nat.add_comm 1 k]
      exact h (k + 1) (Nat.succ_lt_succ hk))
    simp only [State.readBytes, h0, hr, List.range_succ_eq_map, List.map_cons, List.map_map]
    rfl

/-- A range of bytes that all exist passes the check (20 R70). -/
theorem State.checkLive_of_live {s : State} {a n : Nat} (h : ∀ k, k < n → poolKind s.pool (a + k) ≠ .dead) :
    s.checkLive a n = .ok () := by
  induction n generalizing a with
  | zero => rfl
  | succ n ih =>
    have h0 := h 0 (Nat.succ_pos n)
    have hr := ih (a := a + 1) (fun k hk => by
      rw [Nat.add_assoc, Nat.add_comm 1 k]
      exact h (k + 1) (Nat.succ_lt_succ hk))
    simp only [State.checkLive]
    split
    · rename_i hd
      exact absurd hd h0
    · exact hr

theorem fence_of_gap {c : Ctx} {s s1 : State} (h : c.gap s = .ok s1) :
    fence c s = .ok ((c.drainStores s1).log c.agent .fence) := by
  simp only [fence, h, ok_bind]

/-! ## Waiting -/

/-- A wait that has nothing to wait for. -/
theorem waitUntil_done {p : State → Bool} {s : State} (h : p s = true) (f : Fault) (n : Nat) :
    waitUntil p f n s = .ok s := by
  cases n <;> simp only [waitUntil, h, if_true]

/-- A wait that must go on: one step of DISP, then the rest of it. -/
theorem waitUntil_step {p : State → Bool} {s t : State} (h : p s = false) (ht : dispTurn s.waitGap = .ok t) (f : Fault)
    (n : Nat) : waitUntil p f (n + 1) s = waitUntil p f n t := by
  simp [waitUntil, h, ht]

/-- What is waited for holds when a wait ends, and whatever every step of DISP and every act of an agent outside the
block keeps has been kept. -/
theorem waitUntil_ok {p : State → Bool} {f : Fault} {r : State → State → Prop} (hr : ∀ s, r s s)
    (ht : ∀ s t u, r s t → r t u → r s u) (hg : ∀ s : State, r s s.waitGap)
    (hd : ∀ s t, dispTurn s = .ok t → r s t) (n : Nat) {s t : State} (h : waitUntil p f n s = .ok t) :
    p t = true ∧ r s t := by
  induction n generalizing s with
  | zero =>
    simp only [waitUntil] at h
    split at h
    · cases h
      exact ⟨‹_›, hr _⟩
    · cases h
  | succ n ih =>
    simp only [waitUntil] at h
    split at h
    · cases h
      exact ⟨‹_›, hr _⟩
    · obtain ⟨s1, h1, h2⟩ := bind_ok.1 h
      exact ⟨(ih h2).1, ht _ _ _ (hg s) (ht _ _ _ (hd _ _ h1) (ih h2).2)⟩

/-- The lock of a queue nobody holds is taken (20 R84). -/
theorem lock_free {q : Role} {s : State} (h : (s.queue q).lock = none) :
    lock q s = .ok (s.setQueue q { s.queue q with lock := some .cmd }) := by
  unfold lock
  rw [waitUntil_done (by simp [h])]
  rfl

/-! ## Drains -/

/-- CMD's drain ends where it stands. -/
theorem drainRun_finished (q : Role) (n : Nat) (out : List Drained) (corrupt : Bool) (s : State) :
    drainRun q (n + 1) { out := out, pos := .finished corrupt } s = .ok ((out, corrupt), s) := rfl

/-- CMD's drain goes on: one step, then the rest of it. -/
theorem drainRun_step {q : Role} {r r' : DrainRun} {s t : State} (hp : ∀ b, r.pos ≠ .finished b)
    (h : drainStep cmdCtx q r s = .ok (r', t)) (n : Nat) : drainRun q (n + 1) r s = drainRun q n r' t := by
  rw [drainRun]
  cases hr : r.pos <;> first | exact absurd hr (hp _) | simp only [h, ok_bind]

/-! ## The fields only commands write -/

/-- `s` and `t` agree on everything no agent but CMD writes: the parameters, the global fields of 10 R22, the response
port, the schedule of turns and PLAT's answers. -/
structure SameCmd (s t : State) : Prop where
  cfg : t.cfg = s.cfg
  fsm : t.fsm = s.fsm
  stShadow : t.stShadow = s.stShadow
  offered : t.offered = s.offered
  negotiated : t.negotiated = s.negotiated
  qsize : t.qsize = s.qsize
  winMapped : t.winMapped = s.winMapped
  irqEn : t.irqEn = s.irqEn
  acq : t.acq = s.acq
  errLatch : t.errLatch = s.errLatch
  respPort : t.respPort = s.respPort
  turns : t.turns = s.turns
  platAllocs : t.platAllocs = s.platAllocs
  platMaps : t.platMaps = s.platMaps

theorem SameCmd.refl (s : State) : SameCmd s s := ⟨rfl, rfl, rfl, rfl, rfl, rfl, rfl, rfl, rfl, rfl, rfl, rfl, rfl, rfl⟩

theorem SameCmd.trans {s t u : State} (h : SameCmd s t) (g : SameCmd t u) : SameCmd s u :=
  ⟨g.cfg.trans h.cfg, g.fsm.trans h.fsm, g.stShadow.trans h.stShadow, g.offered.trans h.offered,
   g.negotiated.trans h.negotiated, g.qsize.trans h.qsize, g.winMapped.trans h.winMapped, g.irqEn.trans h.irqEn,
   g.acq.trans h.acq, g.errLatch.trans h.errLatch, g.respPort.trans h.respPort, g.turns.trans h.turns,
   g.platAllocs.trans h.platAllocs, g.platMaps.trans h.platMaps⟩

/-- A state made from `s` by changing other fields. -/
theorem SameCmd.of_eq {s t : State} {qs : PerRole Queue} {p : List Slot} {d : Disp} {i : BitVec 8} {dq : Role}
    {w : WalkPos} {dev : Device} {m : Memory} {cp ep : List Word} {hs : List Byte} {wb : List Store} {b : List Access}
    {g : List (List Act)} {n : Nat}
    (h : t = { s with queues := qs, pool := p, disp := d, isrLat := i, dq := dq, walk := w, dev := dev, mem := m,
                      cmdPort := cp, eventPort := ep, hostSeen := hs, wbuf := wb, bus := b, gaps := g, draws := n }) :
    SameCmd s t := by
  subst h
  exact ⟨rfl, rfl, rfl, rfl, rfl, rfl, rfl, rfl, rfl, rfl, rfl, rfl, rfl, rfl⟩

theorem sameCmd_putBytes (s : State) (a : Nat) (bs : List Byte) : SameCmd s (s.putBytes a bs) :=
  .of_eq (State.putBytes_eq s a bs)

theorem sameCmd_external (s : State) (a : Act) : SameCmd s (s.external a) := by
  cases a with
  | disp => exact .refl s
  | irqPulse =>
    show SameCmd s s.deliver
    unfold State.deliver
    split
    · exact .of_eq rfl
    · exact .refl s
  | commit k => exact .of_eq (State.commitStore_eq s k)
  | hostSend ws => exact .of_eq rfl
  | hostStore a bs =>
    show SameCmd s (s.hostStore a bs)
    unfold State.hostStore
    split
    · exact sameCmd_putBytes s a bs
    · exact .refl s
  | hostRead a n =>
    show SameCmd s (s.hostRead a n)
    unfold State.hostRead
    split <;> exact .of_eq rfl
  | devStore a bs => exact sameCmd_putBytes s a bs
  | devForge d => exact .of_eq rfl
  | devConsume q =>
    simp only [State.external, State.devConsume, State.devConsumeEntry]
    repeat' split
    all_goals first | exact .refl s | exact .of_eq rfl
  | devWrite k g off bs =>
    simp only [State.external, State.devWrite]
    repeat' split
    all_goals first | exact .refl s | exact (sameCmd_putBytes s _ _).trans (.of_eq rfl)
  | devComplete k =>
    simp only [State.external, State.devComplete]
    repeat' split
    · exact .refl s
    · refine SameCmd.trans ?_ (.of_eq rfl)
      exact ((sameCmd_putBytes s _ _).trans (sameCmd_putBytes _ _ _)).trans (sameCmd_putBytes _ _ _)
    · exact .refl s
  | devHint q on =>
    simp only [State.external, State.devHint]
    repeat' split
    all_goals first | exact .refl s | exact (sameCmd_putBytes s _ _).trans (.of_eq rfl)
  | devLink v => exact .of_eq rfl

theorem sameCmd_externals (s : State) (acts : List Act) : SameCmd s (s.externals acts) := by
  induction acts generalizing s with
  | nil => exact .refl s
  | cons a rest ih => exact (sameCmd_external s a).trans (ih (s.external a))

theorem sameCmd_waitGap (s : State) : SameCmd s s.waitGap := by
  unfold State.waitGap
  split
  · exact .refl s
  · exact SameCmd.trans (.of_eq rfl) (sameCmd_externals _ _)

/-- A read of a window leaves the fields of CMD alone, whatever happens before it. -/
theorem sameCmd_regRead {c : Ctx} (hc : ∀ s s1, c.gap s = .ok s1 → SameCmd s s1) {w : Win} {off n v : Nat}
    {s t : State} (h : regRead c w off n s = .ok (v, t)) : SameCmd s t := by
  obtain ⟨s1, h1, h2⟩ := bind_ok.1 h
  have h2' := (regRead_of_gap h1 w off n).symm.trans h
  cases h2'
  refine (hc s s1 h1).trans ?_
  refine SameCmd.trans ?_ (.of_eq (t := State.log _ _ _) rfl)
  rw [State.windowRead_eq]
  unfold Ctx.drainStores
  split
  · exact SameCmd.trans (.of_eq (State.settle_eq s1)) (.of_eq rfl)
  · exact .of_eq rfl

theorem sameCmd_memRead {c : Ctx} (hc : ∀ s s1, c.gap s = .ok s1 → SameCmd s s1) {a n v : Nat} {s t : State}
    (h : memRead c a n s = .ok (v, t)) : SameCmd s t := by
  obtain ⟨s1, h1, h2⟩ := bind_ok.1 h
  obtain ⟨bytes, -, h3⟩ := bind_ok.1 h2
  cases h3
  exact (hc s s1 h1).trans (.of_eq rfl)

theorem sameCmd_fence {c : Ctx} (hc : ∀ s s1, c.gap s = .ok s1 → SameCmd s s1) {s t : State}
    (h : fence c s = .ok t) : SameCmd s t := by
  obtain ⟨s1, h1, h2⟩ := bind_ok.1 h
  cases h2
  refine (hc s s1 h1).trans ?_
  unfold Ctx.drainStores
  split
  · rw [State.settle_eq]
    exact .of_eq rfl
  · exact .of_eq rfl

theorem sameCmd_reclaim (q : Role) (id : DescIdx) (order : List DescIdx) (s : State) :
    SameCmd s (reclaim q id order s) := by
  unfold reclaim
  dsimp only
  split
  · rw [poolFree_eq]
    exact .of_eq rfl
  · exact .of_eq rfl

/-- A step of a drain leaves the fields of CMD alone (41 R164 to R166). -/
theorem sameCmd_drainStep {c : Ctx} (hc : ∀ s s1, c.gap s = .ok s1 → SameCmd s s1) {q : Role} {r r' : DrainRun}
    {s t : State} (h : drainStep c q r s = .ok (r', t)) : SameCmd s t := by
  have hf : ∀ u : State, SameCmd u (drainFault q u).2 := fun u => .of_eq rfl
  unfold drainStep at h
  split at h
  · obtain ⟨⟨p, s1⟩, h1, h⟩ := bind_ok.1 h
    cases h
    unfold drainStart at h1
    split at h1
    · cases h1
      exact .refl s
    · obtain ⟨⟨v, s2⟩, h2, h1⟩ := bind_ok.1 h1
      obtain ⟨s3, h3, h1⟩ := bind_ok.1 h1
      have k := (sameCmd_memRead hc h2).trans (sameCmd_fence hc h3)
      dsimp only at h1
      split at h1 <;> cases h1
      · exact k.trans (hf _)
      · exact k
  · obtain ⟨⟨p, s1⟩, h1, h⟩ := bind_ok.1 h
    cases h
    obtain ⟨⟨v, s2⟩, h2, h1⟩ := bind_ok.1 h1
    cases h1
    exact sameCmd_memRead hc h2
  · obtain ⟨⟨p, s1⟩, h1, h⟩ := bind_ok.1 h
    cases h
    obtain ⟨⟨v, s2⟩, h2, h1⟩ := bind_ok.1 h1
    have k := sameCmd_memRead hc h2
    dsimp only at h1
    split at h1 <;> cases h1
    · exact k
    · exact k.trans (hf _)
  · obtain ⟨⟨p, s1⟩, h1, h⟩ := bind_ok.1 h
    cases h
    obtain ⟨⟨v, s2⟩, h2, h1⟩ := bind_ok.1 h1
    have k : SameCmd s s2 := SameCmd.trans (.of_eq (t := s.setQueue q _) rfl) (sameCmd_memRead hc h2)
    dsimp only at h1
    split at h1
    · cases h1
      exact k
    · split at h1 <;> cases h1
      · exact k
      · exact k.trans (hf _)
  · obtain ⟨⟨p, s1⟩, h1, h⟩ := bind_ok.1 h
    cases h
    obtain ⟨⟨v, s2⟩, h2, h1⟩ := bind_ok.1 h1
    have k := sameCmd_memRead hc h2
    dsimp only at h1
    split at h1 <;> cases h1
    · exact k
    · exact k.trans (hf _)
  · obtain ⟨s1, h1, h⟩ := bind_ok.1 h
    have k := hc _ _ h1
    split at h
    · cases h
      exact k.trans (.of_eq rfl)
    · cases h
      exact k.trans (sameCmd_reclaim ..)
  · cases h
    exact .refl s

theorem dispCtx_gap_sameCmd (s s1 : State) (h : dispCtx.gap s = .ok s1) : SameCmd s s1 := by
  cases h
  exact .refl s

theorem sameCmd_dispWalk {s t : State} (h : dispWalk s = .ok t) : SameCmd s t := by
  have ka : ∀ u : State, SameCmd u (advanceWalk u) := by
    intro u
    unfold advanceWalk
    split <;> exact .of_eq rfl
  unfold dispWalk at h
  split at h
  · cases h
    unfold walkEnter reportUnknown
    repeat' split
    all_goals exact .of_eq rfl
  · cases h
    unfold walkTest
    split
    · exact .of_eq rfl
    · exact ka s
  · cases h
    unfold walkLock
    split
    · exact .of_eq rfl
    · exact .refl s
  · obtain ⟨⟨r, s1⟩, h1, h⟩ := bind_ok.1 h
    have k := sameCmd_drainStep dispCtx_gap_sameCmd h1
    dsimp only at h
    split at h <;> cases h
    · exact (k.trans (.of_eq (by rw [handOver_eq]))).trans (ka _)
    · exact k.trans (.of_eq rfl)

/-- A turn of the dispatcher leaves the fields of CMD alone (44 R231 to R239). -/
theorem sameCmd_dispTurn {s t : State} (h : dispTurn s = .ok t) : SameCmd s t := by
  unfold dispTurn at h
  split at h
  · cases h
    exact .refl s
  · obtain ⟨⟨v, s1⟩, h1, h⟩ := bind_ok.1 h
    cases h
    exact (sameCmd_regRead dispCtx_gap_sameCmd h1).trans (.of_eq rfl)
  · exact sameCmd_dispWalk h
  · unfold dispConfig at h
    split at h
    · obtain ⟨⟨up, s1⟩, h1, h⟩ := bind_ok.1 h
      have k : SameCmd s s1 := by
        unfold readLink at h1
        split at h1
        · obtain ⟨⟨v, s2⟩, h2, h1⟩ := bind_ok.1 h1
          cases h1
          exact sameCmd_regRead dispCtx_gap_sameCmd h2
        · cases h1
          exact .refl s
      cases h
      exact k.trans (.of_eq rfl)
    · cases h
      exact .of_eq rfl
  · cases h
    exact .of_eq rfl

theorem sameCmd_cmdActs (acts : List Act) {s t : State} (h : cmdActs acts s = .ok t) : SameCmd s t := by
  induction acts generalizing s with
  | nil =>
    cases h
    exact .refl _
  | cons a rest ih =>
    cases a with
    | disp =>
      obtain ⟨s1, h1, h2⟩ := bind_ok.1 h
      exact (sameCmd_dispTurn h1).trans (ih h2)
    | irqPulse => exact (sameCmd_external s _).trans (ih h)
    | commit k => exact (sameCmd_external s _).trans (ih h)
    | hostSend ws => exact (sameCmd_external s _).trans (ih h)
    | hostStore a bs => exact (sameCmd_external s _).trans (ih h)
    | devStore a bs => exact (sameCmd_external s _).trans (ih h)
    | devForge d => exact (sameCmd_external s _).trans (ih h)
    | devConsume q => exact (sameCmd_external s _).trans (ih h)
    | hostRead a n => exact (sameCmd_external s _).trans (ih h)
    | devWrite k g off bs => exact (sameCmd_external s _).trans (ih h)
    | devComplete k => exact (sameCmd_external s _).trans (ih h)
    | devHint q on => exact (sameCmd_external s _).trans (ih h)
    | devLink v => exact (sameCmd_external s _).trans (ih h)

/-- Whatever the other agents do before an access of CMD, the fields of CMD stay (20 R80 (g)). -/
theorem sameCmd_cmdGap {s t : State} (h : cmdGap s = .ok t) : SameCmd s t := by
  unfold cmdGap at h
  split at h
  · cases h
    exact .refl s
  · exact SameCmd.trans (.of_eq rfl) (sameCmd_cmdActs _ h)

/-- Waiting leaves the fields of CMD alone, and what was waited for holds (20 R84; 43 R215, 60 R276). -/
theorem sameCmd_waitUntil {p : State → Bool} {f : Fault} {n : Nat} {s t : State} (h : waitUntil p f n s = .ok t) :
    p t = true ∧ SameCmd s t :=
  waitUntil_ok SameCmd.refl (fun _ _ _ => SameCmd.trans) sameCmd_waitGap (fun _ _ => sameCmd_dispTurn) n h

/-- Waiting for the dispatcher leaves it idle (43 R215, 60 R276). -/
theorem waitIdle_ok {s t : State} (h : waitIdle s = .ok t) : SameCmd s t ∧ t.disp = .idle := by
  obtain ⟨hp, hs⟩ := sameCmd_waitUntil h
  exact ⟨hs, beq_iff_eq.1 hp⟩

/-- A lock that is taken leaves the fields of CMD alone; CMD holds it (20 R84). -/
theorem lock_ok {q : Role} {s t : State} (h : lock q s = .ok t) : SameCmd s t ∧ (t.queue q).lock = some .cmd := by
  obtain ⟨s1, h1, h2⟩ := bind_ok.1 h
  cases h2
  refine ⟨(sameCmd_waitUntil h1).2.trans (.of_eq rfl), ?_⟩
  rw [State.queue_setQueue_self]

/-- A drain of CMD leaves the fields of CMD alone. -/
theorem sameCmd_drainRun {q : Role} (n : Nat) {r : DrainRun} {s t : State} {res : List Drained × Bool}
    (h : drainRun q n r s = .ok (res, t)) : SameCmd s t := by
  induction n generalizing r s with
  | zero => cases h
  | succ n ih =>
    simp only [drainRun] at h
    split at h
    · cases h
      exact .refl _
    · obtain ⟨⟨r1, s1⟩, h1, h2⟩ := bind_ok.1 h
      exact (sameCmd_drainStep (fun _ _ hg => sameCmd_cmdGap hg) h1).trans (ih h2)

/-- A drain of CMD leaves the fields of CMD alone (41 R164). -/
theorem sameCmd_drainList {q : Role} {s t : State} {res : List Drained × Bool} (h : drainList q s = .ok (res, t)) :
    SameCmd s t := by
  obtain ⟨s1, h1, h⟩ := bind_ok.1 h
  obtain ⟨⟨r, s2⟩, h2, h⟩ := bind_ok.1 h
  cases h
  exact ((lock_ok h1).1.trans (sameCmd_drainRun _ h2)).trans (.of_eq rfl)

end Sys2Proof.Machine
end

