-- ==== Sys2Proof/Laws/PerInstr.lean ====
section
/-! SUPPORT. Statements made per instruction: the frame of a well-formed command has the length its own header asks
for, so that the stream never loses alignment (30 R103). -/

namespace Sys2Proof.Laws.EncodedLength

open Sys2Proof

/-- The encoded frame is as long as its header word says (30 R103). -/
def Statement (i : Instr) : Prop := i.wellFormed = true → (encode i).length = frameLen ((encode i).headD 0)

/-- A header's frame length is that of its format, whatever the other fields. -/
theorem frameLen_header {opc q d imm : Nat} (ho : opc < 64) (hq : q < 4) (hd : d < 2) (hi : imm < 65536) :
    frameLen (header opc q d imm) =
      match formatOf (BitVec.ofNat 6 opc) with
      | some .ow => 2
      | some .dl => 2
      | some .qs => 1 + 2 * imm
      | _ => 1 := by
  unfold frameLen operandCount
  rw [hdrOpc_header ho hq hd hi, hdrImm_header ho hq hd hi]
  cases formatOf (BitVec.ofNat 6 opc) with
  | none => rfl
  | some f =>
    have him : (BitVec.ofNat 16 imm).toNat = imm := by
      rw [BitVec.toNat_ofNat]
      exact Nat.mod_eq_of_lt hi
    cases f <;> first | rfl | (simp only [him])

theorem rd8 (off : BitVec 16) : Statement (.rd8 off) := fun _ =>
  (frameLen_header (opc := 0x01) (q := 0) (d := 0) (by decide) (by decide) (by decide) off.isLt).symm

theorem rd16 (off : BitVec 16) : Statement (.rd16 off) := fun _ =>
  (frameLen_header (opc := 0x02) (q := 0) (d := 0) (by decide) (by decide) (by decide) off.isLt).symm

theorem rd32 (off : BitVec 16) : Statement (.rd32 off) := fun _ =>
  (frameLen_header (opc := 0x03) (q := 0) (d := 0) (by decide) (by decide) (by decide) off.isLt).symm

theorem wr8 (off : BitVec 16) (value : Word) : Statement (.wr8 off value) := fun _ =>
  (frameLen_header (opc := 0x05) (q := 0) (d := 0) (by decide) (by decide) (by decide) off.isLt).symm

theorem wr16 (off : BitVec 16) (value : Word) : Statement (.wr16 off value) := fun _ =>
  (frameLen_header (opc := 0x06) (q := 0) (d := 0) (by decide) (by decide) (by decide) off.isLt).symm

theorem wr32 (off : BitVec 16) (value : Word) : Statement (.wr32 off value) := fun _ =>
  (frameLen_header (opc := 0x07) (q := 0) (d := 0) (by decide) (by decide) (by decide) off.isLt).symm

theorem drd8 (off : BitVec 16) : Statement (.drd8 off) := fun _ =>
  (frameLen_header (opc := 0x09) (q := 0) (d := 0) (by decide) (by decide) (by decide) off.isLt).symm

theorem drd16 (off : BitVec 16) : Statement (.drd16 off) := fun _ =>
  (frameLen_header (opc := 0x0A) (q := 0) (d := 0) (by decide) (by decide) (by decide) off.isLt).symm

theorem drd32 (off : BitVec 16) : Statement (.drd32 off) := fun _ =>
  (frameLen_header (opc := 0x0B) (q := 0) (d := 0) (by decide) (by decide) (by decide) off.isLt).symm

theorem dwr8 (off : BitVec 16) (value : Word) : Statement (.dwr8 off value) := fun _ =>
  (frameLen_header (opc := 0x0D) (q := 0) (d := 0) (by decide) (by decide) (by decide) off.isLt).symm

theorem dwr16 (off : BitVec 16) (value : Word) : Statement (.dwr16 off value) := fun _ =>
  (frameLen_header (opc := 0x0E) (q := 0) (d := 0) (by decide) (by decide) (by decide) off.isLt).symm

theorem dwr32 (off : BitVec 16) (value : Word) : Statement (.dwr32 off value) := fun _ =>
  (frameLen_header (opc := 0x0F) (q := 0) (d := 0) (by decide) (by decide) (by decide) off.isLt).symm

theorem vqCreate (q : Role) (size : BitVec 16) : Statement (.vqCreate q size) := fun _ =>
  (frameLen_header (opc := 0x10) (q := q.num) (d := 0) (by decide) q.num_lt (by decide) size.isLt).symm

theorem vqDestroy (q : Role) : Statement (.vqDestroy q) := fun _ =>
  (frameLen_header (opc := 0x11) (q := q.num) (d := 0) (by decide) q.num_lt (by decide) (by decide : (0 : Nat) < 65536)).symm

theorem vqSubmit (q : Role) (segs : List Seg) : Statement (.vqSubmit q segs) := by
  intro h
  have hlen : segs.length < 65536 := by simpa [Instr.wellFormed, Instr.segCountFits] using h
  show (header 0x12 q.num 0 segs.length :: segWords segs).length = frameLen (header 0x12 q.num 0 segs.length)
  rw [frameLen_header (by decide) q.num_lt (by decide) hlen, List.length_cons, segWords_length]
  exact Nat.add_comm _ _

theorem vqDrain (q : Role) : Statement (.vqDrain q) := fun _ =>
  (frameLen_header (opc := 0x13) (q := q.num) (d := 0) (by decide) q.num_lt (by decide) (by decide : (0 : Nat) < 65536)).symm

theorem poolReserve (dir : Dir) (len : Word) : Statement (.poolReserve dir len) := fun _ =>
  (frameLen_header (opc := 0x20) (q := 0) (d := dir.bit) (by decide) (by decide) dir.bit_lt (by decide : (0 : Nat) < 65536)).symm

theorem poolRelease (h : Handle) : Statement (.poolRelease h) := fun _ =>
  (frameLen_header (opc := 0x21) (q := 0) (d := 0) (by decide) (by decide) (by decide) h.isLt).symm

theorem buReset : Statement .buReset := fun _ =>
  (frameLen_header (opc := 0x30) (q := 0) (d := 0) (by decide) (by decide) (by decide) (by decide : (0 : Nat) < 65536)).symm

theorem buAck : Statement .buAck := fun _ =>
  (frameLen_header (opc := 0x31) (q := 0) (d := 0) (by decide) (by decide) (by decide) (by decide : (0 : Nat) < 65536)).symm

theorem buDriver : Statement .buDriver := fun _ =>
  (frameLen_header (opc := 0x32) (q := 0) (d := 0) (by decide) (by decide) (by decide) (by decide : (0 : Nat) < 65536)).symm

theorem buFeatures : Statement .buFeatures := fun _ =>
  (frameLen_header (opc := 0x33) (q := 0) (d := 0) (by decide) (by decide) (by decide) (by decide : (0 : Nat) < 65536)).symm

theorem buQwire (q : Role) : Statement (.buQwire q) := fun _ =>
  (frameLen_header (opc := 0x34) (q := q.num) (d := 0) (by decide) q.num_lt (by decide) (by decide : (0 : Nat) < 65536)).symm

theorem buIrq : Statement .buIrq := fun _ =>
  (frameLen_header (opc := 0x35) (q := 0) (d := 0) (by decide) (by decide) (by decide) (by decide : (0 : Nat) < 65536)).symm

theorem buOk : Statement .buOk := fun _ =>
  (frameLen_header (opc := 0x36) (q := 0) (d := 0) (by decide) (by decide) (by decide) (by decide : (0 : Nat) < 65536)).symm

theorem buFail : Statement .buFail := fun _ =>
  (frameLen_header (opc := 0x37) (q := 0) (d := 0) (by decide) (by decide) (by decide) (by decide : (0 : Nat) < 65536)).symm

theorem buDetach : Statement .buDetach := fun _ =>
  (frameLen_header (opc := 0x38) (q := 0) (d := 0) (by decide) (by decide) (by decide) (by decide : (0 : Nat) < 65536)).symm

theorem linkState : Statement .linkState := fun _ =>
  (frameLen_header (opc := 0x39) (q := 0) (d := 0) (by decide) (by decide) (by decide) (by decide : (0 : Nat) < 65536)).symm

theorem propFeat : Statement .propFeat := fun _ =>
  (frameLen_header (opc := 0x3A) (q := 0) (d := 0) (by decide) (by decide) (by decide) (by decide : (0 : Nat) < 65536)).symm

theorem propQsize (q : Role) : Statement (.propQsize q) := fun _ =>
  (frameLen_header (opc := 0x3B) (q := q.num) (d := 0) (by decide) q.num_lt (by decide) (by decide : (0 : Nat) < 65536)).symm

end Sys2Proof.Laws.EncodedLength
end

