-- ==== Sys2Proof/Tests/Slice0.lean ====
section
/-! SUPPORT. Tests and witnesses. Expected values are those of spec 95_test_vectors.md, worked out there by hand from the
rules; each section names its part. A `witness_<Name>` shows a concrete state and operands that meet every hypothesis of
`Obligations.<Name>`, clause by clause, at the ends of the ranges. -/

namespace Sys2Proof.Tests

/- One theorem at a time: many at once take more threads than the check allows. -/
set_option Elab.async false

open Sys2Proof Sys2Proof.Machine Sys2Proof.Claims

/-! ## Small states, field by field (95 B5: three queues of four descriptors, buffers in slots 3 to 6) -/

/-- The outcome is a next state of which `p` holds. -/
def after (o : Host.Outcome State Fault Refusal) (p : State → Bool) : Bool :=
  match o with
  | .next t => p t
  | .fault _ => false
  | .refused _ => false

/-- The response of a command and nothing before it. -/
def answers (i : Instr) (s : State) (ws : List Word) : Bool := after (exec i s) (fun t => t.respPort == ws)

/-- The bus operations a command makes. -/
def trace (i : Instr) (s : State) (ops : List BusOp) : Bool :=
  after (exec i s) (fun t => t.bus.map (fun x => x.op) == ops)

/-- The region of a queue of four descriptors. -/
def regionSlot (bus : Addr) : Slot :=
  { alloc := true, bus := bus, len := 8192, dir := .fromDevice, internal := true, loan := none, orphan := false,
    fill := .zero }

/-- A buffer the command stream owns. -/
def buffer (dir : Dir) (bus : Addr) (len : BitVec 32) : Slot :=
  { alloc := true, bus := bus, len := len, dir := dir, internal := false, loan := none, orphan := false,
    fill := .draw 0 }

/-- A fresh queue of four descriptors. -/
def ring (region : Handle) (base : Addr) (wired : Bool) : Queue :=
  { valid := true, wired := wired, broken := false, n := 4, region := region, base := base, availIdx := 0,
    lastUsed := 0, free := [0, 1, 2, 3], desc := List.replicate 4 { tag := .free, chainLen := 0, cookie := 0, ind := none },
    lock := none }

/-- The windows are mapped and the device has been reset: the state BU.RESET leaves, with queue sizes of four. -/
def mapped : State :=
  { State.reset with
    fsm := .reset, winMapped := true, acq := [.win], dev := { Device.initial with dsize := ⟨4, 4, 4⟩ } }

/-- The state BU.ACK leaves. -/
def acked : State := { mapped with fsm := .acknowledged, stShadow := 1, dev := { mapped.dev with dstatus := 1 } }

/-- The state BU.DRIVER leaves. -/
def loaded : State :=
  { acked with fsm := .driverLoaded, stShadow := 3, offered := 0x00020020, qsize := ⟨4, 4, 4⟩,
               dev := { acked.dev with dstatus := 3, dsel := 2 } }

/-- The state BU.FEATURES leaves. -/
def negotiatedState : State :=
  { loaded with fsm := .featuresOk, negotiated := 0x00020020, dev := { loaded.dev with dguest := 0x00020020 } }

/-- The three regions, then free slots. -/
def regions : List Slot :=
  [regionSlot 0x10000, regionSlot 0x12000, regionSlot 0x14000] ++ List.replicate 13 Slot.free

/-- FEATURES_OK with the three queues created. -/
def created : State :=
  { negotiatedState with
    acq := [.qr .q2, .qr .q1, .qr .q0, .win], pool := regions
    queues := ⟨ring 0 0x10000 false, ring 1 0x12000 false, ring 2 0x14000 false⟩ }

/-- The same, wired. -/
def wiredState : State :=
  { created with
    queues := ⟨ring 0 0x10000 true, ring 1 0x12000 true, ring 2 0x14000 true⟩
    dev := { created.dev with daddr := ⟨0x10, 0x12, 0x14⟩ } }

/-- The state BU.IRQ leaves. -/
def irqState : State := { wiredState with irqEn := true, acq := .irq :: wiredState.acq }

/-- The regions and the buffers of 95 B5. -/
def slotsB5 : List Slot :=
  [regionSlot 0x10000, regionSlot 0x12000, regionSlot 0x14000, buffer .fromDevice 0x16000 2048,
   buffer .fromDevice 0x17000 2048, buffer .toDevice 0x18000 60, buffer .toDevice 0x19000 1514]
  ++ List.replicate 9 Slot.free

/-- The start state of 95 B5. -/
def ready : State :=
  { irqState with
    fsm := .driverReady, stShadow := 7, pool := slotsB5, dev := { irqState.dev with dstatus := 7 } }

/-- A slot lent to a chain. -/
def lent (x : Slot) (q : Role) (head : DescIdx) : Slot := { x with loan := some { q := q, head := head } }

/-- 95 B5 after `VQ.SUBMIT 1, [5:14:r, 6:1500:r]` and the device's complete(1, 0, 0). -/
def completed : State :=
  { ready with
    queues := ready.queues.set .q1 { ring 1 0x12000 true with
      availIdx := 1, free := [2, 3]
      desc := [⟨.submitted 0, 2, 5, none⟩, ⟨.submitted 0, 0, 0, none⟩, ⟨.free, 0, 0, none⟩, ⟨.free, 0, 0, none⟩] }
    pool := (slotsB5.set 5 (lent (buffer .toDevice 0x18000 60) .q1 0)).set 6
      (lent (buffer .toDevice 0x19000 1514) .q1 0)
    mem := [(0x12001, 0x80), (0x12002, 0x01), (0x12008, 0x0E), (0x1200C, 0x01), (0x1200E, 0x01), (0x12011, 0x90),
      (0x12012, 0x01), (0x12018, 0xDC), (0x12019, 0x05), (0x12042, 0x01), (0x13002, 0x01)] }

/-- One completed chain of one segment on queue `q`, whose region is at `base`, lent slot `h`. -/
def oneChain (q : Role) (region : Handle) (base : Nat) (h : Nat) (ind : Option Handle) : State :=
  { ready with
    queues := ready.queues.set q { ring region (BitVec.ofNat 64 base) true with
      availIdx := 1, free := [1, 2, 3]
      desc := [⟨.submitted 0, 1, BitVec.ofNat 16 h, ind⟩, ⟨.free, 0, 0, none⟩, ⟨.free, 0, 0, none⟩,
        ⟨.free, 0, 0, none⟩] }
    pool := slotsB5.set h (lent (slotsB5.getD h Slot.free) q 0)
    mem := [(base + 0x42, 0x01), (base + 0x1002, 0x01)] }

/-- The dispatcher in D_WALK at queue `q`, with a cause latched. -/
def walking (s : State) (q : Role) (isr : BitVec 8) : State :=
  { s with disp := .walk, dq := q, isrLat := isr, walk := .test, turns := [.act .disp] }

/-- The dispatcher draining queue `q`, under its lock. -/
def draining (s : State) (q : Role) (r : DrainRun) : State :=
  { walking s q 1 with walk := .drain r, queues := s.queues.set q { s.queue q with lock := some .disp } }

/-- 95 B6, last row: two receive chains completed in the other order, the second descriptor's first. -/
def twoChains : State :=
  { ready with
    queues := ready.queues.set .q0 { ring 0 0x10000 true with
      availIdx := 2, free := [2, 3]
      desc := [⟨.submitted 0, 1, 3, none⟩, ⟨.submitted 1, 1, 4, none⟩, ⟨.free, 0, 0, none⟩, ⟨.free, 0, 0, none⟩] }
    pool := (slotsB5.set 3 (lent (buffer .fromDevice 0x16000 2048) .q0 0)).set 4
      (lent (buffer .fromDevice 0x17000 2048) .q0 1)
    mem := [(0x11002, 0x02), (0x11004, 0x01), (0x11008, 0x4A), (0x11010, 0x40)] }

/-- A transmit chain with an indirect table in slot 7, completed. -/
def tableChain : State :=
  { oneChain .q1 1 0x12000 5 (some 7) with
    pool := (slotsB5.set 5 (lent (buffer .toDevice 0x18000 60) .q1 0)).set 7
      { lent (regionSlot 0x1A000) .q1 0 with len := 16, fill := .draw 0 } }

/-- A machine whose queue roles are numbered otherwise (00 R9). -/
def otherRoles (s : State) : State := { s with cfg := { s.cfg with qRx := .q1, qTx := .q2, qCtrl := .q0 } }

/-- `ready` with the indirect feature negotiated and a threshold of one segment. -/
def readyIndirect : State :=
  { ready with
    cfg := { ready.cfg with driverSupported := 0x10030020, indThresh := 1 }
    offered := 0x10030020, negotiated := 0x10030020, platAllocs := [some 0x1A000] }

/-- `VQ.SUBMIT`'s two segments of 95 B5. -/
def twoSegs : List Seg := [⟨5, 14⟩, ⟨6, 1500⟩]

/-- The dispatcher has drained the first of two chains of a queue, that of slot 4, and walked the second, that of slot 3. -/
def reclaimed : State :=
  draining { twoChains with
    queues := twoChains.queues.set .q0 { twoChains.queue .q0 with
      lastUsed := 1, free := [2, 3, 1]
      desc := [⟨.completedPendingReturn, 1, 3, none⟩, ⟨.free, 1, 4, none⟩, ⟨.free, 0, 0, none⟩, ⟨.free, 0, 0, none⟩] } }
    .q0 ⟨[⟨4, 0x4A, [4]⟩], .unlend ⟨0, 0, 0x40, [0], 0⟩ []⟩

/-- Every slot taken. -/
def allTaken : List Slot := (List.range 16).map (fun k => buffer .toDevice (BitVec.ofNat 64 (0x20000 + 0x1000 * k)) 60)

/-- DETACHED with the control queue created in slot 0 and slot 1 still lent to it. -/
def detachedQueue : State :=
  { State.reset with
    queues := ⟨Queue.empty, { ring 0 0x10000 false with
      free := [1, 2, 3], availIdx := 1
      desc := [⟨.submitted 0, 1, 1, none⟩, ⟨.free, 0, 0, none⟩, ⟨.free, 0, 0, none⟩, ⟨.free, 0, 0, none⟩] },
      Queue.empty⟩
    pool := [regionSlot 0x10000, lent (buffer .toDevice 0x20000 60) .q1 0] ++ List.replicate 14 Slot.free }

/-- Every state above is one a run may reach: it satisfies the invariants. -/
theorem states_safe :
    mapped.safe ∧ acked.safe ∧ loaded.safe ∧ negotiatedState.safe ∧ created.safe ∧ wiredState.safe ∧ irqState.safe
      ∧ ready.safe ∧ completed.safe ∧ readyIndirect.safe ∧ detachedQueue.safe
      ∧ (oneChain .q1 1 0x12000 5 none).safe ∧ (oneChain .q0 0 0x10000 3 none).safe ∧ twoChains.safe ∧ tableChain.safe
      ∧ (otherRoles ready).safe ∧ (draining completed .q1 ⟨[], .start⟩).safe := by
  decide +kernel

/-! ## WellFormed -/

/-- 30 R113: a segment count that does not fit IMM16 has no frame; the largest that fits has one. -/
theorem test_wellFormed_segments :
    (Instr.vqSubmit .q1 (List.replicate 65536 ⟨5, 14⟩)).wellFormed = false
      ∧ (Instr.vqSubmit .q1 (List.replicate 65535 ⟨5, 14⟩)).wellFormed = true := by
  constructor <;> simp only [Instr.wellFormed, Instr.segCountFits, List.length_replicate] <;> decide

/-! ## Decoding (95 B1) -/

theorem test_decode_reads :
    decode [0x04000013] = .instr (.rd8 19) [] ∧ decode [0x0800000C] = .instr (.rd16 12) []
      ∧ decode [0x0C000000] = .instr (.rd32 0) [] ∧ decode [0x24000003] = .instr (.drd8 3) []
      ∧ decode [0x28000006] = .instr (.drd16 6) [] ∧ decode [0x2C000000] = .instr (.drd32 0) [] := by
  decide +kernel

theorem test_decode_writes :
    decode [0x14000012, 1] = .instr (.wr8 18 1) [] ∧ decode [0x1800000E, 1] = .instr (.wr16 14 1) []
      ∧ decode [0x1C000004, 0x00020020] = .instr (.wr32 4 0x00020020) []
      ∧ decode [0x34000000, 0x52] = .instr (.dwr8 0 0x52) [] ∧ decode [0x38000006, 1] = .instr (.dwr16 6 1) []
      ∧ decode [0x3C000000, 0x12005452] = .instr (.dwr32 0 0x12005452) [] := by
  decide +kernel

theorem test_decode_ring :
    decode [0x40008000] = .instr (.vqCreate .q0 0x8000) [] ∧ decode [0x42000040] = .instr (.vqCreate .q2 64) []
      ∧ decode [0x44000000] = .instr (.vqDestroy .q0) [] ∧ decode [0x4E000000] = .instr (.vqDrain .q2) []
      ∧ decode [0x49000002, 5, 14, 6, 1500] = .instr (.vqSubmit .q1 twoSegs) []
      ∧ decode [0x48000001, 0x80000003, 0x800] = .instr (.vqSubmit .q0 [⟨0x80000003, 0x800⟩]) [] := by
  decide +kernel

theorem test_decode_pool :
    decode [0x80000000, 0x3C] = .instr (.poolReserve .toDevice 60) []
      ∧ decode [0x80010000, 0x800] = .instr (.poolReserve .fromDevice 2048) []
      ∧ decode [0x8400000F] = .instr (.poolRelease 15) [] := by
  decide +kernel

theorem test_decode_bringup :
    decode [0xC0000000] = .instr .buReset [] ∧ decode [0xC4000000] = .instr .buAck []
      ∧ decode [0xC8000000] = .instr .buDriver [] ∧ decode [0xCC000000] = .instr .buFeatures []
      ∧ decode [0xD1000000] = .instr (.buQwire .q1) [] ∧ decode [0xD4000000] = .instr .buIrq []
      ∧ decode [0xD8000000] = .instr .buOk [] ∧ decode [0xDC000000] = .instr .buFail []
      ∧ decode [0xE0000000] = .instr .buDetach [] := by
  decide +kernel

theorem test_decode_queries :
    decode [0xE4000000] = .instr .linkState [] ∧ decode [0xE8000000] = .instr .propFeat []
      ∧ decode [0xEE000000] = .instr (.propQsize .q2) [] := by
  decide +kernel

/-- The refused encodings of 95 B1, the words after each kept. -/
theorem test_decode_refused :
    decode [0x00000000, 9] = .illegal .reservedOpcode [9] ∧ decode [0x10000000] = .illegal .reservedOpcode []
      ∧ decode [0x50000000] = .illegal .reservedOpcode [] ∧ decode [0xFC000000] = .illegal .reservedOpcode []
      ∧ decode [0x43000004] = .illegal .reservedRole [] ∧ decode [0x4D000001] = .illegal .nonzeroReservedField []
      ∧ decode [0xC4000001] = .illegal .nonzeroReservedField [] ∧ decode [0xC5000000] = .illegal .nonzeroReservedField []
      ∧ decode [0x04020013] = .illegal .nonzeroReservedField []
      ∧ decode [0x80020000, 0x40, 9] = .illegal .nonzeroReservedField [9] := by
  decide +kernel

/-- A frame whose operand words have not all arrived waits (30 R100, R103). -/
theorem test_decode_incomplete :
    decode [] = .incomplete ∧ decode [0x14000012] = .incomplete ∧ decode [0x49000002, 5, 14, 6] = .incomplete := by
  decide +kernel

/-- No header matches two rows of the opcode table (30 R105). -/
theorem test_opRows_disjoint :
    opRows.Pairwise (fun r t => (r.pattern ^^^ t.pattern) &&& r.mask &&& t.mask ≠ 0) := by
  decide +kernel

/-! ## Register access (95 B2) -/

theorem test_rd8_clears_isr :
    after (exec (.rd8 19) { mapped with dev := { mapped.dev with disr := 3 } })
      (fun t => t.respPort == [0x00000100, 0x00000003] && t.dev.disr == 0) = true := by
  decide +kernel

theorem test_rd16 : answers (.rd16 12) { mapped with dev := Device.initial } [0x00000100, 0x00000100] = true := by
  decide +kernel

theorem test_rd32 : answers (.rd32 0) mapped [0x00000100, 0x00020020] = true := by
  decide +kernel

theorem test_wr8 : trace (.wr8 18 1) mapped [.regWrite .w0 18 [0x01]] = true := by
  decide +kernel

theorem test_wr16 : trace (.wr16 14 1) mapped [.regWrite .w0 14 [0x01, 0x00]] = true := by
  decide +kernel

theorem test_wr32 : trace (.wr32 4 0x00020020) mapped [.regWrite .w0 4 [0x20, 0x00, 0x02, 0x00]] = true := by
  decide +kernel

theorem test_drd8 : answers (.drd8 3) mapped [0x00000100, 0x00000012] = true := by
  decide +kernel

/-- The link status bytes 01 00 on a little-endian and on a big-endian host. -/
theorem test_drd16 :
    answers (.drd16 6) mapped [0x00000100, 0x00000001] = true
      ∧ answers (.drd16 6) { mapped with cfg := { mapped.cfg with hostEndian := .big } } [0x00000100, 0x00000100]
        = true := by
  decide +kernel

/-- `DRD32 0` is one access of four bytes, whatever they are (40 R135). -/
theorem test_drd32_refusals :
    answers (.drd32 6) mapped [0x00000007] = true ∧ answers (.drd16 8) mapped [0x00000007] = true := by
  decide +kernel

theorem test_dwr8 : trace (.dwr8 0 0x52) mapped [.regWrite .w1 0 [0x52]] = true := by
  decide +kernel

theorem test_dwr16 :
    trace (.dwr16 6 1) mapped [.regWrite .w1 6 [0x01, 0x00]] = true
      ∧ trace (.dwr16 6 1) { mapped with cfg := { mapped.cfg with hostEndian := .big } }
          [.regWrite .w1 6 [0x00, 0x01]] = true := by
  decide +kernel

theorem test_dwr32 :
    trace (.dwr32 0 0x12005452) { mapped with cfg := { mapped.cfg with hostEndian := .big } }
      [.regWrite .w1 0 [0x12, 0x00, 0x54, 0x52]] = true := by
  decide +kernel

theorem test_register_refusals :
    answers (.rd8 19) State.reset [0x00000008] = true ∧ answers (.rd8 20) mapped [0x00000007] = true
      ∧ answers (.rd16 19) mapped [0x00000007] = true ∧ answers (.rd32 18) mapped [0x00000007] = true
      ∧ answers (.wr8 18 0x101) mapped [0x00000007] = true := by
  decide +kernel

/-! ## Layout and index arithmetic (95 A3, B3) -/

theorem test_layout :
    (usedOff 1, regionBytes 1) = (0x1000, 8192) ∧ (usedOff 256, regionBytes 256) = (0x2000, 12288)
      ∧ (usedOff 1024, regionBytes 1024) = (0x5000, 32768) ∧ (usedOff 32768, regionBytes 32768) = (0x91000, 860160) := by
  decide +kernel

theorem test_queueSizeOk :
    [1, 4, 256, 32768].map queueSizeOk = [true, true, true, true]
      ∧ [0, 3, 5, 6, 100, 32769, 65535].map queueSizeOk = [false, false, false, false, false, false, false] := by
  decide +kernel

/-! ## Queues (95 B4 to B7) -/

theorem test_vqCreate :
    after (exec (.vqCreate .q2 4) { State.reset with platAllocs := [some 0x10000] })
      (fun t => t.respPort == [0] && t.queue .q2 == ring 0 0x10000 false && t.slot 0 == regionSlot 0x10000) = true := by
  decide +kernel

theorem test_vqDestroy :
    after (exec (.vqDestroy .q1) detachedQueue)
      (fun t => t.respPort == [0] && !(t.queue .q1).valid && t.slot 0 == Slot.free
        && t.slot 1 == buffer .toDevice 0x20000 60) = true := by
  decide +kernel

/-- 95 B5, first listing: the accesses of `VQ.SUBMIT 0, [3:2048:w]`, one by one. -/
theorem test_vqSubmit_accesses :
    trace (.vqSubmit .q0 [⟨0x80000003, 0x800⟩]) ready
      [.memWrite 0x10000 8 0x16000, .memWrite 0x10008 4 0x800, .memWrite 0x1000C 2 2, .memWrite 0x1000E 2 0,
       .memWrite 0x10044 2 0, .fence, .memWrite 0x10042 2 1, .fence, .memRead 0x11000 2 0,
       .regWrite .w0 16 [0x00, 0x00]] = true := by
  decide +kernel

/-- 95 B5, second listing: two chained segments. -/
theorem test_vqSubmit_chain :
    after (exec (.vqSubmit .q1 twoSegs) ready) (fun t =>
      t.respPort == [0] && (t.queue .q1).free == [2, 3] && (t.queue .q1).tagAt 1 == .submitted 0
        && (t.slot 6).loan == some { q := .q1, head := 0 }
        && t.bus.drop 4 == ([.memWrite 0x12010 8 0x19000, .memWrite 0x12018 4 0x5DC, .memWrite 0x1201C 2 0,
          .memWrite 0x1201E 2 0, .memWrite 0x12044 2 0, .fence, .memWrite 0x12042 2 1, .fence, .memRead 0x13000 2 0,
          .regWrite .w0 16 [0x01, 0x00]] : List BusOp).map (fun o => { agent := .cmd, op := o })) = true := by
  decide +kernel

/-- 95 B6: the reads of `VQ.DRAIN 1` and what it answers. -/
theorem test_vqDrain :
    trace (.vqDrain .q1) completed
      [.memRead 0x13002 2 1, .fence, .memRead 0x13004 4 0, .memRead 0x13008 4 0, .memRead 0x1200C 2 1,
       .memRead 0x1200E 2 1, .memRead 0x1201C 2 0] = true
      ∧ after (exec (.vqDrain .q1) completed) (fun t =>
          t.respPort == [0x00000200, 5, 0] && (t.queue .q1).free == [2, 3, 0, 1] && (t.slot 5).owned && (t.slot 6).owned)
        = true := by
  decide +kernel

/-- 95 B7, sixth row: a link to a descriptor outside the chain; the tag the walk set stays. -/
theorem test_vqDrain_corrupt :
    after (exec (.vqDrain .q1) { completed with mem := Memory.put completed.mem 0x1200E 3 }) (fun t =>
      t.respPort == [0x00000009] && (t.queue .q1).broken && (t.queue .q1).tagAt 0 == .completedPendingReturn
        && (t.queue .q1).lastUsed == 0 && (t.slot 5).state == .loaned) = true := by
  decide +kernel

/-! ## Pool (95 B8) -/

theorem test_poolReserve :
    after (exec (.poolReserve .toDevice 60) { ready with platAllocs := [some 0x1A000] })
      (fun t => t.respPort == [0x00000100, 7] && t.slot 7 == buffer .toDevice 0x1A000 60) = true := by
  decide +kernel

/-- A grant that overlaps a live slot is none (42 R181). -/
theorem test_poolReserve_exhausted :
    answers (.poolReserve .toDevice 60) { ready with platAllocs := [some 0x19000] } [0x00000005] = true
      ∧ answers (.poolReserve .toDevice 60) { ready with pool := allTaken } [0x00000005] = true := by
  decide +kernel

theorem test_poolRelease :
    after (exec (.poolRelease 3) ready) (fun t => t.respPort == [0] && t.slot 3 == Slot.free) = true
      ∧ answers (.poolRelease 5) completed [0x0000000B] = true ∧ answers (.poolRelease 0) ready [0x00000007] = true := by
  decide +kernel

/-! ## Bring-up (95 B9, C1) -/

theorem test_buReset :
    after (exec .buReset { State.reset with platMaps := [true] }) (fun t =>
      t.respPort == [0] && t.fsm == .reset && t.bus.map (fun x => x.op) == [.regWrite .w0 18 [0]]) = true
      ∧ answers .buReset { State.reset with platMaps := [false] } [0x0000000A] = true := by
  decide +kernel

theorem test_buAck :
    trace .buAck mapped
      [.pciRead 0 2 0x1AF4, .pciRead 2 2 0x1000, .pciRead 8 1 0, .regWrite .w0 18 [0x01]] = true
      ∧ after (exec .buAck { mapped with dev := { mapped.dev with device := 0x1001 } }) (fun t =>
          t.respPort == [1] && t.fsm == .failed && t.errLatch == 1 && !t.winMapped) = true := by
  decide +kernel

theorem test_buDriver :
    trace .buDriver { acked with dev := { acked.dev with dsize := ⟨256, 256, 64⟩ } }
      [.regWrite .w0 14 [0, 0], .regRead .w0 12 [0x00, 0x01], .regWrite .w0 14 [1, 0], .regRead .w0 12 [0x00, 0x01],
       .regWrite .w0 14 [2, 0], .regRead .w0 12 [0x40, 0x00], .regRead .w0 0 [0x20, 0x00, 0x02, 0x00],
       .regWrite .w0 18 [0x03]] = true
      ∧ after (exec .buDriver { acked with dev := { acked.dev with dsize := ⟨256, 0, 64⟩ } }) (fun t =>
          t.respPort == [3] && t.errLatch == 3 && t.qsize == ⟨256, 0, 64⟩ && t.stShadow == 0x81) = true := by
  decide +kernel

theorem test_buFeatures :
    after (exec .buFeatures { loaded with offered := 0xFFFFFFFF }) (fun t =>
      t.negotiated == 0x00030020 && t.bus.map (fun x => x.op) == [.regWrite .w0 4 [0x20, 0x00, 0x03, 0x00]]) = true
      ∧ after (exec .buFeatures { loaded with offered := 0x10000000 }) (fun t =>
          t.respPort == [2] && t.bus.map (fun x => x.op) == [.regWrite .w0 18 [0x83]]) = true := by
  decide +kernel

theorem test_buQwire :
    trace (.buQwire .q1) created [.regWrite .w0 14 [1, 0], .regWrite .w0 8 [0x12, 0, 0, 0]] = true := by
  decide +kernel

theorem test_buIrq :
    after (exec .buIrq wiredState) (fun t => t.irqEn && t.acq.head? == some .irq && t.bus == []) = true
      ∧ answers .buIrq created [0x00000008] = true := by
  decide +kernel

theorem test_buOk : trace .buOk irqState [.regWrite .w0 18 [0x07]] = true := by
  decide +kernel

theorem test_buFail :
    after (exec .buFail completed) (fun t =>
      t.fsm == .failed && t.errLatch == 0 && t.acq == [] && (t.slot 5).state == .orphan && t.slot 1 == Slot.free
        && t.slot 3 == buffer .fromDevice 0x16000 2048 && t.bus.map (fun x => x.op) == [.regWrite .w0 18 [0x87]])
      = true := by
  decide +kernel

theorem test_buDetach :
    after (exec .buDetach completed) (fun t =>
      t.fsm == .detached && (t.slot 5).state == .owned && t.slot 1 == Slot.free && t.stShadow == 0 && !t.irqEn) = true := by
  decide +kernel

theorem test_linkState :
    answers .linkState ready [0x00000100, 1] = true ∧ trace .linkState ready [] = true
      ∧ answers .linkState { ready with negotiated := 0x00030020, dev := { ready.dev with link := 0 } }
          [0x00000100, 0] = true := by
  decide +kernel

theorem test_queries :
    answers .propFeat negotiatedState [0x00000100, 0x00020020] = true
      ∧ answers (.propQsize .q0) { loaded with qsize := ⟨256, 256, 64⟩ } [0x00000100, 0x00000100] = true := by
  decide +kernel

/-! ## Dispatcher (95 B10) -/

/-- A drained chain of a transmit queue (95 B10): when its event is emitted its slots are FREE and the lock is dropped. -/
theorem test_walk_hand_over_tx :
    after (step (draining (oneChain .q1 1 0x12000 5 none) .q1 ⟨[⟨6, 9, [6]⟩], .unlend ⟨0, 0, 0, [0], 0⟩ []⟩)) (fun t =>
      t.slot 5 == Slot.free && t.slot 6 == Slot.free && t.eventPort == [0x00000206, 6, 9, 0x00000206, 5, 0]
        && (t.queue .q1).lock == none && t.walk == .test && t.dq == .q2) = true := by
  decide +kernel

/-- A drained chain of the receive queue: its slots are OWNED. Which queue is the receive queue is a parameter (00 R9). -/
theorem test_walk_hand_over_rx :
    after (step reclaimed) (fun t =>
      t.eventPort == [0x00000201, 4, 0x4A, 0x00000201, 3, 0x40] && (t.slot 3).state == .owned && (t.slot 4).state == .owned) = true
      ∧ after (step (otherRoles reclaimed)) (fun t =>
          t.eventPort == [0x00000206, 4, 0x4A, 0x00000206, 3, 0x40] && t.slot 3 == Slot.free && t.slot 4 == Slot.free)
          = true := by
  decide +kernel

/-- EV_RING_CORRUPT comes last; after queue 2 the walk is over. -/
theorem test_walk_corrupt :
    after (step (draining { ready with queues := ready.queues.set .q2 { ready.queue .q2 with broken := true } } .q2
        ⟨[⟨6, 9, []⟩], .start⟩))
      (fun t => t.eventPort == [0x00000206, 6, 9, 0x00000104, 2] && t.disp == .config && t.walk == .enter) = true := by
  decide +kernel

/-- VQ.DRAIN of a queue DISP is draining waits; the used entry is then the dispatcher's (44 R240). -/
theorem test_drain_waits :
    after (exec (.vqDrain .q1) (draining (oneChain .q1 1 0x12000 5 none) .q1 ⟨[], .start⟩)) (fun t =>
      t.respPort == [0] && t.eventPort == [0x00000206, 5, 0] && (t.queue .q1).free == [1, 2, 3, 0] && t.slot 5 == Slot.free)
      = true := by
  decide +kernel

/-- Until the walk of a queue ends, the slots of a chain DISP has drained are LOANED (20 R84, log 2): a release is refused
with BufferInFlight, a submission with IllegalCommand, and neither waits (42 R184, 41 R161). -/
theorem test_reclaimed_slot_is_lent :
    answers (.poolRelease 4) reclaimed [0x0000000B] = true
      ∧ answers (.vqSubmit .q1 [⟨0x80000004, 1⟩]) reclaimed [0x00000007] = true
      ∧ answers (.poolRelease 5) reclaimed [0x00000000] = true := by
  decide +kernel

theorem test_unknown_cause :
    after (step { walking ready .q0 0x80 with walk := .enter }) (fun t => t.eventPort == [0x00000103, 0x80] && t.disp == .config) = true := by
  decide +kernel

/-! ## The host and the device -/

/-- The device fills a receive buffer and completes the chain: the used element carries the number of bytes written, one
written twice counted once (45 R257). -/
theorem test_devComplete_len :
    (let d : Device := { ready.dev with consumed := [⟨.q0, 0, [⟨0x16000, 2048, true⟩], []⟩] }
     let s := (({ ready with dev := d } : State).devWrite 0 0 0 [1, 2, 3]).devWrite 0 0 2 [9]
     let t := s.devComplete 0
     s.byteAt 0x16002 == some 9 && t.readLe 0x11008 4 == some 3 && t.readLe 0x11002 2 == some 1 && t.dev.disr == 1) = true
    := by
  decide +kernel

/-- The notify hint may be set without DRIVER_OK, and not after a status write of 0 or under FAILED; other bits of the word
stay (45 R254, R259). -/
theorem test_devHint :
    (let at_ (v : BitVec 8) : State := { ready with dev := { ready.dev with dstatus := v }, mem := [(0x13000, 4)] }
     ((at_ 3).devHint .q1 true).readLe 0x13000 2 == some 5 && ((at_ 3).devHint .q1 true).dev.poll.get .q1 == .polling
      && ((at_ 0).devHint .q1 true).readLe 0x13000 2 == some 4 && ((at_ 0x83).devHint .q1 true).readLe 0x13000 2 == some 4)
      = true := by
  decide +kernel

/-- A device that stops polling clears the hint first and looks again; without either it is at fault (45 R259, 70 R317).
Under FAILED it may not look, and owes nothing. -/
theorem test_hint_then_look :
    ready.conformingRun [.devHint .q1 true, .devConsume .q1, .devHint .q1 false, .devConsume .q1] = true
      ∧ ready.conformingRun [.devHint .q1 true, .devConsume .q1] = false
      ∧ ready.conformingRun [.devHint .q1 true, .devConsume .q1, .devHint .q1 false] = false
      ∧ ((ready.devHint .q1 true).setDev ((ready.devHint .q1 true).dev.react .deviceStatus 0x87)).hintsKept = true := by
  decide +kernel

/-- The host reads bytes of an OWNED slot and no others (70 R312). -/
theorem test_hostRead :
    ((({ ready with mem := [(0x16000, 7)] } : State).hostRead 0x16000 1).hostSeen == [7]
      && (({ completed with mem := [(0x18000, 7)] } : State).hostRead 0x18000 1).hostSeen == []) = true := by
  decide +kernel

/-- The available element may be seen before the descriptors: the fifth store of a submission is committed first, in the
gap of the FENCE that follows it (20 R80 (e)). -/
theorem test_submit_reordered :
    after (exec (.vqSubmit .q0 [⟨0x80000003, 0x800⟩])
        { ready with gaps := [[], [], [], [], [], [.commit 4, .hostRead 0 0, .devStore 0x10044 [9]]] })
      (fun t => t.readLe 0x10044 2 == some 9 && t.readLe 0x10000 8 == some 0x16000) = true := by
  decide +kernel

/-! ## Pseudo-instructions (30 R119, R120) -/

theorem test_busy : transmitResult 5 = .busy ∧ transmitResult 0 = .ok ∧ transmitResult 9 = .error 9 := by
  decide

theorem test_xmit :
    after (runPseudo (.xmit 5 60) ready) (fun t => (t.slot 5).loan == some ⟨.q1, 0⟩) = true
      ∧ after (runPseudo (.xmit 5 60) (otherRoles ready)) (fun t => (t.slot 5).loan == some ⟨.q2, 0⟩) = true := by
  decide +kernel

/-! ## The host's interface -/

theorem test_withFetchWord :
    after (step (State.reset.withFetchWord 32 0xE8000000)) (fun t => t.respPort == [0x00000100, 0]) = true
      ∧ decodeTableWord 64 0x0000003C80000000 = some (.poolReserve .toDevice 60) := by
  decide +kernel

/-! ## Witnesses: decoding and stepping -/

theorem witness_StepRunsDecodedInstruction :
    decode ({ State.reset with cmdPort := [0xE8000000] } : State).cmdPort = .instr .propFeat []
      ∧ State.reset.turns = [] ∧ ({ State.reset with turns := [.cmd] } : State).turns = .cmd :: []
      ∧ Act.irqPulse ≠ .disp ∧ (walking ready .q0 1).turns = .act .disp :: [] ∧ ({ State.reset with turns := [.act .irqPulse] } : State).turns = .act .irqPulse :: [] := by
  decide +kernel

theorem witness_EveryCommandAnswersOnce :
    ready.safe = true ∧ (draining completed .q1 ⟨[], .start⟩).safe = true ∧ (Instr.vqSubmit .q1 twoSegs).wellFormed = true ∧ Instr.buFail.wellFormed = true := by
  decide +kernel

/-- Each branch: one operand word, two per segment, none. -/
theorem witness_FrameLengthByOpcAndImm :
    formatOf (hdrOpc 0x14000012) = some .ow ∧ ([1] : List Word).length = 1
      ∧ formatOf (hdrOpc 0x80000000) = some .dl ∧ formatOf (hdrOpc 0x49000001) = some .qs
      ∧ ([5, 14] : List Word).length = 2 * (hdrImm 0x49000001).toNat
      ∧ formatOf (hdrOpc 0x10000000) = none := by
  decide +kernel

theorem witness_HeaderSelectsByMaskAndMatch :
    ([] : List Word).length = operandCount 0x00000000 ∧ (∀ r ∈ opRows, r.selects 0x00000000 = false)
      ∧ ([] : List Word).length = operandCount 0x04000013 ∧ ⟨0x01, 0x04000000, 0xFFFF0000⟩ ∈ opRows
      ∧ OpRow.selects ⟨0x01, 0x04000000, 0xFFFF0000⟩ 0x04000013 = true ∧ hdrQ 0x04000013 ≠ 3 := by
  decide +kernel

theorem witness_RefusedFrameChangesNothing :
    ({ State.reset with cmdPort := [0x43000004, 7] } : State).turns = []
      ∧ decode ({ State.reset with cmdPort := [0x43000004, 7] } : State).cmdPort = .illegal .reservedRole [7] := by
  decide +kernel

theorem witness_DecodeInvertsEncode :
    (Instr.vqSubmit .q1 twoSegs).wellFormed = true ∧ (Instr.vqSubmit .q0 []).wellFormed = true := by
  decide +kernel

theorem witness_EncodeInvertsDecode : decode [0x49000001, 0x00010003, 60, 9] = .instr (.vqSubmit .q1 [⟨0x00010003, 60⟩]) [9] := by
  decide +kernel

/-! ## Witnesses: register access -/

/-- Unmapped; the first offset out of the window, a misaligned one; the first value that is too wide. -/
theorem witness_RegisterAccessRefused :
    State.reset.winMapped = false ∧ mapped.winMapped = true
      ∧ mapped.winBytes .w0 < (20 : BitVec 16).toNat + Width.w8.bytes ∧ (19 : BitVec 16).toNat % Width.w16.bytes ≠ 0
      ∧ mapped.winBytes .w1 < (8 : BitVec 16).toNat + Width.w32.bytes
      ∧ 256 ^ Width.w8.bytes ≤ (256 : Word).toNat ∧ 256 ^ Width.w16.bytes ≤ (65536 : Word).toNat := by
  decide +kernel

theorem witness_RegisterReadAnswersValue :
    mapped.cfg.wf = true ∧ mapped.winMapped = true ∧ (19 : BitVec 16).toNat = Reg0.isr.off mapped.cfg
      ∧ Width.w8.bytes = Reg0.isr.bytes ∧ mapped.dev.regValue .isr = some 0
      ∧ (0 : BitVec 16).toNat = Reg0.deviceFeatures.off mapped.cfg ∧ Width.w32.bytes = Reg0.deviceFeatures.bytes
      ∧ mapped.dev.regValue .deviceFeatures = some 0x00020020 := by
  decide +kernel

/-- No gap: the state the access meets is the state itself. -/
theorem witness_cmdGap (s : State) (h : s.gaps = []) : cmdGap s = .ok s := by
  simp [cmdGap, h]

theorem witness_OnlyIsrReadHasEffect :
    Device.initial.dsel.toNat = Role.q0.num ∧ ({ Device.initial with dsel := 2 } : Device).dsel.toNat = Role.q2.num
      ∧ 3 ≤ ({ Device.initial with dsel := 3 } : Device).dsel.toNat ∧ Reg0.queueNotify ≠ .isr := by
  decide +kernel

/-- Each register of the clauses at its own offset and width, a value at the end of its range, roles 2 and 3. -/
theorem witness_RegisterWriteReachesRegister :
    mapped.cfg.wf = true ∧ mapped.winMapped = true
      ∧ ((4 : BitVec 16).toNat = Reg0.guestFeatures.off mapped.cfg ∧ Width.w32.bytes = Reg0.guestFeatures.bytes)
      ∧ ((14 : BitVec 16).toNat = Reg0.queueSelect.off mapped.cfg ∧ Width.w16.bytes = Reg0.queueSelect.bytes)
      ∧ ((8 : BitVec 16).toNat = Reg0.queueAddress.off mapped.cfg ∧ Width.w32.bytes = Reg0.queueAddress.bytes)
      ∧ ((18 : BitVec 16).toNat = Reg0.deviceStatus.off mapped.cfg ∧ Width.w8.bytes = Reg0.deviceStatus.bytes)
      ∧ ((16 : BitVec 16).toNat = Reg0.queueNotify.off mapped.cfg ∧ Width.w16.bytes = Reg0.queueNotify.bytes)
      ∧ (0xFFFFFFFF : Word).toNat < 256 ^ Width.w32.bytes ∧ (255 : Word).toNat < 256 ^ Width.w8.bytes
      ∧ loaded.dev.dsel.toNat = Role.q2.num ∧ 3 ≤ ({ loaded.dev with dsel := 3 } : Device).dsel.toNat := by
  decide +kernel

theorem witness_DeviceWindowReadAnswersValue :
    mapped.cfg.wf = true ∧ mapped.winMapped = true ∧ mapped.gaps = [] ∧ mapped.dev.win1Open = false
      ∧ (0 : BitVec 16).toNat = mapped.cfg.offMac + 0 ∧ (5 : BitVec 16).toNat = mapped.cfg.offMac + 5
      ∧ (6 : BitVec 16).toNat = mapped.cfg.offLinkStatus := by
  decide +kernel

/-- The last offset of each window, the widest value. -/
theorem witness_RegisterAccessCompletes :
    mapped.winMapped = true ∧ mapped.gaps = [] ∧ (19 : BitVec 16).toNat + Width.w8.bytes ≤ mapped.winBytes .w0
      ∧ (4 : BitVec 16).toNat % Width.w32.bytes = 0 ∧ (4 : BitVec 16).toNat + Width.w32.bytes ≤ mapped.winBytes .w1
      ∧ (0xFFFFFFFF : Word).toNat < 256 ^ Width.w32.bytes := by
  decide +kernel

theorem witness_RegisterCommandFrame :
    ∃ t u : State, mapped.winMapped = true ∧ mapped.wbuf = [] ∧ exec (readCommand .w0 .w8 19) mapped = .next t
      ∧ exec (writeCommand .w1 .w32 4 0xFFFFFFFF) mapped = .next u :=
  ⟨_, _, rfl, rfl, rfl, rfl⟩

/-! ## Witnesses: pool -/

/-- The lowest free handle is 0 of an empty table, 15 of one with fifteen slots taken. -/
theorem witness_ReserveTakesLowestFreeHandle :
    (∃ s1, ({ State.reset with platAllocs := [some 0x10000] } : State).platAlloc (1 : Word).toNat = (some 0x10000, s1))
      ∧ (State.reset.slot 0).alloc = false ∧ State.reset.pool.length ≤ 65536
      ∧ (∃ s1, ({ ready with pool := allTaken.set 15 Slot.free, platAllocs := [some 0x10000] } : State).platAlloc
          (4096 : Word).toNat = (some 0x10000, s1))
      ∧ (∀ k, k < 15 → ((allTaken.set 15 Slot.free).getD k Slot.free).alloc = true)
      ∧ ((allTaken.set 15 Slot.free).getD 15 Slot.free).alloc = false := by
  refine ⟨⟨_, rfl⟩, by decide, by decide, ⟨_, rfl⟩, by decide, by decide⟩

theorem witness_ReserveExhaustionIsQueueFull :
    (∀ k, k < allTaken.length → (allTaken.getD k Slot.free).alloc = true) ∧ (State.reset.slot 0).alloc = false
      ∧ 0 < State.reset.pool.length ∧ (1 : Word) ≠ 0
      ∧ ∃ s1, ({ State.reset with platAllocs := [none] } : State).platAlloc (1 : Word).toNat = (none, s1) := by
  refine ⟨by decide, by decide, by decide, by decide, ⟨_, rfl⟩⟩

theorem witness_ReleaseFreesOwnedSlot :
    ready.safe = true ∧ (6 : Handle).toNat < ready.cfg.poolSlots ∧ (ready.slot 6).state = .owned := by
  decide +kernel

/-- Handle 16 is the first out of range, 15 the last in it. -/
theorem witness_ReleaseRefusedUnlessOwned :
    ready.cfg.poolSlots ≤ (16 : Handle).toNat ∧ (15 : Handle).toNat < ready.cfg.poolSlots
      ∧ (ready.slot 15).state = .free ∧ (ready.slot 0).state = .internal ∧ (completed.slot 5).state = .loaned
      ∧ ({ completed with pool := [{ buffer .toDevice 0x18000 60 with orphan := true }] } : State).slot 0
          = { buffer .toDevice 0x18000 60 with orphan := true }
      ∧ ({ buffer .toDevice 0x18000 60 with orphan := true } : Slot).state = .orphan := by
  decide +kernel

/-! ## Witnesses: queues -/

/-- Sizes 1 and 32768 in DETACHED, the reported size in FEATURES_OK. -/
theorem witness_CreateMakesZeroedQueue :
    State.reset.fsm = .detached ∧ (State.reset.queue .q0).valid = false ∧ (State.reset.queue .q0).lock = none
      ∧ (1 : BitVec 16).toNat = 2 ^ 0 ∧ (32768 : BitVec 16).toNat = 2 ^ 15 ∧ State.reset.lowestFree = some 0
      ∧ State.reset.pool.length ≤ 65536
      ∧ (({ State.reset with platAllocs := [some 0x10000] } : State).platAlloc (regionBytes 1)).1 = some 0x10000
      ∧ (({ State.reset with platAllocs := [some 0x10000] } : State).platAlloc (regionBytes 32768)).1 = some 0x10000
      ∧ negotiatedState.fsm = .featuresOk ∧ (4 : BitVec 16) = negotiatedState.qsize.get .q2
      ∧ (negotiatedState.queue .q2).valid = false := by
  decide +kernel

/-- Sizes 0, 3 and 65535; the other states; an existing queue; a size not reported. -/
theorem witness_QueueCommandsRefused :
    mapped.fsm ≠ .detached ∧ mapped.fsm ≠ .featuresOk ∧ created.fsm = .featuresOk ∧ (created.queue .q0).valid = true
      ∧ (∀ e, e ≤ 15 → (0 : BitVec 16).toNat ≠ 2 ^ e) ∧ (∀ e, e ≤ 15 → (3 : BitVec 16).toNat ≠ 2 ^ e)
      ∧ (∀ e, e ≤ 15 → (65535 : BitVec 16).toNat ≠ 2 ^ e) ∧ (8 : BitVec 16) ≠ negotiatedState.qsize.get .q0
      ∧ State.reset.fsm = .detached ∧ (State.reset.queue .q0).valid = false := by
  refine ⟨by decide, by decide, by decide, by decide, ?_, ?_, ?_, by decide, by decide, by decide⟩ <;>
    · intro e h
      interval_cases e <;> decide

theorem witness_CreateWithoutMemoryInDetached :
    State.reset.fsm = .detached ∧ (State.reset.queue .q2).lock = none
      ∧ ({ State.reset with pool := allTaken } : State).lowestFree = none
      ∧ State.reset.lowestFree = some 0
      ∧ (({ State.reset with platAllocs := [none] } : State).platAlloc (regionBytes 32768)).1 = none := by
  decide +kernel

/-- Exponents 0 and 15. -/
theorem witness_CreateThenDrainIsEmpty :
    State.reset.fsm = .detached ∧ (State.reset.queue .q1).valid = false ∧ (State.reset.queue .q1).lock = none
      ∧ State.reset.lowestFree = some 0 ∧ State.reset.wbuf = [] ∧ State.reset.gaps = []
      ∧ (({ State.reset with platAllocs := [some 0x10000] } : State).platAlloc (regionBytes (2 ^ 0))).1 = some 0x10000
      ∧ (({ State.reset with platAllocs := [some 0x10000] } : State).platAlloc (regionBytes (2 ^ 15))).1 = some 0x10000 := by
  decide +kernel

/-- A queue with a slot on loan to it. -/
theorem witness_DestroyGivesBackLoans :
    detachedQueue.safe = true ∧ detachedQueue.fsm = .detached ∧ (detachedQueue.queue .q1).valid = true
      ∧ (detachedQueue.slot 1).loan = some { q := .q1, head := 0 } := by
  decide +kernel

/-- Each way a segment list can be wrong, at the end of its range. -/
theorem witness_SubmitValidatesSegments :
    mapped.fsm ≠ .driverReady ∧ ready.fsm = .driverReady ∧ ([] : List Seg).length = 0
      ∧ 32768 < (List.replicate 32769 (⟨5, 14⟩ : Seg)).length
      ∧ (0x00010003 : Word).extractLsb' 16 15 ≠ 0 ∧ ready.cfg.poolSlots ≤ ((16 : Word).setWidth 16).toNat
      ∧ (ready.slot 7).state ≠ .owned ∧ (completed.slot 5).state ≠ .owned ∧ (⟨5, 0⟩ : Seg).len = 0
      ∧ (ready.slot 5).len.toNat < (61 : Word).toNat
      ∧ ((0x80000005 : Word).msb = true ∧ (ready.slot 5).dir = .toDevice)
      ∧ ((3 : Word).msb = false ∧ (ready.slot 3).dir = .fromDevice)
      ∧ ¬ (([⟨5, 14⟩, ⟨5, 14⟩] : List Seg).map (fun g => (g.ctl.setWidth 16 : Handle))).Nodup := by
  refine ⟨by decide, by decide, by decide, ?_, by decide, by decide, by decide, by decide, by decide, by decide,
    by decide, by decide, by decide⟩
  simp only [List.length_replicate]
  decide

/-- Direct, and at IND_THRESH = 1 segments and one more. -/
theorem witness_SubmitBrokenOrFullChangesNothing :
    ready.fsm = .driverReady ∧ ready.segsOk twoSegs = true ∧ (ready.queue .q1).lock = none
      ∧ ({ ready.queue .q1 with broken := true } : Queue).broken = true
      ∧ descsNeeded { ready with queues := ready.queues.set .q1 { ready.queue .q1 with free := [2] } } twoSegs.length = 2
      ∧ goesIndirect readyIndirect twoSegs.length = true ∧ readyIndirect.segsOk twoSegs = true
      ∧ readyIndirect.negotiated.getLsbD readyIndirect.cfg.fIndirect = true
      ∧ twoSegs.length = readyIndirect.cfg.indThresh + 1 ∧ [(⟨5, 14⟩ : Seg)].length = readyIndirect.cfg.indThresh
      ∧ readyIndirect.segsOk [⟨5, 14⟩] = true
      ∧ ({ readyIndirect.queue .q1 with free := [] } : Queue).free.length < [(⟨5, 14⟩ : Seg)].length
      ∧ 1 ≤ (readyIndirect.queue .q1).free.length ∧ ({ readyIndirect with pool := allTaken } : State).lowestFree = none
      ∧ readyIndirect.lowestFree = some 7
      ∧ (({ readyIndirect with platAllocs := [none] } : State).platAlloc (16 * twoSegs.length)).1 = none := by
  decide +kernel

/-- One segment, and a chain that takes every free descriptor; F_INDIRECT not negotiated, and negotiated with IND_THRESH
segments. -/
theorem witness_SubmitDirectPublishesChain :
    ready.safe = true ∧ ready.gaps = [] ∧ ready.segsOk twoSegs = true ∧ ready.segsOk [⟨0x80000003, 2048⟩] = true
      ∧ ready.negotiated.getLsbD ready.cfg.fIndirect = false ∧ twoSegs.length ≤ (ready.queue .q1).free.length
      ∧ readyIndirect.safe = true ∧ readyIndirect.gaps = [] ∧ readyIndirect.segsOk [⟨5, 14⟩] = true
      ∧ [(⟨5, 14⟩ : Seg)].length ≤ readyIndirect.cfg.indThresh ∧ [(⟨5, 14⟩ : Seg)].length ≤ (readyIndirect.queue .q1).free.length
      ∧ completed.segsOk [⟨0x80000004, 1⟩, ⟨0x80000003, 2048⟩] = true
      ∧ [(⟨0x80000004, 1⟩ : Seg), ⟨0x80000003, 2048⟩].length = (completed.queue .q1).free.length := by
  decide +kernel

/-- IND_THRESH + 1 segments. -/
theorem witness_SubmitIndirectUsesTable :
    readyIndirect.safe = true ∧ readyIndirect.gaps = [] ∧ readyIndirect.fsm = .driverReady
      ∧ Role.q1 ≠ readyIndirect.cfg.qCtrl ∧ readyIndirect.segsOk twoSegs = true ∧ (readyIndirect.queue .q1).lock = none
      ∧ (readyIndirect.queue .q1).broken = false
      ∧ readyIndirect.negotiated.getLsbD readyIndirect.cfg.fIndirect = true
      ∧ readyIndirect.cfg.indThresh < twoSegs.length ∧ twoSegs.length = readyIndirect.cfg.indThresh + 1
      ∧ (readyIndirect.queue .q1).free.head? = some 0
      ∧ readyIndirect.lowestFree = some 7 ∧ (readyIndirect.platAlloc (16 * twoSegs.length)).1 = some 0x1A000 := by
  decide +kernel

/-- The hint clear, and set; direct, and indirect. -/
theorem witness_PublishOrdersIndexLast :
    ready.safe = true ∧ ready.readLe (usedFlagsAddr 0x12000 4) 2 = some 0 ∧ (ready.queue .q1).lock = none
      ∧ goesIndirect ready twoSegs.length = false ∧ descsNeeded ready twoSegs.length ≤ (ready.queue .q1).free.length
      ∧ ({ ready with mem := [(0x13000, 1)] } : State).safe = true
      ∧ ({ ready with mem := [(0x13000, 1)] } : State).readLe (usedFlagsAddr 0x12000 4) 2 = some 1
      ∧ readyIndirect.safe = true ∧ readyIndirect.readLe (usedFlagsAddr 0x12000 4) 2 = some 0
      ∧ goesIndirect readyIndirect twoSegs.length = true
      ∧ descsNeeded readyIndirect twoSegs.length ≤ (readyIndirect.queue .q1).free.length
      ∧ readyIndirect.lowestFree = some 7 ∧ (readyIndirect.platAlloc (16 * twoSegs.length)).1 = some 0x1A000 := by
  decide +kernel

/-- A broken queue; `S = last_used`; `S` ahead by N + 1 = 5, the least that is too much. -/
theorem witness_DrainComparesIndicesModulo :
    (ready.queue .q1).valid = true ∧ (ready.queue .q1).lock = none ∧ ready.gaps = [] ∧ ready.wbuf = []
      ∧ ({ ready.queue .q1 with broken := true } : Queue).broken = true
      ∧ ready.readLe (usedIdxAddr 0x12000 4) 2 = some 0 ∧ BitVec.ofNat 16 0 = (ready.queue .q1).lastUsed
      ∧ ({ ready with mem := [(0x13002, 5)] } : State).readLe (usedIdxAddr 0x12000 4) 2 = some 5
      ∧ (ready.queue .q1).n.toNat < (BitVec.ofNat 16 5 - (ready.queue .q1).lastUsed).toNat := by
  decide +kernel

/-! What a drain finds: small lemmas for lists of no, one or two chains. -/

theorem chainsCompleted_nil (s : State) (q : Role) : ChainsCompleted s q [] :=
  ⟨List.nodup_nil, fun j c h => by simp at h⟩

/-- What `ChainsCompleted` asks of the chain at position `j`. -/
def CompletedAt (s : State) (q : Role) (j : Nat) (c : DoneChain) : Prop :=
  UsedElement s q j c.id.toNat c.len ∧ MembersFrom s q c.id c.order
    ∧ c.order.length = ((s.queue q).descAt c.id).chainLen.toNat
    ∧ LinkedInMemory s (s.queue q).base.toNat c.order
    ∧ ∃ d, c.order.getLast? = some d ∧ ChainedIs s (s.queue q).base.toNat d false

theorem chainsCompleted_one {s : State} {q : Role} {c : DoneChain} (h : CompletedAt s q 0 c) : ChainsCompleted s q [c] :=
  ⟨by simp, fun j e he => by
    cases j with
    | zero =>
      cases he
      exact h
    | succ j => simp at he⟩

theorem chainsCompleted_two {s : State} {q : Role} {c d : DoneChain} (hn : c.id ≠ d.id) (hc : CompletedAt s q 0 c)
    (hd : CompletedAt s q 1 d) : ChainsCompleted s q [c, d] :=
  ⟨by simp [hn], fun j e he => by
    match j with
    | 0 =>
      cases he
      exact hc
    | 1 =>
      cases he
      exact hd
    | j + 2 => simp at he⟩

/-- A chain of one descriptor. -/
theorem completedAt_single {s : State} {q : Role} {j len : Nat} {d : DescIdx} (h : UsedElement s q j d.toNat len)
    (hm : d.toNat < (s.queue q).n.toNat ∧ (s.queue q).tagAt d = .submitted d)
    (hl : ((s.queue q).descAt d).chainLen = 1) (hf : ChainedIs s (s.queue q).base.toNat d false) :
    CompletedAt s q j { id := d, order := [d], len := len } :=
  ⟨h, ⟨rfl, by simp, fun e he => by
    cases List.mem_singleton.1 he
    exact hm⟩, by rw [hl]; rfl, trivial, d, rfl, hf⟩

/-- The members of the chain of `completed`. -/
theorem completed_members (s : State) (h : s.queues = completed.queues) : MembersFrom s .q1 0 [0, 1] := by
  refine ⟨rfl, by decide, fun d hd => ?_⟩
  have hq : s.queue .q1 = completed.queue .q1 := congrArg (fun x => PerRole.get x .q1) h
  rw [hq]
  obtain rfl | rfl : d = 0 ∨ d = 1 := by simpa using hd
  · decide +kernel
  · decide +kernel

/-- Its head alone. -/
theorem completed_head (s : State) (h : s.queues = completed.queues) : MembersFrom s .q1 0 [0] :=
  ⟨rfl, by decide, fun d hd => (completed_members s h).2.2 d (by
    cases List.mem_singleton.1 hd
    decide)⟩

/-- The chain of `completed` (95 B6), whatever the used index. -/
theorem completed_chain (s : State) (h : s.queues = completed.queues) (hu : UsedElement s .q1 0 0 0)
    (h0 : s.readLe 0x1200C 2 = some 1) (h1 : s.readLe 0x1200E 2 = some 1) (h2 : s.readLe 0x1201C 2 = some 0)
    (hc : s.cfg.dfChained = 1) : CompletedAt s .q1 0 { id := 0, order := [0, 1], len := 0 } := by
  have hq : s.queue .q1 = completed.queue .q1 := congrArg (fun x => PerRole.get x .q1) h
  refine ⟨hu, completed_members s h, ?_, ?_, 1, rfl, ?_⟩
  · rw [hq]
    decide +kernel
  · rw [hq]
    exact ⟨⟨1, h0, by rw [hc]; decide⟩, h1, trivial⟩
  · rw [hq]
    exact ⟨0, h2, by rw [hc]; decide⟩

/-- 95 B6: no chain, the chain of two segments, two chains in another order than submitted, a chain with a table. -/
theorem witness_DrainReturnsCompletedChains :
    (ready.safe = true ∧ (ready.queue .q1).lock = none ∧ DrainFinds ready .q1 [] [] false)
      ∧ (completed.safe = true ∧ completed.gaps = [] ∧ (completed.queue .q1).valid = true
        ∧ (completed.queue .q1).broken = false ∧ (completed.queue .q1).lock = none
        ∧ DrainFinds completed .q1 [⟨0, [0, 1], 0⟩] [] false)
      ∧ (twoChains.safe = true ∧ twoChains.gaps = [] ∧ (twoChains.queue .q0).lock = none
        ∧ DrainFinds twoChains .q0 [⟨1, [1], 0x4A⟩, ⟨0, [0], 0x40⟩] [] false)
      ∧ (tableChain.safe = true ∧ tableChain.gaps = [] ∧ (tableChain.queue .q1).lock = none
        ∧ ((tableChain.queue .q1).descAt 0).ind = some 7 ∧ DrainFinds tableChain .q1 [⟨0, [0], 0⟩] [] false) := by
  refine ⟨⟨by decide +kernel, rfl, chainsCompleted_nil _ _, 0, by decide +kernel, by decide +kernel, rfl⟩,
    ⟨by decide +kernel, rfl, rfl, rfl, rfl, chainsCompleted_one ?_, 1, by decide +kernel, by decide +kernel, rfl⟩,
    ⟨by decide +kernel, rfl, rfl, chainsCompleted_two (by decide) ?_ ?_, 2, by decide +kernel, by decide +kernel, rfl⟩,
    ⟨by decide +kernel, rfl, rfl, rfl, chainsCompleted_one ?_, 1, by decide +kernel, by decide +kernel, rfl⟩⟩
  · exact completed_chain _ rfl ⟨by decide +kernel, by decide +kernel⟩ (by decide +kernel) (by decide +kernel) (by decide +kernel) rfl
  · exact completedAt_single ⟨by decide +kernel, by decide +kernel⟩ (by decide +kernel) rfl ⟨0, by decide +kernel, by decide⟩
  · exact completedAt_single ⟨by decide +kernel, by decide +kernel⟩ (by decide +kernel) rfl ⟨0, by decide +kernel, by decide⟩
  · exact completedAt_single ⟨by decide +kernel, by decide +kernel⟩ (by decide +kernel) rfl ⟨0, by decide +kernel, by decide⟩

/-- `completed` with other bytes in memory (95 B7). -/
def withBytes (cells : List (Nat × Byte)) : State :=
  let put := fun (m : Memory) (c : Nat × Byte) => if c.2 = 0 then m.eraseRange c.1 (c.1 + 1) else m.put c.1 c.2
  { completed with mem := cells.foldl put completed.mem }

/-- 95 B7: an index ahead by N + 1; `id` = N, the first out of range; a member that is no head; a free descriptor. -/
theorem witness_DrainStopsAtCorruption_ids :
    ((withBytes [(0x13002, 5)]).safe = true ∧ DrainFinds (withBytes [(0x13002, 5)]) .q1 [] [] true)
      ∧ ((withBytes [(0x13004, 4)]).safe = true ∧ DrainFinds (withBytes [(0x13004, 4)]) .q1 [] [] true)
      ∧ ((withBytes [(0x13004, 1)]).safe = true ∧ DrainFinds (withBytes [(0x13004, 1)]) .q1 [] [] true)
      ∧ ((withBytes [(0x13004, 2)]).safe = true ∧ DrainFinds (withBytes [(0x13004, 2)]) .q1 [] [] true) := by
  refine ⟨⟨by decide +kernel, chainsCompleted_nil _ _, 5, by decide +kernel, .inl ⟨by decide +kernel, rfl, rfl⟩⟩,
    ⟨by decide +kernel, chainsCompleted_nil _ _, 1, by decide +kernel, .inr ⟨by decide +kernel, by decide +kernel,
      4, 0, ⟨by decide +kernel, by decide +kernel⟩, .inl ⟨rfl, .inl (by decide +kernel)⟩⟩⟩,
    ⟨by decide +kernel, chainsCompleted_nil _ _, 1, by decide +kernel, .inr ⟨by decide +kernel, by decide +kernel,
      1, 0, ⟨by decide +kernel, by decide +kernel⟩, .inl ⟨rfl, .inr (.inl (by decide +kernel))⟩⟩⟩,
    ⟨by decide +kernel, chainsCompleted_nil _ _, 1, by decide +kernel, .inr ⟨by decide +kernel, by decide +kernel,
      2, 0, ⟨by decide +kernel, by decide +kernel⟩, .inl ⟨rfl, .inr (.inl (by decide +kernel))⟩⟩⟩⟩

/-- 95 B7: a chain reported twice: it is drained, and returned with the error. -/
theorem witness_DrainStopsAtCorruption_twice :
    (withBytes [(0x13002, 2)]).safe = true ∧ DrainFinds (withBytes [(0x13002, 2)]) .q1 [⟨0, [0, 1], 0⟩] [] true :=
  ⟨by decide +kernel,
    chainsCompleted_one (completed_chain _ rfl ⟨by decide +kernel, by decide +kernel⟩ (by decide +kernel) (by decide +kernel)
      (by decide +kernel) rfl), 2, by decide +kernel, .inr ⟨by decide +kernel, by decide +kernel, 0, 0,
      ⟨by decide +kernel, by decide +kernel⟩,
      .inl ⟨rfl, .inr (.inr ⟨⟨0, [0, 1], 0⟩, by simp, rfl⟩)⟩⟩⟩

/-- 95 B7: a link to N, the first index out of range; to a free descriptor; back to the head; and a chain cut short. -/
theorem witness_DrainStopsAtCorruption_links :
    ((withBytes [(0x1200E, 4)]).safe = true ∧ DrainFinds (withBytes [(0x1200E, 4)]) .q1 [] [0] true)
      ∧ ((withBytes [(0x1200E, 3)]).safe = true ∧ DrainFinds (withBytes [(0x1200E, 3)]) .q1 [] [0] true)
      ∧ ((withBytes [(0x1200E, 0)]).safe = true ∧ DrainFinds (withBytes [(0x1200E, 0)]) .q1 [] [0] true)
      ∧ ((withBytes [(0x1200C, 0)]).safe = true ∧ DrainFinds (withBytes [(0x1200C, 0)]) .q1 [] [0] true) := by
  refine ⟨⟨by decide +kernel, chainsCompleted_nil _ _, 1, by decide +kernel, .inr ⟨by decide +kernel, by decide +kernel,
      0, 0, ⟨by decide +kernel, by decide +kernel⟩, .inr ⟨by decide +kernel, by simp, completed_head _ rfl, trivial, 0, rfl, .inr
        ⟨⟨1, by decide +kernel, by decide +kernel⟩, 4, by decide +kernel, .inl (by decide +kernel)⟩⟩⟩⟩,
    ⟨by decide +kernel, chainsCompleted_nil _ _, 1, by decide +kernel, .inr ⟨by decide +kernel, by decide +kernel,
      0, 0, ⟨by decide +kernel, by decide +kernel⟩, .inr ⟨by decide +kernel, by simp, completed_head _ rfl, trivial, 0, rfl, .inr
        ⟨⟨1, by decide +kernel, by decide +kernel⟩, 3, by decide +kernel, .inr (.inl (by decide +kernel))⟩⟩⟩⟩,
    ⟨by decide +kernel, chainsCompleted_nil _ _, 1, by decide +kernel, .inr ⟨by decide +kernel, by decide +kernel,
      0, 0, ⟨by decide +kernel, by decide +kernel⟩, .inr ⟨by decide +kernel, by simp, completed_head _ rfl, trivial, 0, rfl, .inr
        ⟨⟨1, by decide +kernel, by decide +kernel⟩, 0, by decide +kernel, .inr (.inr (by simp))⟩⟩⟩⟩,
    ⟨by decide +kernel, chainsCompleted_nil _ _, 1, by decide +kernel, .inr ⟨by decide +kernel, by decide +kernel,
      0, 0, ⟨by decide +kernel, by decide +kernel⟩, .inr ⟨by decide +kernel, by simp, completed_head _ rfl, trivial, 0, rfl, .inl
        ⟨⟨0, by decide +kernel, by decide +kernel⟩, by decide +kernel⟩⟩⟩⟩⟩

/-! ## Witnesses: bring-up -/

theorem witness_BringUpOutOfOrderRefused :
    mapped.fsm ≠ .detached ∧ (detachedQueue.queue .q1).valid = true ∧ State.reset.fsm ≠ .reset
      ∧ mapped.fsm ≠ .acknowledged ∧ mapped.fsm ≠ .driverLoaded ∧ mapped.fsm ≠ .featuresOk ∧ irqState.irqEn = true
      ∧ (created.queue .q2).wired = false ∧ wiredState.irqEn = false ∧ State.reset.fsm = .detached
      ∧ ready.fsm ≠ .featuresOk ∧ mapped.fsm ≠ .driverReady ∧ created.fsm = .featuresOk
      ∧ (negotiatedState.queue .q0).valid = false ∧ (wiredState.queue .q0).wired = true := by
  decide +kernel

theorem witness_ResetMapsWindowsAndResetsDevice :
    ∃ s1 s2 : State, State.reset.cfg.wf = true ∧ State.reset.fsm = .detached
      ∧ (∀ q, (State.reset.queue q).valid = false)
      ∧ (newInstance { State.reset with platMaps := [true] }).platMap = (true, s1)
      ∧ cmdGap { s1 with winMapped := true, acq := .win :: s1.acq, stShadow := 0 } = .ok s2 ∧ s2.wbuf = [] :=
  ⟨_, _, by decide +kernel, rfl, fun q => by cases q <;> rfl, rfl, rfl, rfl⟩

theorem witness_MapFailureIsFatal :
    ∃ s1 : State, State.reset.fsm = .detached ∧ (∀ q, (State.reset.queue q).valid = false) ∧ State.reset.acq = []
      ∧ State.reset.winMapped = false ∧ (newInstance { State.reset with platMaps := [false] }).platMap = (false, s1) :=
  ⟨_, rfl, fun q => by cases q <;> rfl, rfl, rfl, rfl⟩

theorem witness_AckSetsAckBit :
    mapped.cfg.wf = true ∧ mapped.fsm = .reset ∧ mapped.gaps = [] ∧ mapped.wbuf = []
      ∧ mapped.dev.vendor = mapped.cfg.expVendor ∧ mapped.dev.device = mapped.cfg.expDevice
      ∧ mapped.dev.revision = mapped.cfg.expRevision := by
  decide +kernel

theorem witness_WrongIdentifierIsFatal :
    mapped.fsm = .reset ∧ mapped.acq = [.win] ∧ mapped.gaps = []
      ∧ ({ mapped.dev with vendor := 0 } : Device).vendor ≠ mapped.cfg.expVendor
      ∧ ({ mapped.dev with device := 0x1001 } : Device).device ≠ mapped.cfg.expDevice
      ∧ ({ mapped.dev with revision := 1 } : Device).revision ≠ mapped.cfg.expRevision := by
  decide +kernel

/-- Legal sizes, and one that is not. -/
theorem witness_DriverReadsSizesThenFeatures :
    acked.cfg.wf = true ∧ acked.fsm = .acknowledged ∧ acked.gaps = [] ∧ acked.wbuf = [] ∧ acked.acq = [.win]
      ∧ acked.winMapped = true ∧ acked.dev.dsize.all queueSizeOk = true
      ∧ ({ acked.dev with dsize := ⟨256, 0, 64⟩ } : Device).dsize.all queueSizeOk = false := by
  decide +kernel

theorem witness_FeaturesAreBitwiseAnd :
    loaded.cfg.wf = true ∧ loaded.fsm = .driverLoaded ∧ loaded.offered &&& loaded.cfg.driverSupported ≠ 0
      ∧ loaded.gaps = [] := by
  decide +kernel

theorem witness_EmptyFeaturesAreFatal :
    loaded.cfg.wf = true ∧ loaded.fsm = .driverLoaded ∧ loaded.acq = [.win] ∧ loaded.winMapped = true
      ∧ loaded.gaps = [] ∧ loaded.wbuf = []
      ∧ ({ loaded with offered := 0x10000000 } : State).offered &&& loaded.cfg.driverSupported = 0 := by
  decide +kernel

theorem witness_QwireTellsDeviceTheRegion :
    created.cfg.wf = true ∧ created.fsm = .featuresOk ∧ (created.queue .q1).valid = true
      ∧ (created.queue .q1).wired = false ∧ created.qsize.get .q1 ≠ 0 ∧ created.gaps = [] ∧ created.wbuf = []
      ∧ (created.queue .q1).base.toNat < 2 ^ 44 := by
  decide +kernel

/-- Legal; and refused: another state, the handler registered already, a queue not wired. -/
theorem witness_IrqRegistersHandler :
    wiredState.fsm = .featuresOk ∧ wiredState.irqEn = false ∧ (∀ q, (wiredState.queue q).wired = true)
      ∧ ready.fsm ≠ .featuresOk ∧ irqState.irqEn = true ∧ (created.queue .q2).wired = false :=
  ⟨rfl, rfl, fun q => by cases q <;> rfl, by decide, rfl, rfl⟩

theorem witness_OkSetsDriverOk :
    irqState.cfg.wf = true ∧ irqState.fsm = .featuresOk ∧ irqState.irqEn = true ∧ irqState.gaps = []
      ∧ (∀ q, (irqState.queue q).wired = true) :=
  ⟨by decide +kernel, rfl, rfl, rfl, fun q => by cases q <;> rfl⟩

/-- The feature not negotiated, and negotiated. -/
theorem witness_LinkStateReadsOnlyIfNegotiated :
    ready.fsm = .driverReady ∧ negotiatedState.fsm = .featuresOk
      ∧ ready.negotiated.getLsbD ready.cfg.fStatus = false
      ∧ ({ ready with negotiated := 0x00030020 } : State).negotiated.getLsbD ready.cfg.fStatus = true
      ∧ ready.gaps = [] ∧ ready.dev.win1Open = false
      ∧ ({ ready with dev := { ready.dev with win1Open := true } } : State).dev.win1Open = true := by
  decide +kernel

/-- The states in which the mask, and the sizes, are 0. -/
theorem witness_PropertiesAnswerEverywhere :
    State.reset.bringUpOk = true ∧ mapped.bringUpOk = true ∧ acked.bringUpOk = true ∧ loaded.bringUpOk = true
      ∧ State.reset.fsm = .detached ∧ mapped.fsm = .reset ∧ acked.fsm = .acknowledged ∧ loaded.fsm = .driverLoaded := by
  decide +kernel

/-- A loaned, an internal, an owned and a free slot; a delivery in progress. -/
theorem witness_FailReleasesEverything :
    completed.safe = true ∧ completed.gaps = [] ∧ completed.disp = .idle ∧ completed.fsm ≠ .detached
      ∧ completed.fsm ≠ .failed ∧ (completed.slot 5).state = .loaned ∧ (completed.slot 0).state = .internal
      ∧ (completed.slot 3).state = .owned ∧ (completed.slot 7).state = .free
      ∧ reclaimed.safe = true ∧ reclaimed.gaps = [] ∧ reclaimed.fsm ≠ .detached ∧ reclaimed.fsm ≠ .failed
      ∧ reclaimed.disp = .walk ∧ (reclaimed.slot 4).state = .loaned := by
  decide +kernel

/-- PLAT has no memory; every slot is taken. -/
theorem witness_CreateWithoutMemoryInBringUpIsFatal :
    (∃ s1, negotiatedState.safe = true ∧ negotiatedState.gaps = [] ∧ negotiatedState.fsm = .featuresOk
        ∧ (negotiatedState.queue .q1).valid = false ∧ negotiatedState.lowestFree = some 0
        ∧ ({ negotiatedState with platAllocs := [none] } : State).platAlloc
            (regionBytes (negotiatedState.qsize.get .q1).toNat) = (none, s1))
      ∧ ({ negotiatedState with pool := allTaken } : State).safe = true
      ∧ ({ negotiatedState with pool := allTaken } : State).lowestFree = none := by
  refine ⟨⟨_, by decide +kernel, rfl, rfl, rfl, by decide +kernel, rfl⟩, by decide +kernel, by decide +kernel⟩

/-- Mapped and ready, with a delivery in progress, and FAILED with the windows unmapped. -/
theorem witness_DetachTearsEverythingDown :
    completed.safe = true ∧ completed.gaps = [] ∧ completed.fsm ≠ .detached ∧ completed.winMapped = true
      ∧ (draining completed .q1 ⟨[], .start⟩).safe = true ∧ (draining completed .q1 ⟨[], .start⟩).gaps = []
      ∧ reclaimed.safe = true ∧ reclaimed.gaps = [] ∧ (reclaimed.slot 4).state = .loaned ∧ (reclaimed.slot 5).state = .owned
      ∧ ({ State.reset with fsm := .failed, errLatch := 10 } : State).safe = true
      ∧ ({ State.reset with fsm := .failed, errLatch := 10 } : State).winMapped = false := by
  decide +kernel

/-! ## Witnesses: dispatcher -/

theorem witness_DeliveryAcceptedWhenIdle :
    ({ ready with turns := [.act .irqPulse] } : State).turns = .act .irqPulse :: [] ∧ ready.irqEn = true
      ∧ ready.disp = .idle ∧ State.reset.irqEn = false ∧ (walking ready .q0 0).disp ≠ .idle ∧ ready.bringUpOk = true := by
  decide +kernel

theorem witness_IsrIsReadOnce :
    ready.cfg.wf = true ∧ ({ ready with disp := .isr, turns := [.act .disp] } : State).turns = .act .disp :: []
      ∧ ({ ready with disp := .isr, turns := [.act .disp] } : State).disp = .isr := by
  decide +kernel

/-- No cause and a cause, on entry; a queue that is broken or absent, at each role; a queue to drain, its lock CMD's; the
last step of a drain of the receive queue, and of another. -/
theorem witness_WalkTakesSingleSteps :
    (walking ready .q0 0x80).turns = .act .disp :: [] ∧ (walking ready .q0 0x80).disp = .walk
      ∧ (walking ready .q0 0x80).isrLat &&& ready.cfg.isrQueueUpdate = 0
      ∧ ({ walking ready .q0 0x80 with walk := .enter } : State).walk = .enter ∧ (walking ready .q0 0x80).walk = .test
      ∧ (walking ready .q2 0xFD).isrLat &&& ready.cfg.isrQueueUpdate ≠ 0
      ∧ (walking ready .q1 0x01).dq = .q1 ∧ (walking ready .q2 0xFD).dq = .q2 ∧ (walking ready .q0 0x01).dq = .q0
      ∧ (ready.queue .q1).valid = true ∧ (ready.queue .q1).broken = false
      ∧ ({ ready.queue .q1 with broken := true } : Queue).broken = true ∧ (State.reset.queue .q1).valid = false
      ∧ ({ ready.queue .q1 with lock := some .cmd } : Queue).lock ≠ none
      ∧ reclaimed.turns = .act .disp :: [] ∧ reclaimed.disp = .walk ∧ reclaimed.safe = true
      ∧ reclaimed.walk = .drain ⟨[⟨4, 0x4A, [4]⟩], .unlend ⟨0, 0, 0x40, [0], 0⟩ []⟩
      ∧ reclaimed.dq = reclaimed.cfg.qRx ∧ (otherRoles reclaimed).safe = true
      ∧ (otherRoles reclaimed).dq ≠ (otherRoles reclaimed).cfg.qRx
      ∧ (match drainStep dispCtx .q0 ⟨[⟨4, 0x4A, [4]⟩], .unlend ⟨0, 0, 0x40, [0], 0⟩ []⟩ { reclaimed with turns := [] } with
        | .ok (r, _) => r == ⟨[⟨4, 0x4A, [4]⟩, ⟨3, 0x40, [3]⟩], .finished false⟩
        | .error _ => false) = true := by
  decide +kernel

/-- What memory and the queues say does not depend on where the dispatcher stands. -/
theorem drainFinds_walking {s : State} {r q : Role} {isr : BitVec 8} {chains : List DoneChain} {visited : List DescIdx}
    {corrupt : Bool} (h : DrainFinds s q chains visited corrupt) :
    DrainFinds (walking s r isr) q chains visited corrupt := by
  have hr : ∀ n a, (walking s r isr).readLe a n = s.readLe a n := by
    intro n
    induction n with
    | zero => exact fun _ => rfl
    | succ n ih =>
      intro a
      simp only [State.readLe, ih]
      rfl
  have hc : ∀ b d c, ChainedIs (walking s r isr) b d c ↔ ChainedIs s b d c := by
    intro b d c
    simp only [ChainedIs, hr]
    rfl
  have hl : ∀ b ds, LinkedInMemory (walking s r isr) b ds ↔ LinkedInMemory s b ds := by
    intro b ds
    induction ds with
    | nil => exact Iff.rfl
    | cons d ds ih =>
      cases ds with
      | nil => exact Iff.rfl
      | cons e ds => simp only [LinkedInMemory, hc, hr, ih]
  simp only [DrainFinds, ChainsCompleted, ElementCorrupt, UsedElement, hr, hc, hl] at h ⊢
  exact h

/-- A transmit chain of two segments, two receive chains, a chain with a table, a chain reported twice. -/
theorem witness_WalkReportsDrainedChains :
    ((walking completed .q1 1).safe = true ∧ DrainFinds (walking completed .q1 1) .q1 [⟨0, [0, 1], 0⟩] [] false)
      ∧ ((walking twoChains .q0 3).safe = true
        ∧ DrainFinds (walking twoChains .q0 3) .q0 [⟨1, [1], 0x4A⟩, ⟨0, [0], 0x40⟩] [] false)
      ∧ ((walking tableChain .q1 1).safe = true ∧ DrainFinds (walking tableChain .q1 1) .q1 [⟨0, [0], 0⟩] [] false)
      ∧ ((walking (withBytes [(0x13002, 2)]) .q1 1).safe = true
        ∧ DrainFinds (walking (withBytes [(0x13002, 2)]) .q1 1) .q1 [⟨0, [0, 1], 0⟩] [] true)
      ∧ (walking completed .q1 1).disp = .walk ∧ (walking completed .q1 1).walk = .test
      ∧ (walking completed .q1 1).dq = .q1 ∧ ((walking completed .q1 1).queue .q1).valid = true := by
  obtain ⟨-, ⟨-, -, -, -, -, h1⟩, ⟨-, -, -, h2⟩, -, -, -, -, h3⟩ := witness_DrainReturnsCompletedChains
  exact ⟨⟨by decide +kernel, drainFinds_walking h1⟩, ⟨by decide +kernel, drainFinds_walking h2⟩,
    ⟨by decide +kernel, drainFinds_walking h3⟩,
    ⟨by decide +kernel, drainFinds_walking witness_DrainStopsAtCorruption_twice.2⟩, rfl, rfl, rfl, rfl⟩

/-- D_CONFIG without and with the cause, the feature not negotiated and negotiated; D_RET. -/
theorem witness_ConfigAndReturnEvents :
    ({ walking ready .q0 1 with disp := .config } : State).turns = .act .disp :: []
      ∧ (1 : BitVec 8) &&& ready.cfg.isrConfigChange = 0 ∧ (2 : BitVec 8) &&& ready.cfg.isrConfigChange ≠ 0
      ∧ ready.negotiated.getLsbD ready.cfg.fStatus = false
      ∧ (0x00030020 : BitVec 32).getLsbD ready.cfg.fStatus = true ∧ ready.dev.win1Open = false := by
  decide +kernel

/-! ## Witnesses: invariants -/

/-- For StepKeepsMemoryCanonical, StepKeepsBringUpInOrder, StepKeepsSafe and SafeStateNeverStops. -/
theorem witness_StepKeeps :
    ready.safe = true ∧ ready.memCanonical = true ∧ ready.cfg.wf = true ∧ ready.bringUpOk = true
      ∧ State.reset.safe = true := by
  decide +kernel

theorem witness_LocksAreGivenBackAndWaitedFor :
    ready.locksOk = true ∧ ready.storesSettled = true ∧ (draining completed .q1 ⟨[], .start⟩).safe = true
      ∧ (draining completed .q1 ⟨[], .start⟩).fsm = .driverReady
      ∧ Role.q1 ≠ (draining completed .q1 ⟨[], .start⟩).cfg.qCtrl
      ∧ (draining completed .q1 ⟨[], .start⟩).gaps = []
      ∧ ((draining completed .q1 ⟨[], .start⟩).queue .q1).lock = some .disp
      ∧ (draining completed .q1 ⟨[], .start⟩).segsOk [⟨0x80000003, 2048⟩] = true := by
  decide +kernel

/-- A step from such a state exists: a submission, a step of the dispatcher's drain. -/
theorem witness_StepKeeps_next :
    after (step { ready with cmdPort := encode (.vqSubmit .q1 twoSegs) }) (fun t => t.safe) = true
      ∧ after (step (draining completed .q1 ⟨[], .start⟩)) (fun t => t.safe) = true := by
  decide +kernel

end Sys2Proof.Tests
end

namespace Sys2Proof.Machine

/-! ## Whose turn it is (00 R10, log 1) -/

theorem State.frameReady_of_decode_instr {s : State} {i : Instr} {rest : List Word}
    (h : decode s.cmdPort = .instr i rest) : s.frameReady = true := by
  simp only [State.frameReady, h]

theorem State.nextTurn_of_turns_cons {s : State} {t : Turn} {ts : List Turn} (h : s.turns = t :: ts) :
    s.nextTurn = (t, { s with turns := ts }) := by
  simp only [State.nextTurn, h]

theorem State.nextTurn_of_frameReady {s : State} (hturns : s.turns = []) (hready : s.frameReady = true) :
    s.nextTurn = (.cmd, s) := by
  simp only [State.nextTurn, hturns, hready, Bool.true_or, if_true]

/-! ## What a turn is -/

theorem cmdTurn_of_decode_instr {s : State} {i : Instr} {rest : List Word} (h : decode s.cmdPort = .instr i rest) :
    cmdTurn s = exec i { s with cmdPort := rest } := by
  simp only [cmdTurn, h]

theorem agentTurn_disp (s : State) : agentTurn .disp s = finish (dispTurn s) := rfl

theorem agentTurn_of_ne_disp {a : Act} (h : a ≠ .disp) (s : State) : agentTurn a s = .next (s.external a) := by
  cases a with
  | disp => exact absurd rfl h
  | _ => rfl

theorem step_of_nextTurn_cmd {s t : State} (h : s.nextTurn = (.cmd, t)) : step s = cmdTurn t := by
  simp only [step, h]

theorem step_of_nextTurn_act {s t : State} {a : Act} (h : s.nextTurn = (.act a, t)) : step s = agentTurn a t := by
  simp only [step, h]

/-- Settles O1: the turn at the head of the schedule, or CMD's for an empty schedule and a ready frame, decides the
step; the schedule is no part of what CMD decodes. -/
theorem stepRunsDecodedInstruction : Obligations.StepRunsDecodedInstruction := by
  intro s i rest hdecode
  refine ⟨fun hturns => ?noSchedule, fun ts hturns => ?scheduledCmd, fun a ts ha hturns => ?scheduledAct,
    fun ts hturns => ?scheduledDisp⟩
  case noSchedule =>
    have hnext := State.nextTurn_of_frameReady hturns (State.frameReady_of_decode_instr hdecode)
    rw [step_of_nextTurn_cmd hnext, cmdTurn_of_decode_instr hdecode]
  case scheduledCmd =>
    have hdecode' : decode ({ s with turns := ts } : State).cmdPort = .instr i rest := hdecode
    rw [step_of_nextTurn_cmd (State.nextTurn_of_turns_cons hturns), cmdTurn_of_decode_instr hdecode']
  case scheduledAct => rw [step_of_nextTurn_act (State.nextTurn_of_turns_cons hturns), agentTurn_of_ne_disp ha]
  case scheduledDisp => rw [step_of_nextTurn_act (State.nextTurn_of_turns_cons hturns), agentTurn_disp]

end Sys2Proof.Machine

namespace Sys2Proof.Machine

/-! ## What a computation that ends ensures -/

/-- Every result of the computation has the property; nothing is said of a computation that stops in a fault. -/
def Ensures {α : Type} (x : Except Fault α) (p : α → Prop) : Prop := ∀ a, x = .ok a → p a

theorem Ensures.ok {α : Type} {p : α → Prop} {a : α} (h : p a) : Ensures (.ok a) p := by
  rintro _ ⟨⟩
  exact h

theorem Ensures.error {α : Type} {p : α → Prop} (f : Fault) : Ensures (.error f) p := by
  rintro _ ⟨⟩

theorem Ensures.bind {α β : Type} {p : α → Prop} {q : β → Prop} {x : Except Fault α}
    {f : α → Except Fault β} (hx : Ensures x p) (hf : ∀ a, p a → Ensures (f a) q) : Ensures (x >>= f) q := by
  intro b hb
  obtain ⟨a, ha, hfa⟩ := bind_ok.1 hb
  exact hf a (hx a ha) b hfa

/-- Nothing need be known of a first computation whose result plays no part. -/
theorem Ensures.bind_any {α β : Type} {q : β → Prop} {x : Except Fault α} {f : α → Except Fault β}
    (hf : ∀ a, Ensures (f a) q) : Ensures (x >>= f) q :=
  Ensures.bind (p := fun _ => True) (fun _ _ => trivial) fun a _ => hf a

/-- Every next state of the outcome has the property. -/
def EnsuresNext (o : Host.Outcome State Fault Refusal) (p : State → Prop) : Prop := ∀ t, o = .next t → p t

theorem EnsuresNext.next {p : State → Prop} {t : State} (h : p t) : EnsuresNext (.next t) p := by
  rintro _ ⟨⟩
  exact h

theorem Ensures.finish {p : State → Prop} {x : Except Fault State} (h : Ensures x p) : EnsuresNext (finish x) p :=
  fun t ht => h t (finish_next.1 ht)

/-! ## The other agents keep memory canonical (10 R46) -/

theorem State.setDev_canonical {s : State} (hs : s.canonical) (d : Device) : (s.setDev d).canonical := hs

theorem State.devConsume_canonical {s : State} (hs : s.canonical) (q : Role) : (s.devConsume q).canonical := by
  unfold State.devConsume
  split
  · split
    · exact hs
    · dsimp only
      split
      · exact hs
      · unfold State.devConsumeEntry
        dsimp only
        split
        · exact hs
        · split <;> exact hs
  · exact hs

theorem State.devWrite_canonical {s : State} (hs : s.canonical) (k g off : Nat) (bs : List Byte) :
    (s.devWrite k g off bs).canonical := by
  unfold State.devWrite
  split
  · exact hs
  · split
    · exact hs
    · split
      · exact State.setDev_canonical (State.putBytes_canonical hs _ _) _
      · exact hs

theorem State.devComplete_canonical {s : State} (hs : s.canonical) (k : Nat) : (s.devComplete k).canonical := by
  unfold State.devComplete
  split
  · exact hs
  · split
    · exact State.setDev_canonical
        (State.putBytes_canonical (State.putBytes_canonical (State.putBytes_canonical hs _ _) _ _) _ _) _
    · exact hs

theorem State.devHint_canonical {s : State} (hs : s.canonical) (q : Role) (on : Bool) : (s.devHint q on).canonical := by
  unfold State.devHint
  dsimp only
  split
  · split
    · exact hs
    · exact State.setDev_canonical (State.putBytes_canonical hs _ _) _
  · exact hs

theorem State.external_canonical {s : State} (hs : s.canonical) (a : Act) : (s.external a).canonical := by
  cases a with
  | disp => exact hs
  | irqPulse =>
    show s.deliver.canonical
    unfold State.deliver
    split <;> exact hs
  | commit k => exact State.commitStore_canonical hs k
  | hostSend ws => exact hs
  | hostStore a bs =>
    show (s.hostStore a bs).canonical
    unfold State.hostStore
    split
    · exact State.putBytes_canonical hs a bs
    · exact hs
  | hostRead a n =>
    show (s.hostRead a n).canonical
    unfold State.hostRead
    split <;> exact hs
  | devStore a bs => exact State.putBytes_canonical hs a bs
  | devForge d => exact hs
  | devConsume q => exact State.devConsume_canonical hs q
  | devWrite k g off bs => exact State.devWrite_canonical hs k g off bs
  | devComplete k => exact State.devComplete_canonical hs k
  | devHint q on => exact State.devHint_canonical hs q on
  | devLink v => exact hs

theorem State.externals_canonical {s : State} (hs : s.canonical) (acts : List Act) : (s.externals acts).canonical := by
  induction acts generalizing s with
  | nil => exact hs
  | cons a rest ih => exact ih (State.external_canonical hs a)

theorem State.waitGap_canonical {s : State} (hs : s.canonical) : s.waitGap.canonical := by
  unfold State.waitGap
  split
  · exact hs
  · rename_i acts rest _
    exact State.externals_canonical (s := { s with gaps := rest }) hs acts

/-! ## An access keeps memory canonical when the gap before it does -/

/-- What happens before an access of this agent keeps memory canonical. -/
def Ctx.KeepsCanonical (c : Ctx) : Prop := ∀ s : State, s.canonical → Ensures (c.gap s) State.canonical

theorem dispCtx_keepsCanonical : dispCtx.KeepsCanonical := fun _ hs => .ok hs

theorem Ctx.drainStores_canonical (c : Ctx) {s : State} (hs : s.canonical) : (c.drainStores s).canonical := by
  unfold Ctx.drainStores
  split
  · exact State.settle_canonical hs
  · exact hs

theorem State.windowRead_canonical {s : State} (hs : s.canonical) (w : Win) (off n : Nat) :
    (s.windowRead w off n).2.canonical := by
  rw [State.windowRead_eq]
  exact hs

theorem State.windowWrite_canonical {s : State} (hs : s.canonical) (w : Win) (off : Nat) (bytes : List Byte) :
    (s.windowWrite w off bytes).canonical := by
  rw [State.windowWrite_eq]
  exact hs

section
variable {c : Ctx} (hc : c.KeepsCanonical) {s : State} (hs : s.canonical)
include hc hs

theorem regRead_canonical (w : Win) (off n : Nat) : Ensures (regRead c w off n s) (fun r => r.2.canonical) :=
  (hc s hs).bind fun _ h1 => .ok (State.windowRead_canonical (c.drainStores_canonical h1) w off n)

theorem regWrite_canonical (w : Win) (off n v : Nat) : Ensures (regWrite c w off n v s) State.canonical :=
  (hc s hs).bind fun _ h1 => .ok (State.windowWrite_canonical (c.drainStores_canonical h1) w off _)

theorem pciRead_canonical (r : PciReg) : Ensures (pciRead c r s) (fun r => r.2.canonical) :=
  (hc s hs).bind fun _ h1 => .ok h1

theorem memRead_canonical (a n : Nat) : Ensures (memRead c a n s) (fun r => r.2.canonical) :=
  (hc s hs).bind fun _ h1 => Ensures.bind_any fun _ => .ok h1

theorem memWrite_canonical (a n v : Nat) : Ensures (memWrite c a n v s) State.canonical :=
  (hc s hs).bind fun _ h1 => Ensures.bind_any fun _ => .ok h1

theorem fence_canonical : Ensures (fence c s) State.canonical :=
  (hc s hs).bind fun _ h1 => .ok (c.drainStores_canonical h1)

/-! ## A drain keeps memory canonical (41 R164, R165) -/

theorem drainStart_canonical (q : Role) : Ensures (drainStart c q s) (fun r => r.2.canonical) := by
  unfold drainStart
  split
  · exact .ok hs
  · refine (memRead_canonical hc hs _ _).bind fun _ h1 => (fence_canonical hc h1).bind fun _ h2 => ?_
    dsimp only
    split <;> exact .ok h2

theorem drainId_canonical (q : Role) (rest : Nat) : Ensures (drainId c q rest s) (fun r => r.2.canonical) :=
  (memRead_canonical hc hs _ _).bind fun _ h1 => .ok h1

theorem drainLength_canonical (q : Role) (rest id : Nat) :
    Ensures (drainLength c q rest id s) (fun r => r.2.canonical) := by
  refine (memRead_canonical hc hs _ _).bind fun _ h1 => ?_
  dsimp only
  split <;> exact .ok h1

theorem drainFlags_canonical (q : Role) (v : Visit) : Ensures (drainFlags c q v s) (fun r => r.2.canonical) := by
  refine (memRead_canonical hc (s := s.setQueue q _) hs _ _).bind fun _ h1 => ?_
  dsimp only
  split
  · exact .ok h1
  · split <;> exact .ok h1

theorem drainLink_canonical (q : Role) (v : Visit) : Ensures (drainLink c q v s) (fun r => r.2.canonical) := by
  refine (memRead_canonical hc hs _ _).bind fun _ h1 => ?_
  dsimp only
  split <;> exact .ok h1

omit hc in
theorem reclaim_canonical (q : Role) (id : DescIdx) (order : List DescIdx) : (reclaim q id order s).canonical := by
  unfold reclaim
  dsimp only
  split
  · exact poolFree_canonical (s := s.setQueue q _) hs _
  · exact hs

theorem drainStep_canonical (q : Role) (r : DrainRun) : Ensures (drainStep c q r s) (fun r => r.2.canonical) := by
  unfold drainStep
  split
  · exact (drainStart_canonical hc hs q).bind fun _ h1 => .ok h1
  · exact (drainId_canonical hc hs q _).bind fun _ h1 => .ok h1
  · exact (drainLength_canonical hc hs q _ _).bind fun _ h1 => .ok h1
  · exact (drainFlags_canonical hc hs q _).bind fun _ h1 => .ok h1
  · exact (drainLink_canonical hc hs q _).bind fun _ h1 => .ok h1
  · refine (hc s hs).bind fun _ h1 => ?_
    split
    · exact .ok (endLoan_canonical h1 _)
    · exact .ok (reclaim_canonical h1 q _ _)
  · exact .ok hs

theorem readLink_canonical : Ensures (readLink c s) (fun r => r.2.canonical) := by
  unfold readLink
  split
  · exact (regRead_canonical hc hs _ _ _).bind fun _ h1 => .ok h1
  · exact .ok hs

end

/-! ## The dispatcher keeps memory canonical (44) -/

theorem walkEnter_canonical {s : State} (hs : s.canonical) : (walkEnter s).canonical := by
  unfold walkEnter reportUnknown
  split <;> split <;> exact hs

theorem advanceWalk_canonical {s : State} (hs : s.canonical) : (advanceWalk s).canonical := by
  unfold advanceWalk
  split <;> exact hs

theorem walkTest_canonical {s : State} (hs : s.canonical) : (walkTest s).canonical := by
  unfold walkTest
  split
  · exact hs
  · exact advanceWalk_canonical hs

theorem walkLock_canonical {s : State} (hs : s.canonical) : (walkLock s).canonical := by
  unfold walkLock
  split <;> exact hs

theorem walkDrain_canonical {s : State} (hs : s.canonical) (r : DrainRun) :
    Ensures (walkDrain r s) State.canonical := by
  refine (drainStep_canonical dispCtx_keepsCanonical hs s.dq r).bind fun _ h1 => ?_
  dsimp only
  split
  · exact .ok (advanceWalk_canonical (handOver_canonical h1 _ _))
  · exact .ok h1

theorem dispWalk_canonical {s : State} (hs : s.canonical) : Ensures (dispWalk s) State.canonical := by
  unfold dispWalk
  split
  · exact .ok (walkEnter_canonical hs)
  · exact .ok (walkTest_canonical hs)
  · exact .ok (walkLock_canonical hs)
  · exact walkDrain_canonical hs _

theorem dispConfig_canonical {s : State} (hs : s.canonical) : Ensures (dispConfig s) State.canonical := by
  unfold dispConfig
  split
  · exact (readLink_canonical dispCtx_keepsCanonical hs).bind fun _ h1 => .ok h1
  · exact .ok hs

theorem dispTurn_canonical {s : State} (hs : s.canonical) : Ensures (dispTurn s) State.canonical := by
  unfold dispTurn
  split
  · exact .ok hs
  · exact (regRead_canonical dispCtx_keepsCanonical hs _ _ _).bind fun _ h1 => .ok h1
  · exact dispWalk_canonical hs
  · exact dispConfig_canonical hs
  · exact .ok hs

/-! ## Gaps, waits and locks keep memory canonical (20 R80, R84) -/

theorem cmdActs_canonical (acts : List Act) {s : State} (hs : s.canonical) :
    Ensures (cmdActs acts s) State.canonical := by
  induction acts generalizing s with
  | nil => exact .ok hs
  | cons a rest ih =>
    cases a with
    | disp => exact (dispTurn_canonical hs).bind fun _ h1 => ih h1
    | _ => exact ih (State.external_canonical hs _)

theorem cmdCtx_keepsCanonical : cmdCtx.KeepsCanonical := by
  intro s hs
  show Ensures (cmdGap s) State.canonical
  unfold cmdGap
  split
  · exact .ok hs
  · rename_i acts rest _
    exact cmdActs_canonical acts (s := { s with gaps := rest }) hs

theorem waitUntil_canonical {s : State} (hs : s.canonical) (p : State → Bool) (f : Fault) (n : Nat) :
    Ensures (waitUntil p f n s) State.canonical := by
  intro t ht
  exact (waitUntil_ok (r := fun s t => s.canonical → t.canonical) (fun _ h => h) (fun _ _ _ hst htu h => htu (hst h))
    (fun _ => State.waitGap_canonical) (fun _ _ hd h => dispTurn_canonical h _ hd) n ht).2 hs

theorem lock_canonical {s : State} (hs : s.canonical) (q : Role) : Ensures (lock q s) State.canonical :=
  (waitUntil_canonical hs _ _ _).bind fun _ h1 => .ok h1

/-! ## CMD's shared operations keep memory canonical -/

theorem drainRun_canonical (q : Role) (n : Nat) (r : DrainRun) {s : State} (hs : s.canonical) :
    Ensures (drainRun q n r s) (fun r => r.2.canonical) := by
  induction n generalizing r s with
  | zero => exact .error _
  | succ n ih =>
    rw [drainRun]
    split
    · exact .ok hs
    · exact (drainStep_canonical cmdCtx_keepsCanonical hs q r).bind fun _ h1 => ih _ h1

theorem drainList_canonical {s : State} (hs : s.canonical) (q : Role) :
    Ensures (drainList q s) (fun r => r.2.canonical) :=
  (lock_canonical hs q).bind fun _ h1 => (drainRun_canonical q _ _ h1).bind fun _ h2 => .ok h2

theorem freeQueue_canonical {s : State} (hs : s.canonical) (q : Role) (mode : FreeMode) :
    Ensures (freeQueue q mode s) State.canonical :=
  (lock_canonical hs q).bind fun _ h1 => .ok (poolFree_canonical (freeLents_canonical h1 q mode _) _)

theorem statusWrite_canonical {s : State} (hs : s.canonical) (bits : BitVec 8) :
    Ensures (statusWrite bits s) State.canonical :=
  regWrite_canonical cmdCtx_keepsCanonical (s := { s with stShadow := s.stShadow ||| bits }) hs _ _ _ _

theorem statusWrite0_canonical {s : State} (hs : s.canonical) : Ensures (statusWrite0 s) State.canonical :=
  (regWrite_canonical cmdCtx_keepsCanonical (s := { s with stShadow := 0 }) hs _ _ _ _).bind
    fun _ h1 => .ok (clearOrphans_canonical h1)

theorem releaseResource_canonical (r : Resource) {s : State} (hs : s.canonical) :
    Ensures (releaseResource r s) State.canonical := by
  cases r with
  | irq => exact waitUntil_canonical (s := { s with irqEn := false }) hs _ _ _
  | qr q => exact freeQueue_canonical hs q .orphan
  | win => exact .ok hs

theorem releaseAll_canonical (rs : List Resource) {s : State} (hs : s.canonical) :
    Ensures (releaseAll rs s) State.canonical := by
  induction rs generalizing s with
  | nil => exact .ok hs
  | cons r rest ih => exact (releaseResource_canonical r (s := { s with acq := rest }) hs).bind fun _ h1 => ih h1

theorem writeFailedBit_canonical (e : Err) {s : State} (hs : s.canonical) :
    Ensures (writeFailedBit e s) State.canonical := by
  unfold writeFailedBit
  split
  · exact statusWrite_canonical hs _
  · exact .ok hs

theorem failEntry_canonical (e : Err) {s : State} (hs : s.canonical) : Ensures (failEntry e s) State.canonical :=
  (writeFailedBit_canonical e hs).bind fun _ h1 => (releaseAll_canonical _ h1).bind fun _ h2 => .ok h2

theorem failWith_canonical (e : Err) {s : State} (hs : s.canonical) : Ensures (failWith e s) State.canonical :=
  (failEntry_canonical e hs).bind fun _ h1 => .ok h1

theorem detachQueue_canonical (q : Role) {s : State} (hs : s.canonical) :
    Ensures (detachQueue q s) State.canonical := by
  unfold detachQueue
  split
  · dsimp only
    split
    · exact freeQueue_canonical hs q .giveBack
    · exact (drainList_canonical hs q).bind fun _ h1 => freeQueue_canonical h1 q .giveBack
  · exact .ok hs

theorem detachQueues_canonical (qs : List Role) {s : State} (hs : s.canonical) :
    Ensures (detachQueues qs s) State.canonical := by
  induction qs generalizing s with
  | nil => exact .ok hs
  | cons q rest ih => exact (detachQueue_canonical q hs).bind fun _ h1 => ih h1

theorem detachDevice_canonical {s : State} (hs : s.canonical) : Ensures (detachDevice s) State.canonical := by
  refine (waitUntil_canonical (s := { s with irqEn := false }) hs _ _ _).bind fun s1 h1 => ?_
  dsimp only
  split
  · exact (statusWrite0_canonical h1).bind fun _ h2 => (detachQueues_canonical _ h2).bind fun _ h3 => .ok h3
  · exact (detachQueues_canonical _ h1).bind fun _ h3 => .ok h3

/-! ## The bring-up commands keep memory canonical (43) -/

theorem State.platMap_canonical {s : State} (hs : s.canonical) : s.platMap.2.canonical := by
  unfold State.platMap
  split <;> exact hs

theorem resetMapped_canonical {s : State} (hs : s.canonical) : Ensures (resetMapped s) State.canonical :=
  (statusWrite0_canonical (s := { s with winMapped := true, acq := .win :: s.acq }) hs).bind fun _ h1 => .ok h1

theorem execBuReset_canonical {s : State} (hs : s.canonical) : EnsuresNext (execBuReset s) State.canonical := by
  unfold execBuReset
  split
  · have hm : (newInstance s).platMap.2.canonical := State.platMap_canonical (s := newInstance s) hs
    dsimp only
    rw [choose_eq]
    refine Ensures.finish ?_
    split
    · exact resetMapped_canonical hm
    · exact failWith_canonical _ hm
  · exact .next hs

theorem execBuAck_canonical {s : State} (hs : s.canonical) : EnsuresNext (execBuAck s) State.canonical := by
  unfold execBuAck
  split
  · refine Ensures.finish <| (pciRead_canonical cmdCtx_keepsCanonical hs _).bind fun _ h1 =>
      (pciRead_canonical cmdCtx_keepsCanonical h1 _).bind fun _ h2 =>
        (pciRead_canonical cmdCtx_keepsCanonical h2 _).bind fun _ h3 => ?_
    dsimp only
    split
    · exact (statusWrite_canonical h3 _).bind fun _ h4 => .ok h4
    · exact failWith_canonical _ h3
  · exact .next hs

theorem readQueueSize_canonical {s : State} (hs : s.canonical) (q : Role) :
    Ensures (readQueueSize q s) State.canonical :=
  (regWrite_canonical cmdCtx_keepsCanonical hs _ _ _ _).bind fun _ h1 =>
    (regRead_canonical cmdCtx_keepsCanonical h1 _ _ _).bind fun _ h2 => .ok h2

theorem execBuDriver_canonical {s : State} (hs : s.canonical) : EnsuresNext (execBuDriver s) State.canonical := by
  unfold execBuDriver
  split
  · refine Ensures.finish <| (readQueueSize_canonical hs _).bind fun _ h1 => (readQueueSize_canonical h1 _).bind
      fun _ h2 => (readQueueSize_canonical h2 _).bind fun _ h3 =>
        (regRead_canonical cmdCtx_keepsCanonical h3 _ _ _).bind fun r h4 => ?_
    have h5 : State.canonical { r.2 with offered := BitVec.ofNat 32 r.1 } := h4
    dsimp only
    split
    · exact (statusWrite_canonical h5 _).bind fun _ h6 => .ok h6
    · exact failWith_canonical _ h5
  · exact .next hs

theorem execBuFeatures_canonical {s : State} (hs : s.canonical) : EnsuresNext (execBuFeatures s) State.canonical := by
  unfold execBuFeatures
  split
  · have hn : State.canonical { s with negotiated := negotiate s.offered s.cfg.driverSupported } := hs
    refine Ensures.finish ?_
    dsimp only
    split
    · exact failWith_canonical _ hn
    · exact (regWrite_canonical cmdCtx_keepsCanonical hn _ _ _ _).bind fun _ h1 => .ok h1
  · exact .next hs

theorem execBuQwire_canonical (q : Role) {s : State} (hs : s.canonical) :
    EnsuresNext (execBuQwire q s) State.canonical := by
  unfold execBuQwire
  split
  · split
    · exact .next hs
    · refine Ensures.finish ?_
      split
      · exact failWith_canonical _ hs
      · exact (regWrite_canonical cmdCtx_keepsCanonical hs _ _ _ _).bind fun _ h1 =>
          (regWrite_canonical cmdCtx_keepsCanonical h1 _ _ _ _).bind fun _ h2 => .ok h2
  · exact .next hs

theorem execBuIrq_canonical {s : State} (hs : s.canonical) : EnsuresNext (execBuIrq s) State.canonical := by
  unfold execBuIrq
  split <;> exact .next hs

theorem execBuOk_canonical {s : State} (hs : s.canonical) : EnsuresNext (execBuOk s) State.canonical := by
  unfold execBuOk
  split
  · exact Ensures.finish ((statusWrite_canonical hs _).bind fun _ h1 => .ok h1)
  · exact .next hs

theorem execBuFail_canonical {s : State} (hs : s.canonical) : EnsuresNext (execBuFail s) State.canonical := by
  unfold execBuFail
  split
  · exact .next hs
  · exact Ensures.finish (failWith_canonical _ hs)

theorem execBuDetach_canonical {s : State} (hs : s.canonical) : EnsuresNext (execBuDetach s) State.canonical := by
  unfold execBuDetach
  split
  · exact .next hs
  · exact Ensures.finish ((detachDevice_canonical hs).bind fun _ h1 => .ok h1)

/-! ## Register, pool and query commands keep memory canonical (40, 42, 43) -/

theorem regReadCommand_canonical (w : Win) (n : Nat) (off : BitVec 16) {s : State} (hs : s.canonical) :
    EnsuresNext (regReadCommand w n off s) State.canonical := by
  unfold regReadCommand
  split
  · split
    · exact Ensures.finish ((regRead_canonical cmdCtx_keepsCanonical hs _ _ _).bind fun _ h1 => .ok h1)
    · exact .next hs
  · exact .next hs

theorem regWriteCommand_canonical (w : Win) (n : Nat) (off : BitVec 16) (value : Word) {s : State}
    (hs : s.canonical) : EnsuresNext (regWriteCommand w n off value s) State.canonical := by
  unfold regWriteCommand
  split
  · split
    · exact Ensures.finish ((regWrite_canonical cmdCtx_keepsCanonical hs _ _ _ _).bind fun _ h1 => .ok h1)
    · exact .next hs
  · exact .next hs

theorem execPoolReserve_canonical (dir : Dir) (len : Word) {s : State} (hs : s.canonical) :
    EnsuresNext (execPoolReserve dir len s) State.canonical := by
  have hr := poolReserve_canonical hs false dir len
  unfold execPoolReserve
  split
  · exact .next hs
  · refine .next ?_
    split <;> rename_i hp <;> rw [hp] at hr <;> exact hr

theorem execPoolRelease_canonical (h : Handle) {s : State} (hs : s.canonical) :
    EnsuresNext (execPoolRelease h s) State.canonical := by
  unfold execPoolRelease
  split
  · split
    · exact .next hs
    · split
      · exact .next hs
      · exact .next (poolFree_canonical hs h.toNat)
  · exact .next hs

theorem execLinkState_canonical {s : State} (hs : s.canonical) : EnsuresNext (execLinkState s) State.canonical := by
  unfold execLinkState
  split
  · exact Ensures.finish ((readLink_canonical cmdCtx_keepsCanonical hs).bind fun _ h1 => .ok h1)
  · exact .next hs

/-! ## The ring commands keep memory canonical (41) -/

theorem createOn_canonical (q : Role) (size : BitVec 16) (r : Nat) {s : State} (hs : s.canonical) :
    (createOn q size r s).canonical := by
  have hz := memZeroSlot_canonical hs cmdCtx r
  unfold createOn
  dsimp only
  split <;> exact hz

theorem poolReserveInternal_canonical {s : State} (hs : s.canonical) (len : Nat) :
    (poolReserveInternal len s).2.canonical :=
  poolReserve_canonical hs true .fromDevice _

theorem execVqCreate_canonical (q : Role) (size : BitVec 16) {s : State} (hs : s.canonical) :
    EnsuresNext (execVqCreate q size s) State.canonical := by
  unfold execVqCreate
  split
  · split
    · exact .next hs
    · split
      · exact .next hs
      · split
        · exact .next hs
        · refine Ensures.finish <| (lock_canonical hs q).bind fun s1 h1 => ?_
          have hr := poolReserveInternal_canonical h1 (regionBytes size.toNat)
          split
          · rename_i r s2 hp
            rw [hp] at hr
            exact .ok (createOn_canonical q size r hr)
          · rename_i s2 hp
            rw [hp] at hr
            dsimp only
            split
            · exact failWith_canonical _ hr
            · exact .ok hr
  · exact .next hs

theorem execVqDestroy_canonical (q : Role) {s : State} (hs : s.canonical) :
    EnsuresNext (execVqDestroy q s) State.canonical := by
  unfold execVqDestroy
  split
  · split
    · exact Ensures.finish ((freeQueue_canonical hs q _).bind fun _ h1 => .ok h1)
    · exact .next hs
  · exact .next hs

theorem writeDesc_canonical {c : Ctx} (hc : c.KeepsCanonical) {s : State} (hs : s.canonical)
    {table i addr len next : Nat} {fl : BitVec 16} : Ensures (writeDesc c table i addr len fl next s) State.canonical :=
  (memWrite_canonical hc hs _ _ _).bind fun _ h1 => (memWrite_canonical hc h1 _ _ _).bind fun _ h2 =>
    (memWrite_canonical hc h2 _ _ _).bind fun _ h3 => memWrite_canonical hc h3 _ _ _

theorem submitDirect_canonical {c : Ctx} (hc : c.KeepsCanonical) (q : Role) (head : DescIdx)
    (l : List (Seg × DescIdx)) {s : State} (hs : s.canonical) :
    Ensures (submitDirect c q head l s) State.canonical := by
  induction l generalizing s with
  | nil => exact .ok hs
  | cons p rest ih => exact (writeDesc_canonical hc hs).bind fun _ h1 => ih (s := State.setQueue _ q _) h1

theorem writeTable_canonical {c : Ctx} (hc : c.KeepsCanonical) (table k : Nat) (segs : List Seg) {s : State}
    (hs : s.canonical) : Ensures (writeTable c table k segs s) State.canonical := by
  induction segs generalizing k s with
  | nil => exact .ok hs
  | cons g rest ih => exact (writeDesc_canonical hc hs).bind fun _ h1 => ih _ h1

theorem submitIndirect_canonical {c : Ctx} (hc : c.KeepsCanonical) (q : Role) (head : DescIdx) (t : Nat)
    (segs : List Seg) {s : State} (hs : s.canonical) :
    Ensures (submitIndirect c q head t segs s) State.canonical :=
  (writeTable_canonical hc _ _ segs hs).bind fun _ h1 => (writeDesc_canonical hc h1).bind fun _ h2 =>
    .ok (setLoan_canonical (s := State.setQueue _ q _) h2 t _)

theorem publish_canonical {c : Ctx} (hc : c.KeepsCanonical) (q : Role) (head : DescIdx) {s : State}
    (hs : s.canonical) : Ensures (publish c q head s) State.canonical := by
  refine (memWrite_canonical hc hs _ _ _).bind fun _ h1 => (fence_canonical hc h1).bind fun s2 h2 =>
    (memWrite_canonical hc (s := s2.setQueue q _) h2 _ _ _).bind fun _ h3 => (fence_canonical hc h3).bind
      fun _ h4 => (memRead_canonical hc h4 _ _).bind fun _ h5 => ?_
  dsimp only
  split
  · exact .ok h5
  · exact regWrite_canonical hc h5 _ _ _ _

theorem submitTail_canonical {c : Ctx} (hc : c.KeepsCanonical) (q : Role) (head : DescIdx) (n : Nat)
    (ind : Option Handle) (segs : List Seg) {s : State} (hs : s.canonical) :
    Ensures (submitTail c q head n ind segs s) State.canonical :=
  (publish_canonical hc q head (s := recordHead q head n _ ind _) (setLoans_canonical hs _ _)).bind fun _ h1 => .ok h1

theorem submitChain_canonical {c : Ctx} (hc : c.KeepsCanonical) (q : Role) (segs : List Seg) {s : State}
    (hs : s.canonical) : Ensures (submitChain c q segs s) State.canonical := by
  unfold submitChain
  dsimp only
  split
  · have hx : (s.setQueue q { s.queue q with free := (s.queue q).free.drop (s.need segs.length) }).canonical := hs
    have hr := poolReserveInternal_canonical hx (16 * segs.length)
    split <;> rename_i hp <;> rw [hp] at hr
    · exact .ok hr
    · exact (submitIndirect_canonical hc q _ _ segs hr).bind fun _ h1 => submitTail_canonical hc q _ _ _ segs h1
  · exact (submitDirect_canonical hc q _ _ (s := s.setQueue q _) hs).bind fun _ h1 =>
      submitTail_canonical hc q _ _ _ segs h1

theorem execVqSubmit_canonical (q : Role) (segs : List Seg) {s : State} (hs : s.canonical) :
    EnsuresNext (execVqSubmit q segs s) State.canonical := by
  unfold execVqSubmit
  split
  · split
    · exact .next hs
    · split
      · exact .next hs
      · refine Ensures.finish <| (lock_canonical hs q).bind fun _ h1 => ?_
        split
        · exact .ok h1
        · split
          · exact .ok h1
          · exact submitChain_canonical cmdCtx_keepsCanonical q segs h1
  · exact .next hs

theorem execVqDrain_canonical (q : Role) {s : State} (hs : s.canonical) :
    EnsuresNext (execVqDrain q s) State.canonical := by
  unfold execVqDrain
  split
  · exact Ensures.finish ((drainList_canonical hs q).bind fun _ h1 => .ok h1)
  · exact .next hs

/-! ## Every step keeps memory canonical -/

theorem exec_canonical (i : Instr) {s : State} (hs : s.canonical) : EnsuresNext (exec i s) State.canonical := by
  cases i with
  | rd8 off => exact regReadCommand_canonical .w0 1 off hs
  | rd16 off => exact regReadCommand_canonical .w0 2 off hs
  | rd32 off => exact regReadCommand_canonical .w0 4 off hs
  | wr8 off value => exact regWriteCommand_canonical .w0 1 off value hs
  | wr16 off value => exact regWriteCommand_canonical .w0 2 off value hs
  | wr32 off value => exact regWriteCommand_canonical .w0 4 off value hs
  | drd8 off => exact regReadCommand_canonical .w1 1 off hs
  | drd16 off => exact regReadCommand_canonical .w1 2 off hs
  | drd32 off => exact regReadCommand_canonical .w1 4 off hs
  | dwr8 off value => exact regWriteCommand_canonical .w1 1 off value hs
  | dwr16 off value => exact regWriteCommand_canonical .w1 2 off value hs
  | dwr32 off value => exact regWriteCommand_canonical .w1 4 off value hs
  | vqCreate q size => exact execVqCreate_canonical q size hs
  | vqDestroy q => exact execVqDestroy_canonical q hs
  | vqSubmit q segs => exact execVqSubmit_canonical q segs hs
  | vqDrain q => exact execVqDrain_canonical q hs
  | poolReserve dir len => exact execPoolReserve_canonical dir len hs
  | poolRelease h => exact execPoolRelease_canonical h hs
  | buReset => exact execBuReset_canonical hs
  | buAck => exact execBuAck_canonical hs
  | buDriver => exact execBuDriver_canonical hs
  | buFeatures => exact execBuFeatures_canonical hs
  | buQwire q => exact execBuQwire_canonical q hs
  | buIrq => exact execBuIrq_canonical hs
  | buOk => exact execBuOk_canonical hs
  | buFail => exact execBuFail_canonical hs
  | buDetach => exact execBuDetach_canonical hs
  | linkState => exact execLinkState_canonical hs
  | propFeat => exact .next hs
  | propQsize q => exact .next hs

theorem cmdTurn_canonical {s : State} (hs : s.canonical) : EnsuresNext (cmdTurn s) State.canonical := by
  unfold cmdTurn
  split
  · exact .next hs
  · exact .next hs
  · rename_i i rest _
    exact exec_canonical i (s := { s with cmdPort := rest }) hs

theorem agentTurn_canonical (a : Act) {s : State} (hs : s.canonical) : EnsuresNext (agentTurn a s) State.canonical := by
  cases a with
  | disp => exact Ensures.finish (dispTurn_canonical hs)
  | _ => exact .next (State.external_canonical hs _)

theorem State.nextTurn_canonical {s : State} (hs : s.canonical) : s.nextTurn.2.canonical := by
  unfold State.nextTurn
  split <;> exact hs

/-- Settles O56: whichever agent moves, its turn changes memory and the slot table by operations of Laws/Memory.lean
alone, each of which keeps the form. -/
theorem stepKeepsMemoryCanonical : Obligations.StepKeepsMemoryCanonical := by
  intro s t hs hstep
  have hn : s.nextTurn.2.canonical := State.nextTurn_canonical hs
  cases hturn : s.nextTurn with
  | mk turn s1 =>
    rw [hturn] at hn
    cases turn with
    | cmd => exact cmdTurn_canonical hn t (step_of_nextTurn_cmd hturn ▸ hstep)
    | act a => exact agentTurn_canonical a hn t (step_of_nextTurn_act hturn ▸ hstep)

/-! ## What a register answers (10 R36 to R43) -/

theorem roleOfNum_num (q : Role) : roleOfNum q.num = some q := by cases q <;> rfl

theorem roleOfNum_of_three_le {n : Nat} (h : 3 ≤ n) : roleOfNum n = none := by
  match n, h with
  | _ + 3, _ => rfl

/-- A selected role that exists answers its size and its address. -/
theorem Device.regValue_of_selected {d : Device} {q : Role} (h : d.dsel.toNat = q.num) :
    d.regValue .queueSize = some (d.dsize.get q).toNat ∧ d.regValue .queueAddress = some (d.daddr.get q).toNat := by
  simp only [Device.regValue, h, roleOfNum_num, Option.map_some, and_self]

theorem Device.regValue_queueSize_of_no_role {d : Device} (h : 3 ≤ d.dsel.toNat) :
    d.regValue .queueSize = some 0 := by
  simp only [Device.regValue, roleOfNum_of_three_le h]

theorem Device.readEffect_of_ne_isr (d : Device) {r : Reg0} (h : r ≠ .isr) : d.readEffect r = d := by
  cases r with
  | isr => exact absurd rfl h
  | _ => rfl

/-- Settles O11: each register's value is its field, and `readEffect` changes the device for ISR alone. -/
theorem onlyIsrReadHasEffect : Obligations.OnlyIsrReadHasEffect := fun d =>
  ⟨rfl, rfl, rfl, rfl, rfl, fun _ => Device.regValue_of_selected, Device.regValue_queueSize_of_no_role, rfl, rfl,
    fun _ => d.readEffect_of_ne_isr⟩

/-! ## A safe state whose next one is not safe -/

namespace LentTwice

/-- A wired queue of two descriptors with nothing in flight, its region in the slot of its own role. -/
def idleQueue (region : Handle) (base : Addr) : Queue :=
  { Queue.empty with
    valid := true, wired := true, n := 2, region := region, base := base, free := [0, 1]
    desc := [Desc.blank, Desc.blank] }

/-- The region of such a queue. -/
def regionSlot (base : Addr) : Slot :=
  { Slot.free with alloc := true, bus := base, len := 8192, dir := .fromDevice, internal := true }

/-- A command slot on loan to the chain of queue 0 with head 0. -/
def lentSlot : Slot :=
  { Slot.free with alloc := true, bus := 0x16000, len := 64, loan := some { q := .q0, head := 0 }, fill := .draw 0 }

/-- The dispatcher drains queue 0: it has gathered slot 3 from one chain, and has walked a second chain, whose head is
the one slot 3 is lent to. One more used element is pending. -/
def before : State :=
  { State.reset with
    fsm := .driverReady, stShadow := 7, offered := 0x20, negotiated := 0x20, qsize := ⟨2, 2, 2⟩, winMapped := true
    irqEn := true, acq := [.irq, .qr .q2, .qr .q1, .qr .q0, .win]
    queues :=
      ⟨{ idleQueue 0 0x10000 with
          availIdx := 2, lastUsed := 1, free := [1], lock := some .disp
          desc := [{ tag := .completedPendingReturn, chainLen := 1, cookie := 3, ind := none }, Desc.blank] },
        idleQueue 1 0x12000, idleQueue 2 0x14000⟩
    pool := [regionSlot 0x10000, regionSlot 0x12000, regionSlot 0x14000, lentSlot] ++ List.replicate 12 Slot.free
    disp := .walk, isrLat := 1, dq := .q0
    walk := .drain
      { out := [{ cookie := 3, len := 0, handles := [3] }]
        pos := .unlend { rest := 1, id := 0, len := 0, visited := [0], cur := 0 } [] } }

/-- The dispatcher has gathered slot 3 a second time, from the second chain. -/
def next : State :=
  { before with
    queues := before.queues.set .q0 { idleQueue 0 0x10000 with
      availIdx := 2, lastUsed := 2, free := [1, 0], lock := some .disp
      desc := [{ tag := .free, chainLen := 1, cookie := 3, ind := none }, Desc.blank] }
    walk := .drain
      { out := [{ cookie := 3, len := 0, handles := [3] }, { cookie := 3, len := 0, handles := [3] }]
        pos := .element 0 } }

theorem before_safe : before.safe = true := by decide +kernel

theorem step_before : step before = .next next := rfl

theorem next_toHandOver : next.toHandOver = [3, 3] := rfl

/-- In a safe state no slot to hand over is named twice. -/
theorem next_not_safe : next.safe = false := by
  have hlent : next.toHandOverLent = false := by
    simp only [State.toHandOverLent, next_toHandOver]
    rfl
  simp only [State.safe, State.walkOk, hlent, Bool.and_false, Bool.false_and]

end LentTwice

/-- Refutes O59: `State.safe` does not say that a slot the dispatcher has still to hand over is lent to a chain no
longer in flight. In `LentTwice.before` slot 3 is gathered already and is lent to the chain whose walk has just been
accepted, so the next step gathers it again, and `toHandOverLent` fails. The counterexample is a safe state, as the
statement asks; that a run from reset reaches it is not claimed. -/
theorem not_stepKeepsSafe : ¬ Obligations.StepKeepsSafe := by
  intro h
  have hsafe : LentTwice.next.safe = true := h _ _ LentTwice.before_safe LentTwice.step_before
  rw [LentTwice.next_not_safe] at hsafe
  cases hsafe

end Sys2Proof.Machine

namespace Sys2Proof.Machine

/-! ## What leaves the rings alone -/

/-- `t` has the queues, the slot table and the dispatcher's walk of `s`; the only step of DISP between them is the
acceptance of a delivery, no store of CMD is newly pending, and nothing is newly scheduled before its accesses. -/
structure SameRings (s t : State) : Prop where
  queues : t.queues = s.queues
  pool : t.pool = s.pool
  dq : t.dq = s.dq
  walk : t.walk = s.walk
  irqEn : t.irqEn = s.irqEn
  disp : t.disp = s.disp ∨ s.irqEn = true ∧ s.disp = .idle ∧ t.disp = .isr
  wbuf : s.wbuf = [] → t.wbuf = []
  gaps : s.gaps = [] → t.gaps = []

theorem SameRings.refl (s : State) : SameRings s s := ⟨rfl, rfl, rfl, rfl, rfl, .inl rfl, id, id⟩

theorem SameRings.trans {s t u : State} (h : SameRings s t) (g : SameRings t u) : SameRings s u := by
  refine ⟨g.queues.trans h.queues, g.pool.trans h.pool, g.dq.trans h.dq, g.walk.trans h.walk, g.irqEn.trans h.irqEn,
    ?_, g.wbuf ∘ h.wbuf, g.gaps ∘ h.gaps⟩
  rcases h.disp with h1 | ⟨h1, h2, h3⟩
  · rcases g.disp with g1 | ⟨g1, g2, g3⟩
    · exact .inl (g1.trans h1)
    · exact .inr ⟨h.irqEn ▸ g1, h1 ▸ g2, g3⟩
  · rcases g.disp with g1 | ⟨-, g2, -⟩
    · exact .inr ⟨h1, h2, g1.trans h3⟩
    · rw [h3] at g2
      cases g2

/-- A state made from `s` by changing other fields. -/
theorem SameRings.of_eq {s t : State} {cfg : Config} {fsm : Fsm} {sh : BitVec 8} {off neg : BitVec 32}
    {qs : PerRole (BitVec 16)} {wm : Bool} {acq : List Resource} {el il : BitVec 8} {dev : Device} {m : Memory}
    {cp rp ep : List Word} {hs : List Byte} {b : List Access} {ts : List Turn} {pa : List (Option Addr)}
    {pm : List Bool} {n : Nat}
    (h : t = { s with cfg := cfg, fsm := fsm, stShadow := sh, offered := off, negotiated := neg, qsize := qs,
                      winMapped := wm, acq := acq, errLatch := el, isrLat := il, dev := dev, mem := m, cmdPort := cp,
                      respPort := rp, eventPort := ep, hostSeen := hs, bus := b, turns := ts, platAllocs := pa,
                      platMaps := pm, draws := n }) : SameRings s t := by
  subst h
  exact ⟨rfl, rfl, rfl, rfl, rfl, .inl rfl, id, id⟩

theorem SameRings.queue {s t : State} (h : SameRings s t) (q : Role) : t.queue q = s.queue q :=
  congrArg (fun x : PerRole Queue => x.get q) h.queues

theorem SameRings.slot {s t : State} (h : SameRings s t) (k : Nat) : t.slot k = s.slot k :=
  congrArg (fun p : List Slot => p.getD k Slot.free) h.pool

theorem SameRings.drainOf {s t : State} (h : SameRings s t) : t.drainOf = s.drainOf := by
  unfold State.drainOf
  rw [h.walk]
  rcases h.disp with h1 | ⟨-, h2, h3⟩
  · rw [h1]
  · rw [h2, h3]

theorem sameRings_putBytes (s : State) (a : Nat) (bs : List Byte) : SameRings s (s.putBytes a bs) :=
  .of_eq (State.putBytes_eq s a bs)

theorem sameRings_settle (s : State) : SameRings s s.settle := by
  rw [State.settle_eq]
  exact ⟨rfl, rfl, rfl, rfl, rfl, .inl rfl, fun _ => rfl, id⟩

theorem sameRings_commitStore (s : State) (k : Nat) : SameRings s (s.commitStore k) := by
  refine ⟨?_, ?_, ?_, ?_, ?_, ?_, fun h => ?_, ?_⟩
  case refine_7 => simp [State.commitStore, h]
  all_goals rw [State.commitStore_eq]
  · exact .inl rfl
  · exact id

theorem sameRings_external (s : State) (a : Act) : SameRings s (s.external a) := by
  cases a with
  | disp => exact .refl s
  | irqPulse =>
    show SameRings s s.deliver
    unfold State.deliver
    split
    · rename_i h
      exact ⟨rfl, rfl, rfl, rfl, rfl, .inr ⟨h.1, h.2, rfl⟩, id, id⟩
    · exact .refl s
  | commit k => exact sameRings_commitStore s k
  | hostSend ws => exact .of_eq rfl
  | hostStore a bs =>
    show SameRings s (s.hostStore a bs)
    unfold State.hostStore
    split
    · exact sameRings_putBytes s a bs
    · exact .refl s
  | hostRead a n =>
    show SameRings s (s.hostRead a n)
    unfold State.hostRead
    split <;> exact .of_eq rfl
  | devStore a bs => exact sameRings_putBytes s a bs
  | devForge d => exact .of_eq rfl
  | devConsume q =>
    simp only [State.external, State.devConsume, State.devConsumeEntry]
    repeat' split
    all_goals exact .of_eq rfl
  | devWrite k g off bs =>
    simp only [State.external, State.devWrite]
    repeat' split
    · exact .refl s
    · exact .refl s
    · exact (sameRings_putBytes s _ _).trans (.of_eq rfl)
    · exact .refl s
  | devComplete k =>
    simp only [State.external, State.devComplete]
    repeat' split
    · exact .refl s
    · exact (((sameRings_putBytes s _ _).trans (sameRings_putBytes _ _ _)).trans (sameRings_putBytes _ _ _)).trans
        (.of_eq rfl)
    · exact .refl s
  | devHint q on =>
    simp only [State.external, State.devHint]
    repeat' split
    · exact .refl s
    · exact (sameRings_putBytes s _ _).trans (.of_eq rfl)
    · exact (sameRings_putBytes s _ _).trans (.of_eq rfl)
    · exact .refl s
  | devLink v => exact .of_eq rfl

theorem sameRings_externals (acts : List Act) (s : State) : SameRings s (s.externals acts) := by
  induction acts generalizing s with
  | nil => exact .refl s
  | cons a rest ih => exact (sameRings_external s a).trans (ih (s.external a))

theorem sameRings_waitGap (s : State) : SameRings s s.waitGap := by
  unfold State.waitGap
  split
  · exact .refl s
  · rename_i acts rest h
    refine SameRings.trans (t := { s with gaps := rest }) ⟨rfl, rfl, rfl, rfl, rfl, .inl rfl, id, fun h0 => ?_⟩
      (sameRings_externals _ _)
    rw [h] at h0
    cases h0

theorem sameRings_drainStores (c : Ctx) (s : State) : SameRings s (c.drainStores s) := by
  unfold Ctx.drainStores
  split
  · exact sameRings_settle s
  · exact .refl s

theorem sameRings_windowRead (s : State) (w : Win) (off n : Nat) : SameRings s (s.windowRead w off n).2 :=
  .of_eq (State.windowRead_eq s w off n)

theorem sameRings_windowWrite (s : State) (w : Win) (off : Nat) (bytes : List Byte) :
    SameRings s (s.windowWrite w off bytes) :=
  .of_eq (State.windowWrite_eq s w off bytes)

/-! ## Locks between two accesses (20 R84, R85) -/

/-- What CMD has in hand between two of its accesses: the queue whose lock it holds, whether a store of its may be
pending, whether it has found the dispatcher idle with the handler off, and whether nobody else moves before its
accesses. -/
structure Hold where
  lock : Option Role
  storing : Bool
  quiet : Bool
  alone : Bool

/-- CMD between two turns. -/
def Hold.none : Hold := { lock := .none, storing := false, quiet := false, alone := false }

/-- DISP holds the lock of the queue it is draining and no other, CMD that of `k` and no other, and what else `k` says
of the pending stores, the dispatcher and the schedule is so. -/
def Tidy (k : Hold) (s : State) : Prop :=
  (∀ q, (s.queue q).lock = some .disp ↔ s.drainOf.isSome = true ∧ s.dq = q)
    ∧ (∀ q, (s.queue q).lock = some .cmd ↔ k.lock = some q)
    ∧ (k.storing = false → s.wbuf = [])
    ∧ (k.quiet = true → s.disp = .idle ∧ s.irqEn = false)
    ∧ (k.alone = true → s.gaps = [])

section
variable {k : Hold} {s : State}

theorem Tidy.disp (h : Tidy k s) (q : Role) :
    (s.queue q).lock = some .disp ↔ s.drainOf.isSome = true ∧ s.dq = q := h.1 q
theorem Tidy.cmd (h : Tidy k s) (q : Role) : (s.queue q).lock = some .cmd ↔ k.lock = some q := h.2.1 q
theorem Tidy.stores (h : Tidy k s) : k.storing = false → s.wbuf = [] := h.2.2.1
theorem Tidy.quiet (h : Tidy k s) : k.quiet = true → s.disp = .idle ∧ s.irqEn = false := h.2.2.2.1
theorem Tidy.alone (h : Tidy k s) : k.alone = true → s.gaps = [] := h.2.2.2.2

theorem Tidy.same {t : State} (h : Tidy k s) (hst : SameRings s t) : Tidy k t := by
  refine ⟨fun q => ?_, fun q => ?_, fun hs => hst.wbuf (h.stores hs), fun hq => ?_, fun ha => hst.gaps (h.alone ha)⟩
  · rw [hst.queue, hst.drainOf, hst.dq]
    exact h.disp q
  · rw [hst.queue]
    exact h.cmd q
  · obtain ⟨hidle, hoff⟩ := h.quiet hq
    refine ⟨?_, hst.irqEn.trans hoff⟩
    rcases hst.disp with h1 | ⟨h1, -, -⟩
    · exact h1.trans hidle
    · rw [hoff] at h1
      cases h1

/-- While no drain of DISP is in progress it holds no lock. -/
theorem Tidy.not_disp (h : Tidy k s) (hd : s.drainOf = .none) (q : Role) : (s.queue q).lock ≠ some .disp := by
  intro hl
  have := ((h.disp q).1 hl).1
  rw [hd] at this
  cases this

theorem State.drainOf_of_disp (hd : s.disp ≠ .walk) : s.drainOf = .none := by
  unfold State.drainOf
  split
  · exact absurd ‹_› hd
  · rfl

theorem State.drainOf_of_walk (hw : ∀ r, s.walk ≠ .drain r) : s.drainOf = .none := by
  unfold State.drainOf
  split
  · exact absurd ‹_› (hw _)
  · rfl

/-- A queue may change in everything but its lock. -/
theorem Tidy.setQueue (h : Tidy k s) {q : Role} {x : Queue} (hx : x.lock = (s.queue q).lock) :
    Tidy k (s.setQueue q x) := by
  have hl : ∀ p, ((s.setQueue q x).queue p).lock = (s.queue p).lock := by
    intro p
    rw [State.queue_setQueue]
    split
    · rename_i hp
      rw [hp, hx]
    · rfl
  exact ⟨fun p => by rw [hl]; exact h.disp p, fun p => by rw [hl]; exact h.cmd p, h.2.2⟩

/-- CMD takes the lock of a queue that nobody holds. -/
theorem Tidy.take (h : Tidy k s) (hk : k.lock = .none) {q : Role} (hq : (s.queue q).lock = .none) :
    Tidy { k with lock := some q } (s.setQueue q { s.queue q with lock := some .cmd }) := by
  refine ⟨fun p => ?_, fun p => ?_, h.2.2⟩
  · rw [State.queue_setQueue]
    split
    · rename_i hp
      refine ⟨fun hl => (by cases hl), fun hd => ?_⟩
      rw [hp] at hd
      rw [(h.disp q).2 hd] at hq
      cases hq
    · exact h.disp p
  · rw [State.queue_setQueue]
    split
    · rename_i hp
      simp [hp]
    · rename_i hp
      refine ((h.cmd p).trans ?_)
      simp [hk, Ne.symm hp]

/-- CMD gives the lock back. -/
theorem Tidy.giveBack {q : Role} (h : Tidy { k with lock := some q } s) (hk : k.lock = .none) :
    Tidy k (unlock q s) := by
  have hcmd := (h.cmd q).2 rfl
  refine ⟨fun p => ?_, fun p => ?_, h.2.2⟩
  · show ((s.setQueue q _).queue p).lock = _ ↔ _
    rw [State.queue_setQueue]
    split
    · rename_i hp
      refine ⟨fun hl => (by cases hl), fun hd => ?_⟩
      rw [hp] at hd
      rw [(h.disp q).2 hd] at hcmd
      cases hcmd
    · exact h.disp p
  · show ((s.setQueue q _).queue p).lock = _ ↔ _
    rw [State.queue_setQueue]
    split
    · simp [hk]
    · rename_i hp
      exact (h.cmd p).trans (by simp [hk, Ne.symm hp])

/-- The handler may be taken off. -/
theorem Tidy.irqOff (h : Tidy k s) : Tidy k { s with irqEn := false } :=
  ⟨h.disp, h.cmd, h.stores, fun hq => ⟨(h.quiet hq).1, rfl⟩, h.alone⟩

theorem Tidy.mono {k' : Hold} (h : Tidy k s) (hl : k'.lock = k.lock) (hs : k'.storing = false → k.storing = false)
    (hq : k'.quiet = true → k.quiet = true) (ha : k'.alone = true → k.alone = true) : Tidy k' s :=
  ⟨h.1, fun q => by rw [hl]; exact h.cmd q, fun x => h.stores (hs x), fun x => h.quiet (hq x), fun x => h.alone (ha x)⟩

end

/-- Between two turns: the two checks of Safety.lean. -/
theorem tidy_none_iff (s : State) : Tidy .none s ↔ s.locksOk = true ∧ s.storesSettled = true := by
  have hrole :
      s.locksOk = true ↔ ∀ q, (s.queue q).lock = if s.drainOf.isSome && s.dq == q then some .disp else none := by
    simp only [State.locksOk, Role.every, List.all_cons, List.all_nil, Bool.and_true, Bool.and_eq_true, beq_iff_eq]
    exact ⟨fun ⟨h0, h1, h2⟩ q => by cases q <;> assumption, fun h => ⟨h .q0, h .q1, h .q2⟩⟩
  rw [hrole]
  simp only [State.storesSettled, beq_iff_eq]
  constructor
  · intro h
    refine ⟨fun q => ?_, h.stores rfl⟩
    have hd := h.disp q
    have hc := h.cmd q
    cases hl : (s.queue q).lock with
    | none =>
      rw [hl] at hd
      rw [if_neg]
      intro hh
      simp only [Bool.and_eq_true, beq_iff_eq] at hh
      cases hd.2 hh
    | some a =>
      cases a with
      | cmd => exact absurd (hc.1 hl) (by simp [Hold.none])
      | disp => rw [if_pos (by simpa using hd.1 hl)]
  · rintro ⟨h, hw⟩
    refine ⟨fun q => ?_, fun q => ?_, fun _ => hw, fun hq => (by cases hq), fun ha => (by cases ha)⟩
    · rw [h q]
      simp
    · rw [h q]
      constructor
      · intro hl
        split at hl <;> cases hl
      · intro hl
        cases hl

end Sys2Proof.Machine

namespace Sys2Proof.Machine

/-! ## Accesses keep the locks -/

/-- What happens before an access of this agent keeps what CMD has in hand. -/
def Ctx.KeepsTidy (c : Ctx) (k : Hold) : Prop := ∀ s : State, Tidy k s → Ensures (c.gap s) (Tidy k)

theorem dispCtx_keepsTidy (k : Hold) : dispCtx.KeepsTidy k := fun _ h => .ok h

section
variable {c : Ctx} {k : Hold} (hc : c.KeepsTidy k) {s : State} (h : Tidy k s)
include hc h

theorem regRead_tidy (w : Win) (off n : Nat) : Ensures (regRead c w off n s) (fun r => Tidy k r.2) :=
  (hc s h).bind fun s1 h1 => .ok
    (h1.same ((sameRings_drainStores c s1).trans (sameRings_windowRead _ w off n)) :
      Tidy k (State.windowRead _ _ _ _).2)

theorem regWrite_tidy (w : Win) (off n v : Nat) : Ensures (regWrite c w off n v s) (Tidy k) :=
  (hc s h).bind fun s1 h1 => .ok
    (h1.same ((sameRings_drainStores c s1).trans (sameRings_windowWrite _ w off _)) :
      Tidy k (State.windowWrite _ _ _ _))

theorem pciRead_tidy (r : PciReg) : Ensures (pciRead c r s) (fun r => Tidy k r.2) :=
  (hc s h).bind fun _ h1 => .ok h1

theorem memRead_tidy (a n : Nat) : Ensures (memRead c a n s) (fun r => Tidy k r.2) :=
  (hc s h).bind fun _ h1 => Ensures.bind_any fun _ => .ok h1

/-- A store may be pending afterwards. -/
theorem memWrite_tidy (hk : k.storing = true) (a n v : Nat) : Ensures (memWrite c a n v s) (Tidy k) := by
  refine (hc s h).bind fun _ h1 => Ensures.bind_any fun _ => .ok ⟨h1.disp, h1.cmd, fun hs => ?_, h1.quiet, h1.alone⟩
  rw [hk] at hs
  cases hs

theorem fence_tidy : Ensures (fence c s) (Tidy k) :=
  (hc s h).bind fun s1 h1 => .ok (h1.same (sameRings_drainStores c s1) : Tidy k (c.drainStores s1))

theorem readLink_tidy : Ensures (readLink c s) (fun r => Tidy k r.2) := by
  unfold readLink
  split
  · exact (regRead_tidy hc h _ _ _).bind fun _ h1 => .ok h1
  · exact .ok h

end

/-! ## What everything a drain does keeps, a step of it keeps -/

/-- Nothing that a drain of queue `q` by this agent is made of breaks `P`: what happens before its accesses, changes of
the queue's context but for its lock, changes of slots, memory and the bus trace, a store taking effect. -/
structure Ctx.DrainKeeps (c : Ctx) (q : Role) (P : State → Prop) : Prop where
  gap : ∀ s, P s → Ensures (c.gap s) P
  queue : ∀ s x, P s → x.lock = (s.queue q).lock → P (s.setQueue q x)
  rest : ∀ s p m w b, P s → (s.wbuf = [] → w = []) → P { s with pool := p, mem := m, wbuf := w, bus := b }

section
variable {c : Ctx} {q : Role} {P : State → Prop} (hP : c.DrainKeeps q P) {s : State} (h : P s)
include hP h

theorem memRead_keeps (a n : Nat) : Ensures (memRead c a n s) (fun r => P r.2) :=
  (hP.gap s h).bind fun s1 h1 => Ensures.bind_any fun _ => .ok (hP.rest s1 _ _ _ _ h1 id)

theorem fence_keeps : Ensures (fence c s) P := by
  refine (hP.gap s h).bind fun s1 h1 => .ok ?_
  unfold Ctx.drainStores
  split
  · rw [State.settle_eq]
    exact hP.rest s1 _ _ _ _ h1 fun _ => rfl
  · exact hP.rest s1 _ _ _ _ h1 id

theorem drainFault_keeps : P (drainFault q s).2 := hP.queue s _ h rfl

theorem drainStart_keeps : Ensures (drainStart c q s) (fun r => P r.2) := by
  unfold drainStart
  split
  · exact .ok h
  · refine (memRead_keeps hP h _ _).bind fun _ h1 => (fence_keeps hP h1).bind fun _ h2 => ?_
    dsimp only
    split
    · exact .ok (drainFault_keeps hP h2)
    · exact .ok h2

theorem drainId_keeps (rest : Nat) : Ensures (drainId c q rest s) (fun r => P r.2) :=
  (memRead_keeps hP h _ _).bind fun _ h1 => .ok h1

theorem drainLength_keeps (rest id : Nat) : Ensures (drainLength c q rest id s) (fun r => P r.2) := by
  refine (memRead_keeps hP h _ _).bind fun _ h1 => ?_
  dsimp only
  split
  · exact .ok h1
  · exact .ok (drainFault_keeps hP h1)

theorem drainFlags_keeps (v : Visit) : Ensures (drainFlags c q v s) (fun r => P r.2) := by
  refine (memRead_keeps hP (hP.queue s ((s.queue q).setTag v.cur .completedPendingReturn) h rfl) _ _).bind
    fun _ h1 => ?_
  dsimp only
  split
  · exact .ok h1
  · split
    · exact .ok h1
    · exact .ok (drainFault_keeps hP h1)

theorem drainLink_keeps (v : Visit) : Ensures (drainLink c q v s) (fun r => P r.2) := by
  refine (memRead_keeps hP h _ _).bind fun _ h1 => ?_
  dsimp only
  split
  · exact .ok h1
  · exact .ok (drainFault_keeps hP h1)

omit hP h in
theorem Queue.setTags_lock (x : Queue) (t : Tag) (order : List DescIdx) : (x.setTags t order).lock = x.lock := by
  induction order generalizing x with
  | nil => rfl
  | cons i rest ih => exact ih (x.setTag i t)

theorem reclaim_keeps (id : DescIdx) (order : List DescIdx) : P (reclaim q id order s) := by
  unfold reclaim
  dsimp only
  have hq := hP.queue s { (s.queue q).setTags .free order with
    free := ((s.queue q).setTags .free order).free ++ order
    lastUsed := ((s.queue q).setTags .free order).lastUsed + 1 } h (Queue.setTags_lock _ _ _)
  split
  · rw [poolFree_eq]
    exact hP.rest _ _ _ _ _ hq fun hw => hw
  · exact hq

theorem drainStep_keeps (r : DrainRun) : Ensures (drainStep c q r s) (fun r => P r.2) := by
  unfold drainStep
  split
  · exact (drainStart_keeps hP h).bind fun _ h1 => .ok h1
  · exact (drainId_keeps hP h _).bind fun _ h1 => .ok h1
  · exact (drainLength_keeps hP h _ _).bind fun _ h1 => .ok h1
  · exact (drainFlags_keeps hP h _).bind fun _ h1 => .ok h1
  · exact (drainLink_keeps hP h _).bind fun _ h1 => .ok h1
  · refine (hP.gap s h).bind fun s1 h1 => ?_
    split
    · exact .ok (hP.rest s1 _ _ _ _ h1 id)
    · exact .ok (reclaim_keeps hP h1 _ _)
  · exact .ok h

end

theorem Ctx.KeepsTidy.drainKeeps {c : Ctx} {k : Hold} (hc : c.KeepsTidy k) (q : Role) : c.DrainKeeps q (Tidy k) where
  gap := hc
  queue _ _ h hx := h.setQueue hx
  rest _ _ _ _ _ h hw := ⟨h.disp, h.cmd, fun hs => hw (h.stores hs), h.quiet, h.alone⟩

/-- DISP stays where it is in its walk while it takes a step of a drain. -/
theorem dispCtx_drainKeeps (k : Hold) (q : Role) (d : Disp) (dq : Role) (w : WalkPos) :
    dispCtx.DrainKeeps q (fun s => Tidy k s ∧ s.disp = d ∧ s.dq = dq ∧ s.walk = w) where
  gap _ h := .ok h
  queue _ _ h hx := ⟨h.1.setQueue hx, h.2⟩
  rest s p m w b h hw := ⟨(dispCtx_keepsTidy k).drainKeeps q |>.rest s p m w b h.1 hw, h.2⟩

/-- A register access of DISP disturbs nobody. -/
theorem regRead_dispCtx (s : State) (w : Win) (off n : Nat) :
    Ensures (regRead dispCtx w off n s) (fun r => SameRings s r.2) :=
  .ok ((sameRings_windowRead s w off n).trans (.of_eq rfl))

theorem readLink_dispCtx (s : State) : Ensures (readLink dispCtx s) (fun r => SameRings s r.2) := by
  unfold readLink
  split
  · exact (regRead_dispCtx s _ _ _).bind fun _ h1 => .ok h1
  · exact .ok (.refl s)

/-! ## The dispatcher keeps the locks (44) -/

section
variable {k : Hold} {s : State}

/-- A walk that stands outside a drain may go anywhere but into one. -/
theorem Tidy.moveWalk (h : Tidy k s) (hd : s.drainOf = none) {t : State} (ht : t.drainOf = none)
    (hk : k.quiet = true → t.disp = .idle) (hq : t.queues = s.queues) (hw : t.wbuf = s.wbuf) (hi : t.irqEn = s.irqEn)
    (hg : t.gaps = s.gaps) : Tidy k t := by
  have hqueue : ∀ p, t.queue p = s.queue p := fun p => congrArg (fun x : PerRole Queue => x.get p) hq
  refine ⟨fun q => ⟨fun hl => ?_, fun hl => ?_⟩, fun q => ?_, fun hs => hw.trans (h.stores hs),
    fun hx => ⟨hk hx, hi.trans (h.quiet hx).2⟩, fun ha => hg.trans (h.alone ha)⟩
  · rw [hqueue] at hl
    exact absurd hl (h.not_disp hd q)
  · rw [ht] at hl
    cases hl.1
  · rw [hqueue]
    exact h.cmd q

theorem Tidy.not_quiet (h : Tidy k s) (hd : s.disp ≠ .idle) (d : Disp) : k.quiet = true → d = .idle :=
  fun hq => absurd (h.quiet hq).1 hd

theorem walkEnter_tidy (h : Tidy k s) (hdisp : s.disp = .walk) (hwalk : s.walk = .enter) : Tidy k (walkEnter s) := by
  have hd : s.drainOf = none := State.drainOf_of_walk fun r hr => by rw [hwalk] at hr; cases hr
  have hq := h.not_quiet (by rw [hdisp]; decide)
  unfold walkEnter reportUnknown
  split <;> split <;> refine h.moveWalk hd ?_ (hq _) rfl rfl rfl rfl
  · exact State.drainOf_of_walk fun r hr => by cases hr
  · exact State.drainOf_of_walk fun r hr => by cases hr
  · exact State.drainOf_of_disp fun hr => by cases hr
  · exact State.drainOf_of_disp fun hr => by cases hr

theorem advanceWalk_drainOf (s : State) : (advanceWalk s).drainOf = none := by
  unfold advanceWalk
  split <;> exact State.drainOf_of_walk fun r hr => by cases hr

/-- Moving on to the next queue changes where the dispatcher stands alone. -/
theorem advanceWalk_eq (s : State) :
    advanceWalk s = { s with disp := (advanceWalk s).disp, dq := (advanceWalk s).dq
                             walk := (advanceWalk s).walk } := by
  unfold advanceWalk
  split <;> rfl

theorem advanceWalk_tidy (h : Tidy k s) (hdisp : s.disp = .walk) (hd : s.drainOf = none) : Tidy k (advanceWalk s) := by
  refine h.moveWalk hd (advanceWalk_drainOf s) (h.not_quiet (by rw [hdisp]; decide) _) ?_ ?_ ?_ ?_ <;>
    rw [advanceWalk_eq]

theorem walkTest_tidy (h : Tidy k s) (hdisp : s.disp = .walk) (hwalk : s.walk = .test) : Tidy k (walkTest s) := by
  have hd : s.drainOf = none := State.drainOf_of_walk fun r hr => by rw [hwalk] at hr; cases hr
  unfold walkTest
  split
  · exact h.moveWalk hd (State.drainOf_of_walk fun r hr => by cases hr) (h.not_quiet (by rw [hdisp]; decide) _)
      rfl rfl rfl rfl
  · exact advanceWalk_tidy h hdisp hd

theorem walkLock_tidy (h : Tidy k s) (hdisp : s.disp = .walk) (hwalk : s.walk = .wantLock) : Tidy k (walkLock s) := by
  have hd : s.drainOf = none := State.drainOf_of_walk fun r hr => by rw [hwalk] at hr; cases hr
  unfold walkLock
  split
  · rename_i hfree
    have hlock : ∀ q, (State.queue { s.setQueue s.dq { s.queue s.dq with lock := some .disp } with
        walk := .drain { out := [], pos := .start } } q).lock = if q = s.dq then some .disp else (s.queue q).lock := by
      intro q
      show ((s.setQueue s.dq _).queue q).lock = _
      rw [State.queue_setQueue]
      split <;> rfl
    have hdrain : State.drainOf { s.setQueue s.dq { s.queue s.dq with lock := some .disp } with
        walk := .drain { out := [], pos := .start } } = some { out := [], pos := .start } := by
      simp [State.drainOf, hdisp]
    refine ⟨fun q => ?_, fun q => ?_, h.stores, h.quiet, h.alone⟩
    · rw [hlock, hdrain]
      by_cases hq : q = s.dq
      · simp [hq]
      · simpa [hq, Ne.symm hq] using h.not_disp hd q
    · rw [hlock]
      by_cases hq : q = s.dq
      · rw [← h.cmd q, hq, hfree]
        simp
      · simpa [hq] using h.cmd q
  · exact h

theorem handOver_queues (out : List Drained) (corrupt : Bool) (s : State) :
    (handOver out corrupt s).queues = (unlock s.dq s).queues := by
  unfold handOver
  dsimp only
  rw [reportChains_eq, setLoans_eq]
  split <;> rfl

/-- The end of a drain of DISP: its lock is given back and the walk goes on. -/
theorem handOver_tidy (h : Tidy k s) (hdisp : s.disp = .walk) {r : DrainRun} (hwalk : s.walk = .drain r)
    (out : List Drained) (corrupt : Bool) : Tidy k (advanceWalk (handOver out corrupt s)) := by
  have hdrain : s.drainOf = some r := by simp [State.drainOf, hdisp, hwalk]
  have hlock : ∀ q, ((advanceWalk (handOver out corrupt s)).queue q).lock
      = if q = s.dq then none else (s.queue q).lock := by
    intro q
    have : (advanceWalk (handOver out corrupt s)).queue q = (unlock s.dq s).queue q := by
      rw [advanceWalk_eq]
      exact congrArg (fun x : PerRole Queue => x.get q) (handOver_queues out corrupt s)
    rw [this, unlock, State.queue_setQueue]
    split <;> rfl
  have hdq : (s.queue s.dq).lock = some .disp := (h.disp s.dq).2 ⟨by rw [hdrain]; rfl, rfl⟩
  refine ⟨fun q => ?_, fun q => ?_, ?_, fun hk => ?_, ?_⟩
  · rw [hlock, advanceWalk_drainOf]
    by_cases hq : q = s.dq
    · simp [hq]
    · rw [if_neg hq, h.disp q]
      simp [Ne.symm hq]
  · rw [hlock, ← h.cmd q]
    by_cases hq : q = s.dq
    · simp [hq, hdq]
    · rw [if_neg hq]
  · rw [advanceWalk_eq, handOver_eq]
    exact h.stores
  · rw [(h.quiet hk).1] at hdisp
    cases hdisp
  · rw [advanceWalk_eq, handOver_eq]
    exact h.alone

/-- Inside its drain DISP keeps the lock. -/
theorem Tidy.moveDrain (h : Tidy k s) (hdisp : s.disp = .walk) {r : DrainRun} (hwalk : s.walk = .drain r)
    (r' : DrainRun) : Tidy k { s with walk := .drain r' } := by
  refine ⟨fun q => (h.disp q).trans ?_, h.cmd, h.stores, h.quiet, h.alone⟩
  simp [State.drainOf, hdisp, hwalk]

theorem walkDrain_tidy (h : Tidy k s) (hdisp : s.disp = .walk) {r : DrainRun} (hwalk : s.walk = .drain r) :
    Ensures (walkDrain r s) (Tidy k) := by
  refine (drainStep_keeps (dispCtx_drainKeeps k s.dq s.disp s.dq s.walk) ⟨h, rfl, rfl, rfl⟩ r).bind ?_
  rintro ⟨r1, s1⟩ ⟨h1, hd1, hq1, hw1⟩
  dsimp only at h1 hd1 hq1 hw1 ⊢
  split
  · exact .ok (handOver_tidy h1 (hd1.trans hdisp) (hw1.trans hwalk) _ _)
  · exact .ok (h1.moveDrain (hd1.trans hdisp) (hw1.trans hwalk) r1)

theorem dispWalk_tidy (h : Tidy k s) (hdisp : s.disp = .walk) : Ensures (dispWalk s) (Tidy k) := by
  unfold dispWalk
  split
  · exact .ok (walkEnter_tidy h hdisp ‹_›)
  · exact .ok (walkTest_tidy h hdisp ‹_›)
  · exact .ok (walkLock_tidy h hdisp ‹_›)
  · exact walkDrain_tidy h hdisp ‹_›

theorem dispIsr_tidy (h : Tidy k s) (hdisp : s.disp = .isr) : Ensures (dispIsr s) (Tidy k) := by
  refine (regRead_dispCtx s _ _ _).bind fun r h1 => .ok ?_
  have hd : s.disp ≠ .walk := by rw [hdisp]; decide
  exact (h.same h1).moveWalk (h1.drainOf.trans (State.drainOf_of_disp hd))
    (State.drainOf_of_walk fun r hr => by cases hr) (h.not_quiet (by rw [hdisp]; decide) _) rfl rfl rfl rfl

theorem dispConfig_tidy (h : Tidy k s) (hdisp : s.disp = .config) : Ensures (dispConfig s) (Tidy k) := by
  have hd : s.disp ≠ .walk := by rw [hdisp]; decide
  have key : ∀ s1 t : State, SameRings s s1 → t.disp = .ret → t.queues = s1.queues → t.wbuf = s1.wbuf →
      t.irqEn = s1.irqEn → t.gaps = s1.gaps → Tidy k t := fun s1 t h1 ht =>
    (h.same h1).moveWalk (h1.drainOf.trans (State.drainOf_of_disp hd)) (State.drainOf_of_disp (by rw [ht]; decide))
      (h.not_quiet (by rw [hdisp]; decide) _)
  unfold dispConfig
  split
  · exact (readLink_dispCtx s).bind fun r h1 => .ok (key r.2 _ h1 rfl rfl rfl rfl rfl)
  · exact .ok (key s _ (.refl s) rfl rfl rfl rfl rfl)

theorem dispRet_tidy (h : Tidy k s) (hdisp : s.disp = .ret) : Tidy k (dispRet s) :=
  h.moveWalk (State.drainOf_of_disp (by rw [hdisp]; decide)) (State.drainOf_of_disp (by simp [dispRet])) (fun _ => rfl)
    rfl rfl rfl rfl

/-- A turn of the dispatcher takes and gives back its own locks alone (20 R84, R85). -/
theorem dispTurn_tidy (h : Tidy k s) : Ensures (dispTurn s) (Tidy k) := by
  unfold dispTurn
  split
  · exact .ok h
  · exact dispIsr_tidy h ‹_›
  · exact dispWalk_tidy h ‹_›
  · exact dispConfig_tidy h ‹_›
  · exact .ok (dispRet_tidy h ‹_›)

end

/-! ## Gaps, waits and the lock itself (20 R80, R84) -/

theorem cmdActs_tidy (acts : List Act) {k : Hold} {s : State} (h : Tidy k s) : Ensures (cmdActs acts s) (Tidy k) := by
  induction acts generalizing s with
  | nil => exact .ok h
  | cons a rest ih =>
    cases a with
    | disp => exact (dispTurn_tidy h).bind fun _ h1 => ih h1
    | _ => exact ih (h.same (sameRings_external s _))

theorem cmdCtx_keepsTidy (k : Hold) : cmdCtx.KeepsTidy k := by
  intro s h
  show Ensures (cmdGap s) (Tidy k)
  unfold cmdGap
  split
  · exact .ok h
  · rename_i acts rest hg
    refine cmdActs_tidy acts ⟨h.disp, h.cmd, h.stores, h.quiet, fun ha => ?_⟩
    rw [h.alone ha] at hg
    cases hg

theorem waitUntil_tidy {k : Hold} {s : State} (h : Tidy k s) (p : State → Bool) (f : Fault) (n : Nat) :
    Ensures (waitUntil p f n s) (fun t => Tidy k t ∧ p t = true) := by
  intro t ht
  obtain ⟨hp, hk⟩ := waitUntil_ok (r := fun s t => Tidy k s → Tidy k t) (fun _ h => h)
    (fun _ _ _ hst htu h => htu (hst h)) (fun s h => h.same (sameRings_waitGap s))
    (fun _ _ hd h => dispTurn_tidy h _ hd)
    n ht
  exact ⟨hk h, hp⟩

theorem lock_tidy {k : Hold} {s : State} (h : Tidy k s) (hk : k.lock = none) (q : Role) :
    Ensures (lock q s) (Tidy { k with lock := some q }) :=
  (waitUntil_tidy h _ _ _).bind fun _ h1 => .ok (h1.1.take hk (beq_iff_eq.1 h1.2))

/-- Once the handler is off, a wait for the dispatcher leaves CMD undisturbed by it. -/
theorem waitIdle_tidy {k : Hold} {s : State} (h : Tidy k s) (hoff : s.irqEn = false) :
    Ensures (waitIdle s) (Tidy { k with quiet := true }) := fun t ht =>
  have ⟨h1, h2⟩ := waitUntil_tidy h _ _ _ t ht
  ⟨h1.disp, h1.cmd, h1.stores, fun _ => ⟨beq_iff_eq.1 h2, (waitIdle_ok ht).1.irqEn.trans hoff⟩, h1.alone⟩

end Sys2Proof.Machine

namespace Sys2Proof.Machine

/-! ## CMD's shared operations give back every lock they take (20 R84, R85) -/

theorem drainRun_tidy {k : Hold} (q : Role) (n : Nat) (r : DrainRun) {s : State} (h : Tidy k s) :
    Ensures (drainRun q n r s) (fun r => Tidy k r.2) := by
  induction n generalizing r s with
  | zero => exact .error _
  | succ n ih =>
    rw [drainRun]
    split
    · exact .ok h
    · exact (drainStep_keeps ((cmdCtx_keepsTidy k).drainKeeps q) h r).bind fun _ h1 => ih _ h1

section
variable {k : Hold} {s : State}

theorem statusWrite_tidy (h : Tidy k s) (bits : BitVec 8) : Ensures (statusWrite bits s) (Tidy k) :=
  regWrite_tidy (cmdCtx_keepsTidy k) (s := { s with stShadow := s.stShadow ||| bits }) h _ _ _ _

theorem statusWrite0_tidy (h : Tidy k s) : Ensures (statusWrite0 s) (Tidy k) :=
  (regWrite_tidy (cmdCtx_keepsTidy k) (s := { s with stShadow := 0 }) h _ _ _ _).bind fun _ h1 => .ok h1

theorem writeFailedBit_tidy (h : Tidy k s) (e : Err) : Ensures (writeFailedBit e s) (Tidy k) := by
  unfold writeFailedBit
  split
  · exact statusWrite_tidy h _
  · exact .ok h

variable (hk : k.lock = none)
include hk

theorem drainList_tidy (h : Tidy k s) (q : Role) : Ensures (drainList q s) (fun r => Tidy k r.2) :=
  (lock_tidy h hk q).bind fun _ h1 => (drainRun_tidy q _ _ h1).bind fun _ h2 => .ok (h2.giveBack hk)

theorem freeQueue_tidy (h : Tidy k s) (q : Role) (mode : FreeMode) : Ensures (freeQueue q mode s) (Tidy k) := by
  refine (lock_tidy h hk q).bind fun s1 h1 => .ok ?_
  have h2 : Tidy { k with lock := some q } (poolFree ((freeLents q mode s1.handles s1).queue q).region.toNat
      (freeLents q mode s1.handles s1)) := by
    rw [freeLents_eq]
    exact h1
  exact (h2.setQueue (x := { Queue.empty with lock := _ }) rfl).giveBack hk

theorem releaseResource_tidy (h : Tidy k s) (r : Resource) : Ensures (releaseResource r s) (Tidy k) := by
  cases r with
  | irq => exact fun t ht => (waitIdle_tidy h.irqOff rfl t ht).mono rfl id (fun _ => rfl) id
  | qr q => exact freeQueue_tidy hk h q .orphan
  | win => exact .ok h

theorem releaseAll_tidy (rs : List Resource) (h : Tidy k s) : Ensures (releaseAll rs s) (Tidy k) := by
  induction rs generalizing s with
  | nil => exact .ok h
  | cons r rest ih => exact (releaseResource_tidy hk (s := { s with acq := rest }) h r).bind fun _ h1 => ih h1

theorem failWith_tidy (h : Tidy k s) (e : Err) : Ensures (failWith e s) (Tidy k) :=
  ((writeFailedBit_tidy h e).bind fun _ h1 => (releaseAll_tidy hk _ h1).bind fun _ h2 =>
    .ok h2 : Ensures (failEntry e s) (Tidy k)).bind fun _ h3 => .ok h3

theorem detachQueue_tidy (h : Tidy k s) (q : Role) : Ensures (detachQueue q s) (Tidy k) := by
  unfold detachQueue
  split
  · dsimp only
    split
    · exact freeQueue_tidy hk h q .giveBack
    · exact (drainList_tidy hk h q).bind fun _ h1 => freeQueue_tidy hk h1 q .giveBack
  · exact .ok h

theorem detachQueues_tidy (qs : List Role) (h : Tidy k s) : Ensures (detachQueues qs s) (Tidy k) := by
  induction qs generalizing s with
  | nil => exact .ok h
  | cons q rest ih => exact (detachQueue_tidy hk h q).bind fun _ h1 => ih h1

theorem detachDevice_tidy (h : Tidy k s) : Ensures (detachDevice s) (Tidy k) := by
  refine (waitIdle_tidy h.irqOff rfl).bind fun s1 h1 => ?_
  have key : ∀ s2, Tidy { k with quiet := true } s2 → Ensures (detachQueues s2.detachRoles s2) (fun s3 =>
      Tidy k { s3 with winMapped := false, acq := [], offered := 0, negotiated := 0, qsize := ⟨0, 0, 0⟩, stShadow := 0
                       isrLat := 0, dq := .q0, walk := .enter, fsm := .detached }) := fun s2 h2 s3 h3 => by
    have h4 := detachQueues_tidy (k := { k with quiet := true }) hk _ h2 s3 h3
    have hidle := (h4.quiet rfl).1
    exact (h4.moveWalk (t := { s3 with winMapped := false, acq := [], offered := 0, negotiated := 0, qsize := ⟨0, 0, 0⟩
                                       stShadow := 0, isrLat := 0, dq := .q0, walk := .enter, fsm := .detached })
      (State.drainOf_of_disp (by rw [hidle]; decide)) (State.drainOf_of_walk fun r hr => by cases hr) (fun _ => hidle)
      rfl rfl rfl rfl).mono rfl id (fun _ => rfl) id
  dsimp only
  split
  · exact (statusWrite0_tidy h1).bind fun _ h2 => (key _ h2).bind fun _ h3 => .ok h3
  · exact (key _ h1).bind fun _ h3 => .ok h3

end

/-! ## The commands give back every lock and leave no store pending (20 R84, 41 R162) -/

section
variable {s : State} (h : Tidy .none s)
include h

theorem execBuReset_tidy : EnsuresNext (execBuReset s) (Tidy .none) := by
  unfold execBuReset
  split
  · have hm : Tidy .none (newInstance s).platMap.2 := by
      unfold State.platMap
      split <;> exact h
    dsimp only
    rw [choose_eq]
    refine Ensures.finish ?_
    split
    · exact (statusWrite0_tidy (s := { (newInstance s).platMap.2 with winMapped := true, acq := _ }) hm).bind
        fun _ h1 => .ok h1
    · exact failWith_tidy rfl hm _
  · exact .next h

theorem execBuAck_tidy : EnsuresNext (execBuAck s) (Tidy .none) := by
  unfold execBuAck
  split
  · refine Ensures.finish <| (pciRead_tidy (cmdCtx_keepsTidy _) h _).bind fun _ h1 =>
      (pciRead_tidy (cmdCtx_keepsTidy _) h1 _).bind fun _ h2 =>
        (pciRead_tidy (cmdCtx_keepsTidy _) h2 _).bind fun _ h3 => ?_
    dsimp only
    split
    · exact (statusWrite_tidy h3 _).bind fun _ h4 => .ok h4
    · exact failWith_tidy rfl h3 _
  · exact .next h

theorem readQueueSize_tidy (q : Role) : Ensures (readQueueSize q s) (Tidy .none) :=
  (regWrite_tidy (cmdCtx_keepsTidy _) h _ _ _ _).bind fun _ h1 =>
    (regRead_tidy (cmdCtx_keepsTidy _) h1 _ _ _).bind fun _ h2 => .ok h2

theorem execBuDriver_tidy : EnsuresNext (execBuDriver s) (Tidy .none) := by
  unfold execBuDriver
  split
  · refine Ensures.finish <| (readQueueSize_tidy h _).bind fun _ h1 => (readQueueSize_tidy h1 _).bind
      fun _ h2 => (readQueueSize_tidy h2 _).bind fun _ h3 =>
        (regRead_tidy (cmdCtx_keepsTidy _) h3 _ _ _).bind fun r h4 => ?_
    have h5 : Tidy .none { r.2 with offered := BitVec.ofNat 32 r.1 } := h4
    dsimp only
    split
    · exact (statusWrite_tidy h5 _).bind fun _ h6 => .ok h6
    · exact failWith_tidy rfl h5 _
  · exact .next h

theorem execBuFeatures_tidy : EnsuresNext (execBuFeatures s) (Tidy .none) := by
  unfold execBuFeatures
  split
  · have hn : Tidy .none { s with negotiated := negotiate s.offered s.cfg.driverSupported } := h
    refine Ensures.finish ?_
    dsimp only
    split
    · exact failWith_tidy rfl hn _
    · exact (regWrite_tidy (cmdCtx_keepsTidy _) hn _ _ _ _).bind fun _ h1 => .ok h1
  · exact .next h

theorem execBuQwire_tidy (q : Role) : EnsuresNext (execBuQwire q s) (Tidy .none) := by
  unfold execBuQwire
  split
  · split
    · exact .next h
    · refine Ensures.finish ?_
      split
      · exact failWith_tidy rfl h _
      · exact (regWrite_tidy (cmdCtx_keepsTidy _) h _ _ _ _).bind fun _ h1 =>
          (regWrite_tidy (cmdCtx_keepsTidy _) h1 _ _ _ _).bind fun s2 h2 =>
            .ok (h2.setQueue (x := { s2.queue q with wired := true }) rfl : Tidy .none (s2.setQueue q _))
  · exact .next h

theorem execBuIrq_tidy : EnsuresNext (execBuIrq s) (Tidy .none) := by
  unfold execBuIrq
  split
  · exact .next ⟨h.disp, h.cmd, h.stores, fun hq => (by cases hq), h.alone⟩
  · exact .next h

theorem execBuOk_tidy : EnsuresNext (execBuOk s) (Tidy .none) := by
  unfold execBuOk
  split
  · exact Ensures.finish ((statusWrite_tidy h _).bind fun _ h1 => .ok h1)
  · exact .next h

theorem execBuFail_tidy : EnsuresNext (execBuFail s) (Tidy .none) := by
  unfold execBuFail
  split
  · exact .next h
  · exact Ensures.finish (failWith_tidy rfl h _)

theorem execBuDetach_tidy : EnsuresNext (execBuDetach s) (Tidy .none) := by
  unfold execBuDetach
  split
  · exact .next h
  · exact Ensures.finish ((detachDevice_tidy rfl h).bind fun _ h1 => .ok h1)

theorem regReadCommand_tidy (w : Win) (n : Nat) (off : BitVec 16) :
    EnsuresNext (regReadCommand w n off s) (Tidy .none) := by
  unfold regReadCommand
  split
  · split
    · exact Ensures.finish ((regRead_tidy (cmdCtx_keepsTidy _) h _ _ _).bind fun _ h1 => .ok h1)
    · exact .next h
  · exact .next h

theorem regWriteCommand_tidy (w : Win) (n : Nat) (off : BitVec 16) (value : Word) :
    EnsuresNext (regWriteCommand w n off value s) (Tidy .none) := by
  unfold regWriteCommand
  split
  · split
    · exact Ensures.finish ((regWrite_tidy (cmdCtx_keepsTidy _) h _ _ _ _).bind fun _ h1 => .ok h1)
    · exact .next h
  · exact .next h

theorem execPoolRelease_tidy (hd : Handle) : EnsuresNext (execPoolRelease hd s) (Tidy .none) := by
  unfold execPoolRelease
  split
  · split
    · exact .next h
    · split <;> exact .next h
  · exact .next h

theorem execLinkState_tidy : EnsuresNext (execLinkState s) (Tidy .none) := by
  unfold execLinkState
  split
  · exact Ensures.finish ((readLink_tidy (cmdCtx_keepsTidy _) h).bind fun _ h1 => .ok h1)
  · exact .next h

end

/-- PLAT's answer takes an entry of its input list, or draws a free value. -/
theorem State.platAlloc_snd (s : State) (len : Nat) :
    (s.platAlloc len).2
      = { s with platAllocs := (s.platAlloc len).2.platAllocs, draws := (s.platAlloc len).2.draws } := by
  unfold State.platAlloc State.allocWish
  cases s.platAllocs with
  | nil =>
    dsimp only
    split <;> rename_i heq <;> split at heq <;> cases heq <;> rfl
  | cons w rest => cases w <;> rfl

/-- Reserving a slot writes the slot table, PLAT's answers and the counter of free values alone. -/
theorem poolReserve_snd (internal : Bool) (dir : Dir) (len : BitVec 32) (s : State) :
    (poolReserve internal dir len s).2
      = { s with pool := (poolReserve internal dir len s).2.pool
                 platAllocs := (poolReserve internal dir len s).2.platAllocs
                 draws := (poolReserve internal dir len s).2.draws } := by
  have hplat := s.platAlloc_snd len.toNat
  unfold poolReserve
  split
  · rfl
  · split <;> rename_i heq <;> rw [heq] at hplat <;> dsimp only at hplat ⊢
    · rw [hplat]
    · rw [hplat]
      rfl

theorem poolReserve_tidy {k : Hold} {s : State} (h : Tidy k s) (internal : Bool) (dir : Dir) (len : BitVec 32) :
    Tidy k (poolReserve internal dir len s).2 := by
  rw [poolReserve_snd]
  exact h

theorem execPoolReserve_tidy {s : State} (h : Tidy .none s) (dir : Dir) (len : Word) :
    EnsuresNext (execPoolReserve dir len s) (Tidy .none) := by
  have hr := poolReserve_tidy h false dir len
  unfold execPoolReserve
  split
  · exact .next h
  · refine .next ?_
    split <;> rename_i hp <;> rw [hp] at hr <;> exact hr

/-! ## The ring commands (41) -/

/-- What CMD holds while it submits to a queue. -/
def Hold.submitting (q : Role) : Hold := { Hold.none with lock := some q, storing := true }

section
variable {q : Role} {s : State}

theorem writeDesc_tidy (h : Tidy (.submitting q) s) {table i addr len next : Nat} {fl : BitVec 16} :
    Ensures (writeDesc cmdCtx table i addr len fl next s) (Tidy (.submitting q)) :=
  have hc := cmdCtx_keepsTidy (.submitting q)
  (memWrite_tidy hc h rfl _ _ _).bind fun _ h1 => (memWrite_tidy hc h1 rfl _ _ _).bind fun _ h2 =>
    (memWrite_tidy hc h2 rfl _ _ _).bind fun _ h3 => memWrite_tidy hc h3 rfl _ _ _

theorem submitDirect_tidy (head : DescIdx) (l : List (Seg × DescIdx)) (h : Tidy (.submitting q) s) :
    Ensures (submitDirect cmdCtx q head l s) (Tidy (.submitting q)) := by
  induction l generalizing s with
  | nil => exact .ok h
  | cons p rest ih => exact (writeDesc_tidy h).bind fun s1 h1 => ih (h1.setQueue (x := (s1.queue q).setTag _ _) rfl)

theorem writeTable_tidy (table k : Nat) (segs : List Seg) (h : Tidy (.submitting q) s) :
    Ensures (writeTable cmdCtx table k segs s) (Tidy (.submitting q)) := by
  induction segs generalizing k s with
  | nil => exact .ok h
  | cons g rest ih => exact (writeDesc_tidy h).bind fun _ h1 => ih _ h1

theorem submitIndirect_tidy (head : DescIdx) (t : Nat) (segs : List Seg) (h : Tidy (.submitting q) s) :
    Ensures (submitIndirect cmdCtx q head t segs s) (Tidy (.submitting q)) :=
  (writeTable_tidy _ _ segs h).bind fun _ h1 => (writeDesc_tidy h1).bind fun s2 h2 =>
    .ok (h2.setQueue (x := (s2.queue q).setTag head _) rfl : Tidy _ (s2.setQueue q _))

/-- A FENCE of CMD leaves no store pending (20 R81). -/
theorem fence_settles {k : Hold} {s : State} (h : Tidy k s) :
    Ensures (fence cmdCtx s) (Tidy { k with storing := false }) :=
  ((cmdCtx_keepsTidy k) s h).bind fun s1 h1 => .ok (by
    have h2 := h1.same (sameRings_settle s1)
    refine ⟨h2.disp, h2.cmd, fun _ => ?_, h2.quiet, h2.alone⟩
    show s1.settle.wbuf = []
    rw [State.settle_eq])

theorem publish_tidy (head : DescIdx) (h : Tidy (.submitting q) s) :
    Ensures (publish cmdCtx q head s) (Tidy { Hold.none with lock := some q }) := by
  have hc := cmdCtx_keepsTidy (.submitting q)
  have hc' := cmdCtx_keepsTidy { Hold.none with lock := some q }
  refine (memWrite_tidy hc h rfl _ _ _).bind fun _ h1 => (fence_tidy hc h1).bind fun s2 h2 => ?_
  have h3 : Tidy (.submitting q) (s2.setQueue q { s2.queue q with availIdx := (s2.queue q).availIdx + 1 }) :=
    h2.setQueue rfl
  refine (memWrite_tidy hc h3 rfl _ _ _).bind fun _ h4 => (fence_settles h4).bind fun _ h5 =>
    (memRead_tidy hc' h5 _ _).bind fun _ h6 => ?_
  dsimp only
  split
  · exact .ok h6
  · exact regWrite_tidy hc' h6 _ _ _ _

theorem submitTail_tidy (head : DescIdx) (n : Nat) (ind : Option Handle) (segs : List Seg)
    (h : Tidy (.submitting q) s) : Ensures (submitTail cmdCtx q head n ind segs s) (Tidy .none) := by
  have hl : Tidy (.submitting q) (setLoans (some { q := q, head := head }) (segs.map segHandle) s) := by
    rw [setLoans_eq]
    exact h
  exact (publish_tidy head (hl.setQueue rfl : Tidy _ (recordHead q head n _ ind _))).bind fun _ h1 =>
    .ok (h1.giveBack (k := .none) rfl)

theorem submitChain_tidy (segs : List Seg) (h : Tidy { Hold.none with lock := some q } s) :
    Ensures (submitChain cmdCtx q segs s) (Tidy .none) := by
  have hx : Tidy { Hold.none with lock := some q }
      (s.setQueue q { s.queue q with free := (s.queue q).free.drop (s.need segs.length) }) := h.setQueue rfl
  have hr := poolReserve_tidy hx true .fromDevice (BitVec.ofNat 32 (16 * segs.length))
  have hs : ∀ {t : State}, Tidy { Hold.none with lock := some q } t → Tidy (.submitting q) t := fun ht =>
    ht.mono rfl (fun hf => by cases hf) id id
  unfold submitChain poolReserveInternal
  dsimp only
  split
  · split <;> rename_i hp <;> rw [hp] at hr
    · exact .ok (Tidy.giveBack (k := .none) (s := State.setQueue _ q _) (hr.setQueue rfl) rfl)
    · exact (submitIndirect_tidy _ _ segs (hs hr)).bind fun _ h1 => submitTail_tidy _ _ _ segs h1
  · exact (submitDirect_tidy _ _ (hs hx)).bind fun _ h1 => submitTail_tidy _ _ _ segs h1

theorem execVqSubmit_tidy (h : Tidy .none s) (q : Role) (segs : List Seg) :
    EnsuresNext (execVqSubmit q segs s) (Tidy .none) := by
  unfold execVqSubmit
  split
  · split
    · exact .next h
    · split
      · exact .next h
      · refine Ensures.finish <| (lock_tidy h rfl q).bind fun _ h1 => ?_
        split
        · exact .ok (h1.giveBack (k := .none) rfl)
        · split
          · exact .ok (h1.giveBack (k := .none) rfl)
          · exact submitChain_tidy segs h1
  · exact .next h

theorem execVqDrain_tidy (h : Tidy .none s) (q : Role) : EnsuresNext (execVqDrain q s) (Tidy .none) := by
  unfold execVqDrain
  split
  · exact Ensures.finish ((drainList_tidy rfl h q).bind fun _ h1 => .ok h1)
  · exact .next h

theorem execVqDestroy_tidy (h : Tidy .none s) (q : Role) : EnsuresNext (execVqDestroy q s) (Tidy .none) := by
  unfold execVqDestroy
  split
  · split
    · exact Ensures.finish ((freeQueue_tidy rfl h q _).bind fun _ h1 => .ok h1)
    · exact .next h
  · exact .next h

theorem createOn_tidy (h : Tidy { Hold.none with lock := some q } s) (size : BitVec 16) (r : Nat) :
    Tidy .none (createOn q size r s) := by
  have hz : Tidy { Hold.none with lock := some q } (memZeroSlot cmdCtx r s) := h
  have hq := hz.setQueue (x := createdQueue size r ((memZeroSlot cmdCtx r s).slot r).bus
    ((memZeroSlot cmdCtx r s).queue q).lock) rfl
  unfold createOn
  dsimp only
  split
  · exact Tidy.giveBack (k := .none) (s := { State.setQueue _ q _ with acq := _ }) hq rfl
  · exact Tidy.giveBack (k := .none) hq rfl

theorem execVqCreate_tidy (h : Tidy .none s) (q : Role) (size : BitVec 16) :
    EnsuresNext (execVqCreate q size s) (Tidy .none) := by
  unfold execVqCreate
  split
  · split
    · exact .next h
    · split
      · exact .next h
      · split
        · exact .next h
        · refine Ensures.finish <| (lock_tidy h rfl q).bind fun s1 h1 => ?_
          have hr := poolReserve_tidy h1 true .fromDevice (BitVec.ofNat 32 (regionBytes size.toNat))
          unfold poolReserveInternal
          split <;> rename_i hp <;> rw [hp] at hr
          · exact .ok (createOn_tidy hr size _)
          · have hu := hr.giveBack (k := .none) rfl
            dsimp only
            split
            · exact failWith_tidy rfl hu _
            · exact .ok hu
  · exact .next h

end

/-! ## Every step leaves the locks and the store buffer in order -/

theorem exec_tidy (i : Instr) {s : State} (h : Tidy .none s) : EnsuresNext (exec i s) (Tidy .none) := by
  cases i with
  | rd8 off => exact regReadCommand_tidy h .w0 1 off
  | rd16 off => exact regReadCommand_tidy h .w0 2 off
  | rd32 off => exact regReadCommand_tidy h .w0 4 off
  | wr8 off value => exact regWriteCommand_tidy h .w0 1 off value
  | wr16 off value => exact regWriteCommand_tidy h .w0 2 off value
  | wr32 off value => exact regWriteCommand_tidy h .w0 4 off value
  | drd8 off => exact regReadCommand_tidy h .w1 1 off
  | drd16 off => exact regReadCommand_tidy h .w1 2 off
  | drd32 off => exact regReadCommand_tidy h .w1 4 off
  | dwr8 off value => exact regWriteCommand_tidy h .w1 1 off value
  | dwr16 off value => exact regWriteCommand_tidy h .w1 2 off value
  | dwr32 off value => exact regWriteCommand_tidy h .w1 4 off value
  | vqCreate q size => exact execVqCreate_tidy h q size
  | vqDestroy q => exact execVqDestroy_tidy h q
  | vqSubmit q segs => exact execVqSubmit_tidy h q segs
  | vqDrain q => exact execVqDrain_tidy h q
  | poolReserve dir len => exact execPoolReserve_tidy h dir len
  | poolRelease hd => exact execPoolRelease_tidy h hd
  | buReset => exact execBuReset_tidy h
  | buAck => exact execBuAck_tidy h
  | buDriver => exact execBuDriver_tidy h
  | buFeatures => exact execBuFeatures_tidy h
  | buQwire q => exact execBuQwire_tidy h q
  | buIrq => exact execBuIrq_tidy h
  | buOk => exact execBuOk_tidy h
  | buFail => exact execBuFail_tidy h
  | buDetach => exact execBuDetach_tidy h
  | linkState => exact execLinkState_tidy h
  | propFeat => exact .next h
  | propQsize q => exact .next h

theorem State.nextTurn_tidy {s : State} (h : Tidy .none s) : Tidy .none s.nextTurn.2 := by
  unfold State.nextTurn
  split <;> exact h

theorem step_tidy {s : State} (h : Tidy .none s) : EnsuresNext (step s) (Tidy .none) := by
  have hn := State.nextTurn_tidy h
  cases hturn : s.nextTurn with
  | mk turn s1 =>
    rw [hturn] at hn
    cases turn with
    | cmd =>
      rw [step_of_nextTurn_cmd hturn]
      unfold cmdTurn
      split
      · exact .next hn
      · exact .next hn
      · rename_i i rest _
        exact exec_tidy i (s := { s1 with cmdPort := rest }) hn
    | act a =>
      rw [step_of_nextTurn_act hturn]
      cases a with
      | disp => exact Ensures.finish (dispTurn_tidy hn)
      | _ => exact .next (hn.same (sameRings_external s1 _))

end Sys2Proof.Machine

namespace Sys2Proof.Machine

/-! ## What a computation that does not stop ensures -/

/-- The computation does not stop in a fault, and its result has the property. -/
def Succeeds {α : Type} (x : Except Fault α) (p : α → Prop) : Prop := ∃ a, x = .ok a ∧ p a

theorem Succeeds.ok {α : Type} {p : α → Prop} {a : α} (h : p a) : Succeeds (.ok a) p := ⟨a, rfl, h⟩

theorem Succeeds.bind {α β : Type} {p : α → Prop} {q : β → Prop} {x : Except Fault α} {f : α → Except Fault β}
    (hx : Succeeds x p) (hf : ∀ a, p a → Succeeds (f a) q) : Succeeds (x >>= f) q := by
  obtain ⟨a, rfl, ha⟩ := hx
  exact hf a ha

theorem Succeeds.mono {α : Type} {p q : α → Prop} {x : Except Fault α} (hx : Succeeds x p) (h : ∀ a, p a → q a) :
    Succeeds x q := by
  obtain ⟨a, rfl, ha⟩ := hx
  exact .ok (h a ha)

/-- What the results of a computation have in any case, its result has when it does not stop. -/
theorem Succeeds.and {α : Type} {p q : α → Prop} {x : Except Fault α} (hx : Succeeds x p) (h : Ensures x q) :
    Succeeds x (fun a => p a ∧ q a) := by
  obtain ⟨a, hxa, ha⟩ := hx
  exact ⟨a, hxa, ha, h a hxa⟩

/-! ## Slots after an update -/

theorem State.slot_of_pool_set {s t : State} {h : Nat} {y : Slot} (ht : t.pool = s.pool.set h y) (k : Nat) :
    t.slot k = s.slot k ∨ k = h ∧ t.slot k = y := by
  unfold State.slot
  rw [ht]
  by_cases hk : h = k
  · subst hk
    by_cases hlt : h < s.pool.length
    · exact .inr ⟨rfl, by simp [List.getD, hlt]⟩
    · exact .inl (by rw [List.set_eq_of_length_le (Nat.le_of_not_lt hlt)])
  · exact .inl (by simp [List.getD, hk])

theorem State.slot_of_pool_set_ne {s t : State} {h : Nat} {y : Slot} (ht : t.pool = s.pool.set h y) {k : Nat}
    (hk : k ≠ h) : t.slot k = s.slot k :=
  (State.slot_of_pool_set ht k).resolve_right fun h => hk h.1

theorem State.slot_lt {s : State} {h : Nat} (hh : s.slot h ≠ Slot.free) : h < s.pool.length := by
  by_contra hlt
  exact hh (by simp [State.slot, List.getD, Nat.le_of_not_lt hlt])

/-- How many slots are on loan. -/
def State.loanCount (s : State) : Nat := s.pool.countP (fun x => x.loan.isSome)

theorem State.loanCount_le (s : State) : s.loanCount ≤ s.pool.length := List.countP_le_length

/-- Ending a loan lowers the count. -/
theorem State.loanCount_pool_set_lt {s t : State} {h : Nat} {y : Slot} (ht : t.pool = s.pool.set h y)
    (hy : y.loan = none) (hh : (s.slot h).loan.isSome = true) : t.loanCount < s.loanCount := by
  have hlt : h < s.pool.length := State.slot_lt fun hf => by rw [hf] at hh; cases hh
  have hx : s.pool[h].loan.isSome = true := by simpa [State.slot, List.getD, hlt] using hh
  have hpos : 0 < s.pool.countP (fun x => x.loan.isSome) := List.countP_pos_iff.2 ⟨_, List.getElem_mem hlt, hx⟩
  unfold State.loanCount
  rw [ht, List.countP_set hlt]
  simp only [hx, hy, Option.isSome_none, if_true, Bool.false_eq_true, if_false]
  omega

theorem countP_le_of_getD {α : Type} (p : α → Bool) (d : α) {l l' : List α} (hlen : l'.length = l.length)
    (h : ∀ i, p (l'.getD i d) = true → p (l.getD i d) = true) : l'.countP p ≤ l.countP p := by
  induction l' generalizing l with
  | nil => simp
  | cons x xs ih =>
    cases l with
    | nil => cases hlen
    | cons y ys =>
      have hrest : xs.countP p ≤ ys.countP p := ih (Nat.succ.inj hlen) fun i => h (i + 1)
      have hhead : p x = true → p y = true := h 0
      rw [List.countP_cons, List.countP_cons]
      split
      · rw [if_pos (hhead ‹_›)]
        omega
      · omega

theorem State.loanCount_mono {s t : State} (hlen : t.pool.length = s.pool.length)
    (h : ∀ k, (t.slot k).loan.isSome = true → (s.slot k).loan.isSome = true) : t.loanCount ≤ s.loanCount :=
  countP_le_of_getD _ Slot.free hlen h

/-! ## Tags -/

theorem Queue.descAt_setTag (x : Queue) (i j : DescIdx) (t : Tag) :
    (x.setTag i t).descAt j = if j = i ∧ i.toNat < x.desc.length then { x.descAt i with tag := t } else x.descAt j := by
  unfold Queue.setTag Queue.descAt
  by_cases hij : j = i
  · subst hij
    by_cases hlt : j.toNat < x.desc.length
    · simp [List.getD, hlt]
    · simp [hlt]
  · have : i.toNat ≠ j.toNat := fun h => hij (BitVec.eq_of_toNat_eq h.symm)
    simp [List.getD, this, hij]

/-- The rest of a descriptor's entry stays when its tag changes. -/
theorem Queue.descAt_setTag_of_tag (x : Queue) (i j : DescIdx) (t : Tag) :
    ((x.setTag i t).descAt j).ind = (x.descAt j).ind ∧ ((x.setTag i t).descAt j).chainLen = (x.descAt j).chainLen := by
  rw [Queue.descAt_setTag]
  split
  · rename_i h
    rw [h.1]
    exact ⟨rfl, rfl⟩
  · exact ⟨rfl, rfl⟩

theorem Queue.tagAt_setTag_self (x : Queue) {i : DescIdx} (t : Tag) (hi : i.toNat < x.desc.length) :
    (x.setTag i t).tagAt i = t := by
  unfold Queue.tagAt
  rw [Queue.descAt_setTag, if_pos ⟨rfl, hi⟩]

theorem Queue.tagAt_setTag_ne (x : Queue) {i j : DescIdx} (t : Tag) (h : j ≠ i) :
    (x.setTag i t).tagAt j = x.tagAt j := by
  unfold Queue.tagAt
  rw [Queue.descAt_setTag, if_neg fun hh => h hh.1]

@[simp] theorem Queue.setTag_desc_length (x : Queue) (i : DescIdx) (t : Tag) :
    (x.setTag i t).desc.length = x.desc.length := by
  simp [Queue.setTag]

/-- Two contexts of a queue agree on whether it exists, on its region and on its size. -/
structure Queue.SameLayout (x y : Queue) : Prop where
  valid : x.valid = y.valid
  n : x.n = y.n
  region : x.region = y.region
  base : x.base = y.base
  entries : x.desc.length = y.desc.length

/-- Two contexts of a queue agree on what a drain or a submission leaves alone: the layout and the lock. -/
structure Queue.SameShape (x y : Queue) : Prop extends Queue.SameLayout x y where
  lock : x.lock = y.lock

theorem Queue.SameLayout.refl (x : Queue) : x.SameLayout x := ⟨rfl, rfl, rfl, rfl, rfl⟩

theorem Queue.SameShape.refl (x : Queue) : x.SameShape x := ⟨.refl x, rfl⟩

theorem Queue.SameShape.trans {x y z : Queue} (h : x.SameShape y) (g : y.SameShape z) : x.SameShape z :=
  ⟨⟨h.valid.trans g.valid, h.n.trans g.n, h.region.trans g.region, h.base.trans g.base, h.entries.trans g.entries⟩,
   h.lock.trans g.lock⟩

theorem Queue.setTag_sameShape (x : Queue) (i : DescIdx) (t : Tag) : (x.setTag i t).SameShape x :=
  ⟨⟨rfl, rfl, rfl, rfl, x.setTag_desc_length i t⟩, rfl⟩

theorem Queue.setTags_sameShape (x : Queue) (t : Tag) (order : List DescIdx) : (x.setTags t order).SameShape x := by
  induction order generalizing x with
  | nil => exact .refl x
  | cons i rest ih => exact (ih (x.setTag i t)).trans (x.setTag_sameShape i t)

@[simp] theorem Queue.setTags_free (x : Queue) (t : Tag) (order : List DescIdx) :
    (x.setTags t order).free = x.free := by
  induction order generalizing x with
  | nil => rfl
  | cons i rest ih => exact ih (x.setTag i t)

@[simp] theorem Queue.setTags_broken (x : Queue) (t : Tag) (order : List DescIdx) :
    (x.setTags t order).broken = x.broken := by
  induction order generalizing x with
  | nil => rfl
  | cons i rest ih => exact ih (x.setTag i t)

theorem Queue.ind_setTags (x : Queue) (t : Tag) (order : List DescIdx) (j : DescIdx) :
    ((x.setTags t order).descAt j).ind = (x.descAt j).ind := by
  induction order generalizing x with
  | nil => rfl
  | cons i rest ih => exact (ih (x.setTag i t)).trans (x.descAt_setTag_of_tag i j t).1

theorem Queue.chainLen_setTags (x : Queue) (t : Tag) (order : List DescIdx) (j : DescIdx) :
    ((x.setTags t order).descAt j).chainLen = (x.descAt j).chainLen := by
  induction order generalizing x with
  | nil => rfl
  | cons i rest ih => exact (ih (x.setTag i t)).trans (x.descAt_setTag_of_tag i j t).2

theorem Queue.tagAt_setTags_of_not_mem (x : Queue) (t : Tag) {order : List DescIdx} {j : DescIdx} (h : j ∉ order) :
    (x.setTags t order).tagAt j = x.tagAt j := by
  induction order generalizing x with
  | nil => rfl
  | cons i rest ih =>
    rw [List.mem_cons, not_or] at h
    exact (ih (x.setTag i t) h.2).trans (x.tagAt_setTag_ne t h.1)

theorem Queue.tagAt_setTags_of_mem (x : Queue) (t : Tag) {order : List DescIdx} {j : DescIdx} (h : j ∈ order)
    (hj : j.toNat < x.desc.length) : (x.setTags t order).tagAt j = t := by
  induction order generalizing x with
  | nil => cases h
  | cons i rest ih =>
    by_cases hr : j ∈ rest
    · exact ih (x.setTag i t) hr (by rwa [x.setTag_desc_length])
    · have hji : j = i := (List.mem_cons.1 h).resolve_right hr
      exact (Queue.tagAt_setTags_of_not_mem _ t hr).trans (hji ▸ x.tagAt_setTag_self t hj)

/-- The tag says that the descriptor is part of a chain in flight. -/
def Tag.isSubmitted : Tag → Bool
  | .submitted _ => true
  | _ => false

/-- How many descriptors have a tag of this kind. -/
def Queue.countTag (x : Queue) (p : Tag → Bool) : Nat := x.desc.countP (fun d => p d.tag)

/-- A descriptor that loses a tag of this kind is one less. -/
theorem Queue.countTag_setTag_lt (x : Queue) {p : Tag → Bool} {i : DescIdx} {t : Tag} (hi : i.toNat < x.desc.length)
    (hold : p (x.tagAt i) = true) (hnew : p t = false) : (x.setTag i t).countTag p < x.countTag p := by
  have hget : x.desc[i.toNat].tag = x.tagAt i := by simp [Queue.tagAt, Queue.descAt, List.getD, hi]
  have hx : p x.desc[i.toNat].tag = true := hget ▸ hold
  have hpos : 0 < x.desc.countP (fun d => p d.tag) := List.countP_pos_iff.2 ⟨_, List.getElem_mem hi, hx⟩
  unfold Queue.countTag Queue.setTag
  dsimp only
  rw [List.countP_set hi]
  simp only [hx, hnew, if_true, Bool.false_eq_true, if_false]
  omega

theorem Queue.countTag_setTags_le (x : Queue) {p : Tag → Bool} {t : Tag} (hnew : p t = false) (order : List DescIdx) :
    (x.setTags t order).countTag p ≤ x.countTag p := by
  induction order generalizing x with
  | nil => exact Nat.le_refl _
  | cons i rest ih =>
    refine (ih (x.setTag i t)).trans ?_
    by_cases hi : i.toNat < x.desc.length
    · by_cases hold : p (x.tagAt i) = true
      · exact (x.countTag_setTag_lt hi hold hnew).le
      · have hget : x.desc[i.toNat].tag = x.tagAt i := by simp [Queue.tagAt, Queue.descAt, List.getD, hi]
        unfold Queue.countTag Queue.setTag
        dsimp only
        rw [List.countP_set hi]
        simp [hget, hold, hnew]
    · unfold Queue.countTag Queue.setTag
      dsimp only
      rw [List.set_eq_of_length_le (Nat.le_of_not_lt hi)]

theorem Queue.countTag_le (x : Queue) (p : Tag → Bool) : x.countTag p ≤ x.desc.length := List.countP_le_length

end Sys2Proof.Machine

namespace Sys2Proof.Machine

/-! ## Bytes of a live slot exist (10 R46, 20 R79) -/

/-- The `n` bytes from `a` lie in the live slot `h`. -/
def State.InSlot (s : State) (h a n : Nat) : Prop :=
  (s.slot h).alloc = true ∧ (s.slot h).bus.toNat ≤ a ∧ a + n ≤ (s.slot h).bus.toNat + (s.slot h).len.toNat

theorem le_roundUp_page (x : Nat) : x ≤ roundUp x pageBytes := by
  unfold roundUp pageBytes
  omega

theorem State.InSlot.live {s : State} {h a n : Nat} (hs : s.InSlot h a n) {k : Nat} (hk : k < n) :
    poolKind s.pool (a + k) ≠ .dead := by
  obtain ⟨halloc, hlo, hhi⟩ := hs
  intro hdead
  have hlt : h < s.pool.length := State.slot_lt fun hf => by rw [hf] at halloc; cases halloc
  have hmem : s.slot h ∈ s.pool := by
    have : s.slot h = s.pool[h] := by simp [State.slot, List.getD, hlt]
    rw [this]
    exact List.getElem_mem hlt
  have hcov := (poolKind_dead_iff _ _).1 hdead _ hmem
  have hext : (s.slot h).len.toNat ≤ (s.slot h).extent := le_roundUp_page _
  simp only [Slot.covers, halloc, Bool.true_and, Bool.and_eq_false_imp, decide_eq_true_eq,
    decide_eq_false_iff_not] at hcov
  exact hcov (by omega) (by omega)

theorem State.InSlot.of_slot {s t : State} {h a n : Nat} (hs : s.InSlot h a n) (ht : t.slot h = s.slot h) :
    t.InSlot h a n := by
  unfold State.InSlot
  rw [ht]
  exact hs

theorem State.byteAt_isSome {s : State} {a : Nat} (h : poolKind s.pool a ≠ .dead) : (s.byteAt a).isSome = true := by
  unfold State.byteAt
  split
  · exact absurd ‹_› h
  · rfl
  · rfl

@[simp] theorem Ctx.view_pool (c : Ctx) (s : State) : (c.view s).pool = s.pool := by
  unfold Ctx.view
  split
  · rw [State.settle_eq]
  · rfl

/-- A read of bytes of a live slot does not fault (20 R79). -/
theorem memRead_of_inSlot {c : Ctx} {s s1 : State} (hgap : c.gap s = .ok s1) {h a n : Nat} (hs : s1.InSlot h a n) :
    ∃ v, memRead c a n s = .ok (v, s1.log c.agent (.memRead a n v)) := by
  have hb : ∀ k, k < n → (c.view s1).byteAt (a + k) = some (((c.view s1).byteAt (a + k)).getD 0) := by
    intro k hk
    have hsome : ((c.view s1).byteAt (a + k)).isSome = true := State.byteAt_isSome (by
      rw [Ctx.view_pool]
      exact hs.live hk)
    obtain ⟨b, hb⟩ := Option.isSome_iff_exists.1 hsome
    rw [hb]
    rfl
  exact ⟨_, memRead_of_gap hgap (State.readBytes_of_byteAt hb)⟩

/-- A store to bytes of a live slot does not fault (20 R79). -/
theorem memWrite_of_inSlot {c : Ctx} {s s1 : State} (hgap : c.gap s = .ok s1) {h a n : Nat} (hs : s1.InSlot h a n)
    (v : Nat) :
    memWrite c a n v s = .ok (State.log { s1 with wbuf := s1.wbuf ++ [{ addr := a, bytes := leBytes n v }] } c.agent
      (.memWrite a n v)) :=
  memWrite_of_gap hgap (State.checkLive_of_live fun _ hk => hs.live hk) v

/-! ## What a drain needs of its queue -/

section
variable (s : State) (q : Role)

/-- The region of a queue is a live internal slot of the queue's size, not on loan (10 R24, 20 R73, 41 R155). -/
structure State.RegionLive : Prop where
  pos : 1 ≤ (s.queue q).n.toNat
  le : (s.queue q).n.toNat ≤ 32768
  entries : (s.queue q).desc.length = (s.queue q).n.toNat
  alloc : (s.slot (s.queue q).region.toNat).alloc = true
  internal : (s.slot (s.queue q).region.toNat).internal = true
  loan : (s.slot (s.queue q).region.toNat).loan = none
  len : (s.slot (s.queue q).region.toNat).len.toNat = regionBytes (s.queue q).n.toNat
  bus : (s.slot (s.queue q).region.toNat).bus = (s.queue q).base

/-- Slot `k` is on loan to a chain of the queue. -/
def State.OnLoan (k : Nat) : Prop := ∃ i, (s.slot k).loan = some { q := q, head := i }

/-- The indirect table of head `i`, if it has one, is a live internal slot on loan to that chain (41 R163). -/
def State.TableLent (i : DescIdx) : Prop :=
  ∀ t, ((s.queue q).descAt i).ind = some t →
    (s.slot t.toNat).alloc = true ∧ (s.slot t.toNat).internal = true
      ∧ (s.slot t.toNat).loan = some { q := q, head := i }

/-- The free-list names descriptors of the queue, and the tables of the chains in flight are in place. -/
structure State.RingSound : Prop where
  free : ∀ i ∈ (s.queue q).free, i.toNat < (s.queue q).n.toNat
  tables : ∀ i, (s.queue q).tagAt i = .submitted i → s.TableLent q i

/-- The chain being walked: what has been visited are descriptors of the queue, the head's table is in place. -/
structure State.VisitSound (v : Visit) : Prop where
  visited : ∀ i ∈ v.visited, i.toNat < (s.queue q).n.toNat
  table : s.TableLent q v.id
  rest : v.rest < (s.queue q).n.toNat
  working : (s.queue q).broken = false

end

/-- The head has been visited, or it is still to be and the chain is too long to have ended without it. -/
def Queue.HeadSeen (x : Queue) (v : Visit) : Prop :=
  v.id ∈ v.visited ∨ x.tagAt v.id = .submitted v.id
    ∧ v.visited.length + x.countTag (fun t => t == .submitted v.id) ≤ (x.descAt v.id).chainLen.toNat

/-- What a drain knows at its position. -/
def State.PosSound (s : State) (q : Role) : DrainPos → Prop
  | .start => True
  | .element rest => (s.queue q).broken = false ∧ rest < (s.queue q).n.toNat
  | .length rest _ => (s.queue q).broken = false ∧ rest < (s.queue q).n.toNat
  | .flags v => s.VisitSound q v ∧ v.cur.toNat < (s.queue q).n.toNat ∧ (s.queue q).tagAt v.cur = .submitted v.id
      ∧ (v.cur = v.id ∨ (s.queue q).HeadSeen v)
  | .link v => s.VisitSound q v ∧ v.cur.toNat < (s.queue q).n.toNat ∧ (s.queue q).HeadSeen v
  | .unlend v _ => s.VisitSound q v ∧ v.id ∈ v.visited
  | .finished _ => True

/-- A drain of the queue can go on from its position. -/
structure State.DrainReady (s : State) (q : Role) (p : DrainPos) : Prop where
  valid : (s.queue q).valid = true
  region : s.RegionLive q
  ring : (s.queue q).broken = false → s.RingSound q
  pos : s.PosSound q p

/-- From `s` to `t` the queue's context and the slots of its region and of its chains' tables stay. -/
structure Keeps (q : Role) (s t : State) : Prop where
  queue : t.queue q = s.queue q
  region : t.slot (s.queue q).region.toNat = s.slot (s.queue q).region.toNat
  tables : ∀ k, (s.slot k).internal = true → s.OnLoan q k → t.slot k = s.slot k

section
variable {q : Role} {s t u : State}

theorem Keeps.refl (q : Role) (s : State) : Keeps q s s := ⟨rfl, rfl, fun _ _ _ => rfl⟩

theorem Keeps.trans (h : Keeps q s t) (g : Keeps q t u) : Keeps q s u := by
  refine ⟨g.queue.trans h.queue, ?_, fun k hi hk => ?_⟩
  · have := g.region
    rw [h.queue] at this
    exact this.trans h.region
  · have hst := h.tables k hi hk
    exact (g.tables k (by rwa [hst]) (by unfold State.OnLoan; rwa [hst])).trans hst

theorem Keeps.of_same (h : SameRings s t) : Keeps q s t := ⟨h.queue q, h.slot _, fun k _ _ => h.slot k⟩

theorem State.RegionLive.congr (hr : s.RegionLive q) (hq : t.queue q = s.queue q)
    (hslot : t.slot (s.queue q).region.toNat = s.slot (s.queue q).region.toNat) : t.RegionLive q := by
  constructor <;> rw [hq]
  · exact hr.pos
  · exact hr.le
  · exact hr.entries
  all_goals rw [hslot]
  · exact hr.alloc
  · exact hr.internal
  · exact hr.loan
  · exact hr.len
  · exact hr.bus

theorem State.RegionLive.keep (hr : s.RegionLive q) (h : Keeps q s t) : t.RegionLive q := hr.congr h.queue h.region

theorem State.TableLent.keep {i : DescIdx} (ht : s.TableLent q i) (h : Keeps q s t) : t.TableLent q i := by
  intro k hk
  rw [h.queue] at hk
  rw [h.tables k.toNat (ht k hk).2.1 ⟨i, (ht k hk).2.2⟩]
  exact ht k hk

theorem State.RingSound.keep (hr : s.RingSound q) (h : Keeps q s t) : t.RingSound q := by
  refine ⟨fun i hi => ?_, fun i hi => ?_⟩
  · rw [h.queue] at hi ⊢
    exact hr.free i hi
  · rw [h.queue] at hi
    exact (hr.tables i hi).keep h

theorem State.VisitSound.keep {v : Visit} (hv : s.VisitSound q v) (h : Keeps q s t) : t.VisitSound q v := by
  refine ⟨?_, hv.table.keep h, ?_, ?_⟩ <;> rw [h.queue]
  · exact hv.visited
  · exact hv.rest
  · exact hv.working

theorem State.PosSound.keep {p : DrainPos} (hp : s.PosSound q p) (h : Keeps q s t) : t.PosSound q p := by
  cases p <;> simp only [State.PosSound, h.queue] at hp ⊢
  case element | length => exact hp
  case flags | link | unlend => exact ⟨hp.1.keep h, hp.2⟩

theorem State.DrainReady.keep {p : DrainPos} (hd : s.DrainReady q p) (h : Keeps q s t) : t.DrainReady q p := by
  refine ⟨?_, hd.region.keep h, ?_, hd.pos.keep h⟩ <;> rw [h.queue]
  · exact hd.valid
  · exact fun hb => (hd.ring hb).keep h

/-- A range inside the region's bounds lies in the region's slot. -/
theorem State.RegionLive.inSlot (hr : s.RegionLive q) {a n : Nat} (hlo : (s.queue q).base.toNat ≤ a)
    (hhi : a + n ≤ (s.queue q).base.toNat + regionBytes (s.queue q).n.toNat) :
    s.InSlot (s.queue q).region.toNat a n := by
  refine ⟨hr.alloc, ?_, ?_⟩ <;> rw [hr.bus]
  · exact hlo
  · rw [hr.len]
    exact hhi

end

/-! ## The region's layout (20 R73 to R77) -/

theorem usedOff_bounds (n : Nat) : 18 * n + 4 ≤ usedOff n ∧ usedOff n + (4 + 8 * n) ≤ regionBytes n := by
  unfold regionBytes
  have h1 := le_roundUp_page (16 * n + 4 + 2 * n)
  have h2 := le_roundUp_page (4 + 8 * n)
  unfold usedOff
  omega

section
variable {s : State} {q : Role} (hr : s.RegionLive q)
include hr

theorem State.RegionLive.descField {i off n : Nat} (hi : i < (s.queue q).n.toNat) (hoff : off + n ≤ 16) :
    s.InSlot (s.queue q).region.toNat (descAddr (s.queue q).base.toNat i + off) n := by
  have := usedOff_bounds (s.queue q).n.toNat
  refine hr.inSlot ?_ ?_ <;> unfold descAddr <;> omega

theorem State.RegionLive.usedIdx :
    s.InSlot (s.queue q).region.toNat (usedIdxAddr (s.queue q).base.toNat (s.queue q).n.toNat) 2 := by
  have := usedOff_bounds (s.queue q).n.toNat
  refine hr.inSlot ?_ ?_ <;> unfold usedIdxAddr <;> omega

theorem State.RegionLive.usedFlags :
    s.InSlot (s.queue q).region.toNat (usedFlagsAddr (s.queue q).base.toNat (s.queue q).n.toNat) 2 := by
  have := usedOff_bounds (s.queue q).n.toNat
  refine hr.inSlot ?_ ?_ <;> unfold usedFlagsAddr <;> omega

theorem State.RegionLive.availIdx :
    s.InSlot (s.queue q).region.toNat (availIdxAddr (s.queue q).base.toNat (s.queue q).n.toNat) 2 := by
  have := usedOff_bounds (s.queue q).n.toNat
  refine hr.inSlot ?_ ?_ <;> unfold availIdxAddr availOff <;> omega

theorem State.RegionLive.availElem (k : Nat) :
    s.InSlot (s.queue q).region.toNat
      (availElemAddr (s.queue q).base.toNat (s.queue q).n.toNat (k % (s.queue q).n.toNat)) 2 := by
  have := usedOff_bounds (s.queue q).n.toNat
  have := Nat.mod_lt k hr.pos
  refine hr.inSlot ?_ ?_ <;> unfold availElemAddr availOff <;> omega

theorem State.RegionLive.usedElem :
    s.InSlot (s.queue q).region.toNat
        (usedIdAddr (s.queue q).base.toNat (s.queue q).n.toNat (s.queue q).usedPos) 4
      ∧ s.InSlot (s.queue q).region.toNat
        (usedLenAddr (s.queue q).base.toNat (s.queue q).n.toNat (s.queue q).usedPos) 4 := by
  have := usedOff_bounds (s.queue q).n.toNat
  have : (s.queue q).usedPos < (s.queue q).n.toNat := Nat.mod_lt _ hr.pos
  refine ⟨hr.inSlot ?_ ?_, hr.inSlot ?_ ?_⟩
  · unfold usedIdAddr; omega
  · unfold usedIdAddr; omega
  · unfold usedLenAddr; omega
  · unfold usedLenAddr; omega

end

/-! ## One step of a drain -/

/-- What an invariant `I` of an agent's drain of queue `q` must survive: what happens before an access, which leaves the
queue and its slots alone; stores taking effect; changes of the queue's context that keep its shape; an indirect table
of the queue freed; for CMD, the loan of a slot of the queue ended. -/
structure DrainEnv (c : Ctx) (q : Role) (I : State → Prop) : Prop where
  gap : ∀ s, I s → Succeeds (c.gap s) (fun t => I t ∧ Keeps q s t ∧ t.loanCount ≤ s.loanCount)
  rest : ∀ s m w b, I s → (s.wbuf = [] → w = []) → I { s with mem := m, wbuf := w, bus := b }
  queue : ∀ s x, I s → x.SameShape (s.queue q) → I (s.setQueue q x)
  table : ∀ s k m, I s → (s.slot k).internal = true → s.OnLoan q k
    → I { s with pool := s.pool.set k Slot.free, mem := m }
  loan : c.agent = .cmd → ∀ s k, I s → (s.slot k).internal = false → s.OnLoan q k → I (endLoan k s)

/-- Two for each chain still to be read from the used ring and one for its end, two for each descriptor that can still
be visited. -/
def drainCost (x : Queue) : DrainPos → Nat
  | .start => 3 * x.n.toNat + 2 * x.countTag Tag.isSubmitted + 2
  | .element rest => 3 * rest + 2 * x.countTag Tag.isSubmitted + 4
  | .length rest _ => 3 * rest + 2 * x.countTag Tag.isSubmitted + 3
  | .flags v => 3 * v.rest + 2 * x.countTag Tag.isSubmitted + 2
  | .link v => 3 * v.rest + 2 * x.countTag Tag.isSubmitted + 3
  | .unlend v _ => 3 * v.rest + 2 * x.countTag Tag.isSubmitted + 2
  | .finished _ => 0

/-- The slots of the present chain whose loans have ended already. -/
def DrainPos.ended : DrainPos → List Handle
  | .unlend _ done => done
  | _ => []

/-- The slots a drain has to give back so far. -/
def DrainRun.gathered (r : DrainRun) : List Handle := r.out.flatMap (fun d => d.handles) ++ r.pos.ended

section
variable {c : Ctx} {q : Role} {I : State → Prop} (he : DrainEnv c q I) {s : State} (hI : I s)
include he hI

theorem memRead_succeeds {h a n : Nat} (hs : ∀ t, Keeps q s t → t.InSlot h a n) :
    Succeeds (memRead c a n s) (fun p => I p.2 ∧ Keeps q s p.2 ∧ p.2.loanCount ≤ s.loanCount) := by
  obtain ⟨s1, hgap, h1, hk, hl⟩ := he.gap s hI
  obtain ⟨v, hv⟩ := memRead_of_inSlot hgap (hs s1 hk)
  exact ⟨_, hv, he.rest s1 _ _ _ h1 id, hk.trans (.of_same (.of_eq rfl)), hl⟩

theorem fence_succeeds :
    Succeeds (fence c s) (fun t => I t ∧ Keeps q s t ∧ t.loanCount ≤ s.loanCount) := by
  obtain ⟨s1, hgap, h1, hk, hl⟩ := he.gap s hI
  have hsame := sameRings_drainStores c s1
  refine ⟨_, fence_of_gap hgap, ?_, hk.trans ((Keeps.of_same hsame).trans (.of_same (.of_eq rfl))), ?_⟩
  · unfold Ctx.drainStores
    split
    · rw [State.settle_eq]
      exact he.rest s1 _ _ _ h1 fun _ => rfl
    · exact he.rest s1 _ _ _ h1 id
  · show (c.drainStores s1).loanCount ≤ _
    rw [State.loanCount, hsame.pool]
    exact hl

end
end Sys2Proof.Machine

namespace Sys2Proof.Machine

theorem Queue.lt_of_submitted {x : Queue} {i h : DescIdx} (ht : x.tagAt i = .submitted h) :
    i.toNat < x.desc.length := by
  by_contra hlt
  have : x.descAt i = Desc.blank := by simp [Queue.descAt, List.getD, Nat.le_of_not_lt hlt]
  rw [Queue.tagAt, this] at ht
  cases ht

theorem Queue.countTag_pos {x : Queue} {p : Tag → Bool} {i : DescIdx} (hi : i.toNat < x.desc.length)
    (hp : p (x.tagAt i) = true) : 0 < x.countTag p := by
  have hget : x.desc[i.toNat].tag = x.tagAt i := by simp [Queue.tagAt, Queue.descAt, List.getD, hi]
  exact List.countP_pos_iff.2 ⟨_, List.getElem_mem hi, by rw [hget]; exact hp⟩

/-- A walk that has as many descriptors as its chain has met the head. -/
theorem Queue.HeadSeen.mem_of_length {x : Queue} {v : Visit} (h : x.HeadSeen v)
    (hlen : v.visited.length = (x.descAt v.id).chainLen.toNat) : v.id ∈ v.visited := by
  refine h.resolve_right ?_
  rintro ⟨htag, hle⟩
  have := x.countTag_pos (p := fun t => t == .submitted v.id) (Queue.lt_of_submitted htag) (by simp [htag])
  omega

/-- Visiting one more descriptor of the chain. -/
theorem Queue.HeadSeen.visit {x : Queue} {v : Visit} (hcur : v.cur.toNat < x.desc.length)
    (htag : x.tagAt v.cur = .submitted v.id) (h : v.cur = v.id ∨ x.HeadSeen v) :
    (x.setTag v.cur .completedPendingReturn).HeadSeen { v with visited := v.visited ++ [v.cur] } := by
  by_cases hid : v.id ∈ v.visited ++ [v.cur]
  · exact .inl hid
  · rw [List.mem_append, List.mem_singleton, not_or] at hid
    rcases h with h | h | ⟨htid, hle⟩
    · exact absurd h.symm hid.2
    · exact absurd h hid.1
    · refine .inr ⟨(x.tagAt_setTag_ne _ hid.2).trans htid, ?_⟩
      have := x.countTag_setTag_lt (p := fun t => t == .submitted v.id) (t := .completedPendingReturn) hcur
        (by simp [htag]) (by simp)
      rw [(x.descAt_setTag_of_tag _ _ _).2, List.length_append, List.length_singleton]
      dsimp only
      omega

section
variable {s : State} {q : Role}

/-- The region is live whatever else of the queue's context changes. -/
theorem State.RegionLive.setQueue (hr : s.RegionLive q) {x : Queue} (hx : x.SameLayout (s.queue q)) :
    (s.setQueue q x).RegionLive q := by
  constructor <;> simp only [State.queue_setQueue_self, State.slot_setQueue, hx.n, hx.entries, hx.region, hx.base]
  · exact hr.pos
  · exact hr.le
  · exact hr.entries
  · exact hr.alloc
  · exact hr.internal
  · exact hr.loan
  · exact hr.len
  · exact hr.bus

theorem State.TableLent.setQueue {i : DescIdx} (ht : s.TableLent q i) {x : Queue}
    (hx : (x.descAt i).ind = ((s.queue q).descAt i).ind) : (s.setQueue q x).TableLent q i := by
  intro k hk
  rw [State.queue_setQueue_self, hx] at hk
  exact ht k hk

/-- Once the tag of the present descriptor has changed, the drain can look at its link. -/
theorem State.DrainReady.visit {v : Visit} (hd : s.DrainReady q (.flags v)) :
    (s.setQueue q ((s.queue q).setTag v.cur .completedPendingReturn)).DrainReady q
      (.link { v with visited := v.visited ++ [v.cur] }) := by
  obtain ⟨hv, hcur, htag, hseen⟩ := hd.pos
  have hlt : v.cur.toNat < (s.queue q).desc.length := by rw [hd.region.entries]; exact hcur
  have hr := hd.ring hv.working
  have hind := fun i => ((s.queue q).descAt_setTag_of_tag v.cur i .completedPendingReturn).1
  have hseen' := Queue.HeadSeen.visit hlt htag hseen
  refine ⟨?_, hd.region.setQueue ((s.queue q).setTag_sameShape ..).toSameLayout,
    fun _ => ⟨fun i hi => ?_, fun i hi => ?_⟩, ⟨fun i hi => ?_, hv.table.setQueue (hind _), ?_, ?_⟩, ?_, ?_⟩
  case refine_3 =>
    rw [State.queue_setQueue_self] at hi
    have hne : i ≠ v.cur := fun h => by
      rw [h, (s.queue q).tagAt_setTag_self _ hlt] at hi
      cases hi
    rw [(s.queue q).tagAt_setTag_ne _ hne] at hi
    exact (hr.tables i hi).setQueue (hind i)
  all_goals rw [State.queue_setQueue_self] at *
  · exact hd.valid
  · exact hr.free i hi
  · rcases List.mem_append.1 hi with hi | hi
    · exact hv.visited i hi
    · rw [List.mem_singleton.1 hi]
      exact hcur
  · exact hv.rest
  · exact hv.working
  · exact hcur
  · exact hseen'

/-- A drain that ends in corruption leaves the queue broken, and there is nothing more to know of it (41 R166). -/
theorem State.DrainReady.fault {p : DrainPos} (hd : s.DrainReady q p) :
    (markBroken q s).DrainReady q (.finished true) := by
  refine ⟨?_, hd.region.setQueue ⟨rfl, rfl, rfl, rfl, rfl⟩, fun hb => ?_, trivial⟩
  · simpa [markBroken] using hd.valid
  · simp [markBroken] at hb

end

@[simp] theorem nextElement_ended (m : Nat) : (nextElement m).ended = [] := by cases m <;> rfl

/-- What a step of a drain ensures: the invariant, that the drain can go on from its new position, and that less
remains to be done than `cost`. -/
def PosDone (q : Role) (I : State → Prop) (cost : Nat) (p : DrainPos × State) : Prop :=
  I p.2 ∧ p.2.DrainReady q p.1 ∧ p.2.loanCount + drainCost (p.2.queue q) p.1 < cost

section
variable {c : Ctx} {q : Role} {I : State → Prop} (he : DrainEnv c q I) {s : State}
include he

theorem drainFault_done {cost : Nat} {p : DrainPos} (hI : I s) (hd : s.DrainReady q p) (hc : s.loanCount < cost) :
    PosDone q I cost (drainFault q s) :=
  ⟨he.queue s _ hI ⟨⟨rfl, rfl, rfl, rfl, rfl⟩, rfl⟩, hd.fault, hc⟩

variable (hI : I s)
include hI

theorem drainStart_done (hd : s.DrainReady q .start) :
    Succeeds (drainStart c q s)
      (fun p => PosDone q I (s.loanCount + drainCost (s.queue q) .start) p ∧ p.1.ended = []) := by
  unfold drainStart
  split
  · exact .ok ⟨⟨hI, ⟨hd.valid, hd.region, hd.ring, trivial⟩, by simp [drainCost]⟩, rfl⟩
  · rename_i hb
    refine (memRead_succeeds he hI (fun t ht => by
      have := (hd.region.keep ht).usedIdx
      rwa [ht.queue] at this)).bind ?_
    rintro ⟨idx, s1⟩ ⟨h1, hk1, hl1⟩
    refine (fence_succeeds he h1).bind ?_
    rintro s2 ⟨h2, hk2, hl2⟩
    have hk := hk1.trans hk2
    have hd2 := hd.keep hk
    dsimp only at hl1 hl2 ⊢
    split
    · exact .ok ⟨drainFault_done he h2 hd2 (by simp only [drainCost]; omega), rfl⟩
    · rename_i hpend
      rw [hk.queue] at hpend ⊢
      refine .ok ⟨⟨h2, ⟨hd2.valid, hd2.region, hd2.ring, ?_⟩, ?_⟩, nextElement_ended _⟩
      · dsimp only
        generalize (BitVec.ofNat 16 idx - (s.queue q).lastUsed).toNat = pend at hpend ⊢
        cases pend with
        | zero => trivial
        | succ m => exact ⟨by rw [hk.queue]; simpa using hb, by rw [hk.queue]; omega⟩
      · dsimp only
        rw [hk.queue]
        generalize (BitVec.ofNat 16 idx - (s.queue q).lastUsed).toNat = pend at hpend ⊢
        cases pend <;> simp only [nextElement, drainCost] <;> omega

theorem drainId_done {rest : Nat} (hd : s.DrainReady q (.element rest)) :
    Succeeds (drainId c q rest s)
      (fun p => PosDone q I (s.loanCount + drainCost (s.queue q) (.element rest)) p ∧ p.1.ended = []) := by
  refine (memRead_succeeds he hI (fun t ht => by
    have := (hd.region.keep ht).usedElem.1
    rwa [ht.queue] at this)).bind ?_
  rintro ⟨id, s1⟩ ⟨h1, hk, hl⟩
  have hd1 := hd.keep hk
  refine .ok ⟨⟨h1, ⟨hd1.valid, hd1.region, hd1.ring, hd1.pos⟩, ?_⟩, rfl⟩
  simp only [hk.queue, drainCost]
  dsimp only at hl
  omega

theorem drainLength_done {rest id : Nat} (hd : s.DrainReady q (.length rest id)) :
    Succeeds (drainLength c q rest id s)
      (fun p => PosDone q I (s.loanCount + drainCost (s.queue q) (.length rest id)) p ∧ p.1.ended = []) := by
  refine (memRead_succeeds he hI (fun t ht => by
    have := (hd.region.keep ht).usedElem.2
    rwa [ht.queue] at this)).bind ?_
  rintro ⟨len, s1⟩ ⟨h1, hk, hl⟩
  have hd1 := hd.keep hk
  dsimp only at h1 hk hl hd1 ⊢
  split
  · rename_i hid
    obtain ⟨hworking, hrest⟩ := hd1.pos
    have hlt : (BitVec.ofNat 16 id : DescIdx).toNat < (s1.queue q).n.toNat :=
      (Nat.mod_le _ _).trans_lt hid.1
    refine .ok ⟨⟨h1, ⟨hd1.valid, hd1.region, hd1.ring, ⟨⟨?_, (hd1.ring hworking).tables _ hid.2, hrest, hworking⟩,
      hlt, hid.2, .inl rfl⟩⟩, ?_⟩, rfl⟩
    · simp
    · simp only [hk.queue, drainCost]
      omega
  · exact .ok ⟨drainFault_done he h1 hd1 (by simp only [drainCost]; omega), rfl⟩

theorem drainFlags_done {v : Visit} (hd : s.DrainReady q (.flags v)) :
    Succeeds (drainFlags c q v s)
      (fun p => PosDone q I (s.loanCount + drainCost (s.queue q) (.flags v)) p ∧ p.1.ended = []) := by
  obtain ⟨-, hcur, htag, -⟩ := hd.pos
  have hlt : v.cur.toNat < (s.queue q).desc.length := by rw [hd.region.entries]; exact hcur
  have hcount := (s.queue q).countTag_setTag_lt (p := Tag.isSubmitted) (t := .completedPendingReturn) hlt
    (by rw [htag]; rfl) rfl
  have hd' := hd.visit
  refine (memRead_succeeds he (he.queue s _ hI ((s.queue q).setTag_sameShape ..)) (fun t ht => by
    have := (hd'.region.keep ht).descField (i := v.cur.toNat) (off := 12) (n := 2)
      (by rw [ht.queue, State.queue_setQueue_self]; exact hcur) (by omega)
    rwa [ht.queue] at this)).bind ?_
  rintro ⟨fl, s1⟩ ⟨h1, hk, hl⟩
  have hd1 := hd'.keep hk
  have hqueue : s1.queue q = (s.queue q).setTag v.cur .completedPendingReturn := by
    rw [hk.queue, State.queue_setQueue_self]
  have hl' : s1.loanCount ≤ s.loanCount := hl
  dsimp only at h1 hd1 ⊢
  split
  · refine .ok ⟨⟨h1, hd1, ?_⟩, rfl⟩
    simp only [hqueue, drainCost]
    omega
  · split
    · rename_i hlen
      obtain ⟨hv1, -, hseen1⟩ := hd1.pos
      refine .ok ⟨⟨h1, ⟨hd1.valid, hd1.region, hd1.ring, hv1, hseen1.mem_of_length hlen⟩, ?_⟩, rfl⟩
      simp only [hqueue, drainCost]
      omega
    · exact .ok ⟨drainFault_done he h1 hd1 (by simp only [drainCost]; omega), rfl⟩

theorem drainLink_done {v : Visit} (hd : s.DrainReady q (.link v)) :
    Succeeds (drainLink c q v s)
      (fun p => PosDone q I (s.loanCount + drainCost (s.queue q) (.link v)) p ∧ p.1.ended = []) := by
  refine (memRead_succeeds he hI (fun t ht => by
    have := (hd.region.keep ht).descField (i := v.cur.toNat) (off := 14) (n := 2)
      (by rw [ht.queue]; exact hd.pos.2.1) (by omega)
    rwa [ht.queue] at this)).bind ?_
  rintro ⟨nx, s1⟩ ⟨h1, hk, hl⟩
  have hd1 := hd.keep hk
  dsimp only at h1 hk hl hd1 ⊢
  split
  · rename_i hnx
    obtain ⟨hv, -, hseen⟩ := hd1.pos
    have hlt : (BitVec.ofNat 16 nx : DescIdx).toNat < (s1.queue q).n.toNat := (Nat.mod_le _ _).trans_lt hnx.1
    refine .ok ⟨⟨h1, ⟨hd1.valid, hd1.region, hd1.ring, ⟨hv.visited, hv.table, hv.rest, hv.working⟩, hlt, hnx.2,
      .inr hseen⟩, ?_⟩, rfl⟩
    simp only [hk.queue, drainCost]
    omega
  · exact .ok ⟨drainFault_done he h1 hd1 (by simp only [drainCost]; omega), rfl⟩

end

/-! ### The end of a chain -/

theorem State.mem_lentTo {s : State} {q : Role} {i : DescIdx} {h : Handle} (hh : h ∈ s.lentTo q i) :
    (s.slot h.toNat).loan = some { q := q, head := i } ∧ (s.slot h.toNat).internal = false := by
  simp only [State.lentTo, List.mem_filter, Bool.and_eq_true, beq_iff_eq, Bool.not_eq_true'] at hh
  exact hh.2

/-- A command slot of a chain of the queue. -/
def State.Lent (s : State) (q : Role) (k : Nat) : Prop := (s.slot k).internal = false ∧ s.OnLoan q k

/-- The context of a queue once a chain has been reclaimed. -/
def Queue.reclaimed (x : Queue) (order : List DescIdx) : Queue :=
  { x.setTags .free order with free := x.free ++ order, lastUsed := x.lastUsed + 1 }

theorem Queue.setTags_lastUsed (x : Queue) (t : Tag) (order : List DescIdx) :
    (x.setTags t order).lastUsed = x.lastUsed := by
  induction order generalizing x with
  | nil => rfl
  | cons i rest ih => exact ih (x.setTag i t)

theorem reclaim_of_no_table {q : Role} {id : DescIdx} {s : State} (hind : ((s.queue q).descAt id).ind = none)
    (order : List DescIdx) : reclaim q id order s = s.setQueue q ((s.queue q).reclaimed order) := by
  unfold reclaim
  simp only [Queue.ind_setTags, hind, Queue.reclaimed, Queue.setTags_free, Queue.setTags_lastUsed]

theorem reclaim_of_table {q : Role} {id : DescIdx} {s : State} {t : Handle}
    (hind : ((s.queue q).descAt id).ind = some t) (order : List DescIdx) :
    reclaim q id order s = poolFree t.toNat (s.setQueue q ((s.queue q).reclaimed order)) := by
  unfold reclaim
  simp only [Queue.ind_setTags, hind, Queue.reclaimed, Queue.setTags_free, Queue.setTags_lastUsed]

theorem Queue.reclaimed_sameShape (x : Queue) (order : List DescIdx) : (x.reclaimed order).SameShape x := by
  obtain ⟨⟨h1, h2, h3, h4, h5⟩, h6⟩ := x.setTags_sameShape .free order
  exact ⟨⟨h1, h2, h3, h4, h5⟩, h6⟩

section
variable {s t : State} {q : Role} {v : Visit} {done : List Handle} (hd : s.DrainReady q (.unlend v done))
include hd

/-- A head still in flight once the chain is reclaimed is another one, and its table is in place. -/
theorem State.DrainReady.inFlight_of_reclaimed {i : DescIdx}
    (hi : ((s.queue q).reclaimed v.visited).tagAt i = .submitted i) : i ≠ v.id ∧ s.TableLent q i := by
  obtain ⟨hv, hid⟩ := hd.pos
  have hi' : ((s.queue q).setTags .free v.visited).tagAt i = .submitted i := hi
  have hnot : i ∉ v.visited := fun hmem => by
    rw [Queue.tagAt_setTags_of_mem _ _ hmem (by rw [hd.region.entries]; exact hv.visited i hmem)] at hi'
    cases hi'
  rw [Queue.tagAt_setTags_of_not_mem _ _ hnot] at hi'
  exact ⟨fun h => hnot (h ▸ hid), (hd.ring hv.working).tables i hi'⟩

/-- With the chain reclaimed and the other chains' tables in place the drain can go on. -/
theorem State.DrainReady.reclaimed (hq : t.queue q = (s.queue q).reclaimed v.visited)
    (hregion : t.slot (s.queue q).region.toNat = s.slot (s.queue q).region.toNat)
    (htables : ∀ i, ((s.queue q).reclaimed v.visited).tagAt i = .submitted i → t.TableLent q i) :
    t.DrainReady q (nextElement v.rest) := by
  obtain ⟨hv, -⟩ := hd.pos
  have hshape := (s.queue q).reclaimed_sameShape v.visited
  have hlive := hd.region.setQueue hshape.toSameLayout
  refine ⟨?_, hlive.congr (hq.trans (State.queue_setQueue_self ..).symm) ?_,
    fun _ => ⟨fun i hi => ?_, fun i hi => ?_⟩, ?_⟩
  · rw [hq, hshape.valid]
    exact hd.valid
  · rw [State.queue_setQueue_self, hshape.region]
    exact hregion
  · rw [hq] at hi ⊢
    rw [hshape.n]
    rcases List.mem_append.1 hi with hi | hi
    · exact (hd.ring hv.working).free i hi
    · exact hv.visited i hi
  · rw [hq] at hi
    exact htables i hi
  · have hrest := hv.rest
    cases hm : v.rest with
    | zero => trivial
    | succ m =>
      refine ⟨by rw [hq]; exact (Queue.setTags_broken _ _ _).trans hv.working, ?_⟩
      rw [hq, hshape.n]
      omega

end

theorem nextElement_cost (x : Queue) (m : Nat) :
    drainCost x (nextElement m) < 3 * m + 2 * x.countTag Tag.isSubmitted + 2 := by
  cases m <;> simp only [nextElement, drainCost] <;> omega

section
variable {c : Ctx} {q : Role} {I : State → Prop} (he : DrainEnv c q I) {s : State} (hI : I s)
include he hI

/-- Reclaiming the chain whose walk has been accepted (41 R165). -/
theorem reclaim_done {v : Visit} {done : List Handle} (hd : s.DrainReady q (.unlend v done)) :
    PosDone q I (s.loanCount + drainCost (s.queue q) (.unlend v done))
        (nextElement v.rest, reclaim q v.id v.visited s)
      ∧ ∀ k, s.Lent q k → (reclaim q v.id v.visited s).Lent q k := by
  have hI2 := he.queue s _ hI ((s.queue q).reclaimed_sameShape v.visited)
  have hcount : ((s.queue q).reclaimed v.visited).countTag Tag.isSubmitted ≤ (s.queue q).countTag Tag.isSubmitted :=
    (s.queue q).countTag_setTags_le rfl v.visited
  have hcost := nextElement_cost ((s.queue q).reclaimed v.visited) v.rest
  have hbefore : drainCost (s.queue q) (.unlend v done)
      = 3 * v.rest + 2 * (s.queue q).countTag Tag.isSubmitted + 2 := rfl
  cases hind : ((s.queue q).descAt v.id).ind with
  | none =>
    rw [reclaim_of_no_table hind]
    have hqueue := s.queue_setQueue_self q ((s.queue q).reclaimed v.visited)
    refine ⟨⟨hI2, hd.reclaimed hqueue rfl fun i hi => ?_, ?_⟩, fun k hk => hk⟩
    · exact (hd.inFlight_of_reclaimed hi).2.setQueue (Queue.ind_setTags _ _ _ _)
    · dsimp only
      rw [hqueue]
      have : (s.setQueue q ((s.queue q).reclaimed v.visited)).loanCount = s.loanCount := rfl
      omega
  | some t =>
    obtain ⟨-, hint, hloan⟩ := hd.pos.1.table t hind
    rw [reclaim_of_table hind]
    have hset : (poolFree t.toNat (s.setQueue q ((s.queue q).reclaimed v.visited))).pool
        = s.pool.set t.toNat Slot.free := rfl
    have hslot : ∀ k, k ≠ t.toNat →
        (poolFree t.toNat (s.setQueue q ((s.queue q).reclaimed v.visited))).slot k = s.slot k :=
      fun k hk => State.slot_of_pool_set_ne hset hk
    have hqueue : (poolFree t.toNat (s.setQueue q ((s.queue q).reclaimed v.visited))).queue q
        = (s.queue q).reclaimed v.visited := State.queue_setQueue_self ..
    refine ⟨⟨he.table _ _ _ hI2 hint ⟨_, hloan⟩, hd.reclaimed hqueue (hslot _ fun h => ?_) fun i hi k hk => ?_, ?_⟩,
      fun k hk => ?_⟩
    · have := hd.region.loan
      rw [h, hloan] at this
      cases this
    · rw [hqueue] at hk
      obtain ⟨hne, hlent⟩ := hd.inFlight_of_reclaimed hi
      have hlk := hlent k ((congrArg (· = some k) (Queue.ind_setTags _ _ _ _)).mp hk)
      rw [hslot _ fun h => hne ?_]
      · exact hlk
      · have h1 := hlk.2.2
        rw [h, hloan] at h1
        exact (congrArg Loan.head (Option.some.inj h1)).symm
    · have hlt := State.loanCount_pool_set_lt hset rfl (by rw [hloan]; rfl)
      dsimp only
      rw [hqueue]
      omega
    · have hne : k ≠ t.toNat := fun h => by
        have h1 := hk.1
        rw [h, hint] at h1
        cases h1
      unfold State.Lent State.OnLoan
      rw [hslot k hne]
      exact hk

/-- Ending one loan of the chain whose walk has been accepted (41 R165). -/
theorem endLoan_done (hc : c.agent = .cmd) {v : Visit} {done done' : List Handle}
    (hd : s.DrainReady q (.unlend v done)) {h : Handle} (hh : h ∈ s.lentTo q v.id) :
    PosDone q I (s.loanCount + drainCost (s.queue q) (.unlend v done)) (.unlend v done', endLoan h.toNat s) := by
  obtain ⟨hloan, hint⟩ := State.mem_lentTo hh
  have hset : (endLoan h.toNat s).pool = s.pool.set h.toNat { s.slot h.toNat with loan := none } := rfl
  have hkeep : Keeps q s (endLoan h.toNat s) := by
    refine ⟨rfl, State.slot_of_pool_set_ne hset fun heq => ?_, fun k hk _ =>
      State.slot_of_pool_set_ne hset fun heq => ?_⟩
    · have := hd.region.internal
      rw [heq, hint] at this
      cases this
    · rw [heq, hint] at hk
      cases hk
  have hd1 := hd.keep hkeep
  refine ⟨he.loan hc s _ hI hint ⟨_, hloan⟩, ⟨hd1.valid, hd1.region, hd1.ring, hd1.pos⟩, ?_⟩
  have hlt := State.loanCount_pool_set_lt hset rfl (by rw [hloan]; rfl)
  exact Nat.add_lt_add_right hlt _

/-- One step of a drain that has not ended: it does not fault, the drain can go on, and less remains to be done. What
DISP has newly gathered are slots of the queue's chains, still on loan (41 R164 to R166, 44 R234). -/
theorem drainStep_done {r : DrainRun} (hd : s.DrainReady q r.pos) (hp : ∀ b, r.pos ≠ .finished b) :
    Succeeds (drainStep c q r s) (fun p =>
      PosDone q I (s.loanCount + drainCost (s.queue q) r.pos) (p.1.pos, p.2)
        ∧ (c.agent = .disp → ∀ h ∈ p.1.gathered, h ∈ r.gathered ∨ p.2.Lent q h.toNat)) := by
  have hmove : ∀ {p : DrainPos} {t : State}, p.ended = [] → ∀ h ∈ DrainRun.gathered { r with pos := p },
      h ∈ r.gathered ∨ t.Lent q h.toNat := fun hp h hh => .inl <| by
    simp only [DrainRun.gathered, hp, List.append_nil] at hh
    exact List.mem_append.2 (.inl hh)
  unfold drainStep
  cases hpos : r.pos with
  | finished b => exact absurd hpos (hp b)
  | start => exact (drainStart_done he hI (hpos ▸ hd)).bind fun _ h1 => .ok ⟨h1.1, fun _ => hmove h1.2⟩
  | element rest => exact (drainId_done he hI (hpos ▸ hd)).bind fun _ h1 => .ok ⟨h1.1, fun _ => hmove h1.2⟩
  | length rest id => exact (drainLength_done he hI (hpos ▸ hd)).bind fun _ h1 => .ok ⟨h1.1, fun _ => hmove h1.2⟩
  | flags v => exact (drainFlags_done he hI (hpos ▸ hd)).bind fun _ h1 => .ok ⟨h1.1, fun _ => hmove h1.2⟩
  | link v => exact (drainLink_done he hI (hpos ▸ hd)).bind fun _ h1 => .ok ⟨h1.1, fun _ => hmove h1.2⟩
  | unlend v done =>
    refine (he.gap s hI).bind ?_
    rintro s1 ⟨h1, hk, hl⟩
    have hd1 : s1.DrainReady q (.unlend v done) := (hpos ▸ hd : s.DrainReady q (.unlend v done)).keep hk
    have hcost : s1.loanCount + drainCost (s1.queue q) (.unlend v done)
        ≤ s.loanCount + drainCost (s.queue q) (.unlend v done) := by
      rw [hk.queue]
      omega
    dsimp only
    split
    · rename_i h lent hc hlent
      have hdone := endLoan_done he h1 hc hd1 (done' := done ++ [h]) (by rw [hlent]; exact List.mem_cons_self ..)
      refine .ok ⟨⟨hdone.1, hdone.2.1, hdone.2.2.trans_le hcost⟩, fun hdisp => ?_⟩
      rw [hc] at hdisp
      cases hdisp
    · obtain ⟨hdone, hkept⟩ := reclaim_done he h1 hd1
      refine .ok ⟨⟨hdone.1, hdone.2.1, hdone.2.2.trans_le hcost⟩, fun _ h hh => ?_⟩
      simp only [DrainRun.gathered, nextElement_ended, List.append_nil, List.flatMap_append, List.flatMap_cons,
        List.flatMap_nil, List.mem_append] at hh
      rcases hh with hh | hh | hh
      · exact .inl (List.mem_append.2 (.inl hh))
      · exact .inl (List.mem_append.2 (.inr (by rw [hpos]; exact hh)))
      · have := State.mem_lentTo hh
        exact .inr (hkept _ ⟨this.2, _, this.1⟩)

end
end Sys2Proof.Machine

namespace Sys2Proof.Machine

/-! ## The invariant under which no access faults and no wait is stuck -/

/-- Queues and slots are in order wherever nobody is at work: the dispatcher is at work over valid queues alone, each
valid queue has a live region of its own, and a queue that is neither broken nor locked has its chains' tables. -/
structure Intact (k : Hold) (s : State) : Prop where
  tidy : Tidy k s
  size : s.pool.length ≤ 65536
  unlent : ∀ h, (s.slot h).alloc = false → (s.slot h).loan = none
  busy : s.irqEn = true ∨ s.disp ≠ .idle → ∀ q, (s.queue q).valid = true
  region : ∀ q, (s.queue q).valid = true → s.RegionLive q
  apart : ∀ p q, (s.queue p).valid = true → (s.queue q).valid = true → (s.queue p).region = (s.queue q).region → p = q
  ring : ∀ q, (s.queue q).valid = true → (s.queue q).broken = false → (s.queue q).lock = none → s.RingSound q

/-- The dispatcher, if it is inside a drain, can go on, and what it has to hand over is on loan to the queue it
drains. -/
structure Sound (k : Hold) (s : State) : Prop extends Intact k s where
  walk : ∀ r, s.drainOf = some r → s.DrainReady s.dq r.pos ∧ ∀ h ∈ r.gathered, s.Lent s.dq h.toNat

section
variable {k : Hold} {s t : State} {q : Role}

theorem State.Lent.of_slot {n : Nat} (h : s.Lent q n) (ht : t.slot n = s.slot n) : t.Lent q n := by
  unfold State.Lent State.OnLoan
  rw [ht]
  exact h

/-- Queues and slots are in order wherever the dispatcher stands, as long as it is at work over valid queues alone. -/
theorem Intact.move (h : Intact k s) {k' : Hold} (ht : Tidy k' t) (hq : t.queues = s.queues) (hp : t.pool = s.pool)
    (hbusy : t.irqEn = true ∨ t.disp ≠ .idle → s.irqEn = true ∨ s.disp ≠ .idle) : Intact k' t := by
  have hqueue : ∀ q, t.queue q = s.queue q := fun q => congrArg (fun x : PerRole Queue => x.get q) hq
  have hslot : ∀ n, t.slot n = s.slot n := fun n => congrArg (fun p : List Slot => p.getD n Slot.free) hp
  have hkeep : ∀ q, Keeps q s t := fun q => ⟨hqueue q, hslot _, fun n _ _ => hslot n⟩
  refine ⟨ht, by rw [hp]; exact h.size, fun n => ?_, fun hb q => ?_, fun q => ?_, fun p q => ?_, fun q => ?_⟩
  · rw [hslot]
    exact h.unlent n
  · rw [hqueue]
    exact h.busy (hbusy hb) q
  · rw [hqueue]
    exact fun hv => (h.region q hv).keep (hkeep q)
  · rw [hqueue, hqueue]
    exact h.apart p q
  · rw [hqueue]
    exact fun hv hb hl => (h.ring q hv hb hl).keep (hkeep q)

theorem Intact.same (h : Intact k s) (hst : SameRings s t) : Intact k t := by
  refine h.move (h.tidy.same hst) hst.queues hst.pool fun hb => ?_
  rw [hst.irqEn] at hb
  rcases hst.disp with hd | ⟨hd, -, -⟩
  · rwa [hd] at hb
  · exact .inl hd

theorem Sound.same (h : Sound k s) (hst : SameRings s t) : Sound k t := by
  refine ⟨h.toIntact.same hst, fun r hr => ?_⟩
  rw [hst.drainOf] at hr
  rw [hst.dq]
  exact ⟨(h.walk r hr).1.keep (.of_same hst), fun x hx => ((h.walk r hr).2 x hx).of_slot (hst.slot _)⟩

theorem keeps_setQueue {p : Role} (hp : p ≠ q) (x : Queue) : Keeps p s (s.setQueue q x) :=
  ⟨State.queue_setQueue_ne s x hp, rfl, fun _ _ _ => rfl⟩

/-- The holder of a queue's lock may change the queue's context as long as it keeps the shape. -/
theorem Intact.setQueue (h : Intact k s) (hl : (s.queue q).lock ≠ none) {x : Queue} (hx : x.SameShape (s.queue q)) :
    Intact k (s.setQueue q x) := by
  have hvalid : ∀ p, ((s.setQueue q x).queue p).valid = (s.queue p).valid
      ∧ ((s.setQueue q x).queue p).region = (s.queue p).region := by
    intro p
    rw [State.queue_setQueue]
    split
    · rename_i hp
      rw [hp]
      exact ⟨hx.valid, hx.region⟩
    · exact ⟨rfl, rfl⟩
  refine ⟨h.tidy.setQueue hx.lock, h.size, h.unlent, fun hb p => ?_, fun p => ?_, fun p p' => ?_, fun p => ?_⟩
  · rw [(hvalid p).1]
    exact h.busy hb p
  · rw [(hvalid p).1]
    intro hv
    by_cases hp : p = q
    · subst hp
      exact (h.region p hv).setQueue hx.toSameLayout
    · exact (h.region p hv).keep (keeps_setQueue hp x)
  · rw [(hvalid p).1, (hvalid p').1, (hvalid p).2, (hvalid p').2]
    exact h.apart p p'
  · by_cases hp : p = q
    · subst hp
      rw [State.queue_setQueue_self, hx.lock]
      exact fun _ _ hn => absurd hn hl
    · rw [State.queue_setQueue_ne _ _ hp]
      exact fun hv hb hn => (h.ring p hv hb hn).keep (keeps_setQueue hp x)

/-- A slot that is no queue's region and not on loan to an unlocked queue may change. -/
theorem Intact.setPool (h : Intact k s) {n : Nat} {y : Slot} (hreg : ∀ q, (s.queue q).valid = true →
    (s.queue q).region.toNat ≠ n) (hy : y.alloc = false → y.loan = none)
    (hl : ∀ l, (s.slot n).loan = some l → (s.queue l.q).lock ≠ none) (m : Memory) :
    Intact k { s with pool := s.pool.set n y, mem := m } := by
  have hset : State.pool { s with pool := s.pool.set n y, mem := m } = s.pool.set n y := rfl
  refine ⟨h.tidy, by simpa using h.size, fun j => ?_, h.busy, fun q hv => ?_, h.apart, fun q hv hb hn => ?_⟩
  · rcases State.slot_of_pool_set hset j with hj | ⟨-, hj⟩ <;> rw [hj]
    · exact h.unlent j
    · exact hy
  · exact (h.region q hv).congr rfl (State.slot_of_pool_set_ne hset (hreg q hv))
  · refine (h.ring q hv hb hn).keep ⟨rfl, State.slot_of_pool_set_ne hset (hreg q hv), fun j _ hj =>
      State.slot_of_pool_set_ne hset fun hjn => ?_⟩
    obtain ⟨i, hi⟩ := hjn ▸ hj
    exact hl _ hi hn

theorem State.relock_shape (s : State) (q p : Role) (l : Option Agent) :
    ((s.setQueue q { s.queue q with lock := l }).queue p).valid = (s.queue p).valid
      ∧ ((s.setQueue q { s.queue q with lock := l }).queue p).region = (s.queue p).region := by
  rw [State.queue_setQueue]
  split
  · rename_i hp
    rw [hp]
    exact ⟨rfl, rfl⟩
  · exact ⟨rfl, rfl⟩

/-- The lock of a queue passes from hand to hand; who drops it leaves the chains' tables in place. -/
theorem Intact.relock (h : Intact k s) {k' : Hold} {l : Option Agent} (ht : Tidy k' t)
    (hq : t.queues = s.queues.set q { s.queue q with lock := l }) (hp : t.pool = s.pool)
    (hbusy : t.irqEn = true ∨ t.disp ≠ .idle → s.irqEn = true ∨ s.disp ≠ .idle)
    (hring : l = none → (s.queue q).valid = true → (s.queue q).broken = false → s.RingSound q) : Intact k' t := by
  have hqueue : ∀ p, t.queue p = (s.setQueue q { s.queue q with lock := l }).queue p := fun p =>
    congrArg (fun x : PerRole Queue => x.get p) hq
  have hslot : ∀ n, t.slot n = s.slot n := fun n => congrArg (fun p : List Slot => p.getD n Slot.free) hp
  have hshape : ∀ p, (t.queue p).valid = (s.queue p).valid ∧ (t.queue p).region = (s.queue p).region := fun p => by
    rw [hqueue]
    exact s.relock_shape q p l
  refine ⟨ht, by rw [hp]; exact h.size, fun n => ?_, fun hb p => ?_, fun p => ?_, fun p p' => ?_, fun p => ?_⟩
  · rw [hslot]
    exact h.unlent n
  · rw [(hshape p).1]
    exact h.busy (hbusy hb) p
  · rw [(hshape p).1]
    intro hv
    by_cases hpq : p = q
    · subst hpq
      exact ((h.region p hv).setQueue (x := { s.queue p with lock := l }) ⟨rfl, rfl, rfl, rfl, rfl⟩).congr (hqueue p)
        (hslot _)
    · exact (h.region p hv).congr ((hqueue p).trans (State.queue_setQueue_ne _ _ hpq)) (hslot _)
  · rw [(hshape p).1, (hshape p').1, (hshape p).2, (hshape p').2]
    exact h.apart p p'
  · by_cases hpq : p = q
    · subst hpq
      intro hv hb hn
      have hqp : t.queue p = { s.queue p with lock := l } := (hqueue p).trans (State.queue_setQueue_self ..)
      rw [hqp] at hv hb hn
      have hr := hring hn hv hb
      refine ⟨fun i hi => ?_, fun i hi n hind => ?_⟩
      · rw [hqp] at hi ⊢
        exact hr.free i hi
      · rw [hqp] at hi hind
        rw [hslot]
        exact hr.tables i hi n hind
    · have hqp : t.queue p = s.queue p := (hqueue p).trans (State.queue_setQueue_ne _ _ hpq)
      rw [hqp]
      exact fun hv hb hn => (h.ring p hv hb hn).keep ⟨hqp, hslot _, fun n _ _ => hslot n⟩

/-- A drain of a valid queue that nobody had locked can start. -/
theorem Intact.locked_ready (h : Intact k s) (hq : (s.queue q).lock = none) (hv : (s.queue q).valid = true)
    (l : Option Agent) : (s.setQueue q { s.queue q with lock := l }).DrainReady q .start := by
  refine ⟨by rw [State.queue_setQueue_self]; exact hv, (h.region q hv).setQueue ⟨rfl, rfl, rfl, rfl, rfl⟩, fun hb => ?_,
    trivial⟩
  rw [State.queue_setQueue_self] at hb
  have hr := h.ring q hv hb hq
  refine ⟨fun i hi => ?_, fun i hi => (hr.tables i ?_).setQueue rfl⟩
  · rw [State.queue_setQueue_self] at hi ⊢
    exact hr.free i hi
  · rw [State.queue_setQueue_self] at hi
    exact hi

/-- CMD may change the context of the queue it has locked as long as it keeps the shape. -/
theorem Sound.setQueue (h : Sound k s) (hk : k.lock = some q) {x : Queue} (hx : x.SameShape (s.queue q)) :
    Sound k (s.setQueue q x) := by
  have hcmd := (h.tidy.cmd q).2 hk
  refine ⟨h.toIntact.setQueue (by rw [hcmd]; simp) hx, fun r hr => ?_⟩
  have hdq : s.dq ≠ q := fun hdq => by
    have := (h.tidy.disp q).2 ⟨by rw [show s.drainOf = some r from hr]; rfl, hdq⟩
    rw [hcmd] at this
    cases this
  exact ⟨(h.walk r hr).1.keep (keeps_setQueue hdq x), (h.walk r hr).2⟩

/-- CMD may change a slot that is no queue's region and on loan to no queue but the one it has locked. -/
theorem Sound.setPool (h : Sound k s) {n : Nat} {y : Slot} (hreg : ∀ q, (s.queue q).valid = true →
    (s.queue q).region.toNat ≠ n) (hy : y.alloc = false → y.loan = none)
    (hl : ∀ l, (s.slot n).loan = some l → k.lock = some l.q) (m : Memory) :
    Sound k { s with pool := s.pool.set n y, mem := m } := by
  have hset : State.pool { s with pool := s.pool.set n y, mem := m } = s.pool.set n y := rfl
  have hcmd : ∀ l, (s.slot n).loan = some l → (s.queue l.q).lock = some .cmd := fun l hn => (h.tidy.cmd _).2 (hl l hn)
  refine ⟨h.toIntact.setPool hreg hy (fun l hn => by rw [hcmd l hn]; simp) m, fun r hr => ?_⟩
  have hdisp := (h.tidy.disp s.dq).2 ⟨by rw [show s.drainOf = some r from hr]; rfl, rfl⟩
  have hne : ∀ j, s.OnLoan s.dq j → j ≠ n := fun j hj hjn => by
    obtain ⟨i, hi⟩ := hjn ▸ hj
    have := hcmd _ hi
    rw [hdisp] at this
    cases this
  obtain ⟨hd, hlent⟩ := h.walk r hr
  refine ⟨hd.keep ⟨rfl, State.slot_of_pool_set_ne hset (hreg _ hd.valid), fun j _ hj =>
    State.slot_of_pool_set_ne hset (hne j hj)⟩, fun x hx => ?_⟩
  exact (hlent x hx).of_slot (State.slot_of_pool_set_ne hset (hne _ (hlent x hx).2))

/-- A slot on loan is no queue's region. -/
theorem Intact.region_ne (h : Intact k s) {n : Nat} (hn : (s.slot n).loan ≠ none) {p : Role}
    (hv : (s.queue p).valid = true) : (s.queue p).region.toNat ≠ n := fun hp =>
  hn (hp ▸ (h.region p hv).loan)

end

/-! ## What other agents may do between two accesses of CMD -/

/-- From `s` to `t` other agents than CMD have moved: what only commands write stays, the queue CMD has locked stays, no
queue comes or goes, and a slot changes only by the end of a loan to a queue that CMD has not locked. -/
structure Rely (k : Hold) (s t : State) : Prop where
  same : SameCmd s t
  queue : ∀ q, k.lock = some q → t.queue q = s.queue q
  shape : ∀ q, (t.queue q).valid = (s.queue q).valid ∧ (t.queue q).region = (s.queue q).region
  slot : ∀ n, (∀ l, (s.slot n).loan = some l → k.lock = some l.q) → t.slot n = s.slot n
  loan : ∀ n, (t.slot n).loan.isSome = true → t.slot n = s.slot n
  length : t.pool.length = s.pool.length

section
variable {k : Hold} {s t u : State} {q : Role}

theorem Rely.refl (k : Hold) (s : State) : Rely k s s :=
  ⟨.refl s, fun _ _ => rfl, fun _ => ⟨rfl, rfl⟩, fun _ _ => rfl, fun _ _ => rfl, rfl⟩

theorem Rely.trans (h : Rely k s t) (g : Rely k t u) : Rely k s u := by
  refine ⟨h.same.trans g.same, fun q hq => (g.queue q hq).trans (h.queue q hq),
    fun q => ⟨(g.shape q).1.trans (h.shape q).1, (g.shape q).2.trans (h.shape q).2⟩, fun n hn => ?_, fun n hn => ?_,
    g.length.trans h.length⟩
  · have hst := h.slot n hn
    exact (g.slot n (by rwa [hst])).trans hst
  · have htu := g.loan n hn
    exact htu.trans (h.loan n (by rwa [← htu]))

theorem Rely.of_same (hc : SameCmd s t) (h : SameRings s t) : Rely k s t :=
  ⟨hc, fun q _ => h.queue q, fun q => by rw [h.queue]; exact ⟨rfl, rfl⟩, fun n _ => h.slot n, fun n _ => h.slot n,
   by rw [h.pool]⟩

theorem Rely.loanCount (h : Rely k s t) : t.loanCount ≤ s.loanCount :=
  State.loanCount_mono h.length fun n hn => by rwa [← h.loan n hn]

/-- What CMD's drain of the queue it has locked needs stays. -/
theorem Rely.keeps (h : Rely k s t) (hk : k.lock = some q) (hr : s.RegionLive q) : Keeps q s t := by
  refine ⟨h.queue q hk, h.slot _ fun l hl => ?_, fun n _ hn => h.slot n fun l hl => ?_⟩
  · rw [hr.loan] at hl
    cases hl
  · obtain ⟨i, hi⟩ := hn
    rw [hi] at hl
    cases hl
    exact hk

/-- DISP's change of a queue that CMD has not locked. -/
theorem Rely.setQueue (hq : k.lock ≠ some q) {x : Queue} (hv : x.valid = (s.queue q).valid)
    (hr : x.region = (s.queue q).region) : Rely k s (s.setQueue q x) := by
  refine ⟨.of_eq rfl, fun p hp => State.queue_setQueue_ne s x fun h => hq (h ▸ hp), fun p => ?_, fun _ _ => rfl,
    fun _ _ => rfl, rfl⟩
  rw [State.queue_setQueue]
  split
  · rename_i hp
    rw [hp]
    exact ⟨hv, hr⟩
  · exact ⟨rfl, rfl⟩

/-- DISP frees a slot on loan to a queue that CMD has not locked. -/
theorem Rely.setPool (hq : k.lock ≠ some q) {n : Nat} (hn : s.OnLoan q n) {y : Slot} (hy : y.loan = none) (m : Memory) :
    Rely k s { s with pool := s.pool.set n y, mem := m } := by
  have hset : State.pool { s with pool := s.pool.set n y, mem := m } = s.pool.set n y := rfl
  refine ⟨.of_eq rfl, fun _ _ => rfl, fun _ => ⟨rfl, rfl⟩, fun j hj => State.slot_of_pool_set_ne hset fun h => ?_,
    fun j hj => ?_, by simp⟩
  · obtain ⟨i, hi⟩ := h ▸ hn
    exact hq (hj _ hi)
  · refine (State.slot_of_pool_set hset j).resolve_right fun h => ?_
    rw [h.2, hy] at hj
    cases hj

end

end Sys2Proof.Machine

namespace Sys2Proof.Machine

/-! ## Giving slots back -/

/-- From `s` to `t` only slots with the property have changed, and those are on loan to nobody. -/
def GivenBack (P : Nat → Prop) (s t : State) : Prop :=
  t.pool.length = s.pool.length
    ∧ ∀ n, t.slot n = s.slot n ∨ P n ∧ (t.slot n).loan = none

section
variable {P : Nat → Prop} {s t u : State}

theorem GivenBack.refl (P : Nat → Prop) (s : State) : GivenBack P s s := ⟨rfl, fun _ => .inl rfl⟩

theorem GivenBack.trans (h : GivenBack P s t) (g : GivenBack P t u) : GivenBack P s u := by
  refine ⟨g.1.trans h.1, fun n => ?_⟩
  rcases g.2 n with gn | gn
  · rw [gn]
    exact h.2 n
  · exact .inr gn

theorem GivenBack.set {n : Nat} {y : Slot} (ht : t.pool = s.pool.set n y) (hn : P n) (hy : y.loan = none) :
    GivenBack P s t := by
  refine ⟨by rw [ht, List.length_set], fun j => ?_⟩
  rcases State.slot_of_pool_set ht j with h | ⟨rfl, h⟩
  · exact .inl h
  · exact .inr ⟨hn, by rw [h, hy]⟩

theorem GivenBack.of_pool (h : GivenBack P s t) (hu : u.pool = t.pool) : GivenBack P s u := by
  unfold GivenBack State.slot at *
  rw [hu]
  exact h

theorem setLoans_givenBack (hs : List Handle) (s : State) (h : ∀ x ∈ hs, P x.toNat) :
    GivenBack P s (setLoans none hs s) := by
  induction hs generalizing s with
  | nil => exact .refl P s
  | cons x rest ih =>
    exact (GivenBack.set (t := setLoan x.toNat none s) rfl (h x (List.mem_cons_self ..)) rfl).trans
      (ih _ fun y hy => h y (List.mem_cons_of_mem _ hy))

theorem poolFrees_givenBack (hs : List Handle) (s : State) (h : ∀ x ∈ hs, P x.toNat) :
    GivenBack P s (poolFrees hs s) := by
  induction hs generalizing s with
  | nil => exact .refl P s
  | cons x rest ih =>
    exact (GivenBack.set (t := poolFree x.toNat s) rfl (h x (List.mem_cons_self ..)) rfl).trans
      (ih _ fun y hy => h y (List.mem_cons_of_mem _ hy))

theorem reportChains_givenBack (out : List Drained) (s : State)
    (h : ∀ x ∈ out.flatMap (fun d => d.handles), P x.toNat) : GivenBack P s (reportChains out s) := by
  induction out generalizing s with
  | nil => exact .refl P s
  | cons d rest ih =>
    simp only [List.flatMap_cons, List.mem_append] at h
    refine GivenBack.trans (t := reportChain d s) ?_ (ih _ fun x hx => h x (.inr hx))
    unfold reportChain
    split
    · exact .refl P s
    · exact (poolFrees_givenBack d.handles s fun x hx => h x (.inl hx)).of_pool rfl

/-- The end of DISP's walk of a queue changes, of the slots, those that were drained (44 R234). -/
theorem handOver_givenBack (out : List Drained) (corrupt : Bool) (s : State)
    (h : ∀ x ∈ out.flatMap (fun d => d.handles), P x.toNat) : GivenBack P s (handOver out corrupt s) := by
  have h1 : GivenBack P s (unlock s.dq (setLoans none (out.flatMap fun d => d.handles) s)) :=
    (setLoans_givenBack _ s h).of_pool rfl
  have h2 := h1.trans (reportChains_givenBack out _ h)
  unfold handOver
  dsimp only
  split
  · exact h2.of_pool rfl
  · exact h2

end

/-! ## A turn of the dispatcher does not fault (44, 20 R79) -/

/-- What DISP keeps through a step of its drain, from the state `s0` before the step. -/
def DispInv (k : Hold) (s0 : State) (hs : List Handle) (s : State) : Prop :=
  Intact k s ∧ Rely k s0 s ∧ (s.disp = s0.disp ∧ s.dq = s0.dq ∧ s.walk = s0.walk) ∧ ∀ h ∈ hs, s.Lent s0.dq h.toNat

section
variable {k : Hold} {s t : State} {q : Role}

theorem State.drainOf_congr (hd : t.disp = s.disp) (hw : t.walk = s.walk) : t.drainOf = s.drainOf := by
  unfold State.drainOf
  rw [hd, hw]

/-- The queue DISP drains is not the one CMD has locked. -/
theorem Tidy.not_cmd (h : Tidy k s) {q : Role} (hl : (s.queue q).lock = some .disp) : k.lock ≠ some q := fun hk => by
  rw [(h.cmd q).2 hk] at hl
  cases hl

theorem dispEnv {r : DrainRun} (hr : s.drainOf = some r) (hs : List Handle) :
    DrainEnv dispCtx s.dq (DispInv k s hs) := by
  have hlock : ∀ t, DispInv k s hs t → (t.queue s.dq).lock = some .disp := by
    rintro t ⟨hi, -, ⟨hd, hdq, hw⟩, -⟩
    refine (hi.tidy.disp _).2 ⟨?_, hdq⟩
    rw [State.drainOf_congr hd hw, hr]
    rfl
  refine ⟨fun t ht => .ok ⟨ht, .refl _ t, Nat.le_refl _⟩, ?_, ?_, ?_, fun hc => by cases hc⟩
  · rintro t m w b ⟨hi, hrely, hsame, hlent⟩ hw
    have hst : SameRings t { t with mem := m, wbuf := w, bus := b } := ⟨rfl, rfl, rfl, rfl, rfl, .inl rfl, hw, id⟩
    exact ⟨hi.same hst, hrely.trans (.of_same (.of_eq rfl) hst), hsame, hlent⟩
  · rintro t x ht hx
    have hl := hlock t ht
    obtain ⟨hi, hrely, hsame, hlent⟩ := ht
    exact ⟨hi.setQueue (by rw [hl]; simp) hx, hrely.trans (.setQueue (hi.tidy.not_cmd hl) hx.valid hx.region), hsame,
      hlent⟩
  · rintro t n m ht hint hloan
    have hl := hlock t ht
    obtain ⟨hintact, hrely, hsame, hlent⟩ := ht
    have hset : State.pool { t with pool := t.pool.set n Slot.free, mem := m } = t.pool.set n Slot.free := rfl
    have hn : ∀ l, (t.slot n).loan = some l → (t.queue l.q).lock ≠ none := fun l hln => by
      obtain ⟨i, hi⟩ := hloan
      rw [hi] at hln
      cases hln
      rw [hl]
      simp
    have hne : (t.slot n).loan ≠ none := by
      obtain ⟨i, hi⟩ := hloan
      rw [hi]
      simp
    refine ⟨hintact.setPool (fun _ hv => hintact.region_ne hne hv) (fun _ => rfl) hn m,
      hrely.trans (.setPool (hintact.tidy.not_cmd hl) hloan rfl m), hsame, fun h hh => ?_⟩
    refine (hlent h hh).of_slot (State.slot_of_pool_set_ne hset fun heq => ?_)
    have := (hlent h hh).1
    rw [heq, hint] at this
    cases this

/-! ### Less remains to be done -/

/-- The cost of a drain is at most this. -/
def drainBound : Nat := 229378

/-- How many queues the walk takes after this one. -/
def rolesAfter : Role → Nat
  | .q0 => 2
  | .q1 => 1
  | .q2 => 0

/-- How many more steps the dispatcher may take in D_WALK from this position on. -/
def State.walkCost (s : State) : WalkPos → Nat
  | .enter => 3 * (drainBound + 3)
  | .test => rolesAfter s.dq * (drainBound + 3) + (drainBound + 2)
  | .wantLock => rolesAfter s.dq * (drainBound + 3) + (drainBound + 1)
  | .drain r => rolesAfter s.dq * (drainBound + 3) + (s.loanCount + drainCost (s.queue s.dq) r.pos)

/-- How many more steps the dispatcher may take before it is idle. -/
def State.dispCost (s : State) : Nat :=
  match s.disp with
  | .idle => 0
  | .ret => 1
  | .config => 2
  | .walk => 3 + s.walkCost s.walk
  | .isr => 3 * (drainBound + 3) + 4

theorem dispCost_walk {w : WalkPos} (hdisp : s.disp = .walk) (hwalk : s.walk = w) :
    s.dispCost = 3 + s.walkCost w := by
  rw [State.dispCost, hdisp, hwalk]

/-- From a queue of the walk the dispatcher comes to the next one or leaves D_WALK. -/
theorem advanceWalk_dispCost (hdisp : s.disp = .walk) :
    (advanceWalk s).dispCost < 3 + rolesAfter s.dq * (drainBound + 3) := by
  unfold advanceWalk
  cases s.dq <;> simp only [nextRole, State.dispCost, State.walkCost, hdisp, rolesAfter] <;> omega

theorem drainCost_le {p : DrainPos} (h : s.DrainReady q p) (hsize : s.pool.length ≤ 65536) :
    s.loanCount + drainCost (s.queue q) p ≤ drainBound := by
  have h1 := s.loanCount_le
  have h2 := (s.queue q).countTag_le Tag.isSubmitted
  rw [h.region.entries] at h2
  have h3 := h.region.le
  have hpos := h.pos
  cases p <;> simp only [drainCost, drainBound, State.PosSound] at hpos ⊢
  case flags | link | unlend => have := hpos.1.rest; omega
  all_goals omega

/-! ### The states of the dispatcher -/

/-- What a turn of the dispatcher ensures: the invariant, no harm to CMD, and that less remains to be done unless it has
nothing to do or CMD holds a lock it may want. -/
def TurnDone (k : Hold) (s t : State) : Prop :=
  Sound k t ∧ Rely k s t ∧ (k.lock = none → s.disp ≠ .idle → t.dispCost < s.dispCost)

/-- DISP changes where it stands, and nothing that CMD sees. -/
theorem Rely.of_rings (hc : SameCmd s t) (hq : t.queues = s.queues) (hp : t.pool = s.pool) : Rely k s t := by
  have hqueue : ∀ q, t.queue q = s.queue q := fun q => congrArg (fun x : PerRole Queue => x.get q) hq
  have hslot : ∀ n, t.slot n = s.slot n := fun n => congrArg (fun p : List Slot => p.getD n Slot.free) hp
  exact ⟨hc, fun q _ => hqueue q, fun q => by rw [hqueue]; exact ⟨rfl, rfl⟩, fun n _ => hslot n, fun n _ => hslot n,
    by rw [hp]⟩

/-- A step of DISP that changes where it stands, outside a drain before and after it. -/
theorem Sound.step (h : Sound k s) (ht : Tidy k t) (hc : SameCmd s t) (hd : t.drainOf = none)
    (hq : t.queues = s.queues) (hp : t.pool = s.pool) (hdisp : s.disp ≠ .idle) (hcost : t.dispCost < s.dispCost) :
    TurnDone k s t :=
  ⟨⟨h.toIntact.move ht hq hp fun _ => .inr hdisp, fun r hr => by rw [hd] at hr; cases hr⟩, .of_rings hc hq hp,
    fun _ _ => hcost⟩

theorem walkEnter_done (h : Sound k s) (hdisp : s.disp = .walk) (hwalk : s.walk = .enter) :
    TurnDone k s (walkEnter s) := by
  have ht := walkEnter_tidy h.tidy hdisp hwalk
  have hc : SameCmd s (walkEnter s) := sameCmd_dispWalk (by unfold dispWalk; rw [hwalk])
  have hcost := dispCost_walk hdisp hwalk
  have hbusy : s.disp ≠ .idle := by rw [hdisp]; decide
  revert ht hc
  unfold walkEnter
  have hu :
      (reportUnknown s).queues = s.queues ∧ (reportUnknown s).pool = s.pool ∧ (reportUnknown s).disp = s.disp := by
    unfold reportUnknown
    split <;> exact ⟨rfl, rfl, rfl⟩
  obtain ⟨hq, hp, hd⟩ := hu
  split <;> intro ht hc <;> refine h.step ht hc ?_ hq hp hbusy ?_
  · exact State.drainOf_of_walk fun r hr => by cases hr
  · refine lt_of_eq_of_lt (dispCost_walk (w := .test) (by exact hd.trans hdisp) rfl) ?_
    rw [hcost]
    simp only [State.walkCost, rolesAfter]
    omega
  · exact State.drainOf_of_disp fun hr => by cases hr
  · refine Nat.lt_of_lt_of_eq ?_ hcost.symm
    simp only [State.dispCost, State.walkCost]
    omega

theorem walkTest_done (h : Sound k s) (hdisp : s.disp = .walk) (hwalk : s.walk = .test) :
    TurnDone k s (walkTest s) := by
  have ht := walkTest_tidy h.tidy hdisp hwalk
  have hc : SameCmd s (walkTest s) := sameCmd_dispWalk (by unfold dispWalk; rw [hwalk])
  have hcost := dispCost_walk hdisp hwalk
  have hbusy : s.disp ≠ .idle := by rw [hdisp]; decide
  revert ht hc
  unfold walkTest
  split <;> intro ht hc
  · refine h.step ht hc (State.drainOf_of_walk fun r hr => by cases hr) rfl rfl hbusy ?_
    refine lt_of_eq_of_lt (dispCost_walk (w := .wantLock) (by exact hdisp) rfl) ?_
    rw [hcost]
    simp only [State.walkCost]
    omega
  · refine h.step ht hc (advanceWalk_drainOf s) ?_ ?_ hbusy ?_
    · rw [advanceWalk_eq]
    · rw [advanceWalk_eq]
    · have := advanceWalk_dispCost hdisp
      simp only [State.walkCost] at hcost
      omega

/-- DISP has taken the lock of the queue it wants to drain (44 R234). -/
theorem enterDrain_done (h : Sound k s) (hdisp : s.disp = .walk) (hwalk : s.walk = .wantLock)
    (hfree : (s.queue s.dq).lock = none) (ht : Tidy k t) (hc : SameCmd s t)
    (hq : t.queues = s.queues.set s.dq { s.queue s.dq with lock := some .disp }) (hp : t.pool = s.pool)
    (hd : t.disp = .walk) (hdq : t.dq = s.dq) (hw : t.walk = .drain { out := [], pos := .start }) : TurnDone k s t := by
  have hbusy : s.disp ≠ .idle := by rw [hdisp]; decide
  have hvalid := h.busy (.inr hbusy) s.dq
  have hi : Intact k t := h.toIntact.relock ht hq hp (fun _ => .inr hbusy) fun hl => by cases hl
  have hqueue : ∀ p, t.queue p = (s.setQueue s.dq { s.queue s.dq with lock := some .disp }).queue p := fun p =>
    congrArg (fun x : PerRole Queue => x.get p) hq
  have hslot : ∀ n, t.slot n = s.slot n := fun n => congrArg (fun p : List Slot => p.getD n Slot.free) hp
  have hready : t.DrainReady s.dq .start :=
    (h.locked_ready hfree hvalid (some .disp)).keep ⟨hqueue _, hslot _, fun n _ _ => hslot n⟩
  have hnot : k.lock ≠ some s.dq := fun hk => by
    rw [(h.tidy.cmd _).2 hk] at hfree
    cases hfree
  refine ⟨⟨hi, fun r hr => ?_⟩, ?_, fun _ _ => ?_⟩
  · have hr' : r = { out := [], pos := .start } := by simpa [State.drainOf, hd, hw, eq_comm] using hr
    rw [hr', hdq]
    exact ⟨hready, fun x hx => by cases hx⟩
  · refine ⟨hc, fun p hpk => ?_, fun p => ?_, fun n _ => hslot n, fun n _ => hslot n, by rw [hp]⟩
    · rw [hqueue]
      exact State.queue_setQueue_ne _ _ fun hps => hnot (hps ▸ hpk)
    · rw [hqueue]
      exact s.relock_shape _ p _
  · have hle := drainCost_le hready hi.size
    rw [dispCost_walk hd hw, dispCost_walk hdisp hwalk]
    simp only [State.walkCost, hdq]
    omega

theorem walkLock_done (h : Sound k s) (hdisp : s.disp = .walk) (hwalk : s.walk = .wantLock) :
    TurnDone k s (walkLock s) := by
  have ht := walkLock_tidy h.tidy hdisp hwalk
  have hc : SameCmd s (walkLock s) := sameCmd_dispWalk (by unfold dispWalk; rw [hwalk])
  have hnone : s.drainOf = none := State.drainOf_of_walk fun r hr => by rw [hwalk] at hr; cases hr
  revert ht hc
  unfold walkLock
  split
  · intro ht hc
    exact enterDrain_done h hdisp hwalk ‹_› ht hc rfl rfl hdisp rfl rfl
  · rename_i hheld
    intro _ _
    refine ⟨h, .refl k s, fun hk _ => ?_⟩
    cases hl : (s.queue s.dq).lock with
    | none => exact absurd hl hheld
    | some a =>
      cases a with
      | cmd =>
        have := (h.tidy.cmd _).1 hl
        rw [hk] at this
        cases this
      | disp => exact absurd hl (h.tidy.not_disp hnone _)

/-! ### The end of a drain -/

/-- Slots given back that are no internal ones leave a queue's region and tables alone. -/
theorem GivenBack.keeps {P : Nat → Prop} (hg : GivenBack P s t) (hP : ∀ n, P n → (s.slot n).internal = false)
    (hq : t.queue q = s.queue q) (hr : s.RegionLive q) : Keeps q s t := by
  have hne : ∀ n, (s.slot n).internal = true → t.slot n = s.slot n := fun n hn =>
    (hg.2 n).resolve_right fun h => by
      rw [hP n h.1] at hn
      cases hn
  exact ⟨hq, hne _ hr.internal, fun n hn _ => hne n hn⟩

theorem Intact.givenBack {P : Nat → Prop} (h : Intact k s) (hP : ∀ n, P n → (s.slot n).internal = false) {p : List Slot}
    {m : Memory} (hg : GivenBack P s { s with pool := p, mem := m }) : Intact k { s with pool := p, mem := m } := by
  refine ⟨h.tidy, hg.1.trans_le h.size, fun n => ?_, h.busy, fun q hv => ?_, h.apart, fun q hv hb hl => ?_⟩
  · rcases hg.2 n with hn | hn
    · rw [hn]
      exact h.unlent n
    · exact fun _ => hn.2
  · exact (h.region q hv).keep (hg.keeps hP rfl (h.region q hv))
  · exact (h.ring q hv hb hl).keep (hg.keeps hP rfl (h.region q hv))

/-- The step of DISP that ends its drain: the slots drained are given back, the lock is dropped, the walk goes on. -/
theorem handOver_done (h : Intact k s) (hdisp : s.disp = .walk) {r : DrainRun} (hwalk : s.walk = .drain r)
    {out : List Drained} {corrupt : Bool} (hready : s.DrainReady s.dq (.finished corrupt))
    (hlent : ∀ x ∈ out.flatMap (fun d => d.handles), s.Lent s.dq x.toNat) :
    Sound k (advanceWalk (handOver out corrupt s)) ∧ Rely k s (advanceWalk (handOver out corrupt s))
      ∧ (advanceWalk (handOver out corrupt s)).dispCost < 3 + rolesAfter s.dq * (drainBound + 3) := by
  have hdrain : s.drainOf = some r := by simp [State.drainOf, hdisp, hwalk]
  have hbusy : s.disp ≠ .idle := by rw [hdisp]; decide
  have hnot := h.tidy.not_cmd ((h.tidy.disp s.dq).2 ⟨by rw [hdrain]; rfl, rfl⟩)
  have hg : GivenBack (s.Lent s.dq) s (handOver out corrupt s) := handOver_givenBack out corrupt s hlent
  have hgiven : Intact k { s with pool := (handOver out corrupt s).pool, mem := (handOver out corrupt s).mem } :=
    h.givenBack (fun n hn => hn.1) (hg.of_pool rfl)
  have hqueues :
      (advanceWalk (handOver out corrupt s)).queues = s.queues.set s.dq { s.queue s.dq with lock := none } := by
    rw [advanceWalk_eq]
    exact handOver_queues out corrupt s
  have hpool : (advanceWalk (handOver out corrupt s)).pool = (handOver out corrupt s).pool := by rw [advanceWalk_eq]
  have hg' : GivenBack (s.Lent s.dq) s (advanceWalk (handOver out corrupt s)) := hg.of_pool hpool
  have hsame : SameCmd s (advanceWalk (handOver out corrupt s)) := by
    rw [advanceWalk_eq]
    exact SameCmd.trans (t := handOver out corrupt s) (.of_eq (handOver_eq ..)) (.of_eq rfl)
  refine ⟨⟨hgiven.relock (handOver_tidy h.tidy hdisp hwalk out corrupt) hqueues hpool (fun _ => .inr hbusy)
    fun _ _ hb => ?_, fun r' hr' => ?_⟩, ?_, ?_⟩
  · exact (hready.ring hb).keep (GivenBack.keeps (hg.of_pool rfl) (fun n hn => hn.1) rfl hready.region)
  · rw [advanceWalk_drainOf] at hr'
    cases hr'
  · have hqueue : ∀ p, (advanceWalk (handOver out corrupt s)).queue p
        = (s.setQueue s.dq { s.queue s.dq with lock := none }).queue p := fun p =>
      congrArg (fun x : PerRole Queue => x.get p) hqueues
    refine ⟨hsame, fun p hp => ?_, fun p => ?_, fun n hn => ?_, fun n hn => ?_, hg'.1⟩
    · rw [hqueue]
      exact State.queue_setQueue_ne _ _ fun hps => hnot (hps ▸ hp)
    · rw [hqueue]
      exact s.relock_shape _ p _
    · refine (hg'.2 n).resolve_right fun hx => ?_
      obtain ⟨i, hi⟩ := hx.1.2
      exact hnot (hn _ hi)
    · refine (hg'.2 n).resolve_right fun hx => ?_
      rw [hx.2] at hn
      cases hn
  · have hd : (handOver out corrupt s).disp = .walk ∧ (handOver out corrupt s).dq = s.dq := by
      rw [handOver_eq]
      exact ⟨hdisp, rfl⟩
    have := advanceWalk_dispCost hd.1
    rwa [hd.2] at this

theorem walkDrain_done (h : Sound k s) (hdisp : s.disp = .walk) {r : DrainRun} (hwalk : s.walk = .drain r) :
    Succeeds (walkDrain r s) (TurnDone k s) := by
  have hdrain : s.drainOf = some r := by simp [State.drainOf, hdisp, hwalk]
  obtain ⟨hready, hlent⟩ := h.walk r hdrain
  have hcost := dispCost_walk hdisp hwalk
  simp only [State.walkCost] at hcost
  by_cases hfin : ∃ b, r.pos = .finished b
  · obtain ⟨b, hb⟩ := hfin
    have hstep : walkDrain r s = .ok (advanceWalk (handOver r.out b s)) := by
      simp only [walkDrain, drainStep, hb, ok_bind]
    rw [hstep]
    obtain ⟨h1, h2, h3⟩ := handOver_done h.toIntact hdisp hwalk (hb ▸ hready) fun x hx =>
      hlent x (List.mem_append.2 (.inl hx))
    exact .ok ⟨h1, h2, fun _ _ => by omega⟩
  · refine (drainStep_done (dispEnv hdrain r.gathered) ⟨h.toIntact, .refl k s, ⟨rfl, rfl, rfl⟩, hlent⟩ hready
      fun b hb => hfin ⟨b, hb⟩).bind ?_
    rintro ⟨r1, s1⟩ ⟨⟨⟨hi, hrely, ⟨hd1, hq1, hw1⟩, hl1⟩, hready1, hless⟩, hgath⟩
    dsimp only at hi hrely hd1 hq1 hw1 hl1 hready1 hless hgath ⊢
    have hlent1 : ∀ x ∈ r1.gathered, s1.Lent s1.dq x.toNat := fun x hx => by
      rw [hq1]
      exact (hgath rfl x hx).elim (hl1 x) id
    split
    · rename_i corrupt hpos
      obtain ⟨h1, h2, h3⟩ := handOver_done hi (hd1.trans hdisp) (hw1.trans hwalk) (out := r1.out) (corrupt := corrupt)
        (by rw [hq1, ← hpos]; exact hready1) fun x hx => hlent1 x (List.mem_append.2 (.inl hx))
      rw [hq1] at h3
      exact .ok ⟨h1, hrely.trans h2, fun _ _ => by omega⟩
    · refine .ok ⟨⟨hi.move (hi.tidy.moveDrain (hd1.trans hdisp) (hw1.trans hwalk) r1) rfl rfl id, fun r' hr' => ?_⟩,
        hrely.trans (.of_rings (.of_eq rfl) rfl rfl), fun _ _ => ?_⟩
      · have : r' = r1 := by simpa [State.drainOf, hd1, hdisp, eq_comm] using hr'
        rw [this]
        exact ⟨(hq1 ▸ hready1 : s1.DrainReady s1.dq r1.pos).keep ⟨rfl, rfl, fun _ _ _ => rfl⟩, hlent1⟩
      · refine lt_of_eq_of_lt (dispCost_walk (w := .drain r1) (by exact hd1.trans hdisp) rfl) ?_
        have : State.walkCost { s1 with walk := .drain r1 } (.drain r1)
            = rolesAfter s1.dq * (drainBound + 3) + (s1.loanCount + drainCost (s1.queue s1.dq) r1.pos) := rfl
        rw [this, hq1]
        omega

theorem dispWalk_done (h : Sound k s) (hdisp : s.disp = .walk) : Succeeds (dispWalk s) (TurnDone k s) := by
  unfold dispWalk
  split
  · exact .ok (walkEnter_done h hdisp ‹_›)
  · exact .ok (walkTest_done h hdisp ‹_›)
  · exact .ok (walkLock_done h hdisp ‹_›)
  · exact walkDrain_done h hdisp ‹_›

/-! ### The other states -/

theorem regRead_dispCtx_succeeds (s : State) (w : Win) (off n : Nat) :
    Succeeds (regRead dispCtx w off n s) (fun r => SameRings s r.2) :=
  ⟨_, regRead_of_gap rfl w off n, regRead_dispCtx s w off n _ (regRead_of_gap rfl w off n)⟩

theorem readLink_dispCtx_succeeds (s : State) : Succeeds (readLink dispCtx s) (fun r => SameRings s r.2) := by
  unfold readLink
  split
  · exact (regRead_dispCtx_succeeds s _ _ _).bind fun _ h1 => .ok h1
  · exact .ok (.refl s)

theorem dispIsr_done (h : Sound k s) (hdisp : s.disp = .isr) : Succeeds (dispIsr s) (TurnDone k s) := by
  have hturn : dispTurn s = dispIsr s := by rw [dispTurn, hdisp]
  obtain ⟨t, ht, hd, hw, hq, hp⟩ : Succeeds (dispIsr s) (fun t => t.disp = .walk ∧ t.walk = .enter
      ∧ t.queues = s.queues ∧ t.pool = s.pool) :=
    (regRead_dispCtx_succeeds s _ _ _).bind fun _ h1 => .ok ⟨rfl, rfl, h1.queues, h1.pool⟩
  refine ⟨t, ht, h.step (dispIsr_tidy h.tidy hdisp t ht) (sameCmd_dispTurn (hturn.trans ht))
    (State.drainOf_of_walk fun r hr => by rw [hw] at hr; cases hr) hq hp (by rw [hdisp]; decide) ?_⟩
  rw [dispCost_walk hd hw, State.dispCost, hdisp]
  simp only [State.walkCost]
  omega

theorem dispConfig_done (h : Sound k s) (hdisp : s.disp = .config) : Succeeds (dispConfig s) (TurnDone k s) := by
  have hturn : dispTurn s = dispConfig s := by rw [dispTurn, hdisp]
  obtain ⟨t, ht, hd, hq, hp⟩ :
      Succeeds (dispConfig s) (fun t => t.disp = .ret ∧ t.queues = s.queues ∧ t.pool = s.pool) := by
    unfold dispConfig
    split
    · exact (readLink_dispCtx_succeeds s).bind fun _ h1 => .ok ⟨rfl, h1.queues, h1.pool⟩
    · exact .ok ⟨rfl, rfl, rfl⟩
  refine ⟨t, ht, h.step (dispConfig_tidy h.tidy hdisp t ht) (sameCmd_dispTurn (hturn.trans ht))
    (State.drainOf_of_disp (by rw [hd]; decide)) hq hp (by rw [hdisp]; decide) ?_⟩
  simp only [State.dispCost, hd, hdisp]
  omega

theorem dispRet_done (h : Sound k s) (hdisp : s.disp = .ret) : TurnDone k s (dispRet s) := by
  refine h.step (dispRet_tidy h.tidy hdisp) (.of_eq rfl) (State.drainOf_of_disp (by simp [dispRet])) rfl rfl
    (by rw [hdisp]; decide) ?_
  rw [State.dispCost, State.dispCost, hdisp]
  exact Nat.zero_lt_one

/-- A turn of the dispatcher does not fault, keeps the invariant and does CMD no harm; unless CMD holds a lock or there
is nothing to do, it brings the dispatcher nearer to D_IDLE (44 R238). -/
theorem dispTurn_done (h : Sound k s) : Succeeds (dispTurn s) (TurnDone k s) := by
  unfold dispTurn
  split
  · exact .ok ⟨h, .refl k s, fun _ hd => absurd ‹_› hd⟩
  · exact dispIsr_done h ‹_›
  · exact dispWalk_done h ‹_›
  · exact dispConfig_done h ‹_›
  · exact .ok (dispRet_done h ‹_›)

end

/-! ## Gaps and waits (20 R80, R84; 43 R215, 60 R276) -/

section
variable {k : Hold} {s : State}

theorem rely_external (k : Hold) (s : State) (a : Act) : Rely k s (s.external a) :=
  .of_same (sameCmd_external s a) (sameRings_external s a)

theorem cmdActs_succeeds (acts : List Act) (h : Sound k s) :
    Succeeds (cmdActs acts s) (fun t => Sound k t ∧ Rely k s t) := by
  induction acts generalizing s with
  | nil => exact .ok ⟨h, .refl k s⟩
  | cons a rest ih =>
    cases a with
    | disp =>
      exact (dispTurn_done h).bind fun t ht => (ih ht.1).mono fun _ hu => ⟨hu.1, ht.2.1.trans hu.2⟩
    | _ =>
      exact (ih (h.same (sameRings_external s _))).mono fun _ hu => ⟨hu.1, (rely_external k s _).trans hu.2⟩

/-- Whatever the other agents do before an access of CMD, nothing faults, and CMD takes no harm (20 R79, R80 (g)). -/
theorem cmdGap_succeeds (h : Sound k s) : Succeeds (cmdGap s) (fun t => Sound k t ∧ Rely k s t) := by
  unfold cmdGap
  split
  · exact .ok ⟨h, .refl k s⟩
  · rename_i acts rest hg
    have hsame : SameRings s { s with gaps := rest } := ⟨rfl, rfl, rfl, rfl, rfl, .inl rfl, id, fun h0 => by
      rw [hg] at h0
      cases h0⟩
    exact (cmdActs_succeeds acts (h.same hsame)).mono fun _ hu =>
      ⟨hu.1, (Rely.of_same (.of_eq rfl) hsame).trans hu.2⟩

theorem SameRings.dispCost {s t : State} (h : SameRings s t) (hd : s.disp ≠ .idle) : t.dispCost = s.dispCost := by
  have hdisp : t.disp = s.disp := h.disp.resolve_right fun h1 => hd h1.2.1
  have hw : ∀ w, t.walkCost w = s.walkCost w := fun w => by
    cases w <;> simp only [State.walkCost, State.loanCount, h.dq, h.pool, h.queue]
  simp only [State.dispCost, hdisp, h.walk, hw]

/-- While CMD holds no lock, a wait for something that holds when the dispatcher is idle comes to an end (20 R84, 44
R238). -/
theorem waitUntil_succeeds {p : State → Bool} (hk : k.lock = none)
    (hp : ∀ s : State, Tidy k s → s.disp = .idle → p s = true) (f : Fault) (n : Nat) (h : Sound k s)
    (hn : s.dispCost ≤ n) : Succeeds (waitUntil p f n s) (fun t => (Sound k t ∧ Rely k s t) ∧ p t = true) := by
  induction n generalizing s with
  | zero =>
    have hidle : s.disp = .idle := by
      by_contra hd
      obtain ⟨t, -, ht⟩ := dispTurn_done h
      have := ht.2.2 hk hd
      omega
    exact ⟨s, waitUntil_done (hp s h.tidy hidle) f 0, ⟨h, .refl k s⟩, hp s h.tidy hidle⟩
  | succ n ih =>
    cases hps : p s with
    | true => exact ⟨s, waitUntil_done hps f _, ⟨h, .refl k s⟩, hps⟩
    | false =>
      have hd : s.disp ≠ .idle := fun hd => by
        rw [hp s h.tidy hd] at hps
        cases hps
      have hw := sameRings_waitGap s
      obtain ⟨t, ht, hsound, hrely, hless⟩ := dispTurn_done (h.same hw)
      have hcost := hw.dispCost hd
      have hd' : s.waitGap.disp ≠ .idle := by
        rw [hw.disp.resolve_right fun h1 => hd h1.2.1]
        exact hd
      have := hless hk hd'
      rw [waitUntil_step hps ht]
      exact (ih hsound (by omega)).mono fun u hu =>
        ⟨⟨hu.1.1, (Rely.of_same (sameCmd_waitGap s) hw).trans (hrely.trans hu.1.2)⟩, hu.2⟩

/-- The patience of a wait is enough. -/
theorem dispCost_le_patience (h : Sound k s) : s.dispCost ≤ patience := by
  have hroles : rolesAfter s.dq ≤ 2 := by cases s.dq <;> decide
  have hb : drainBound = 229378 := rfl
  have hp : patience = 1048576 := rfl
  have hmul : rolesAfter s.dq * (drainBound + 3) ≤ 2 * (drainBound + 3) := Nat.mul_le_mul_right _ hroles
  cases hd : s.disp <;> simp only [State.dispCost, hd]
  case walk =>
    cases hw : s.walk <;> simp only [State.walkCost]
    case drain r =>
      have hr := (h.walk r (by simp [State.drainOf, hd, hw])).1
      have := drainCost_le hr h.size
      omega
    all_goals omega
  all_goals omega

end
end Sys2Proof.Machine

namespace Sys2Proof.Machine

/-- The queues, the slots and the walk are all that matters, and what CMD has in hand. -/
theorem Sound.move {k k' : Hold} {s t : State} (h : Sound k s) (ht : Tidy k' t) (hq : t.queues = s.queues)
    (hp : t.pool = s.pool) (hd : t.disp = s.disp) (hdq : t.dq = s.dq) (hw : t.walk = s.walk)
    (hi : t.irqEn = true → s.irqEn = true) : Sound k' t := by
  have hslot : ∀ n, t.slot n = s.slot n := fun n => congrArg (fun p : List Slot => p.getD n Slot.free) hp
  have hkeep : Keeps s.dq s t := ⟨congrArg (fun x : PerRole Queue => x.get s.dq) hq, hslot _, fun n _ _ => hslot n⟩
  refine ⟨h.toIntact.move ht hq hp fun hb => hb.imp hi fun h1 => by rwa [hd] at h1, fun r hr => ?_⟩
  rw [State.drainOf_congr hd hw] at hr
  rw [hdq]
  exact ⟨(h.walk r hr).1.keep hkeep, fun x hx => ((h.walk r hr).2 x hx).of_slot (hslot _)⟩

/-! ## CMD's accesses do not fault (20 R79) -/

/-- The `n` bytes from `a` lie in some live slot. -/
def State.Live (s : State) (a n : Nat) : Prop := ∃ h, s.InSlot h a n

/-- `t` is a state that CMD may meet some accesses after `s`: in order, and with nothing of CMD's disturbed. -/
def Onward (k : Hold) (s t : State) : Prop := Sound k t ∧ Rely k s t

section
variable {k : Hold} {s t u : State}

theorem Onward.refl (h : Sound k s) : Onward k s s := ⟨h, .refl k s⟩

theorem Onward.trans (h : Onward k s t) (g : Onward k t u) : Onward k s u := ⟨g.1, h.2.trans g.2⟩

/-- What leaves the rings and the fields of CMD alone. -/
theorem Onward.same (h : Onward k s t) (hst : SameRings t u) (hc : SameCmd t u) : Onward k s u :=
  ⟨h.1.same hst, h.2.trans (.of_same hc hst)⟩

theorem sameCmd_drainStores (c : Ctx) (s : State) : SameCmd s (c.drainStores s) := by
  unfold Ctx.drainStores
  split
  · exact .of_eq (State.settle_eq s)
  · exact .refl s

variable (h : Sound k s)
include h

theorem regRead_succeeds (w : Win) (off n : Nat) : Succeeds (regRead cmdCtx w off n s) (fun r => Onward k s r.2) := by
  obtain ⟨s1, hgap, h1⟩ := cmdGap_succeeds h
  have h2 : Onward k s (cmdCtx.drainStores s1) := Onward.same h1 (sameRings_drainStores ..) (sameCmd_drainStores ..)
  have h3 : Onward k s ((cmdCtx.drainStores s1).windowRead w off n).2 :=
    h2.same (sameRings_windowRead ..) (.of_eq (State.windowRead_eq ..))
  exact ⟨_, regRead_of_gap hgap w off n, h3.same (.of_eq rfl) (.of_eq rfl)⟩

theorem regWrite_succeeds (w : Win) (off n v : Nat) : Succeeds (regWrite cmdCtx w off n v s) (Onward k s) := by
  obtain ⟨s1, hgap, h1⟩ := cmdGap_succeeds h
  have h2 : Onward k s (cmdCtx.drainStores s1) := Onward.same h1 (sameRings_drainStores ..) (sameCmd_drainStores ..)
  have h3 : Onward k s ((cmdCtx.drainStores s1).windowWrite w off (busBytes (s1.winEndian w) n v)) :=
    h2.same (sameRings_windowWrite ..) (.of_eq (State.windowWrite_eq ..))
  exact ⟨_, regWrite_of_gap hgap w off n v, h3.same (.of_eq rfl) (.of_eq rfl)⟩

theorem pciRead_succeeds (r : PciReg) : Succeeds (pciRead cmdCtx r s) (fun r => Onward k s r.2) := by
  obtain ⟨s1, hgap, h1⟩ := cmdGap_succeeds h
  exact ⟨_, pciRead_of_gap hgap r, Onward.same h1 (.of_eq rfl) (.of_eq rfl)⟩

theorem cmdMemRead_succeeds {a len : Nat} (hs : ∀ t, Onward k s t → t.Live a len) :
    Succeeds (memRead cmdCtx a len s) (fun r => Onward k s r.2) := by
  obtain ⟨s1, hgap, h1⟩ := cmdGap_succeeds h
  obtain ⟨n, hn⟩ := hs s1 h1
  obtain ⟨v, hv⟩ := memRead_of_inSlot (c := cmdCtx) hgap hn
  exact ⟨_, hv, Onward.same h1 (.of_eq rfl) (.of_eq rfl)⟩

theorem cmdFence_succeeds : Succeeds (fence cmdCtx s) (Onward k s) := by
  obtain ⟨s1, hgap, h1⟩ := cmdGap_succeeds h
  have h2 : Onward k s (cmdCtx.drainStores s1) := Onward.same h1 (sameRings_drainStores ..) (sameCmd_drainStores ..)
  exact ⟨_, fence_of_gap hgap, h2.same (.of_eq rfl) (.of_eq rfl)⟩

/-- A store of CMD may stay pending. -/
theorem memWrite_succeeds (hk : k.storing = true) {a len : Nat} (hs : ∀ t, Onward k s t → t.Live a len) (v : Nat) :
    Succeeds (memWrite cmdCtx a len v s) (Onward k s) := by
  obtain ⟨s1, hgap, h1⟩ := cmdGap_succeeds h
  obtain ⟨n, hn⟩ := hs s1 h1
  refine ⟨_, memWrite_of_inSlot (c := cmdCtx) hgap hn v, ?_, h1.2.trans (.of_rings (.of_eq rfl) rfl rfl)⟩
  have ht : Tidy k (State.log { s1 with wbuf := s1.wbuf ++ [{ addr := a, bytes := leBytes len v }] } .cmd
      (.memWrite a len v)) :=
    ⟨h1.1.tidy.disp, h1.1.tidy.cmd, fun hf => (by rw [hk] at hf; cases hf), h1.1.tidy.quiet, h1.1.tidy.alone⟩
  exact h1.1.move ht rfl rfl rfl rfl rfl id

theorem readLink_succeeds : Succeeds (readLink cmdCtx s) (fun r => Onward k s r.2) := by
  unfold readLink
  split
  · exact (regRead_succeeds h _ _ _).bind fun _ h1 => .ok h1
  · exact .ok (.refl h)

end

/-! ## What CMD has in hand changes -/

section
variable {k : Hold} {s t : State}

theorem Sound.hold (h : Sound k s) {k' : Hold} (ht : Tidy k' s) : Sound k' s :=
  h.move ht rfl rfl rfl rfl rfl id

theorem Sound.mono (h : Sound k s) {k' : Hold} (hl : k'.lock = k.lock) (hs : k'.storing = false → k.storing = false)
    (hq : k'.quiet = true → k.quiet = true) (ha : k'.alone = true → k.alone = true) : Sound k' s :=
  h.hold (h.tidy.mono hl hs hq ha)

/-- With the handler off and the dispatcher idle, nobody but CMD touches queues and slots. -/
theorem Sound.still (h : Sound k s) (hd : s.disp = .idle) (hi : s.irqEn = false) : Sound { k with quiet := true } s :=
  h.hold ⟨h.tidy.disp, h.tidy.cmd, h.tidy.stores, fun _ => ⟨hd, hi⟩, h.tidy.alone⟩

/-- The handler is taken off, and what has been acquired changes. -/
theorem Sound.irqOff (h : Sound k s) (acq : List Resource) : Sound k { s with irqEn := false, acq := acq } :=
  h.move h.tidy.irqOff rfl rfl rfl rfl rfl fun hf => by cases hf

theorem Tidy.lock_none (h : Tidy k s) (hk : k.lock = none) (hd : s.drainOf = none) (q : Role) :
    (s.queue q).lock = none := by
  cases hl : (s.queue q).lock with
  | none => rfl
  | some a =>
    cases a with
    | cmd =>
      have := (h.cmd q).1 hl
      rw [hk] at this
      cases this
    | disp => exact absurd hl (h.not_disp hd q)

theorem State.drainOf_of_idle (hd : s.disp = .idle) : s.drainOf = none :=
  State.drainOf_of_disp (by rw [hd]; decide)

end

/-! ## Waits end (20 R84; 43 R215, 60 R276) -/

section
variable {k : Hold} {s : State} (hk : k.lock = none)
include hk

theorem waitIdle_succeeds (h : Sound k s) :
    Succeeds (waitIdle s) (fun t => Onward k s t ∧ t.disp = .idle) :=
  (waitUntil_succeeds hk (fun _ _ hd => beq_iff_eq.2 hd) _ _ h (dispCost_le_patience h)).mono fun _ ht =>
    ⟨ht.1, beq_iff_eq.1 ht.2⟩

/-- CMD takes the lock of a queue that nobody holds. -/
theorem Sound.take (h : Sound k s) {q : Role} (hq : (s.queue q).lock = none) :
    Sound { k with lock := some q } (s.setQueue q { s.queue q with lock := some .cmd }) := by
  refine ⟨h.toIntact.relock (h.tidy.take hk hq) rfl rfl id fun hl => (by cases hl), fun r hr => ?_⟩
  have hdq : s.dq ≠ q := fun hdq => by
    rw [(h.tidy.disp q).2 ⟨by rw [show s.drainOf = some r from hr]; rfl, hdq⟩] at hq
    cases hq
  exact ⟨(h.walk r hr).1.keep (keeps_setQueue hdq _), (h.walk r hr).2⟩

/-- CMD gives the lock back; of a valid queue that is not broken the chains' tables are in place. -/
theorem Sound.giveBack {q : Role} (h : Sound { k with lock := some q } s)
    (hr : (s.queue q).valid = true → (s.queue q).broken = false → s.RingSound q) : Sound k (unlock q s) := by
  refine ⟨h.toIntact.relock (h.tidy.giveBack hk) rfl rfl id fun _ => hr, fun r hd => ?_⟩
  have hdq : s.dq ≠ q := fun hdq => by
    have := (h.tidy.disp q).2 ⟨by rw [show s.drainOf = some r from hd]; rfl, hdq⟩
    rw [(h.tidy.cmd q).2 rfl] at this
    cases this
  exact ⟨(h.walk r hd).1.keep (keeps_setQueue hdq _), (h.walk r hd).2⟩

/-- CMD gets the lock it waits for, `s1` being the state in which it finds it free (20 R84). -/
theorem lock_succeeds (h : Sound k s) (q : Role) :
    ∃ s1, waitUntil (fun s => (s.queue q).lock == none) (.stuckOnLock q) patience s = .ok s1
      ∧ lock q s = .ok (s1.setQueue q { s1.queue q with lock := some .cmd })
      ∧ Onward k s s1 ∧ (s1.queue q).lock = none := by
  obtain ⟨s1, hw, h1, hp⟩ := waitUntil_succeeds hk (p := fun s => (s.queue q).lock == none)
    (fun s ht hd => beq_iff_eq.2 (ht.lock_none hk (State.drainOf_of_idle hd) q)) (.stuckOnLock q) patience h
    (dispCost_le_patience h)
  refine ⟨s1, hw, ?_, h1, beq_iff_eq.1 hp⟩
  unfold lock
  rw [hw]
  rfl

end

/-! ## CMD's drain ends (41 R164, 44 R238) -/

section
variable {k : Hold} {q : Role}

/-- What CMD keeps through its drain of a valid queue. -/
theorem cmdEnv (hk : k.lock = some q) : DrainEnv cmdCtx q (fun s => Sound k s ∧ (s.queue q).valid = true) := by
  have hlent : ∀ {s : State} {n : Nat}, s.OnLoan q n → ∀ l, (s.slot n).loan = some l → k.lock = some l.q := by
    rintro s n ⟨i, hi⟩ l hl
    rw [hi] at hl
    cases hl
    exact hk
  have hset : ∀ {s : State} {n : Nat} {y : Slot} (m : Memory), Sound k s → s.OnLoan q n →
      (y.alloc = false → y.loan = none) → Sound k { s with pool := s.pool.set n y, mem := m } := by
    rintro s n y m h hn hy
    refine h.setPool (fun p hp => h.region_ne ?_ hp) hy (hlent hn) m
    obtain ⟨i, hi⟩ := hn
    rw [hi]
    simp
  refine ⟨fun s h => ?_, fun s m w b h hw => ?_, fun s x h hx => ?_, fun s n m h _ hn => ?_, fun _ s n h hi hn => ?_⟩
  · refine (cmdGap_succeeds h.1).mono fun t ht => ⟨⟨ht.1, ?_⟩, ht.2.keeps hk (h.1.region q h.2), ht.2.loanCount⟩
    rw [(ht.2.shape q).1]
    exact h.2
  · exact ⟨h.1.same ⟨rfl, rfl, rfl, rfl, rfl, .inl rfl, hw, id⟩, h.2⟩
  · refine ⟨h.1.setQueue hk hx, ?_⟩
    rw [State.queue_setQueue_self, hx.valid]
    exact h.2
  · exact ⟨hset m h.1 hn fun _ => rfl, h.2⟩
  · exact ⟨hset s.mem h.1 hn fun _ => rfl, h.2⟩

/-- A drain of CMD comes to its end. -/
theorem drainRun_succeeds (hk : k.lock = some q) (n : Nat) {r : DrainRun} {s : State} (h : Sound k s)
    (hd : s.DrainReady q r.pos) (hn : s.loanCount + drainCost (s.queue q) r.pos < n) :
    Succeeds (drainRun q n r s) (fun p => Sound k p.2 ∧ ∃ b, p.2.DrainReady q (.finished b)) := by
  induction n generalizing r s with
  | zero => omega
  | succ n ih =>
    rw [drainRun]
    split
    · rename_i b hb
      exact .ok ⟨h, b, hb ▸ hd⟩
    · rename_i hp
      refine (drainStep_done (cmdEnv hk) ⟨h, hd.valid⟩ hd hp).bind ?_
      rintro ⟨r1, s1⟩ ⟨⟨h1, hd1, hless⟩, -⟩
      exact ih h1.1 hd1 (by dsimp only at hless ⊢; omega)

/-- `DrainList` of a valid queue (41 R164). -/
theorem drainList_succeeds (hk : k.lock = none) {s : State} (h : Sound k s) (hv : (s.queue q).valid = true) :
    Succeeds (drainList q s) (fun p => Sound k p.2 ∧ (p.2.queue q).valid = true) := by
  obtain ⟨s1, -, hlock, h1, hfree⟩ := lock_succeeds hk h q
  have hv1 : (s1.queue q).valid = true := (h1.2.shape q).1.trans hv
  have hs2 := Sound.take hk h1.1 hfree
  have hd2 := h1.1.locked_ready hfree hv1 (some .cmd)
  have hcost := (drainCost_le hd2 hs2.size).trans_lt (by decide : drainBound < patience)
  unfold drainList
  rw [hlock]
  refine (drainRun_succeeds (k := { k with lock := some q }) rfl patience (r := { out := [], pos := .start }) hs2 hd2
    hcost).bind ?_
  rintro ⟨res, s3⟩ ⟨h3, b, hd3⟩
  refine .ok ⟨Sound.giveBack hk h3 fun _ hb => hd3.ring hb, ?_⟩
  show ((s3.setQueue q _).queue q).valid = true
  rw [State.queue_setQueue_self]
  exact hd3.valid

end

end Sys2Proof.Machine

namespace Sys2Proof.Machine

/-! ## Counting the descriptors of a chain (10 R27) -/

theorem distinct_iff_nodup {α : Type} [DecidableEq α] (l : List α) : distinct l = true ↔ l.Nodup := by
  induction l with
  | nil => simp [distinct]
  | cons a rest ih => simp [distinct, ih]

theorem Queue.mem_indices {x : Queue} {i : DescIdx} : i ∈ x.indices ↔ i.toNat < x.n.toNat := by
  unfold Queue.indices
  rw [List.mem_map]
  constructor
  · rintro ⟨k, hk, rfl⟩
    exact (Nat.mod_le _ _).trans_lt (List.mem_range.1 hk)
  · exact fun hi => ⟨i.toNat, List.mem_range.2 hi, by simp⟩

/-- The chain of a head is counted over the descriptor entries. -/
theorem Queue.chainCount_eq_countTag {x : Queue} (hlen : x.desc.length = x.n.toNat) (h : DescIdx) :
    x.chainCount h = x.countTag (fun t => t == .submitted h) := by
  have hdesc : x.desc = x.indices.map x.descAt := by
    refine List.ext_getElem (by simp [Queue.indices, hlen]) fun k hk _ => ?_
    have hk2 : k < 65536 := (hlen ▸ hk : k < x.n.toNat).trans x.n.isLt
    simp [Queue.indices, Queue.descAt, Nat.mod_eq_of_lt hk2, List.getD, hk]
  unfold Queue.chainCount Queue.countTag
  rw [← List.countP_eq_length_filter]
  conv_rhs => rw [hdesc, List.countP_map]
  rfl

/-- Tagging distinct descriptors that had another tag adds their number. -/
theorem Queue.countTag_setTags_of_nodup (x : Queue) {p : Tag → Bool} {t : Tag} (ht : p t = true) {order : List DescIdx}
    (hnd : order.Nodup) (hlt : ∀ i ∈ order, i.toNat < x.desc.length) (hold : ∀ i ∈ order, p (x.tagAt i) = false) :
    (x.setTags t order).countTag p = x.countTag p + order.length := by
  induction order generalizing x with
  | nil => rfl
  | cons i rest ih =>
    obtain ⟨hi, hrest⟩ := List.nodup_cons.1 hnd
    have hilt := hlt i (List.mem_cons_self ..)
    have hone : (x.setTag i t).countTag p = x.countTag p + 1 := by
      have hget : x.desc[i.toNat].tag = x.tagAt i := by simp [Queue.tagAt, Queue.descAt, List.getD, hilt]
      unfold Queue.countTag Queue.setTag
      dsimp only
      rw [List.countP_set hilt]
      simp [hget, hold i (List.mem_cons_self ..), ht]
    rw [Queue.setTags, ih (x.setTag i t) hrest, hone, List.length_cons]
    · omega
    · intro j hj
      rw [x.setTag_desc_length]
      exact hlt j (List.mem_cons_of_mem _ hj)
    · intro j hj
      rw [x.tagAt_setTag_ne _ (ne_of_mem_of_not_mem hj hi)]
      exact hold j (List.mem_cons_of_mem _ hj)

/-! ## What `conserved` says (10 R27) -/

section
variable {x : Queue} (h : x.conserved = true)
include h

theorem Queue.conserved_free {i : DescIdx} (hi : i ∈ x.free) : i.toNat < x.n.toNat := by
  simp only [Queue.conserved, Bool.and_eq_true, List.all_eq_true, decide_eq_true_eq] at h
  exact h.1.2 i hi

/-- The head of a chain is one of its descriptors, and its record says how many there are. -/
theorem Queue.conserved_head {i hd : DescIdx} (hi : i.toNat < x.n.toNat) (ht : x.tagAt i = .submitted hd) :
    hd.toNat < x.n.toNat ∧ x.tagAt hd = .submitted hd ∧ (x.descAt hd).chainLen.toNat = x.chainCount hd := by
  have hall : ∀ i hd, i.toNat < x.n.toNat → x.tagAt i = .submitted hd → hd.toNat < x.n.toNat
      ∧ x.tagAt hd = .submitted hd ∧ (i = hd → (x.descAt hd).chainLen.toNat = x.chainCount hd) := by
    intro i hd hi ht
    have hmem := Queue.mem_indices.2 hi
    simp only [Queue.conserved, Bool.and_eq_true, List.all_eq_true] at h
    have := h.2 i hmem
    simp only [ht, Bool.and_eq_true, decide_eq_true_eq, beq_iff_eq, Bool.or_eq_true, bne_iff_ne] at this
    exact ⟨this.1.1.2, this.1.2, fun hih => this.2.resolve_left fun hne => hne hih⟩
  obtain ⟨hlt, hself, -⟩ := hall i hd hi ht
  exact ⟨hlt, hself, (hall hd hd hlt hself).2.2 rfl⟩

end

/-! ## A safe state, read as propositions -/

theorem Config.wf_poolSlots {c : Config} (h : c.wf = true) : c.poolSlots ≤ 65536 := by
  simp only [Config.wf, Bool.and_eq_true, decide_eq_true_eq] at h
  exact h.1.1.1.2

theorem Role.mem_every (q : Role) : q ∈ Role.every := by cases q <;> simp [Role.every]

section
variable {s : State}

theorem State.safe_tidy (h : s.safe = true) : Tidy .none s := by
  simp only [State.safe, Bool.and_eq_true] at h
  obtain ⟨⟨⟨⟨⟨⟨-, hlocks⟩, hstores⟩, -⟩, -⟩, -⟩, -⟩ := h
  exact (tidy_none_iff s).2 ⟨hlocks, hstores⟩

theorem State.safe_bringUp (h : s.safe = true) : s.acqOk = true ∧ s.queuesByFsm = true ∧ s.dispOk = true := by
  simp only [State.safe, State.bringUpOk, Bool.and_eq_true] at h
  obtain ⟨⟨⟨⟨-, hbring⟩, -⟩, -⟩, -⟩ := h
  obtain ⟨⟨⟨⟨⟨hacq, hqueues⟩, hdisp⟩, -⟩, -⟩, -⟩ := hbring
  exact ⟨hacq, hqueues, hdisp⟩

theorem State.safe_pool (h : s.safe = true) : s.pool.length ≤ 65536 ∧ ∀ x ∈ s.pool, s.slotOk x = true := by
  simp only [State.safe, State.poolOk, Bool.and_eq_true, beq_iff_eq, List.all_eq_true] at h
  obtain ⟨⟨⟨⟨⟨⟨⟨hwf, -⟩, -⟩, -⟩, -⟩, hpool⟩, -⟩, -⟩ := h
  exact ⟨hpool.1.1.trans_le (Config.wf_poolSlots hwf), hpool.1.2⟩

theorem State.safe_rings (h : s.safe = true) :
    (∀ q, s.queueOk q = true) ∧ s.regionsDistinct = true ∧ s.walkOk = true := by
  simp only [State.safe, State.ringsOk, Bool.and_eq_true, List.all_eq_true] at h
  obtain ⟨⟨-, ⟨hqueues, -⟩, hapart⟩, hwalk⟩ := h
  exact ⟨fun q => hqueues q (Role.mem_every q), hapart, hwalk⟩

/-- A free slot is on loan to nobody. -/
theorem State.safe_unlent (h : s.safe = true) (n : Nat) (hn : (s.slot n).alloc = false) : (s.slot n).loan = none := by
  by_cases hlt : n < s.pool.length
  · have hslot : s.slot n = s.pool[n] := by simp [State.slot, List.getD, hlt]
    have hok := (State.safe_pool h).2 _ (List.getElem_mem hlt)
    rw [← hslot, State.slotOk, hn] at hok
    rw [beq_iff_eq.1 (by simpa using hok : (s.slot n == Slot.free) = true)]
    rfl
  · simp [State.slot, List.getD, Nat.le_of_not_lt hlt, Slot.free]

/-- The dispatcher is at work over valid queues alone. -/
theorem State.safe_busy (h : s.safe = true) (hb : s.irqEn = true ∨ s.disp ≠ .idle) (q : Role) :
    (s.queue q).valid = true := by
  obtain ⟨-, hqueues, hdisp⟩ := State.safe_bringUp h
  have hirq : s.irqEn = true := hb.elim id fun hd => by simpa [State.dispOk, hd] using hdisp
  simp only [State.queuesByFsm, Bool.and_eq_true, Bool.or_eq_true, PerRole.all_iff, hirq, Bool.not_true,
    Bool.false_eq_true, false_or, Bool.not_eq_true'] at hqueues
  obtain ⟨⟨⟨-, hvalid⟩, hwired⟩, -⟩ := hqueues
  exact (hvalid q).resolve_left fun hf => by
    rw [hwired q] at hf
    cases hf

theorem State.safe_region (h : s.safe = true) (q : Role) (hv : (s.queue q).valid = true) : s.RegionLive q := by
  have hok := (State.safe_rings h).1 q
  simp only [State.queueOk, hv, if_true, State.regionOk, queueSizeOk, isPow2, Bool.and_eq_true, decide_eq_true_eq,
    beq_iff_eq] at hok
  obtain ⟨⟨⟨⟨⟨⟨⟨⟨⟨⟨⟨⟨hpos, -⟩, hle⟩, hlen⟩, -⟩, halloc⟩, hint⟩, -⟩, hloan⟩, hbytes⟩, hbus⟩, -⟩, -⟩ := hok
  exact ⟨hpos, hle, hlen, halloc, hint, hloan, hbytes, hbus⟩

theorem State.safe_apart (h : s.safe = true) (p q : Role) (hp : (s.queue p).valid = true)
    (hq : (s.queue q).valid = true) (hr : (s.queue p).region = (s.queue q).region) : p = q := by
  have hok := (State.safe_rings h).2.1
  simp only [State.regionsDistinct, List.all_eq_true] at hok
  simpa [hp, hq, hr] using hok p (Role.mem_every p) q (Role.mem_every q)

/-- The tables of a working queue, as its ring says: the chain being walked counts as in flight. -/
theorem State.safe_ring (h : s.safe = true) {q : Role} (hv : (s.queue q).valid = true)
    (hb : (s.queue q).broken = false) :
    (s.ring q).conserved = true ∧ ∀ i, i.toNat < (s.ring q).n.toNat → (s.ring q).tagAt i = .submitted i →
      ∀ t, ((s.ring q).descAt i).ind = some t → (s.slot t.toNat).alloc = true ∧ (s.slot t.toNat).internal = true
        ∧ (s.slot t.toNat).loan = some { q := q, head := i } := by
  have hok := (State.safe_rings h).1 q
  simp only [State.queueOk, hv, if_true, hb, Bool.false_or, Bool.and_eq_true] at hok
  obtain ⟨-, hcons, htables⟩ := hok
  refine ⟨hcons, fun i hi ht t hind => ?_⟩
  simp only [State.tablesOk, List.all_eq_true] at htables
  have := htables i (Queue.mem_indices.2 hi)
  simpa [ht, hind, and_assoc] using this

end

end Sys2Proof.Machine

namespace Sys2Proof.Machine

/-! ## The chain the dispatcher is walking (10 R27, 41 R165) -/

section
variable {x : Queue} {v : Visit} (hlen : x.desc.length = x.n.toNat) (hnd : v.visited.Nodup)
  (hvis : ∀ i ∈ v.visited, i.toNat < x.n.toNat ∧ x.tagAt i = .completedPendingReturn)
include hlen hnd hvis

/-- While some descriptor belongs to the chain being walked, its head has been visited or the chain has more
descriptors than have been visited. -/
theorem Queue.headSeen_of_conserved (hcons : (x.setTags (.submitted v.id) v.visited).conserved = true) {i : DescIdx}
    (hi : i.toNat < x.n.toNat) (ht : (x.setTags (.submitted v.id) v.visited).tagAt i = .submitted v.id) :
    x.HeadSeen v := by
  by_cases hid : v.id ∈ v.visited
  · exact .inl hid
  · have hn := (x.setTags_sameShape (.submitted v.id) v.visited).n
    have hring :
        (x.setTags (.submitted v.id) v.visited).desc.length = (x.setTags (.submitted v.id) v.visited).n.toNat := by
      rw [(x.setTags_sameShape (.submitted v.id) v.visited).entries, hn, hlen]
    obtain ⟨-, hself, hchain⟩ := Queue.conserved_head hcons (by rwa [hn]) ht
    rw [Queue.tagAt_setTags_of_not_mem _ _ hid] at hself
    rw [Queue.chainLen_setTags, Queue.chainCount_eq_countTag hring,
      x.countTag_setTags_of_nodup (by simp) hnd (fun i hi => by rw [hlen]; exact (hvis i hi).1)
        fun i hi => by simp [(hvis i hi).2]] at hchain
    exact .inr ⟨hself, by omega⟩

end

/-! ## A safe state is one from which nothing stops -/

section
variable {s : State} (h : s.safe = true)
include h

theorem State.safe_ring_of_unlocked {q : Role} (hl : (s.queue q).lock = none) : s.ring q = s.queue q := by
  unfold State.ring
  split
  · rename_i r hr
    split
    · rw [if_neg]
      intro hdq
      rw [((State.safe_tidy h).disp q).2 ⟨by rw [hr]; rfl, hdq⟩] at hl
      cases hl
    · rfl
  · rfl

theorem State.safe_ringSound {q : Role} (hv : (s.queue q).valid = true) (hb : (s.queue q).broken = false)
    (hring : s.ring q = s.queue q) : s.RingSound q := by
  obtain ⟨hcons, htables⟩ := State.safe_ring h hv hb
  rw [hring] at hcons htables
  refine ⟨fun i => Queue.conserved_free hcons, fun i hi t ht => htables i ?_ hi t ht⟩
  rw [← (State.safe_region h q hv).entries]
  exact Queue.lt_of_submitted hi

/-- The queue's tables, the head's table and how far the walk of a chain has got. -/
theorem State.safe_visit {q : Role} (hv : (s.queue q).valid = true) (hb : (s.queue q).broken = false) {v : Visit}
    (hring : s.ring q = (s.queue q).setTags (.submitted v.id) v.visited) (hnd : v.visited.Nodup)
    (hvis : ∀ i ∈ v.visited, i.toNat < (s.queue q).n.toNat ∧ (s.queue q).tagAt i = .completedPendingReturn)
    (hrest : v.rest < (s.queue q).n.toNat) {i : DescIdx} (hi : i.toNat < (s.queue q).n.toNat)
    (ht : i ∈ v.visited ∨ (s.queue q).tagAt i = .submitted v.id) :
    s.RingSound q ∧ s.VisitSound q v ∧ (s.queue q).HeadSeen v := by
  obtain ⟨hcons, htables⟩ := State.safe_ring h hv hb
  rw [hring] at hcons htables
  have hlen := (State.safe_region h q hv).entries
  have hn := ((s.queue q).setTags_sameShape (.submitted v.id) v.visited).n
  have htag : ((s.queue q).setTags (.submitted v.id) v.visited).tagAt i = .submitted v.id := by
    by_cases hm : i ∈ v.visited
    · exact Queue.tagAt_setTags_of_mem _ _ hm (by rw [hlen]; exact hi)
    · rw [Queue.tagAt_setTags_of_not_mem _ _ hm]
      exact ht.resolve_left hm
  simp only [Queue.ind_setTags, hn] at htables
  refine ⟨⟨fun i hi => ?_, fun i hi t hind => ?_⟩, ⟨fun i hi => (hvis i hi).1, fun t hind => ?_, hrest, hb⟩,
    Queue.headSeen_of_conserved hlen hnd hvis hcons hi htag⟩
  · have := Queue.conserved_free hcons (i := i) (by rwa [Queue.setTags_free])
    rwa [hn] at this
  · refine htables i (by rw [← hlen]; exact Queue.lt_of_submitted hi) ?_ t hind
    rw [Queue.tagAt_setTags_of_not_mem _ _ fun hm => ?_]
    · exact hi
    · rw [(hvis i hm).2] at hi
      cases hi
  · obtain ⟨hlt, hself, -⟩ := Queue.conserved_head hcons (by rwa [hn]) htag
    rw [hn] at hlt
    exact htables v.id hlt hself t hind

theorem State.safe_drainReady {r : DrainRun} (hr : s.drainOf = some r) : s.DrainReady s.dq r.pos := by
  have hdisp : s.disp ≠ .idle := fun hd => by
    rw [State.drainOf_of_idle hd] at hr
    cases hr
  have hv := State.safe_busy h (.inr hdisp) s.dq
  have hregion := State.safe_region h s.dq hv
  have hwalk := (State.safe_rings h).2.2
  simp only [State.walkOk, hr, Bool.and_eq_true, Bool.or_eq_true, beq_iff_eq, Bool.not_eq_true'] at hwalk
  obtain ⟨-, hwork, hvisit⟩ := hwalk
  have hring : ∀ v, r.pos.visit = some v → s.ring s.dq = (s.queue s.dq).setTags (.submitted v.id) v.visited := by
    intro v hpos
    simp [State.ring, hr, hpos]
  have hplain : r.pos.visit = none → (s.queue s.dq).broken = false → s.RingSound s.dq := by
    intro hpos hb
    exact State.safe_ringSound h hv hb (by simp [State.ring, hr, hpos])
  cases hpos : r.pos with
  | start => exact ⟨hv, hregion, hplain (by rw [hpos]; rfl), trivial⟩
  | finished b =>
    rw [hpos] at hvisit
    cases hvisit
  | element rest =>
    rw [hpos] at hvisit hwork
    have hb := hwork.resolve_left fun hf => by cases hf
    exact ⟨hv, hregion, hplain (by rw [hpos]; rfl), hb, of_decide_eq_true hvisit⟩
  | length rest id =>
    rw [hpos] at hvisit hwork
    have hb := hwork.resolve_left fun hf => by cases hf
    exact ⟨hv, hregion, hplain (by rw [hpos]; rfl), hb, of_decide_eq_true hvisit⟩
  | flags v =>
    rw [hpos] at hvisit hwork
    have hb := hwork.resolve_left fun hf => by cases hf
    simp only [State.visitOk, Bool.and_eq_true, distinct_iff_nodup, List.all_eq_true, decide_eq_true_eq,
      beq_iff_eq] at hvisit
    obtain ⟨⟨⟨⟨⟨hnd, hvis⟩, hcur⟩, htag⟩, -⟩, hrest⟩ := hvisit
    obtain ⟨hsound, hvs, hseen⟩ := State.safe_visit h hv hb (hring v (by rw [hpos]; rfl))
      hnd hvis hrest hcur (.inr htag)
    exact ⟨hv, hregion, fun _ => hsound, hvs, hcur, htag, .inr hseen⟩
  | link v =>
    rw [hpos] at hvisit hwork
    have hb := hwork.resolve_left fun hf => by cases hf
    simp only [State.visitOk, Bool.and_eq_true, distinct_iff_nodup, List.all_eq_true, decide_eq_true_eq,
      beq_iff_eq, List.contains_iff_mem] at hvisit
    obtain ⟨⟨⟨⟨hnd, hvis⟩, hcur⟩, -⟩, hrest⟩ := hvisit
    obtain ⟨hsound, hvs, hseen⟩ := State.safe_visit h hv hb (hring v (by rw [hpos]; rfl)) hnd hvis hrest
      (hvis _ hcur).1 (.inl hcur)
    exact ⟨hv, hregion, fun _ => hsound, hvs, (hvis _ hcur).1, hseen⟩
  | unlend v done =>
    rw [hpos] at hvisit hwork
    have hb := hwork.resolve_left fun hf => by cases hf
    simp only [State.visitOk, Bool.and_eq_true, distinct_iff_nodup, List.all_eq_true, decide_eq_true_eq,
      beq_iff_eq, bne_iff_ne] at hvisit
    obtain ⟨⟨⟨⟨⟨⟨-, hnd⟩, hvis⟩, hne⟩, -⟩, hrest⟩, hlength⟩ := hvisit
    obtain ⟨i, hi⟩ := List.exists_mem_of_ne_nil _ hne
    obtain ⟨hsound, hvs, hseen⟩ := State.safe_visit h hv hb (hring v (by rw [hpos]; rfl)) hnd hvis hrest
      (hvis i hi).1 (.inl hi)
    exact ⟨hv, hregion, fun _ => hsound, hvs, hseen.mem_of_length hlength⟩

/-- What the dispatcher has gathered is on loan to the queue it drains. -/
theorem State.safe_gathered {r : DrainRun} (hr : s.drainOf = some r) : ∀ x ∈ r.gathered, s.Lent s.dq x.toNat := by
  have hwalk := (State.safe_rings h).2.2
  simp only [State.walkOk, hr, Bool.and_eq_true] at hwalk
  obtain ⟨⟨-, hlent⟩, -, hvisit⟩ := hwalk
  have hended : r.pos.ended = [] := by
    cases hpos : r.pos with
    | unlend v done =>
      rw [hpos] at hvisit
      simp only [State.visitOk, Bool.and_eq_true, beq_iff_eq] at hvisit
      obtain ⟨⟨⟨⟨⟨⟨hdone, -⟩, -⟩, -⟩, -⟩, -⟩, -⟩ := hvisit
      exact hdone
    | _ => rfl
  intro x hx
  rw [DrainRun.gathered, hended, List.append_nil] at hx
  simp only [State.toHandOverLent, State.toHandOver, hr, Bool.and_eq_true, List.all_eq_true, Bool.not_eq_true'] at hlent
  obtain ⟨⟨-, hint⟩, hloan⟩ := hlent.2 x hx
  refine ⟨hint, ?_⟩
  split at hloan
  · rename_i l hl
    exact ⟨l.head, by rw [hl, ← beq_iff_eq.1 hloan]⟩
  · cases hloan

theorem State.safe_sound : Sound .none s where
  tidy := State.safe_tidy h
  size := (State.safe_pool h).1
  unlent := State.safe_unlent h
  busy := State.safe_busy h
  region := State.safe_region h
  apart := State.safe_apart h
  ring _ hv hb hl := State.safe_ringSound h hv hb (State.safe_ring_of_unlocked h hl)
  walk _ hr := ⟨State.safe_drainReady h hr, State.safe_gathered h hr⟩

end

end Sys2Proof.Machine

namespace Sys2Proof.Machine

/-! ## A command waits for the dispatcher (20 R84) -/

/-- A wait with nobody else moving is a number of steps of the dispatcher. -/
theorem waitUntil_dispSteps {k : Hold} (hk : k.alone = true) {p : State → Bool} {f : Fault} (n : Nat) {s t : State}
    (h : Tidy k s) (hw : waitUntil p f n s = .ok t) : ∃ m, Claims.dispSteps m s = .ok t := by
  induction n generalizing s with
  | zero =>
    simp only [waitUntil] at hw
    split at hw
    · exact ⟨0, hw⟩
    · cases hw
  | succ n ih =>
    have hgap : s.waitGap = s := by simp [State.waitGap, h.alone hk]
    simp only [waitUntil, hgap] at hw
    split at hw
    · exact ⟨0, hw⟩
    · obtain ⟨s1, h1, h2⟩ := bind_ok.1 hw
      obtain ⟨m, hm⟩ := ih (dispTurn_tidy h s1 h1) h2
      exact ⟨m + 1, by rw [Claims.dispSteps, h1]; exact hm⟩

/-- An OWNED slot is not on loan, and the other agents leave it alone. -/
theorem Rely.segsOk {k : Hold} {s t : State} (h : Rely k s t) {segs : List Seg} (hs : s.segsOk segs = true) :
    t.segsOk segs = true := by
  simp only [State.segsOk, Bool.and_eq_true, List.all_eq_true] at hs ⊢
  obtain ⟨⟨hlen, hall⟩, hdistinct⟩ := hs
  refine ⟨⟨hlen, fun g hg => ?_⟩, hdistinct⟩
  have hok := hall g hg
  have hslot : t.slot (segHandle g).toNat = s.slot (segHandle g).toNat := by
    refine h.slot _ fun l hl => ?_
    simp [State.segOk, Slot.owned, hl] at hok
  simp only [State.segOk, hslot, h.same.cfg]
  exact hok

/-! ### Nothing of such a command happens before it has the lock -/

section
variable {q : Role} {s t : State} (hl : lock q s = lock q t)
include hl

theorem execVqDrain_of_lock_eq (hs : (s.queue q).valid = true) (ht : (t.queue q).valid = true) :
    execVqDrain q s = execVqDrain q t := by
  have hdrain : drainList q s = drainList q t := by
    unfold drainList
    rw [hl]
  unfold execVqDrain
  rw [if_pos hs, if_pos ht, hdrain]

theorem execVqSubmit_of_lock_eq (hst : SameCmd s t) (hready : s.fsm = .driverReady) (hq : q ≠ s.cfg.qCtrl)
    {segs : List Seg} (hs : s.segsOk segs = true) (ht : t.segsOk segs = true) :
    execVqSubmit q segs s = execVqSubmit q segs t := by
  unfold execVqSubmit
  rw [if_pos hready, if_pos (hst.fsm.trans hready), hst.cfg, if_neg hq, if_neg hq, hs, ht, hl]
  rfl

end

/-- Settles O57. The first part is `step_tidy`: every operation gives back the locks it takes. For the second, the wait
for the lock ends (`lock_succeeds`), with nobody else moving it is a number of steps of the dispatcher, and neither
command does anything before it, nor does the wait change what the command's checks look at. -/
theorem locksAreGivenBackAndWaitedFor : Obligations.LocksAreGivenBackAndWaitedFor := by
  refine ⟨fun s t hlocks hstores hstep => ?_, fun s q segs hsafe hgaps hlock => ?_⟩
  · exact (tidy_none_iff t).1 (step_tidy ((tidy_none_iff s).2 ⟨hlocks, hstores⟩) t hstep)
  · have hsound : Sound { Hold.none with alone := true } s := (State.safe_sound hsafe).hold
      ⟨(State.safe_tidy hsafe).disp, (State.safe_tidy hsafe).cmd, (State.safe_tidy hsafe).stores,
        (State.safe_tidy hsafe).quiet, fun _ => hgaps⟩
    obtain ⟨t, hwait, hlocked, ⟨-, hrely⟩, hfree⟩ := lock_succeeds rfl hsound q
    obtain ⟨n, hn⟩ := waitUntil_dispSteps rfl patience hsound.tidy hwait
    have hsame : lock q s = lock q t := hlocked.trans (lock_free hfree).symm
    have hvalid : (s.queue q).valid = true := by
      obtain ⟨hsome, rfl⟩ := (hsound.tidy.disp q).1 hlock
      obtain ⟨r, hr⟩ := Option.isSome_iff_exists.1 hsome
      exact (hsound.walk r hr).1.valid
    exact ⟨n, t, hn, hfree, execVqDrain_of_lock_eq hsame hvalid ((hrely.shape q).1.trans hvalid),
      fun hready hctrl hsegs => execVqSubmit_of_lock_eq hsame hrely.same hready hctrl hsegs (hrely.segsOk hsegs)⟩

end Sys2Proof.Machine

namespace Sys2Proof.Machine

/-! ## Freeing a queue while nobody else is at work (41 R159) -/

theorem freeLent_givenBack {P : Nat → Prop} {s t : State} (h : GivenBack P s t) {q : Role}
    (hP : ∀ n, s.OnLoan q n → P n) (mode : FreeMode) (x : Handle) : GivenBack P s (freeLent q mode x t) := by
  unfold freeLent
  split
  · exact h
  · rename_i l hl
    split
    · rename_i hlq
      have hsame : t.slot x.toNat = s.slot x.toNat := (h.2 x.toNat).resolve_right fun hx => by
        rw [hx.2] at hl
        cases hl
      have hx : P x.toNat := hP _ ⟨l.head, by rw [← hsame, hl, ← hlq]⟩
      split
      · exact h.trans (.set (t := poolFree x.toNat t) rfl hx rfl)
      · exact h.trans (.set (t := t.setSlot x.toNat _) rfl hx rfl)
    · exact h

theorem freeLents_givenBack {P : Nat → Prop} {s : State} {q : Role} (hP : ∀ n, s.OnLoan q n → P n) (mode : FreeMode)
    (hs : List Handle) {t : State} (h : GivenBack P s t) : GivenBack P s (freeLents q mode hs t) := by
  induction hs generalizing t with
  | nil => exact h
  | cons x rest ih => exact ih (freeLent_givenBack h hP mode x)

/-- The end of `FreeQueue` once the slots lent to the queue have been given back (41 R159). -/
def dropQueue (q : Role) (s : State) : State :=
  unlock q ((poolFree (s.queue q).region.toNat s).setQueue q
    { Queue.empty with lock := ((poolFree (s.queue q).region.toNat s).queue q).lock })

theorem freeQueue_of_free {q : Role} {s : State} (hfree : (s.queue q).lock = none) (mode : FreeMode) :
    freeQueue q mode s
      = .ok (dropQueue q (freeLents q mode s.handles (s.setQueue q { s.queue q with lock := some .cmd }))) := by
  unfold freeQueue
  rw [lock_free hfree]
  rfl

theorem dropQueue_queues (q : Role) (s : State) : (dropQueue q s).queues = s.queues.set q Queue.empty := by
  simp [dropQueue, unlock, poolFree, Queue.empty]

/-- Freeing a queue that nobody has locked: the queue is gone, its region and the slots lent to it are given back. -/
theorem freeQueue_gives_back {q : Role} {s : State} (hfree : (s.queue q).lock = none) (mode : FreeMode) :
    ∃ t, freeQueue q mode s = .ok t ∧ t.queues = s.queues.set q Queue.empty
      ∧ GivenBack (fun n => s.OnLoan q n ∨ n = (s.queue q).region.toNat) s t := by
  refine ⟨_, freeQueue_of_free hfree mode, ?_⟩
  have hlents : GivenBack (fun n => s.OnLoan q n ∨ n = (s.queue q).region.toNat) s
      (freeLents q mode s.handles (s.setQueue q { s.queue q with lock := some .cmd })) :=
    freeLents_givenBack (fun n hn => .inl hn) mode _ ((GivenBack.refl _ s).of_pool rfl)
  have hqueues : (freeLents q mode s.handles (s.setQueue q { s.queue q with lock := some .cmd })).queues
      = s.queues.set q { s.queue q with lock := some .cmd } := by
    rw [freeLents_eq]
    rfl
  generalize freeLents q mode s.handles (s.setQueue q { s.queue q with lock := some .cmd }) = s2 at hlents hqueues ⊢
  have hregion : (s2.queue q).region = (s.queue q).region := by rw [State.queue, hqueues, PerRole.get_set_self]
  refine ⟨by rw [dropQueue_queues, hqueues, PerRole.set_set], hlents.trans (.set rfl (.inr ?_) rfl)⟩
  rw [hregion]

/-- With nobody else at work, what is left after freeing a valid queue is in order. -/
theorem Intact.dropQueue {k : Hold} {s t : State} {q : Role} (h : Intact k s) (hv : (s.queue q).valid = true)
    (ht : Tidy k t) (hk : k.quiet = true) (hq : t.queues = s.queues.set q Queue.empty)
    (hg : GivenBack (fun n => s.OnLoan q n ∨ n = (s.queue q).region.toNat) s t) : Intact k t := by
  have hqueue : ∀ p, t.queue p = (s.setQueue q Queue.empty).queue p := fun p =>
    congrArg (fun x : PerRole Queue => x.get p) hq
  -- a queue that is still valid is another one, and keeps its region and its tables
  have hother : ∀ p, (t.queue p).valid = true → p ≠ q ∧ (s.queue p).valid = true ∧ Keeps p s t := by
    intro p hp
    have hpq : p ≠ q := fun hpq => by
      rw [hqueue, hpq, State.queue_setQueue_self] at hp
      cases hp
    have hsame : t.queue p = s.queue p := (hqueue p).trans (State.queue_setQueue_ne _ _ hpq)
    rw [hsame] at hp
    refine ⟨hpq, hp, hsame, (hg.2 _).resolve_right fun hx => ?_, fun n _ hn => (hg.2 n).resolve_right fun hx => ?_⟩
    · rcases hx.1 with ⟨i, hi⟩ | hr
      · rw [(h.region p hp).loan] at hi
        cases hi
      · exact hpq (h.apart p q hp hv (BitVec.eq_of_toNat_eq hr))
    · obtain ⟨i, hi⟩ := hn
      rcases hx.1 with ⟨j, hj⟩ | hr
      · rw [hi] at hj
        cases hj
        exact hpq rfl
      · rw [hr, (h.region q hv).loan] at hi
        cases hi
  refine ⟨ht, hg.1.trans_le h.size, fun n => ?_, fun hb => ?_, fun p hp => ?_, fun p p' hp hp' => ?_,
    fun p hp hb hl => ?_⟩
  · rcases hg.2 n with hn | hn
    · rw [hn]
      exact h.unlent n
    · exact fun _ => hn.2
  · obtain ⟨hidle, hoff⟩ := ht.quiet hk
    rcases hb with hb | hb
    · rw [hoff] at hb
      cases hb
    · exact absurd hidle hb
  · obtain ⟨-, hvp, hkeep⟩ := hother p hp
    exact (h.region p hvp).keep hkeep
  · obtain ⟨-, hvp, hkeep⟩ := hother p hp
    obtain ⟨-, hvp', hkeep'⟩ := hother p' hp'
    rw [hkeep.queue, hkeep'.queue]
    exact h.apart p p' hvp hvp'
  · obtain ⟨-, hvp, hkeep⟩ := hother p hp
    rw [hkeep.queue] at hb hl
    exact (h.ring p hvp hb hl).keep hkeep

section
variable {k : Hold} {s : State} (hk : k.lock = none) (hquiet : k.quiet = true)
include hk hquiet

theorem Tidy.lock_none_of_quiet (h : Tidy k s) (q : Role) : (s.queue q).lock = none :=
  h.lock_none hk (State.drainOf_of_idle (h.quiet hquiet).1) q

theorem freeQueue_succeeds (h : Tidy k s) (q : Role) (mode : FreeMode) : Succeeds (freeQueue q mode s) (Tidy k) := by
  obtain ⟨t, ht, -, -⟩ := freeQueue_gives_back (h.lock_none_of_quiet hk hquiet q) mode
  exact ⟨t, ht, freeQueue_tidy hk h q mode t ht⟩

omit hk in
/-- In a state with nobody else at work, the dispatcher is in no drain. -/
theorem Intact.sound (h : Intact k s) : Sound k s :=
  ⟨h, fun r hr => by
    rw [State.drainOf_of_idle (h.tidy.quiet hquiet).1] at hr
    cases hr⟩

theorem freeQueue_sound (h : Sound k s) {q : Role} (hv : (s.queue q).valid = true) (mode : FreeMode) :
    Succeeds (freeQueue q mode s) (Sound k) := by
  obtain ⟨t, ht, hq, hg⟩ := freeQueue_gives_back (h.tidy.lock_none_of_quiet hk hquiet q) mode
  exact ⟨t, ht, (h.toIntact.dropQueue hv (freeQueue_tidy hk h.tidy q mode t ht) hquiet hq hg).sound hquiet⟩

/-! ## The FAILED entry and the teardown come to their end (43 R215, 60 R276) -/

theorem releaseResource_succeeds (h : Tidy k s) (r : Resource) : Succeeds (releaseResource r s) (Tidy k) := by
  cases r with
  | irq =>
    have hidle : (s.disp == .idle) = true := beq_iff_eq.2 (h.quiet hquiet).1
    exact ⟨_, waitUntil_done (s := { s with irqEn := false }) hidle _ _, h.irqOff⟩
  | qr q => exact freeQueue_succeeds hk hquiet h q .orphan
  | win => exact .ok h

theorem releaseAll_succeeds (rs : List Resource) (h : Tidy k s) : Succeeds (releaseAll rs s) (Tidy k) := by
  induction rs generalizing s with
  | nil => exact .ok h
  | cons r rest ih =>
    exact (releaseResource_succeeds hk hquiet (s := { s with acq := rest }) h r).bind fun _ h1 => ih h1

end

section
variable {k : Hold} {s : State} (hk : k.lock = none)
include hk

omit hk in
theorem statusWrite_succeeds (h : Sound k s) (bits : BitVec 8) :
    Succeeds (statusWrite bits s) (Onward k { s with stShadow := s.stShadow ||| bits }) :=
  regWrite_succeeds (h.same (t := { s with stShadow := s.stShadow ||| bits }) (.of_eq rfl)) _ _ _ _

omit hk in
theorem writeFailedBit_succeeds (h : Sound k s) (e : Err) :
    Succeeds (writeFailedBit e s) (fun t => Sound k t ∧ t.acq = s.acq) := by
  unfold writeFailedBit
  split
  · exact (statusWrite_succeeds h _).mono fun _ h1 => ⟨h1.1, h1.2.same.acq⟩
  · exact .ok ⟨h, rfl⟩

/-- The FAILED entry comes to its end when nobody else is at work, or when it begins by taking the handler off and
waiting for the dispatcher. -/
theorem failWith_succeeds (h : Sound k s) (hq : k.quiet = true ∨ ∃ rest, s.acq = .irq :: rest) (e : Err) :
    Succeeds (failWith e s) (fun _ => True) := by
  have hall : ∀ t : State, Sound k t → t.acq = s.acq → Succeeds (releaseAll t.acq t) (fun _ => True) := by
    intro t ht hacq
    rcases hq with hq | ⟨rest, hrest⟩
    · exact (releaseAll_succeeds hk hq _ ht.tidy).mono fun _ _ => trivial
    · rw [hacq, hrest]
      refine (waitIdle_succeeds hk (ht.irqOff rest)).bind fun t1 h1 => ?_
      have hoff : t1.irqEn = false := h1.1.2.same.irqEn
      exact (releaseAll_succeeds (k := { k with quiet := true }) hk rfl rest (h1.1.1.still h1.2 hoff).tidy).mono
        fun _ _ => trivial
  have hentry : Succeeds (failEntry e s) (fun _ => True) :=
    (writeFailedBit_succeeds h e).bind fun t ht => (hall t ht.1 ht.2).bind fun _ _ => .ok trivial
  exact hentry.bind fun _ _ => .ok trivial

end

end Sys2Proof.Machine

namespace Sys2Proof.Machine

/-! ## BU.DETACH comes to its end (43 R215) -/

theorem State.slot_clearOrphans (s : State) (n : Nat) :
    (clearOrphans s).slot n = { s.slot n with orphan := false } := by
  simp only [State.slot, clearOrphans, List.getD, List.getElem?_map]
  cases s.pool[n]? <;> rfl

/-- Which slots are orphans does not matter to progress. -/
theorem Intact.clearOrphans {k : Hold} {s : State} (h : Intact k s) : Intact k (clearOrphans s) := by
  refine ⟨h.tidy, by simpa [Machine.clearOrphans] using h.size, fun n => ?_, h.busy, fun q hv => ?_, h.apart,
    fun q hv hb hl => ?_⟩
  · rw [State.slot_clearOrphans]
    exact h.unlent n
  · have hr := h.region q hv
    refine ⟨hr.pos, hr.le, hr.entries, ?_, ?_, ?_, ?_, ?_⟩ <;> rw [State.slot_clearOrphans]
    · exact hr.alloc
    · exact hr.internal
    · exact hr.loan
    · exact hr.len
    · exact hr.bus
  · have hr := h.ring q hv hb hl
    refine ⟨hr.free, fun i hi t ht => ?_⟩
    simp only [State.slot_clearOrphans]
    exact hr.tables i hi t ht

section
variable {k : Hold} {s : State} (h : Sound k s)
include h

theorem statusWrite0_succeeds : Succeeds (statusWrite0 s) (fun t => Intact k t) :=
  (regWrite_succeeds (h.same (t := { s with stShadow := 0 }) (.of_eq rfl)) _ _ _ _).bind fun _ h1 =>
    .ok h1.1.toIntact.clearOrphans

variable (hk : k.lock = none)
include hk

/-- One queue of the teardown, once the dispatcher is idle and the handler off. -/
theorem detachQueue_succeeds (hquiet : k.quiet = true) (q : Role) : Succeeds (detachQueue q s) (Sound k) := by
  unfold detachQueue
  split
  · rename_i hv
    dsimp only
    split
    · exact freeQueue_sound hk hquiet h hv .giveBack
    · exact (drainList_succeeds hk h hv).bind fun _ h1 => freeQueue_sound hk hquiet h1.1 h1.2 .giveBack
  · exact .ok h

omit h in
theorem detachQueues_succeeds (hquiet : k.quiet = true) (qs : List Role) {s : State} (h : Sound k s) :
    Succeeds (detachQueues qs s) (Sound k) := by
  induction qs generalizing s with
  | nil => exact .ok h
  | cons q rest ih => exact (detachQueue_succeeds h hk hquiet q).bind fun _ h1 => ih h1

theorem detachDevice_succeeds : Succeeds (detachDevice s) (fun _ => True) := by
  refine (waitIdle_succeeds hk (h.irqOff s.acq)).bind fun s1 h1 => ?_
  have hquiet : Sound { k with quiet := true } s1 := h1.1.1.still h1.2 h1.1.2.same.irqEn
  have hqueues : ∀ s2, Sound { k with quiet := true } s2 →
      Succeeds (detachQueues s2.detachRoles s2) (Sound { k with quiet := true }) := fun s2 h2 =>
    detachQueues_succeeds (k := { k with quiet := true }) hk rfl _ h2
  dsimp only
  split
  · exact (statusWrite0_succeeds hquiet).bind fun s2 h2 => (hqueues s2 (h2.sound rfl)).bind fun _ _ => .ok trivial
  · exact (hqueues s1 hquiet).bind fun _ _ => .ok trivial

end

/-! ## Commands answer (60 R279, R289) -/

/-- The outcome is a next state. -/
def Answers (o : Host.Outcome State Fault Refusal) : Prop := ∃ t, o = .next t

theorem Answers.next (t : State) : Answers (.next t) := ⟨t, rfl⟩

theorem Succeeds.answers {p : State → Prop} {x : Except Fault State} (hx : Succeeds x p) : Answers (finish x) := by
  obtain ⟨a, rfl, -⟩ := hx
  exact ⟨a, rfl⟩

theorem refuse_answers (e : Err) (s : State) : Answers (refuse e s) := .next _

section
variable {s : State} (h : s.safe = true)
include h

/-! ### Register access and queries (40, 43 R217) -/

theorem regReadCommand_answers (w : Win) (n : Nat) (off : BitVec 16) : Answers (regReadCommand w n off s) := by
  unfold regReadCommand
  split
  · split
    · exact Succeeds.answers (p := fun _ => True) ((regRead_succeeds (State.safe_sound h) _ _ _).bind
        fun _ _ => .ok trivial)
    · exact refuse_answers _ s
  · exact refuse_answers _ s

theorem regWriteCommand_answers (w : Win) (n : Nat) (off : BitVec 16) (value : Word) :
    Answers (regWriteCommand w n off value s) := by
  unfold regWriteCommand
  split
  · split
    · exact Succeeds.answers (p := fun _ => True) ((regWrite_succeeds (State.safe_sound h) _ _ _ _).bind
        fun _ _ => .ok trivial)
    · exact refuse_answers _ s
  · exact refuse_answers _ s

theorem execLinkState_answers : Answers (execLinkState s) := by
  unfold execLinkState
  split
  · exact Succeeds.answers (p := fun _ => True) ((readLink_succeeds (State.safe_sound h)).bind fun _ _ => .ok trivial)
  · exact refuse_answers _ s

omit h in
theorem execPoolReserve_answers (dir : Dir) (len : Word) : Answers (execPoolReserve dir len s) := by
  unfold execPoolReserve
  split
  · exact refuse_answers _ s
  · exact .next _

omit h in
theorem execPoolRelease_answers (hd : Handle) : Answers (execPoolRelease hd s) := by
  unfold execPoolRelease
  split
  · split
    · exact refuse_answers _ s
    · split
      · exact refuse_answers _ s
      · exact .next _
  · exact refuse_answers _ s

end

end Sys2Proof.Machine

namespace Sys2Proof.Machine

/-! ## The bring-up commands answer (43) -/

/-- CMD with the handler off and the dispatcher idle. -/
def Hold.still : Hold := { Hold.none with quiet := true }

section
variable {s : State} (h : s.safe = true)
include h

theorem State.safe_still (hirq : s.irqEn = false) : Sound .still s := by
  obtain ⟨-, -, hdisp⟩ := State.safe_bringUp h
  exact (State.safe_sound h).still (by simpa [State.dispOk, hirq] using hdisp) hirq

/-- The handler is registered only from FEATURES_OK on, and then it is what was acquired last. -/
theorem State.safe_acq :
    s.irqEn = false ∨ (s.fsm = .featuresOk ∨ s.fsm = .driverReady) ∧ ∃ rest, s.acq = .irq :: rest := by
  have hacq := (State.safe_bringUp h).1
  cases hirq : s.irqEn with
  | false => exact .inl rfl
  | true =>
    refine .inr ?_
    cases hf : s.fsm <;> simp [State.acqOk, hf, hirq] at hacq
    · exact ⟨.inl rfl, _, hacq.1.2⟩
    · exact ⟨.inr rfl, _, hacq.1.2⟩

theorem State.safe_still_of_fsm (hf : s.fsm ≠ .featuresOk) (hr : s.fsm ≠ .driverReady) : Sound .still s :=
  State.safe_still h ((State.safe_acq h).resolve_right fun hx => hx.1.elim hf hr)

theorem State.safe_failWith (e : Err) : Succeeds (failWith e s) (fun _ => True) := by
  rcases State.safe_acq h with hirq | ⟨-, hacq⟩
  · exact failWith_succeeds (k := .still) rfl (State.safe_still h hirq) (.inl rfl) e
  · exact failWith_succeeds (k := .none) rfl (State.safe_sound h) (.inr hacq) e

omit h in
theorem failWith_of_still (h : Sound .still s) (e : Err) : Succeeds (failWith e s) (fun _ => True) :=
  failWith_succeeds rfl h (.inl rfl) e

theorem execBuReset_answers : Answers (execBuReset s) := by
  unfold execBuReset
  split
  · rename_i hs
    have hst : SameRings s (newInstance s).platMap.2 := by
      unfold State.platMap
      split <;> exact .of_eq rfl
    have hsound : Sound .still (newInstance s).platMap.2 :=
      (State.safe_still_of_fsm h (by rw [hs.1]; decide) (by rw [hs.1]; decide)).same hst
    dsimp only
    rw [choose_eq]
    split
    · exact Succeeds.answers (p := fun _ => True) ((statusWrite0_succeeds (hsound.same
        (t := { (newInstance s).platMap.2 with winMapped := true, acq := .win :: _ }) (.of_eq rfl))).bind
        fun _ _ => .ok trivial)
    · exact Succeeds.answers (failWith_of_still hsound _)
  · exact refuse_answers _ s

theorem execBuAck_answers : Answers (execBuAck s) := by
  unfold execBuAck
  split
  · rename_i hf
    have hsound := State.safe_still_of_fsm h (by rw [hf]; decide) (by rw [hf]; decide)
    refine Succeeds.answers (p := fun _ => True) <| (pciRead_succeeds hsound _).bind fun _ h1 =>
      (pciRead_succeeds h1.1 _).bind fun _ h2 => (pciRead_succeeds h2.1 _).bind fun _ h3 => ?_
    dsimp only
    split
    · exact (statusWrite_succeeds h3.1 _).bind fun _ _ => .ok trivial
    · exact failWith_of_still h3.1 _
  · exact refuse_answers _ s

omit h in
theorem readQueueSize_succeeds {k : Hold} (h : Sound k s) (q : Role) : Succeeds (readQueueSize q s) (Sound k) :=
  (regWrite_succeeds h _ _ _ _).bind fun _ h1 => (regRead_succeeds h1.1 _ _ _).bind fun _ h2 =>
    .ok (h2.1.same (.of_eq rfl))

theorem execBuDriver_answers : Answers (execBuDriver s) := by
  unfold execBuDriver
  split
  · rename_i hf
    have hsound := State.safe_still_of_fsm h (by rw [hf]; decide) (by rw [hf]; decide)
    refine Succeeds.answers (p := fun _ => True) <| (readQueueSize_succeeds hsound _).bind fun _ h1 =>
      (readQueueSize_succeeds h1 _).bind fun _ h2 => (readQueueSize_succeeds h2 _).bind fun _ h3 =>
        (regRead_succeeds h3 _ _ _).bind fun r h4 => ?_
    have h5 : Sound .still { r.2 with offered := BitVec.ofNat 32 r.1 } := h4.1.same (.of_eq rfl)
    dsimp only
    split
    · exact (statusWrite_succeeds h5 _).bind fun _ _ => .ok trivial
    · exact failWith_of_still h5 _
  · exact refuse_answers _ s

theorem execBuFeatures_answers : Answers (execBuFeatures s) := by
  unfold execBuFeatures
  split
  · rename_i hf
    have hsound : Sound .still { s with negotiated := negotiate s.offered s.cfg.driverSupported } :=
      (State.safe_still_of_fsm h (by rw [hf]; decide) (by rw [hf]; decide)).same (.of_eq rfl)
    refine Succeeds.answers (p := fun _ => True) ?_
    dsimp only
    split
    · exact failWith_of_still hsound _
    · exact (regWrite_succeeds hsound _ _ _ _).bind fun _ _ => .ok trivial
  · exact refuse_answers _ s

theorem execBuQwire_answers (q : Role) : Answers (execBuQwire q s) := by
  unfold execBuQwire
  split
  · split
    · exact refuse_answers _ s
    · refine Succeeds.answers (p := fun _ => True) ?_
      split
      · exact State.safe_failWith h _
      · exact (regWrite_succeeds (State.safe_sound h) _ _ _ _).bind fun _ h1 =>
          (regWrite_succeeds h1.1 _ _ _ _).bind fun _ _ => .ok trivial
  · exact refuse_answers _ s

omit h in
theorem execBuIrq_answers : Answers (execBuIrq s) := by
  unfold execBuIrq
  split
  · exact .next _
  · exact refuse_answers _ s

theorem execBuOk_answers : Answers (execBuOk s) := by
  unfold execBuOk
  split
  · exact Succeeds.answers (p := fun _ => True) ((statusWrite_succeeds (State.safe_sound h) _).bind
      fun _ _ => .ok trivial)
  · exact refuse_answers _ s

theorem execBuFail_answers : Answers (execBuFail s) := by
  unfold execBuFail
  split
  · exact refuse_answers _ s
  · exact Succeeds.answers (State.safe_failWith h _)

theorem execBuDetach_answers : Answers (execBuDetach s) := by
  unfold execBuDetach
  split
  · exact refuse_answers _ s
  · exact Succeeds.answers (p := fun _ => True) ((detachDevice_succeeds (State.safe_sound h) rfl).bind
      fun _ _ => .ok trivial)

/-! ## VQ.DRAIN, VQ.DESTROY and VQ.CREATE answer (41) -/

theorem execVqDrain_answers (q : Role) : Answers (execVqDrain q s) := by
  unfold execVqDrain
  split
  · exact Succeeds.answers (p := fun _ => True) ((drainList_succeeds rfl (State.safe_sound h) ‹_›).bind
      fun _ _ => .ok trivial)
  · exact refuse_answers _ s

theorem execVqDestroy_answers (q : Role) : Answers (execVqDestroy q s) := by
  unfold execVqDestroy
  split
  · rename_i hf
    split
    · have hsound := State.safe_still_of_fsm h (by rw [hf]; decide) (by rw [hf]; decide)
      exact Succeeds.answers (p := fun _ => True) ((freeQueue_succeeds rfl rfl hsound.tidy q _).bind
        fun _ _ => .ok trivial)
    · exact refuse_answers _ s
  · exact refuse_answers _ s

omit h in
/-- A reservation that finds no memory leaves the rings alone (42 R182, R185). -/
theorem poolReserve_none {internal : Bool} {dir : Dir} {len : BitVec 32} {t : State}
    (hr : poolReserve internal dir len s = (none, t)) : SameRings s t := by
  have hplat := s.platAlloc_snd len.toNat
  unfold poolReserve at hr
  split at hr
  · cases hr
    exact .refl s
  · split at hr
    · rename_i s1 heq
      cases hr
      rw [heq] at hplat
      exact .of_eq hplat
    · cases hr

theorem execVqCreate_answers (q : Role) (size : BitVec 16) : Answers (execVqCreate q size s) := by
  unfold execVqCreate
  split
  · split
    · exact refuse_answers _ s
    · rename_i hinvalid
      split
      · exact refuse_answers _ s
      · split
        · exact refuse_answers _ s
        · have hirq : s.irqEn = false := by
            by_contra hirq
            exact hinvalid (State.safe_busy h (.inl (by simpa using hirq)) q)
          have hsound := State.safe_still h hirq
          have hfree := hsound.tidy.lock_none_of_quiet rfl rfl q
          have htaken := Sound.take (k := .still) rfl hsound hfree
          rw [lock_free hfree, ok_bind]
          refine Succeeds.answers (p := fun _ => True) ?_
          split
          · exact .ok trivial
          · rename_i s2 hr
            have hst := poolReserve_none hr
            have hgiven : Sound .still (unlock q s2) := Sound.giveBack rfl (htaken.same hst) fun hv => by
              rw [hst.queue, State.queue_setQueue_self] at hv
              exact absurd hv hinvalid
            dsimp only
            split
            · exact failWith_of_still hgiven _
            · exact .ok trivial
  · exact refuse_answers _ s

end

end Sys2Proof.Machine

namespace Sys2Proof.Machine

/-! ## Submitting (41 R160 to R163) -/

theorem State.Live.sub {s : State} {a n b m : Nat} (h : s.Live a n) (hlo : a ≤ b) (hhi : b + m ≤ a + n) :
    s.Live b m := by
  obtain ⟨x, halloc, h1, h2⟩ := h
  exact ⟨x, halloc, by omega, by omega⟩

/-- The four stores of a descriptor. -/
theorem writeDesc_succeeds {k : Hold} {s : State} (h : Sound k s) (hk : k.storing = true) {table i : Nat}
    (hs : ∀ t, Onward k s t → t.Live (descAddr table i) 16) (addr len : Nat) (fl : BitVec 16) (next : Nat) :
    Succeeds (writeDesc cmdCtx table i addr len fl next s) (Onward k s) := by
  refine (memWrite_succeeds h hk (fun t ht => (hs t ht).sub (by omega) (by omega)) _).bind fun s1 h1 => ?_
  refine (memWrite_succeeds h1.1 hk (fun t ht => (hs t (h1.trans ht)).sub (by omega) (by omega)) _).bind fun s2 h2 => ?_
  have h12 := h1.trans h2
  refine (memWrite_succeeds h2.1 hk (fun t ht => (hs t (h12.trans ht)).sub (by omega) (by omega)) _).bind
    fun s3 h3 => ?_
  have h13 := h12.trans h3
  exact (memWrite_succeeds h3.1 hk (fun t ht => (hs t (h13.trans ht)).sub (by omega) (by omega)) _).mono
    fun _ h4 => h13.trans h4

/-- What CMD keeps while it submits a chain of these segments to a queue of layout `x`: the queue is valid, and the
slots are command slots on loan to no other queue. -/
structure Submitting (q : Role) (segs : List Seg) (x : Queue) (s : State) : Prop where
  sound : Sound (.submitting q) s
  valid : (s.queue q).valid = true
  layout : (s.queue q).SameLayout x
  buffers : ∀ g ∈ segs, (s.slot (segHandle g).toNat).alloc = true ∧ (s.slot (segHandle g).toNat).internal = false
    ∧ ∀ l, (s.slot (segHandle g).toNat).loan = some l → l.q = q

section
variable {q : Role} {segs : List Seg} {x : Queue} {s t : State}

theorem Submitting.onward (h : Submitting q segs x s) (ht : Onward (.submitting q) s t) : Submitting q segs x t := by
  have hq := ht.2.queue q rfl
  refine ⟨ht.1, by rw [hq]; exact h.valid, by rw [hq]; exact h.layout, fun g hg => ?_⟩
  rw [ht.2.slot _ fun l hl => congrArg some ((h.buffers g hg).2.2 l hl).symm]
  exact h.buffers g hg

theorem Submitting.setQueue (h : Submitting q segs x s) {y : Queue} (hy : y.SameShape (s.queue q)) :
    Submitting q segs x (s.setQueue q y) := by
  refine ⟨h.sound.setQueue rfl hy, ?_, ?_, h.buffers⟩ <;> rw [State.queue_setQueue_self]
  · exact hy.valid.trans h.valid
  · exact ⟨hy.valid.trans h.layout.valid, hy.n.trans h.layout.n, hy.region.trans h.layout.region,
      hy.base.trans h.layout.base, hy.entries.trans h.layout.entries⟩

/-! ### The bytes of the region -/

theorem Submitting.regionLive (h : Submitting q segs x s) : s.RegionLive q := h.sound.region q h.valid

theorem Submitting.live_desc (h : Submitting q segs x s) {i : Nat} (hi : i < x.n.toNat) :
    s.Live (descAddr x.base.toNat i) 16 := by
  rw [← h.layout.n] at hi
  rw [← h.layout.base]
  exact ⟨_, h.regionLive.descField (off := 0) hi (by omega)⟩

theorem Submitting.live_availElem (h : Submitting q segs x s) (k : Nat) :
    s.Live (availElemAddr x.base.toNat x.n.toNat (k % x.n.toNat)) 2 := by
  rw [← h.layout.base, ← h.layout.n]
  exact ⟨_, h.regionLive.availElem k⟩

theorem Submitting.live_availIdx (h : Submitting q segs x s) : s.Live (availIdxAddr x.base.toNat x.n.toNat) 2 := by
  rw [← h.layout.base, ← h.layout.n]
  exact ⟨_, h.regionLive.availIdx⟩

theorem Submitting.live_usedFlags (h : Submitting q segs x s) : s.Live (usedFlagsAddr x.base.toNat x.n.toNat) 2 := by
  rw [← h.layout.base, ← h.layout.n]
  exact ⟨_, h.regionLive.usedFlags⟩

/-! ### Publication (41 R162) -/

theorem publish_succeeds (h : Submitting q segs (s.queue q) s) (head : DescIdx) :
    Succeeds (publish cmdCtx q head s) (fun _ => True) := by
  refine (memWrite_succeeds h.sound rfl (fun t ht => (h.onward ht).live_availElem _) _).bind fun s1 h1 => ?_
  refine (cmdFence_succeeds h1.1).bind fun s2 h2 => ?_
  have hs3 : Submitting q segs (s.queue q) (s2.setQueue q { s2.queue q with availIdx := (s2.queue q).availIdx + 1 }) :=
    ((h.onward h1).onward h2).setQueue ⟨⟨rfl, rfl, rfl, rfl, rfl⟩, rfl⟩
  refine (memWrite_succeeds hs3.sound rfl (fun t ht => (hs3.onward ht).live_availIdx) _).bind fun s4 h4 => ?_
  refine (cmdFence_succeeds h4.1).bind fun s5 h5 => ?_
  have hs5 := (hs3.onward h4).onward h5
  refine (cmdMemRead_succeeds h5.1 fun t ht => (hs5.onward ht).live_usedFlags).bind fun r h6 => ?_
  dsimp only
  split
  · exact .ok trivial
  · exact (regWrite_succeeds h6.1 _ _ _ _).mono fun _ _ => trivial

/-! ### Loans -/

/-- A slot that is no queue's region and on loan to nobody else is lent to a chain of the queue. -/
theorem Submitting.setLoan (h : Submitting q segs x s) {n : Nat} (halloc : (s.slot n).alloc = true)
    (hreg : ∀ p, (s.queue p).valid = true → (s.queue p).region.toNat ≠ n)
    (hl : ∀ l, (s.slot n).loan = some l → l.q = q) (head : DescIdx) :
    Submitting q segs x (setLoan n (some { q := q, head := head }) s) := by
  have hset : (Machine.setLoan n (some { q := q, head := head }) s).pool
      = s.pool.set n { s.slot n with loan := some { q := q, head := head } } := rfl
  refine ⟨h.sound.setPool hreg (fun hf => ?_) (fun l hn => congrArg some (hl l hn).symm) s.mem, h.valid, h.layout,
    fun g hg => ?_⟩
  · rw [show (s.slot n).alloc = false from hf] at halloc
    cases halloc
  · rcases State.slot_of_pool_set hset (segHandle g).toNat with hs | ⟨hn, hs⟩ <;> rw [hs]
    · exact h.buffers g hg
    · have hb := h.buffers g hg
      rw [hn] at hb
      refine ⟨hb.1, hb.2.1, fun l hsome => ?_⟩
      cases hsome
      rfl

theorem Submitting.setLoans (l : List Seg) (hl : ∀ g ∈ l, g ∈ segs) {s : State} (h : Submitting q segs x s)
    (head : DescIdx) : Submitting q segs x (setLoans (some { q := q, head := head }) (l.map segHandle) s) := by
  induction l generalizing s with
  | nil => exact h
  | cons g rest ih =>
    have hg := h.buffers g (hl g (List.mem_cons_self ..))
    refine ih (fun g' hg' => hl g' (List.mem_cons_of_mem _ hg')) (h.setLoan hg.1 (fun p hp heq => ?_) hg.2.2 head)
    have := (h.sound.region p hp).internal
    rw [heq, hg.2.1] at this
    cases this

theorem submitTail_succeeds (h : Submitting q segs x s) (head : DescIdx) (n : Nat) (ind : Option Handle) :
    Succeeds (submitTail cmdCtx q head n ind segs s) (fun _ => True) := by
  have hl := h.setLoans segs (fun _ hg => hg) head
  have hr := hl.setQueue (y := { (Machine.setLoans (some { q := q, head := head }) (segs.map segHandle) s).queue q with
    desc := ((Machine.setLoans (some { q := q, head := head }) (segs.map segHandle) s).queue q).desc.set head.toNat
      { ((Machine.setLoans (some { q := q, head := head }) (segs.map segHandle) s).queue q).descAt head with
        chainLen := BitVec.ofNat 16 n, cookie := (segs.map segHandle).headD 0, ind := ind } })
    ⟨⟨rfl, rfl, rfl, rfl, List.length_set⟩, rfl⟩
  exact (publish_succeeds (s := recordHead q head n _ ind _) ⟨hr.sound, hr.valid, .refl _, hr.buffers⟩ head).bind
    fun _ _ => .ok trivial

/-! ### The direct block (41 R160) -/

theorem submitDirect_succeeds (l : List (Seg × DescIdx)) (hl : ∀ p ∈ l, p.2.toNat < x.n.toNat) {s : State}
    (h : Submitting q segs x s) (head : DescIdx) :
    Succeeds (submitDirect cmdCtx q head l s) (Submitting q segs x) := by
  induction l generalizing s with
  | nil => exact .ok h
  | cons p rest ih =>
    have hp := hl p (List.mem_cons_self ..)
    refine (writeDesc_succeeds h.sound rfl (fun t ht => ?_) _ _ _ _).bind fun s1 h1 =>
      ih (fun p' hp' => hl p' (List.mem_cons_of_mem _ hp')) ((h.onward h1).setQueue (Queue.setTag_sameShape ..))
    rw [h.layout.base]
    exact (h.onward ht).live_desc hp

/-! ### The indirect block (41 R163) -/

/-- The slot reserved for an indirect table of `count` entries. -/
structure TableReady (n count : Nat) (b : Addr) (s : State) : Prop where
  alloc : (s.slot n).alloc = true
  internal : (s.slot n).internal = true
  loan : (s.slot n).loan = none
  bus : (s.slot n).bus = b
  len : (s.slot n).len.toNat = 16 * count
  region : ∀ p, (s.queue p).valid = true → (s.queue p).region.toNat ≠ n

theorem TableReady.onward {k : Hold} {n count : Nat} {b : Addr} (h : TableReady n count b s) (ht : Onward k s t) :
    TableReady n count b t := by
  have hslot : t.slot n = s.slot n := ht.2.slot n fun l hl => by
    rw [h.loan] at hl
    cases hl
  refine ⟨?_, ?_, ?_, ?_, ?_, fun p hp => ?_⟩
  case refine_6 =>
    rw [(ht.2.shape p).1] at hp
    rw [(ht.2.shape p).2]
    exact h.region p hp
  all_goals rw [hslot]
  · exact h.alloc
  · exact h.internal
  · exact h.loan
  · exact h.bus
  · exact h.len

theorem TableReady.live {n count : Nat} {b : Addr} (h : TableReady n count b s) {i : Nat} (hi : i < count) :
    s.Live (descAddr b.toNat i) 16 := by
  refine ⟨n, h.alloc, ?_, ?_⟩ <;> rw [h.bus]
  · unfold descAddr
    omega
  · rw [h.len]
    unfold descAddr
    omega

theorem writeTable_succeeds {k : Hold} (hk : k.storing = true) {n count : Nat} {b : Addr} (l : List Seg) {i : Nat}
    (hi : i + l.length ≤ count) {s : State} (h : Sound k s) (ht : TableReady n count b s) :
    Succeeds (writeTable cmdCtx b.toNat i l s) (Onward k s) := by
  induction l generalizing i s with
  | nil => exact .ok (.refl h)
  | cons g rest ih =>
    rw [List.length_cons] at hi
    exact (writeDesc_succeeds h hk (fun t hst => (ht.onward hst).live (by omega)) _ _ _ _).bind fun s1 h1 =>
      (ih (by omega) h1.1 (ht.onward h1)).mono fun _ h2 => h1.trans h2

theorem submitIndirect_succeeds {n : Nat} {b : Addr} (h : Submitting q segs x s) (ht : TableReady n segs.length b s)
    {head : DescIdx} (hhead : head.toNat < x.n.toNat) :
    Succeeds (submitIndirect cmdCtx q head n segs s) (Submitting q segs x) := by
  unfold submitIndirect
  rw [ht.bus]
  refine (writeTable_succeeds rfl segs (by omega) h.sound ht).bind fun s1 h1 => ?_
  have hs1 := h.onward h1
  refine (writeDesc_succeeds h1.1 rfl (fun t hst => ?_) _ _ _ _).bind fun s2 h2 => ?_
  · rw [hs1.layout.base]
    exact (hs1.onward hst).live_desc hhead
  · have ht2 := (ht.onward h1).onward h2
    have hs3 := (hs1.onward h2).setQueue ((s2.queue q).setTag_sameShape head (.submitted head))
    refine .ok (hs3.setLoan ht2.alloc (fun p hp => ?_) (fun l hl => ?_) head)
    · rw [State.queue_setQueue] at hp ⊢
      split at hp
      · rename_i hpq
        rw [if_pos hpq]
        exact ht2.region q hp
      · rename_i hpq
        rw [if_neg hpq]
        exact ht2.region p hp
    · rw [State.slot_setQueue, ht2.loan] at hl
      cases hl

end

end Sys2Proof.Machine

namespace Sys2Proof.Machine

/-! ## A reservation that finds memory (42 R182, R185) -/

theorem State.lowestFree_some {s : State} {n : Nat} (h : s.lowestFree = some n) :
    n < s.pool.length ∧ (s.slot n).alloc = false := by
  obtain ⟨hlt, hfree, -⟩ := List.findIdx?_eq_some_iff_getElem.1 h
  refine ⟨hlt, ?_⟩
  simpa [State.slot, List.getD, hlt] using hfree

theorem poolReserve_some {internal : Bool} {dir : Dir} {len : BitVec 32} {s t : State} {n : Nat}
    (hr : poolReserve internal dir len s = (some n, t)) :
    n < s.pool.length ∧ (s.slot n).alloc = false
      ∧ ∃ y : Slot, t.pool = s.pool.set n y ∧ y.alloc = true ∧ y.internal = internal ∧ y.loan = none ∧ y.len = len := by
  have hplat := s.platAlloc_snd len.toNat
  unfold poolReserve at hr
  split at hr
  · cases hr
  · rename_i m hfree
    split at hr
    · cases hr
    · rename_i b s1 heq
      cases hr
      rw [heq] at hplat
      dsimp only at hplat
      have hpool : s1.pool = s.pool := by rw [hplat]
      rw [← hpool]
      exact ⟨hpool ▸ (State.lowestFree_some hfree).1, (State.lowestFree_some hfree).2, _, rfl, rfl, rfl, rfl, rfl⟩

section
variable {q : Role} {segs : List Seg} {x : Queue} {s t : State}

/-- The slot of an indirect table is a new one: nothing else changes, and it is on loan to nobody. -/
theorem Submitting.reserveTable (h : Submitting q segs x s) (hlen : segs.length ≤ 32768) {n : Nat}
    (hr : poolReserveInternal (16 * segs.length) s = (some n, t)) :
    Submitting q segs x t ∧ ∃ b, TableReady n segs.length b t := by
  obtain ⟨hlt, hfree, y, hpool, halloc, hint, hloan, hbytes⟩ := poolReserve_some hr
  have hsnd := poolReserve_snd true .fromDevice (BitVec.ofNat 32 (16 * segs.length)) s
  rw [show poolReserve true .fromDevice (BitVec.ofNat 32 (16 * segs.length)) s = (some n, t) from hr] at hsnd
  dsimp only at hsnd
  have hregion : ∀ p, (s.queue p).valid = true → (s.queue p).region.toNat ≠ n := fun p hp hpn => by
    have := (h.sound.region p hp).alloc
    rw [hpn, hfree] at this
    cases this
  have hset : Sound (.submitting q) { s with pool := s.pool.set n y, mem := s.mem } :=
    h.sound.setPool hregion (fun _ => hloan) (fun l hl => by rw [h.sound.unlent n hfree] at hl; cases hl) s.mem
  have hqueue : ∀ p, t.queue p = s.queue p := fun p => by rw [hsnd]; rfl
  have hslot : t.slot n = y := by
    unfold State.slot
    rw [hpool]
    simp [List.getD, hlt]
  refine ⟨⟨?_, by rw [hqueue]; exact h.valid, by rw [hqueue]; exact h.layout, fun g hg => ?_⟩, y.bus, ?_⟩
  · refine hset.same ?_
    rw [hsnd, hpool]
    exact .of_eq rfl
  · rw [State.slot_of_pool_set_ne hpool fun hgn => ?_]
    · exact h.buffers g hg
    · have := (h.buffers g hg).1
      rw [hgn, hfree] at this
      cases this
  · refine ⟨by rw [hslot, halloc], by rw [hslot, hint], by rw [hslot, hloan], by rw [hslot], ?_, fun p hp => ?_⟩
    · rw [hslot, hbytes, BitVec.toNat_ofNat]
      omega
    · rw [hqueue] at hp ⊢
      exact hregion p hp

theorem submitChain_succeeds (h : Submitting q segs (s.queue q) s) (hlen : segs.length ≤ 32768)
    (hfree : ∀ i ∈ (s.queue q).free, i.toNat < (s.queue q).n.toNat) :
    Succeeds (submitChain cmdCtx q segs s) (fun _ => True) := by
  have hs1 : Submitting q segs (s.queue q)
      (s.setQueue q { s.queue q with free := (s.queue q).free.drop (s.need segs.length) }) :=
    h.setQueue ⟨⟨rfl, rfl, rfl, rfl, rfl⟩, rfl⟩
  have htaken : ∀ i ∈ (s.queue q).free.take (s.need segs.length), i.toNat < (s.queue q).n.toNat := fun i hi =>
    hfree i (List.mem_of_mem_take hi)
  have hhead : (((s.queue q).free.take (s.need segs.length)).headD 0).toNat < (s.queue q).n.toNat := by
    cases hd : (s.queue q).free.take (s.need segs.length) with
    | nil => exact h.regionLive.pos
    | cons i rest => exact htaken i (by rw [hd]; exact List.mem_cons_self ..)
  unfold submitChain
  dsimp only
  split
  · split
    · exact .ok trivial
    · rename_i n s2 hr
      obtain ⟨hs2, b, hready⟩ := hs1.reserveTable hlen hr
      exact (submitIndirect_succeeds hs2 hready hhead).bind fun _ h3 => submitTail_succeeds h3 _ _ _
  · exact (submitDirect_succeeds _ (fun p hp => htaken _ (List.of_mem_zip hp).2) hs1 _).bind fun _ h2 =>
      submitTail_succeeds h2 _ _ _

end

theorem execVqSubmit_answers {s : State} (h : s.safe = true) (q : Role) (segs : List Seg) :
    Answers (execVqSubmit q segs s) := by
  unfold execVqSubmit
  split
  · rename_i hready
    split
    · exact refuse_answers _ s
    · split
      · exact refuse_answers _ s
      · rename_i hsegs
        have hok : s.segsOk segs = true := by simpa using hsegs
        have hirq : s.irqEn = true := by
          have hqueues := (State.safe_bringUp h).2.1
          simp only [State.queuesByFsm, hready, Bool.and_eq_true] at hqueues
          simpa using hqueues.2
        obtain ⟨s1, -, hlock, ⟨hs1, hrely⟩, hfree⟩ := lock_succeeds rfl (State.safe_sound h) q
        have hv : (s1.queue q).valid = true := (hrely.shape q).1.trans (State.safe_busy h (.inl hirq) q)
        have hdrain := hs1.locked_ready hfree hv (some .cmd)
        have hbuffers := hrely.segsOk hok
        simp only [State.segsOk, Bool.and_eq_true, decide_eq_true_eq, List.all_eq_true] at hbuffers
        obtain ⟨⟨⟨-, hlen⟩, hall⟩, -⟩ := hbuffers
        rw [hlock, ok_bind]
        have hs2 : Submitting q segs ((s1.setQueue q { s1.queue q with lock := some .cmd }).queue q)
            (s1.setQueue q { s1.queue q with lock := some .cmd }) := by
          refine ⟨(Sound.take rfl hs1 hfree).mono rfl (fun hf => by cases hf) id id, hdrain.valid, .refl _,
            fun g hg => ?_⟩
          have hseg := hall g hg
          simp only [State.segOk, Slot.owned, Bool.and_eq_true, Bool.not_eq_true', Option.isNone_iff_eq_none] at hseg
          obtain ⟨⟨⟨⟨-, ⟨⟨halloc, hint⟩, hloan⟩, -⟩, -⟩, -⟩, -⟩ := hseg
          refine ⟨halloc, hint, fun l hl => ?_⟩
          rw [State.slot_setQueue, hloan] at hl
          cases hl
        refine Succeeds.answers (p := fun _ => True) ?_
        split
        · exact .ok trivial
        · rename_i hb
          split
          · exact .ok trivial
          · exact submitChain_succeeds hs2 hlen (hdrain.ring (by simpa using hb)).free
  · exact refuse_answers _ s

/-! ## Every step of a safe state has a next one -/

theorem exec_answers (i : Instr) {s : State} (h : s.safe = true) : Answers (exec i s) := by
  cases i with
  | rd8 off => exact regReadCommand_answers h .w0 1 off
  | rd16 off => exact regReadCommand_answers h .w0 2 off
  | rd32 off => exact regReadCommand_answers h .w0 4 off
  | wr8 off value => exact regWriteCommand_answers h .w0 1 off value
  | wr16 off value => exact regWriteCommand_answers h .w0 2 off value
  | wr32 off value => exact regWriteCommand_answers h .w0 4 off value
  | drd8 off => exact regReadCommand_answers h .w1 1 off
  | drd16 off => exact regReadCommand_answers h .w1 2 off
  | drd32 off => exact regReadCommand_answers h .w1 4 off
  | dwr8 off value => exact regWriteCommand_answers h .w1 1 off value
  | dwr16 off value => exact regWriteCommand_answers h .w1 2 off value
  | dwr32 off value => exact regWriteCommand_answers h .w1 4 off value
  | vqCreate q size => exact execVqCreate_answers h q size
  | vqDestroy q => exact execVqDestroy_answers h q
  | vqSubmit q segs => exact execVqSubmit_answers h q segs
  | vqDrain q => exact execVqDrain_answers h q
  | poolReserve dir len => exact execPoolReserve_answers dir len
  | poolRelease hd => exact execPoolRelease_answers hd
  | buReset => exact execBuReset_answers h
  | buAck => exact execBuAck_answers h
  | buDriver => exact execBuDriver_answers h
  | buFeatures => exact execBuFeatures_answers h
  | buQwire q => exact execBuQwire_answers h q
  | buIrq => exact execBuIrq_answers
  | buOk => exact execBuOk_answers h
  | buFail => exact execBuFail_answers h
  | buDetach => exact execBuDetach_answers h
  | linkState => exact execLinkState_answers h
  | propFeat => exact .next _
  | propQsize q => exact .next _

theorem cmdTurn_answers {s : State} (h : s.safe = true) : Answers (cmdTurn s) := by
  unfold cmdTurn
  split
  · exact .next _
  · exact .next _
  · rename_i i rest _
    exact exec_answers i (s := { s with cmdPort := rest }) h

theorem agentTurn_answers (a : Act) {s : State} (h : s.safe = true) : Answers (agentTurn a s) := by
  by_cases ha : a = .disp
  · rw [ha, agentTurn_disp]
    exact Succeeds.answers (dispTurn_done (State.safe_sound h))
  · rw [agentTurn_of_ne_disp ha]
    exact .next _

/-- Whose turn it is does not matter to whether a state is safe. -/
theorem State.nextTurn_safe {s : State} (h : s.safe = true) : s.nextTurn.2.safe = true := by
  unfold State.nextTurn
  split <;> exact h

/-- Settles O60. A safe state meets the invariant `Sound` (`State.safe_sound`), which the other agents keep between any
two accesses of a command (`cmdGap_succeeds`) and which puts every byte a command or the dispatcher looks at in a live
slot; under it a drain and a delivery come nearer to their end with each step (`drainStep_done`, `dispTurn_done`), and
every wait is longer than the dispatcher needs (`dispCost_le_patience`). -/
theorem safeStateNeverStops : Obligations.SafeStateNeverStops := by
  intro s h
  have hn := State.nextTurn_safe h
  cases hturn : s.nextTurn with
  | mk turn s1 =>
    rw [hturn] at hn
    cases turn with
    | cmd =>
      rw [step_of_nextTurn_cmd hturn]
      exact cmdTurn_answers hn
    | act a =>
      rw [step_of_nextTurn_act hturn]
      exact agentTurn_answers a hn

end Sys2Proof.Machine

namespace Sys2Proof

/-! ## A header word is its five fields (30 R101) -/

theorem word_eq_iff {a b : Word} :
    a = b ↔ hdrOpc a = hdrOpc b ∧ hdrQ a = hdrQ b ∧ hdrZero a = hdrZero b ∧ hdrD a = hdrD b ∧ hdrImm a = hdrImm b := by
  have hfields : ∀ h : Word, h = hdrOpc h ++ (hdrQ h ++ (hdrZero h ++ (hdrD h ++ hdrImm h))) := fun h => by
    simp only [hdrOpc, hdrQ, hdrZero, hdrD, hdrImm, BitVec.extractLsb'_append_extractLsb'_eq_extractLsb']
    exact BitVec.extractLsb'_eq_self.symm
  constructor
  · rintro rfl
    exact ⟨rfl, rfl, rfl, rfl, rfl⟩
  · rintro ⟨hopc, hq, hzero, hd, himm⟩
    rw [hfields a, hfields b, hopc, hq, hzero, hd, himm]

theorem roleOf_eq_some_iff {b : BitVec 2} {q : Role} : roleOf b = some q ↔ b = BitVec.ofNat 2 q.num := by
  revert b
  cases q <;> decide

theorem isSome_roleOf : ∀ b : BitVec 2, b ≠ 3#2 → (roleOf b).isSome = true := by decide

theorem ofNat_bit_dirOf (b : BitVec 1) : BitVec.ofNat 1 (dirOf b).bit = b := by
  revert b
  decide

/-! ## The formats (30 R102) -/

/-- Operand words of a frame of the format (30 R103). -/
def Format.operandCount (f : Format) (imm : BitVec 16) : Nat :=
  match f with
  | .ow | .dl => 1
  | .qs => 2 * imm.toNat
  | _ => 0

theorem operandCount_of_format {h : Word} {f : Format} (hf : formatOf (hdrOpc h) = some f) :
    operandCount h = f.operandCount (hdrImm h) := by
  unfold operandCount
  rw [hf]
  cases f <;> rfl

theorem unusedFieldsZero_iff {f : Format} {h : Word} :
    unusedFieldsZero f h = true ↔ hdrZero h = 0 ∧ (f.usesD = false → hdrD h = 0) ∧ (f.usesQ = false → hdrQ h = 0)
      ∧ (f.usesImm = false → hdrImm h = 0) := by
  simp only [unusedFieldsZero, Bool.and_eq_true, Bool.or_eq_true, beq_iff_eq, ← Bool.not_eq_true, imp_iff_not_or,
    not_not, and_assoc]

/-- Every OPC with a format has a command. -/
theorem buildInstr_of_format {opc : BitVec 6} {f : Format} (hf : formatOf opc = some f) (q : Role) (d : Dir)
    (imm : BitVec 16) (ops : List Word) : ∃ i, buildInstr opc q d imm ops = some i := by
  unfold formatOf at hf
  split at hf
  case h_31 => cases hf
  all_goals exact ⟨_, rfl⟩

/-! ## Decoding one frame (30 R103, R105 to R107) -/

theorem decodeFrame_eq_ok_iff {h : Word} {ops : List Word} {i : Instr} :
    decodeFrame h ops = .ok i ↔ ∃ f q, formatOf (hdrOpc h) = some f ∧ unusedFieldsZero f h = true
      ∧ roleOf (hdrQ h) = some q ∧ buildInstr (hdrOpc h) q (dirOf (hdrD h)) (hdrImm h) ops = some i := by
  constructor
  · intro hok
    unfold decodeFrame at hok
    split at hok
    · cases hok
    · rename_i f hf
      split at hok
      · rename_i hzero
        split at hok
        · cases hok
        · rename_i q hq
          split at hok <;> cases hok
          exact ⟨f, q, hf, hzero, hq, ‹_›⟩
      · cases hok
  · rintro ⟨f, q, hf, hzero, hq, hbuild⟩
    simp only [decodeFrame, hf, hzero, hq, hbuild, if_true]

section
variable {h : Word} {ops : List Word} (hlen : ops.length = operandCount h) (rest : List Word)
include hlen

theorem decode_of_decodeFrame_ok {i : Instr} (hok : decodeFrame h ops = .ok i) :
    decode (h :: ops ++ rest) = .instr i rest := by
  simp [decode, ← hlen, hok]

theorem decode_of_decodeFrame_error {why : Illegal} (herr : decodeFrame h ops = .error why) :
    decode (h :: ops ++ rest) = .illegal why rest := by
  simp [decode, ← hlen, herr]

end

theorem decode_eq_instr {ws rest : List Word} {i : Instr} (hdec : decode ws = .instr i rest) :
    ∃ h ops, ws = h :: ops ++ rest ∧ ops.length = operandCount h ∧ decodeFrame h ops = .ok i := by
  cases ws with
  | nil => cases hdec
  | cons h tail =>
    simp only [decode] at hdec
    split at hdec
    · cases hdec
    · rename_i hlen
      split at hdec <;> cases hdec
      refine ⟨h, tail.take (operandCount h), ?_, ?_, ‹_›⟩
      · rw [List.cons_append, List.take_append_drop]
      · exact List.length_take_of_le (Nat.le_of_not_lt hlen)

/-! ## The fields of a command's frame (30 R101, R102, R105, R113) -/

/-- What a frame that is not refused at decode says, field by field. -/
structure Fields where
  opc : BitVec 6
  q : Role
  d : Dir
  imm : BitVec 16
  ops : List Word

/-- The header word of the fields (30 R101). -/
def Fields.header (x : Fields) : Word := Sys2Proof.header x.opc.toNat x.q.num x.d.bit x.imm.toNat

/-- The fields make a frame of the format that carries the instruction: those the format has no use for are 0, the
operand words are as many as it asks for. -/
structure Fields.Carry (x : Fields) (f : Format) (i : Instr) : Prop where
  format : formatOf x.opc = some f
  q : f.usesQ = false → x.q = .q0
  d : f.usesD = false → x.d = .toDevice
  imm : f.usesImm = false → x.imm = 0
  ops : x.ops.length = f.operandCount x.imm
  build : buildInstr x.opc x.q x.d x.imm x.ops = some i

section
variable (x : Fields)

@[simp] theorem Fields.hdrOpc_header : hdrOpc x.header = x.opc :=
  (Sys2Proof.hdrOpc_header x.opc.isLt x.q.num_lt x.d.bit_lt x.imm.isLt).trans (by simp)

@[simp] theorem Fields.hdrQ_header : hdrQ x.header = BitVec.ofNat 2 x.q.num :=
  Sys2Proof.hdrQ_header x.opc.isLt x.q.num_lt x.d.bit_lt x.imm.isLt

@[simp] theorem Fields.hdrZero_header : hdrZero x.header = 0 :=
  Sys2Proof.hdrZero_header x.opc.isLt x.q.num_lt x.d.bit_lt x.imm.isLt

@[simp] theorem Fields.hdrD_header : hdrD x.header = BitVec.ofNat 1 x.d.bit :=
  Sys2Proof.hdrD_header x.opc.isLt x.q.num_lt x.d.bit_lt x.imm.isLt

@[simp] theorem Fields.hdrImm_header : hdrImm x.header = x.imm :=
  (Sys2Proof.hdrImm_header x.opc.isLt x.q.num_lt x.d.bit_lt x.imm.isLt).trans (by simp)

end

/-- The frame of fields that carry an instruction decodes to it. -/
theorem Fields.Carry.decode {x : Fields} {f : Format} {i : Instr} (hx : x.Carry f i) (rest : List Word) :
    decode (x.header :: x.ops ++ rest) = .instr i rest := by
  have hf : formatOf (hdrOpc x.header) = some f := by rw [x.hdrOpc_header, hx.format]
  refine decode_of_decodeFrame_ok ?_ rest (decodeFrame_eq_ok_iff.2 ⟨f, x.q, hf, unusedFieldsZero_iff.2 ?_, ?_, ?_⟩)
  · rw [operandCount_of_format hf, x.hdrImm_header, hx.ops]
  · refine ⟨x.hdrZero_header, fun hu => ?_, fun hu => ?_, fun hu => ?_⟩
    · rw [x.hdrD_header, hx.d hu]
      rfl
    · rw [x.hdrQ_header, hx.q hu]
      rfl
    · rw [x.hdrImm_header, hx.imm hu]
  · rw [x.hdrQ_header, roleOf_num]
  · rw [x.hdrOpc_header, x.hdrD_header, dirOf_bit, x.hdrImm_header, hx.build]

/-- A frame that decodes to an instruction is that of fields that carry it. -/
theorem Fields.Carry.of_decodeFrame {h : Word} {ops : List Word} {i : Instr} (hlen : ops.length = operandCount h)
    (hok : decodeFrame h ops = .ok i) : ∃ (x : Fields) (f : Format), x.Carry f i ∧ x.header = h ∧ x.ops = ops := by
  obtain ⟨f, q, hf, hunused, hrole, hbuild⟩ := decodeFrame_eq_ok_iff.1 hok
  obtain ⟨hzero, hd, hq, himm⟩ := unusedFieldsZero_iff.1 hunused
  refine ⟨⟨hdrOpc h, q, dirOf (hdrD h), hdrImm h, ops⟩, f, ⟨hf, fun hu => ?_, fun hu => ?_, himm, ?_, hbuild⟩, ?_, rfl⟩
  · rw [hq hu] at hrole
    exact (Option.some.inj hrole).symm
  · show dirOf (hdrD h) = .toDevice
    rw [hd hu]
    rfl
  · exact hlen.trans (operandCount_of_format hf)
  · refine word_eq_iff.2 ⟨Fields.hdrOpc_header _, ?_, ?_, ?_, Fields.hdrImm_header _⟩
    · rw [Fields.hdrQ_header, roleOf_eq_some_iff.1 hrole]
    · rw [Fields.hdrZero_header, hzero]
    · rw [Fields.hdrD_header, ofNat_bit_dirOf]

/-! ## The encoder writes those fields -/

theorem Instr.wellFormed_vqSubmit {q : Role} {segs : List Seg} :
    (Instr.vqSubmit q segs).wellFormed = true ↔ segs.length < 65536 := decide_eq_true_iff

theorem segsOf_length {ops : List Word} {n : Nat} (h : ops.length = 2 * n) : (segsOf ops).length = n := by
  have hlen := segWords_length (segsOf ops)
  rw [segWords_segsOf ops n h] at hlen
  omega

/-- The operand words of a frame as its format reads them: one word, or two for each segment, or none. -/
def Format.operands (f : Format) (ops : List Word) : List Word :=
  match f with
  | .ow | .dl => [ops.headD 0]
  | .qs => segWords (segsOf ops)
  | _ => []

theorem Format.operands_eq_self {f : Format} {imm : BitVec 16} {ops : List Word}
    (hops : ops.length = f.operandCount imm) : f.operands ops = ops := by
  have hone : ops.length = 1 → [ops.headD 0] = ops := fun h => by
    obtain ⟨v, rfl⟩ := List.length_eq_one_iff.1 h
    rfl
  have hnone : ops.length = 0 → [] = ops := fun h => (List.eq_nil_of_length_eq_zero h).symm
  cases f with
  | ow => exact hone hops
  | dl => exact hone hops
  | qs => exact segWords_segsOf ops _ hops
  | z => exact hnone hops
  | o => exact hnone hops
  | qz => exact hnone hops
  | qi => exact hnone hops
  | h => exact hnone hops

/-- The encoder writes the fields the format of the command uses, and 0 in the others. -/
theorem encode_of_buildInstr {opc : BitVec 6} {f : Format} {q : Role} {d : Dir} {imm : BitVec 16} {ops : List Word}
    {i : Instr} (hf : formatOf opc = some f) (hbuild : buildInstr opc q d imm ops = some i)
    (hops : ops.length = f.operandCount imm) :
    encode i = header opc.toNat (if f.usesQ then q.num else 0) (if f.usesD then d.bit else 0)
        (if f.usesImm then imm.toNat else 0) :: f.operands ops
      ∧ i.wellFormed = true := by
  unfold buildInstr at hbuild
  split at hbuild <;> cases hbuild <;> cases hf
  case h_15 =>
    have hsegs := segsOf_length hops
    refine ⟨?_, Instr.wellFormed_vqSubmit.2 (hsegs ▸ imm.isLt)⟩
    show header 0x12 q.num 0 (segsOf ops).length :: segWords (segsOf ops) = _
    rw [hsegs]
    rfl
  all_goals exact ⟨rfl, rfl⟩

/-- The fields that carry an instruction are those of its frame. -/
theorem Fields.Carry.encode {x : Fields} {f : Format} {i : Instr} (hx : x.Carry f i) :
    encode i = x.header :: x.ops ∧ i.wellFormed = true := by
  obtain ⟨henc, hwf⟩ := encode_of_buildInstr hx.format hx.build hx.ops
  have hq : (if f.usesQ then x.q.num else 0) = x.q.num := by
    split
    · rfl
    · rw [hx.q (Bool.eq_false_of_not_eq_true ‹_›)]
      rfl
  have hd : (if f.usesD then x.d.bit else 0) = x.d.bit := by
    split
    · rfl
    · rw [hx.d (Bool.eq_false_of_not_eq_true ‹_›)]
      rfl
  have himm : (if f.usesImm then x.imm.toNat else 0) = x.imm.toNat := by
    split
    · rfl
    · rw [hx.imm (Bool.eq_false_of_not_eq_true ‹_›)]
      rfl
  refine ⟨?_, hwf⟩
  rw [henc, hq, hd, himm, Format.operands_eq_self hx.ops]
  rfl

/-! ## Every command has such fields -/

section
variable {opc : BitVec 6} {i : Instr}

theorem Fields.carry_z (hf : formatOf opc = some .z) (hb : buildInstr opc .q0 .toDevice 0 [] = some i) :
    Fields.Carry ⟨opc, .q0, .toDevice, 0, []⟩ .z i :=
  ⟨hf, fun _ => rfl, fun _ => rfl, fun _ => rfl, rfl, hb⟩

theorem Fields.carry_o (imm : BitVec 16) (hf : formatOf opc = some .o)
    (hb : buildInstr opc .q0 .toDevice imm [] = some i) : Fields.Carry ⟨opc, .q0, .toDevice, imm, []⟩ .o i :=
  ⟨hf, fun _ => rfl, fun _ => rfl, nofun, rfl, hb⟩

theorem Fields.carry_ow (imm : BitVec 16) (v : Word) (hf : formatOf opc = some .ow)
    (hb : buildInstr opc .q0 .toDevice imm [v] = some i) : Fields.Carry ⟨opc, .q0, .toDevice, imm, [v]⟩ .ow i :=
  ⟨hf, fun _ => rfl, fun _ => rfl, nofun, rfl, hb⟩

theorem Fields.carry_qz (q : Role) (hf : formatOf opc = some .qz) (hb : buildInstr opc q .toDevice 0 [] = some i) :
    Fields.Carry ⟨opc, q, .toDevice, 0, []⟩ .qz i :=
  ⟨hf, nofun, fun _ => rfl, fun _ => rfl, rfl, hb⟩

end

/-- A well-formed instruction has fields that carry it. -/
theorem Instr.exists_carry (i : Instr) (hwf : i.wellFormed = true) : ∃ (x : Fields) (f : Format), x.Carry f i := by
  cases i with
  | rd8 off => exact ⟨_, _, Fields.carry_o (opc := 0x01) off rfl rfl⟩
  | rd16 off => exact ⟨_, _, Fields.carry_o (opc := 0x02) off rfl rfl⟩
  | rd32 off => exact ⟨_, _, Fields.carry_o (opc := 0x03) off rfl rfl⟩
  | wr8 off v => exact ⟨_, _, Fields.carry_ow (opc := 0x05) off v rfl rfl⟩
  | wr16 off v => exact ⟨_, _, Fields.carry_ow (opc := 0x06) off v rfl rfl⟩
  | wr32 off v => exact ⟨_, _, Fields.carry_ow (opc := 0x07) off v rfl rfl⟩
  | drd8 off => exact ⟨_, _, Fields.carry_o (opc := 0x09) off rfl rfl⟩
  | drd16 off => exact ⟨_, _, Fields.carry_o (opc := 0x0A) off rfl rfl⟩
  | drd32 off => exact ⟨_, _, Fields.carry_o (opc := 0x0B) off rfl rfl⟩
  | dwr8 off v => exact ⟨_, _, Fields.carry_ow (opc := 0x0D) off v rfl rfl⟩
  | dwr16 off v => exact ⟨_, _, Fields.carry_ow (opc := 0x0E) off v rfl rfl⟩
  | dwr32 off v => exact ⟨_, _, Fields.carry_ow (opc := 0x0F) off v rfl rfl⟩
  | vqCreate q size =>
    exact ⟨⟨0x10, q, .toDevice, size, []⟩, .qi, ⟨rfl, nofun, fun _ => rfl, nofun, rfl, rfl⟩⟩
  | vqDestroy q => exact ⟨_, _, Fields.carry_qz (opc := 0x11) q rfl rfl⟩
  | vqSubmit q segs =>
    refine ⟨⟨0x12, q, .toDevice, BitVec.ofNat 16 segs.length, segWords segs⟩, .qs,
      ⟨rfl, nofun, fun _ => rfl, nofun, ?_, ?_⟩⟩
    · show (segWords segs).length = 2 * (segs.length % 65536)
      rw [segWords_length, Nat.mod_eq_of_lt (Instr.wellFormed_vqSubmit.1 hwf)]
    · show some (Instr.vqSubmit q (segsOf (segWords segs))) = _
      rw [segsOf_segWords]
  | vqDrain q => exact ⟨_, _, Fields.carry_qz (opc := 0x13) q rfl rfl⟩
  | poolReserve d len =>
    exact ⟨⟨0x20, .q0, d, 0, [len]⟩, .dl, ⟨rfl, fun _ => rfl, nofun, fun _ => rfl, rfl, rfl⟩⟩
  | poolRelease hd => exact ⟨⟨0x21, .q0, .toDevice, hd, []⟩, .h, ⟨rfl, fun _ => rfl, fun _ => rfl, nofun, rfl, rfl⟩⟩
  | buReset => exact ⟨_, _, Fields.carry_z (opc := 0x30) rfl rfl⟩
  | buAck => exact ⟨_, _, Fields.carry_z (opc := 0x31) rfl rfl⟩
  | buDriver => exact ⟨_, _, Fields.carry_z (opc := 0x32) rfl rfl⟩
  | buFeatures => exact ⟨_, _, Fields.carry_z (opc := 0x33) rfl rfl⟩
  | buQwire q => exact ⟨_, _, Fields.carry_qz (opc := 0x34) q rfl rfl⟩
  | buIrq => exact ⟨_, _, Fields.carry_z (opc := 0x35) rfl rfl⟩
  | buOk => exact ⟨_, _, Fields.carry_z (opc := 0x36) rfl rfl⟩
  | buFail => exact ⟨_, _, Fields.carry_z (opc := 0x37) rfl rfl⟩
  | buDetach => exact ⟨_, _, Fields.carry_z (opc := 0x38) rfl rfl⟩
  | linkState => exact ⟨_, _, Fields.carry_z (opc := 0x39) rfl rfl⟩
  | propFeat => exact ⟨_, _, Fields.carry_z (opc := 0x3A) rfl rfl⟩
  | propQsize q => exact ⟨_, _, Fields.carry_qz (opc := 0x3B) q rfl rfl⟩

/-- Settles O6: the encoder writes the fields that carry the instruction, and their frame decodes to it. -/
theorem decodeInvertsEncode : Obligations.DecodeInvertsEncode := by
  intro i rest hwf
  obtain ⟨x, f, hx⟩ := i.exists_carry hwf
  rw [hx.encode.1]
  exact hx.decode rest

/-- Settles O7: a frame that decodes to an instruction is made of fields that carry it, and these are the fields the
encoder writes. -/
theorem encodeInvertsDecode : Obligations.EncodeInvertsDecode := by
  intro i ws rest hdec
  obtain ⟨h, ops, rfl, hlen, hok⟩ := decode_eq_instr hdec
  obtain ⟨x, f, hx, rfl, rfl⟩ := Fields.Carry.of_decodeFrame hlen hok
  exact ⟨by rw [hx.encode.1], hx.encode.2⟩

/-! ## The rows of the opcode table (30 R105) -/

/-- The row selects by the fields its format fixes: OPC is the row's, and 0 stands in every field the format has no use for. -/
def OpRow.fits (r : OpRow) (f : Format) : Bool :=
  hdrOpc r.mask == 63 && hdrZero r.mask == 127 && hdrD r.mask == (if f.usesD then 0 else 1)
    && hdrQ r.mask == (if f.usesQ then 0 else 3) && hdrImm r.mask == (if f.usesImm then 0 else 0xFFFF)
    && r.pattern == header r.opc.toNat 0 0 0

theorem opRows_fit : ∀ r ∈ opRows, (formatOf r.opc).any r.fits = true := by decide

theorem opRows_opc_inj : ∀ r ∈ opRows, ∀ r' ∈ opRows, r.opc = r'.opc → r = r' := by decide

theorem opRows_complete : ∀ opc : BitVec 6, (formatOf opc).isSome = true → opRows.any (fun r => r.opc == opc) = true := by
  decide

theorem word_and_eq_iff {a b c : Word} :
    a &&& b = c ↔ hdrOpc a &&& hdrOpc b = hdrOpc c ∧ hdrQ a &&& hdrQ b = hdrQ c ∧ hdrZero a &&& hdrZero b = hdrZero c
      ∧ hdrD a &&& hdrD b = hdrD c ∧ hdrImm a &&& hdrImm b = hdrImm c := by
  simp only [word_eq_iff, hdrOpc, hdrQ, hdrZero, hdrD, hdrImm, BitVec.extractLsb'_and]

/-- Masking a field with all ones, or with no bit where the format uses the field, asks it to be 0 where it is unused. -/
theorem and_fieldMask_eq_zero_iff {w : Nat} (a : BitVec w) (used : Bool) :
    a &&& (if used then 0 else BitVec.allOnes w) = 0 ↔ (used = false → a = 0) := by
  cases used <;> simp

theorem OpRow.selects_iff {r : OpRow} {f : Format} (hr : r.fits f = true) {h : Word} :
    r.selects h = true ↔ hdrOpc h = r.opc ∧ unusedFieldsZero f h = true := by
  simp only [OpRow.fits, Bool.and_eq_true, beq_iff_eq] at hr
  obtain ⟨⟨⟨⟨⟨hopc, hzero⟩, hd⟩, hq⟩, himm⟩, hpat⟩ := hr
  have hpat : r.pattern = Fields.header ⟨r.opc, .q0, .toDevice, 0, []⟩ := hpat
  rw [OpRow.selects, beq_iff_eq, word_and_eq_iff, hopc, hzero, hd, hq, himm, hpat, unusedFieldsZero_iff,
    ← and_fieldMask_eq_zero_iff (hdrD h), ← and_fieldMask_eq_zero_iff (hdrQ h), ← and_fieldMask_eq_zero_iff (hdrImm h),
    Fields.hdrOpc_header, Fields.hdrQ_header, Fields.hdrZero_header, Fields.hdrD_header, Fields.hdrImm_header]
  have hopc1 : hdrOpc h &&& 63 = hdrOpc h := BitVec.and_allOnes
  have hzero1 : hdrZero h &&& 127 = hdrZero h := BitVec.and_allOnes
  rw [hopc1, hzero1]
  constructor
  · rintro ⟨h1, h2, h3, h4, h5⟩
    exact ⟨h1, h3, h4, h2, h5⟩
  · rintro ⟨h1, h3, h4, h2, h5⟩
    exact ⟨h1, h2, h3, h4, h5⟩

/-- A row of the table fits the format of its OPC. -/
theorem OpRow.exists_format {r : OpRow} (hr : r ∈ opRows) : ∃ f, formatOf r.opc = some f ∧ r.fits f = true :=
  (Option.any_eq_true _ _).1 (opRows_fit r hr)

/-- A header selected by a row, with a role that exists, heads a command. -/
theorem OpRow.decodeFrame_of_selects {r : OpRow} (hr : r ∈ opRows) {h : Word} (hsel : r.selects h = true)
    (hrole : hdrQ h ≠ 3#2) (ops : List Word) : ∃ i, decodeFrame h ops = .ok i := by
  obtain ⟨f, hf, hfit⟩ := OpRow.exists_format hr
  obtain ⟨hopc, hunused⟩ := (OpRow.selects_iff hfit).1 hsel
  rw [← hopc] at hf
  obtain ⟨q, hq⟩ := Option.isSome_iff_exists.1 (isSome_roleOf (hdrQ h) hrole)
  obtain ⟨i, hbuild⟩ := buildInstr_of_format hf q (dirOf (hdrD h)) (hdrImm h) ops
  exact ⟨i, decodeFrame_eq_ok_iff.2 ⟨f, q, hf, hunused, hq, hbuild⟩⟩

/-- A header that heads a command is selected by a row. -/
theorem exists_selects_of_decodeFrame {h : Word} {ops : List Word} {i : Instr} (hok : decodeFrame h ops = .ok i) :
    ∃ r ∈ opRows, r.selects h = true := by
  obtain ⟨f, q, hf, hunused, -, -⟩ := decodeFrame_eq_ok_iff.1 hok
  obtain ⟨r, hr, hopc⟩ := List.any_eq_true.1 (opRows_complete (hdrOpc h) (by rw [hf]; rfl))
  obtain ⟨g, hg, hfit⟩ := OpRow.exists_format hr
  rw [beq_iff_eq.1 hopc, hf] at hg
  cases hg
  exact ⟨r, hr, (OpRow.selects_iff hfit).2 ⟨(beq_iff_eq.1 hopc).symm, hunused⟩⟩

theorem OpRow.opc_of_selects {r : OpRow} (hr : r ∈ opRows) {h : Word} (hsel : r.selects h = true) :
    r.opc = hdrOpc h := by
  obtain ⟨f, -, hfit⟩ := OpRow.exists_format hr
  exact ((OpRow.selects_iff hfit).1 hsel).1.symm

/-- Settles O4: the rows select by OPC and by the fields that must be 0, as the decoder does, and no OPC has two rows. -/
theorem headerSelectsByMaskAndMatch : Obligations.HeaderSelectsByMaskAndMatch := by
  intro h ops rest hlen
  refine ⟨fun hnone => ?_, fun r hr hsel hrole => ?_, fun r hr r' hr' hsel hsel' => ?_⟩
  · cases hframe : decodeFrame h ops with
    | error why => exact ⟨why, decode_of_decodeFrame_error hlen rest hframe⟩
    | ok i =>
      obtain ⟨r, hr, hsel⟩ := exists_selects_of_decodeFrame hframe
      rw [hnone r hr] at hsel
      cases hsel
  · obtain ⟨i, hok⟩ := OpRow.decodeFrame_of_selects hr hsel hrole ops
    have hdec := decode_of_decodeFrame_ok hlen rest hok
    refine ⟨i, hdec, OpRow.opc_of_selects hr hsel, ?_⟩
    obtain ⟨x, f, hx, rfl, -⟩ := Fields.Carry.of_decodeFrame hlen hok
    rw [hx.encode.1]
    rfl
  · exact opRows_opc_inj r hr r' hr' ((OpRow.opc_of_selects hr hsel).trans (OpRow.opc_of_selects hr' hsel').symm)

/-! ## Frames keep their alignment, refused or not (30 R103, R106, R107) -/

/-- Settles O3: the words taken are those the header's format asks for, whichever way `decodeFrame` goes. -/
theorem frameLengthByOpcAndImm : Obligations.FrameLengthByOpcAndImm := by
  intro h ops rest hops
  have hlen : ops.length = operandCount h := by
    unfold operandCount
    cases hf : formatOf (hdrOpc h) with
    | none =>
      rw [hf] at hops
      exact hops
    | some f =>
      rw [hf] at hops
      cases f <;> exact hops
  cases hframe : decodeFrame h ops with
  | ok i => exact .inl ⟨i, decode_of_decodeFrame_ok hlen rest hframe⟩
  | error why => exact .inr ⟨why, decode_of_decodeFrame_error hlen rest hframe⟩

end Sys2Proof

namespace Sys2Proof.Machine

theorem cmdTurn_of_decode_illegal {s : State} {why : Illegal} {rest : List Word}
    (h : decode s.cmdPort = .illegal why rest) : cmdTurn s = refuse .illegalCommand { s with cmdPort := rest } := by
  simp only [cmdTurn, h, illegalFrame]

/-- Settles O5: with nothing scheduled a refused frame is a frame ready, so CMD moves and refuses it. -/
theorem refusedFrameChangesNothing : Obligations.RefusedFrameChangesNothing := by
  intro s why rest hturns hdec
  have hready : s.frameReady = true := by simp only [State.frameReady, hdec]
  rw [step_of_nextTurn_cmd (State.nextTurn_of_frameReady hturns hready), cmdTurn_of_decode_illegal hdec]
  rfl

end Sys2Proof.Machine

namespace Sys2Proof.Machine

/-! ## The response port while a command runs (30 R100, R114) -/

/-- Nothing has been put on the response port since it held `p`. -/
def Silent (p : List Word) (s : State) : Prop := s.respPort = p

/-- One response frame has been put on the response port since it held `p`. -/
def Replied (p : List Word) (t : State) : Prop :=
  ∃ (e : Err) (data : List Word), t.respPort = p ++ (frameWord e.code data.length :: data)

section
variable {p : List Word} {s : State}

theorem SameCmd.silent {t : State} (hc : SameCmd s t) (h : Silent p s) : Silent p t := hc.respPort.trans h

variable (h : Silent p s)
include h

theorem Silent.respond (e : Err) (data : List Word) : Replied p (s.respond e data) :=
  ⟨e, data, congrArg (· ++ (frameWord e.code data.length :: data)) h⟩

theorem refuse_replies (e : Err) : EnsuresNext (refuse e s) (Replied p) := .next (h.respond e [])

/-! ### CMD's accesses, waits and drains answer nothing -/

theorem cmdGap_silent : Ensures (cmdGap s) (Silent p) := fun _ ht => (sameCmd_cmdGap ht).silent h

theorem regRead_silent (w : Win) (off n : Nat) : Ensures (regRead cmdCtx w off n s) (fun r => Silent p r.2) :=
  fun _ ht => (sameCmd_regRead (fun _ _ => sameCmd_cmdGap) ht).silent h

theorem regWrite_silent (w : Win) (off n v : Nat) : Ensures (regWrite cmdCtx w off n v s) (Silent p) :=
  (cmdGap_silent h).bind fun s1 h1 => .ok
    (((sameCmd_drainStores cmdCtx s1).trans (.of_eq (State.windowWrite_eq ..))).silent h1 :
      Silent p (State.windowWrite _ w off _))

theorem pciRead_silent (r : PciReg) : Ensures (pciRead cmdCtx r s) (fun r => Silent p r.2) :=
  (cmdGap_silent h).bind fun _ h1 => .ok h1

theorem memRead_silent (a n : Nat) : Ensures (memRead cmdCtx a n s) (fun r => Silent p r.2) :=
  fun _ ht => (sameCmd_memRead (fun _ _ => sameCmd_cmdGap) ht).silent h

theorem memWrite_silent (a n v : Nat) : Ensures (memWrite cmdCtx a n v s) (Silent p) :=
  (cmdGap_silent h).bind fun _ h1 => Ensures.bind_any fun _ => .ok h1

theorem fence_silent : Ensures (fence cmdCtx s) (Silent p) :=
  fun _ ht => (sameCmd_fence (fun _ _ => sameCmd_cmdGap) ht).silent h

theorem readLink_silent : Ensures (readLink cmdCtx s) (fun r => Silent p r.2) := by
  unfold readLink
  split
  · exact (regRead_silent h _ _ _).bind fun _ h1 => .ok h1
  · exact .ok h

theorem lock_silent (q : Role) : Ensures (lock q s) (Silent p) := fun _ ht => (lock_ok ht).1.silent h

theorem waitIdle_silent : Ensures (waitIdle s) (Silent p) := fun _ ht => (waitIdle_ok ht).1.silent h

theorem drainList_silent (q : Role) : Ensures (drainList q s) (fun r => Silent p r.2) :=
  fun _ ht => (sameCmd_drainList ht).silent h

/-! ### Slots and queues -/

theorem poolReserve_silent (internal : Bool) (dir : Dir) (len : BitVec 32) :
    Silent p (poolReserve internal dir len s).2 := by
  rw [poolReserve_snd]
  exact h

theorem poolReserveInternal_silent (len : Nat) : Silent p (poolReserveInternal len s).2 :=
  poolReserve_silent h true .fromDevice _

theorem freeQueue_silent (q : Role) (mode : FreeMode) : Ensures (freeQueue q mode s) (Silent p) :=
  (lock_silent h q).bind fun s1 h1 => .ok
    ((SameCmd.of_eq (freeLents_eq q mode s1.handles s1)).silent h1 : Silent p (freeLents q mode s1.handles s1))

/-! ### Status writes, the FAILED entry and the teardown (43 R202, R215; 60 R276) -/

theorem statusWrite_silent (bits : BitVec 8) : Ensures (statusWrite bits s) (Silent p) :=
  regWrite_silent (s := { s with stShadow := s.stShadow ||| bits }) h _ _ _ _

theorem statusWrite0_silent : Ensures (statusWrite0 s) (Silent p) :=
  (regWrite_silent (s := { s with stShadow := 0 }) h _ _ _ _).bind fun _ h1 => .ok h1

theorem writeFailedBit_silent (e : Err) : Ensures (writeFailedBit e s) (Silent p) := by
  unfold writeFailedBit
  split
  · exact statusWrite_silent h _
  · exact .ok h

theorem releaseResource_silent (r : Resource) : Ensures (releaseResource r s) (Silent p) := by
  cases r with
  | irq => exact waitIdle_silent (s := { s with irqEn := false }) h
  | qr q => exact freeQueue_silent h q .orphan
  | win => exact .ok h

omit h in
theorem releaseAll_silent (rs : List Resource) {s : State} (h : Silent p s) : Ensures (releaseAll rs s) (Silent p) := by
  induction rs generalizing s with
  | nil => exact .ok h
  | cons r rest ih => exact (releaseResource_silent (s := { s with acq := rest }) h r).bind fun _ h1 => ih h1

theorem failEntry_silent (e : Err) : Ensures (failEntry e s) (Silent p) :=
  (writeFailedBit_silent h e).bind fun _ h1 => (releaseAll_silent _ h1).bind fun _ h2 => .ok h2

/-- The FAILED entry runs, then one response carries its code (60 R271). -/
theorem failWith_replies (e : Err) : Ensures (failWith e s) (Replied p) :=
  (failEntry_silent h e).bind fun _ h1 => .ok (Silent.respond h1 e [])

theorem detachQueue_silent (q : Role) : Ensures (detachQueue q s) (Silent p) := by
  unfold detachQueue
  split
  · dsimp only
    split
    · exact freeQueue_silent h q .giveBack
    · exact (drainList_silent h q).bind fun _ h1 => freeQueue_silent h1 q .giveBack
  · exact .ok h

omit h in
theorem detachQueues_silent (qs : List Role) {s : State} (h : Silent p s) : Ensures (detachQueues qs s) (Silent p) := by
  induction qs generalizing s with
  | nil => exact .ok h
  | cons q rest ih => exact (detachQueue_silent h q).bind fun _ h1 => ih h1

theorem detachDevice_silent : Ensures (detachDevice s) (Silent p) := by
  refine (waitIdle_silent (s := { s with irqEn := false }) h).bind fun s1 h1 => ?_
  dsimp only
  split
  · exact (statusWrite0_silent h1).bind fun _ h2 => (detachQueues_silent _ h2).bind fun _ h3 => .ok h3
  · exact (detachQueues_silent _ h1).bind fun _ h3 => .ok h3

/-! ### Submitting (41 R160 to R163) -/

theorem writeDesc_silent {table i addr len next : Nat} {fl : BitVec 16} :
    Ensures (writeDesc cmdCtx table i addr len fl next s) (Silent p) :=
  (memWrite_silent h _ _ _).bind fun _ h1 => (memWrite_silent h1 _ _ _).bind fun _ h2 =>
    (memWrite_silent h2 _ _ _).bind fun _ h3 => memWrite_silent h3 _ _ _

omit h in
theorem submitDirect_silent (q : Role) (head : DescIdx) (l : List (Seg × DescIdx)) {s : State} (h : Silent p s) :
    Ensures (submitDirect cmdCtx q head l s) (Silent p) := by
  induction l generalizing s with
  | nil => exact .ok h
  | cons x rest ih => exact (writeDesc_silent h).bind fun _ h1 => ih (s := State.setQueue _ q _) h1

omit h in
theorem writeTable_silent (table k : Nat) (segs : List Seg) {s : State} (h : Silent p s) :
    Ensures (writeTable cmdCtx table k segs s) (Silent p) := by
  induction segs generalizing k s with
  | nil => exact .ok h
  | cons g rest ih => exact (writeDesc_silent h).bind fun _ h1 => ih _ h1

theorem submitIndirect_silent (q : Role) (head : DescIdx) (t : Nat) (segs : List Seg) :
    Ensures (submitIndirect cmdCtx q head t segs s) (Silent p) :=
  (writeTable_silent _ _ segs h).bind fun _ h1 => (writeDesc_silent h1).bind fun _ h2 => .ok h2

theorem publish_silent (q : Role) (head : DescIdx) : Ensures (publish cmdCtx q head s) (Silent p) := by
  refine (memWrite_silent h _ _ _).bind fun _ h1 => (fence_silent h1).bind fun s2 h2 =>
    (memWrite_silent (s := s2.setQueue q _) h2 _ _ _).bind fun _ h3 => (fence_silent h3).bind fun _ h4 =>
      (memRead_silent h4 _ _).bind fun _ h5 => ?_
  dsimp only
  split
  · exact .ok h5
  · exact regWrite_silent h5 _ _ _ _

theorem submitTail_replies (q : Role) (head : DescIdx) (n : Nat) (ind : Option Handle) (segs : List Seg) :
    Ensures (submitTail cmdCtx q head n ind segs s) (Replied p) := by
  have hl : Silent p (setLoans (some { q := q, head := head }) (segs.map segHandle) s) := by
    rw [setLoans_eq]
    exact h
  exact (publish_silent (s := recordHead q head n _ ind _) hl q head).bind fun s1 h1 =>
    .ok (Silent.respond (s := unlock q s1) h1 .ok [])

theorem submitChain_replies (q : Role) (segs : List Seg) : Ensures (submitChain cmdCtx q segs s) (Replied p) := by
  have hx : Silent p (s.setQueue q { s.queue q with free := (s.queue q).free.drop (s.need segs.length) }) := h
  have hr := poolReserveInternal_silent hx (16 * segs.length)
  unfold submitChain
  dsimp only
  split
  · split <;> rename_i t hp <;> rw [hp] at hr
    · exact .ok (Silent.respond (s := unlock q (t.setQueue q _)) hr .queueFull [])
    · exact (submitIndirect_silent hr q _ _ segs).bind fun _ h1 => submitTail_replies h1 q _ _ _ segs
  · exact (submitDirect_silent q _ _ hx).bind fun _ h1 => submitTail_replies h1 q _ _ _ segs

/-! ## Every command that comes to its end answers once -/

/-! ### Register access, pool and queries (40, 42, 43) -/

theorem regReadCommand_replies (w : Win) (n : Nat) (off : BitVec 16) :
    EnsuresNext (regReadCommand w n off s) (Replied p) := by
  unfold regReadCommand
  split
  · split
    · exact Ensures.finish ((regRead_silent h _ _ _).bind fun _ h1 => .ok (Silent.respond h1 ..))
    · exact refuse_replies h _
  · exact refuse_replies h _

theorem regWriteCommand_replies (w : Win) (n : Nat) (off : BitVec 16) (value : Word) :
    EnsuresNext (regWriteCommand w n off value s) (Replied p) := by
  unfold regWriteCommand
  split
  · split
    · exact Ensures.finish ((regWrite_silent h _ _ _ _).bind fun _ h1 => .ok (Silent.respond h1 ..))
    · exact refuse_replies h _
  · exact refuse_replies h _

theorem execPoolReserve_replies (dir : Dir) (len : Word) : EnsuresNext (execPoolReserve dir len s) (Replied p) := by
  have hr := poolReserve_silent h false dir len
  unfold execPoolReserve
  split
  · exact refuse_replies h _
  · refine .next ?_
    split <;> rename_i hp <;> rw [hp] at hr <;> exact Silent.respond hr ..

theorem execPoolRelease_replies (hd : Handle) : EnsuresNext (execPoolRelease hd s) (Replied p) := by
  unfold execPoolRelease
  split
  · split
    · exact refuse_replies h _
    · split
      · exact refuse_replies h _
      · exact .next (Silent.respond (s := poolFree hd.toNat s) h ..)
  · exact refuse_replies h _

theorem execLinkState_replies : EnsuresNext (execLinkState s) (Replied p) := by
  unfold execLinkState
  split
  · exact Ensures.finish ((readLink_silent h).bind fun _ h1 => .ok (Silent.respond h1 ..))
  · exact refuse_replies h _

/-! ### Bring-up (43) -/

theorem resetMapped_replies : Ensures (resetMapped s) (Replied p) :=
  (statusWrite0_silent (s := { s with winMapped := true, acq := .win :: s.acq }) h).bind fun s1 h1 =>
    .ok (Silent.respond (s := { s1 with fsm := .reset }) h1 ..)

theorem State.platMap_silent : Silent p s.platMap.2 := by
  unfold State.platMap
  split <;> exact h

theorem execBuReset_replies : EnsuresNext (execBuReset s) (Replied p) := by
  unfold execBuReset
  split
  · have hm : Silent p (newInstance s).platMap.2 := State.platMap_silent (s := newInstance s) h
    dsimp only
    rw [choose_eq]
    refine Ensures.finish ?_
    split
    · exact resetMapped_replies hm
    · exact failWith_replies hm _
  · exact refuse_replies h _

theorem execBuAck_replies : EnsuresNext (execBuAck s) (Replied p) := by
  unfold execBuAck
  split
  · refine Ensures.finish <| (pciRead_silent h _).bind fun _ h1 => (pciRead_silent h1 _).bind fun _ h2 =>
      (pciRead_silent h2 _).bind fun _ h3 => ?_
    dsimp only
    split
    · exact (statusWrite_silent h3 _).bind fun s4 h4 =>
        .ok (Silent.respond (s := { s4 with fsm := .acknowledged }) h4 ..)
    · exact failWith_replies h3 _
  · exact refuse_replies h _

theorem readQueueSize_silent (q : Role) : Ensures (readQueueSize q s) (Silent p) :=
  (regWrite_silent h _ _ _ _).bind fun _ h1 => (regRead_silent h1 _ _ _).bind fun _ h2 => .ok h2

theorem execBuDriver_replies : EnsuresNext (execBuDriver s) (Replied p) := by
  unfold execBuDriver
  split
  · refine Ensures.finish <| (readQueueSize_silent h _).bind fun _ h1 => (readQueueSize_silent h1 _).bind fun _ h2 =>
      (readQueueSize_silent h2 _).bind fun _ h3 => (regRead_silent h3 _ _ _).bind fun r h4 => ?_
    have h5 : Silent p { r.2 with offered := BitVec.ofNat 32 r.1 } := h4
    dsimp only
    split
    · exact (statusWrite_silent h5 _).bind fun s6 h6 =>
        .ok (Silent.respond (s := { s6 with fsm := .driverLoaded }) h6 ..)
    · exact failWith_replies h5 _
  · exact refuse_replies h _

theorem execBuFeatures_replies : EnsuresNext (execBuFeatures s) (Replied p) := by
  unfold execBuFeatures
  split
  · have hn : Silent p { s with negotiated := negotiate s.offered s.cfg.driverSupported } := h
    refine Ensures.finish ?_
    dsimp only
    split
    · exact failWith_replies hn _
    · exact (regWrite_silent hn _ _ _ _).bind fun s1 h1 =>
        .ok (Silent.respond (s := { s1 with fsm := .featuresOk }) h1 ..)
  · exact refuse_replies h _

theorem execBuQwire_replies (q : Role) : EnsuresNext (execBuQwire q s) (Replied p) := by
  unfold execBuQwire
  split
  · split
    · exact refuse_replies h _
    · refine Ensures.finish ?_
      split
      · exact failWith_replies h _
      · exact (regWrite_silent h _ _ _ _).bind fun _ h1 => (regWrite_silent h1 _ _ _ _).bind fun s2 h2 =>
          .ok (Silent.respond (s := s2.setQueue q { s2.queue q with wired := true }) h2 ..)
  · exact refuse_replies h _

theorem execBuIrq_replies : EnsuresNext (execBuIrq s) (Replied p) := by
  unfold execBuIrq
  split
  · exact .next (Silent.respond (s := { s with irqEn := true, acq := .irq :: s.acq }) h ..)
  · exact refuse_replies h _

theorem execBuOk_replies : EnsuresNext (execBuOk s) (Replied p) := by
  unfold execBuOk
  split
  · exact Ensures.finish ((statusWrite_silent h _).bind fun s1 h1 =>
      .ok (Silent.respond (s := { s1 with fsm := .driverReady }) h1 ..))
  · exact refuse_replies h _

theorem execBuFail_replies : EnsuresNext (execBuFail s) (Replied p) := by
  unfold execBuFail
  split
  · exact refuse_replies h _
  · exact Ensures.finish (failWith_replies h _)

theorem execBuDetach_replies : EnsuresNext (execBuDetach s) (Replied p) := by
  unfold execBuDetach
  split
  · exact refuse_replies h _
  · exact Ensures.finish ((detachDevice_silent h).bind fun _ h1 => .ok (Silent.respond h1 ..))

/-! ### The ring commands (41) -/

theorem createOn_silent (q : Role) (size : BitVec 16) (r : Nat) : Silent p (createOn q size r s) := by
  unfold createOn
  dsimp only
  split <;> exact h

theorem execVqCreate_replies (q : Role) (size : BitVec 16) : EnsuresNext (execVqCreate q size s) (Replied p) := by
  unfold execVqCreate
  split
  · split
    · exact refuse_replies h _
    · split
      · exact refuse_replies h _
      · split
        · exact refuse_replies h _
        · refine Ensures.finish <| (lock_silent h q).bind fun s1 h1 => ?_
          have hr := poolReserveInternal_silent h1 (regionBytes size.toNat)
          split <;> rename_i s2 hp <;> rw [hp] at hr
          · exact .ok (Silent.respond (createOn_silent hr q size _) ..)
          · have hu : Silent p (unlock q s2) := hr
            dsimp only
            split
            · exact failWith_replies hu _
            · exact .ok (Silent.respond hu ..)
  · exact refuse_replies h _

theorem execVqDestroy_replies (q : Role) : EnsuresNext (execVqDestroy q s) (Replied p) := by
  unfold execVqDestroy
  split
  · split
    · exact Ensures.finish ((freeQueue_silent h q _).bind fun _ h1 => .ok (Silent.respond h1 ..))
    · exact refuse_replies h _
  · exact refuse_replies h _

theorem execVqSubmit_replies (q : Role) (segs : List Seg) : EnsuresNext (execVqSubmit q segs s) (Replied p) := by
  unfold execVqSubmit
  split
  · split
    · exact refuse_replies h _
    · split
      · exact refuse_replies h _
      · refine Ensures.finish <| (lock_silent h q).bind fun s1 h1 => ?_
        split
        · exact .ok (Silent.respond (s := unlock q s1) h1 ..)
        · split
          · exact .ok (Silent.respond (s := unlock q s1) h1 ..)
          · exact submitChain_replies h1 q segs
  · exact refuse_replies h _

theorem execVqDrain_replies (q : Role) : EnsuresNext (execVqDrain q s) (Replied p) := by
  unfold execVqDrain
  split
  · exact Ensures.finish ((drainList_silent h q).bind fun _ h1 => .ok (Silent.respond h1 ..))
  · exact refuse_replies h _

/-- A command that comes to its end has put exactly one response frame on the response port. -/
theorem exec_replies (i : Instr) : EnsuresNext (exec i s) (Replied p) := by
  cases i with
  | rd8 off => exact regReadCommand_replies h .w0 1 off
  | rd16 off => exact regReadCommand_replies h .w0 2 off
  | rd32 off => exact regReadCommand_replies h .w0 4 off
  | wr8 off value => exact regWriteCommand_replies h .w0 1 off value
  | wr16 off value => exact regWriteCommand_replies h .w0 2 off value
  | wr32 off value => exact regWriteCommand_replies h .w0 4 off value
  | drd8 off => exact regReadCommand_replies h .w1 1 off
  | drd16 off => exact regReadCommand_replies h .w1 2 off
  | drd32 off => exact regReadCommand_replies h .w1 4 off
  | dwr8 off value => exact regWriteCommand_replies h .w1 1 off value
  | dwr16 off value => exact regWriteCommand_replies h .w1 2 off value
  | dwr32 off value => exact regWriteCommand_replies h .w1 4 off value
  | vqCreate q size => exact execVqCreate_replies h q size
  | vqDestroy q => exact execVqDestroy_replies h q
  | vqSubmit q segs => exact execVqSubmit_replies h q segs
  | vqDrain q => exact execVqDrain_replies h q
  | poolReserve dir len => exact execPoolReserve_replies h dir len
  | poolRelease hd => exact execPoolRelease_replies h hd
  | buReset => exact execBuReset_replies h
  | buAck => exact execBuAck_replies h
  | buDriver => exact execBuDriver_replies h
  | buFeatures => exact execBuFeatures_replies h
  | buQwire q => exact execBuQwire_replies h q
  | buIrq => exact execBuIrq_replies h
  | buOk => exact execBuOk_replies h
  | buFail => exact execBuFail_replies h
  | buDetach => exact execBuDetach_replies h
  | linkState => exact execLinkState_replies h
  | propFeat => exact .next (h.respond ..)
  | propQsize q => exact .next (h.respond ..)

end

/-- Settles O2: from a safe state a command comes to its end (`exec_answers`), and every way to its end puts one
response frame on the response port, which no access, wait or other agent's act writes (`exec_replies`). -/
theorem everyCommandAnswersOnce : Obligations.EveryCommandAnswersOnce := by
  intro s i hsafe _
  obtain ⟨t, ht⟩ := exec_answers i hsafe
  obtain ⟨e, data, hport⟩ := exec_replies (rfl : Silent s.respPort s) i t ht
  exact ⟨t, e, data, ht, hport⟩

end Sys2Proof.Machine

namespace Sys2Proof.Machine

open Sys2Proof.Claims

/-! ## The bytes of a value, one by one (20 R71, 40 R131) -/

theorem leBytes_getD_toNat {n i : Nat} (v : Nat) (hi : i < n) : ((leBytes n v).getD i 0).toNat = v / 256 ^ i % 256 := by
  induction n generalizing i v with
  | zero => exact absurd hi (Nat.not_lt_zero i)
  | succ n ih =>
    cases i with
    | zero => simp [leBytes]
    | succ i =>
      rw [leBytes, List.getD_cons_succ, ih (v / 256) (Nat.lt_of_succ_lt_succ hi), Nat.div_div_eq_div_mul,
        ← Nat.pow_succ']

theorem leBytes_reverse_getD_toNat {n i : Nat} (v : Nat) (hi : i < n) :
    ((leBytes n v).reverse.getD i 0).toNat = v / 256 ^ (n - 1 - i) % 256 := by
  rw [List.getD_reverse i (by rwa [leBytes_length]), leBytes_length, leBytes_getD_toNat v (by omega)]

/-! ## The operand checks (40 R133, 30 R110) -/

theorem offsetOk_iff {size n off : Nat} : offsetOk size n off = true ↔ off % n = 0 ∧ off + n ≤ size := by
  simp only [offsetOk, Bool.and_eq_true, beq_iff_eq, decide_eq_true_eq]

theorem valueFits_iff {n : Nat} {v : Word} : valueFits n v = true ↔ v.toNat < 256 ^ n := decide_eq_true_iff

/-! ## What the gap and the pending stores leave of a window -/

@[simp] theorem State.settle_cfg (s : State) : s.settle.cfg = s.cfg := by rw [State.settle_eq]

@[simp] theorem State.settle_dev (s : State) : s.settle.dev = s.dev := by rw [State.settle_eq]

theorem SameCmd.winEndian {s t : State} (h : SameCmd s t) (w : Win) : t.winEndian w = s.winEndian w := by
  cases w
  · rfl
  · exact congrArg Config.hostEndian h.cfg

/-! ## One register command (40 R132, R133) -/

theorem exec_readCommand (w : Win) (k : Width) (off : BitVec 16) (s : State) :
    exec (readCommand w k off) s = regReadCommand w k.bytes off s := by
  cases w <;> cases k <;> rfl

theorem exec_writeCommand (w : Win) (k : Width) (off : BitVec 16) (v : Word) (s : State) :
    exec (writeCommand w k off v) s = regWriteCommand w k.bytes off v s := by
  cases w <;> cases k <;> rfl

section

variable {s s1 : State} {w : Win} {k : Width} {off : BitVec 16} {v : Word}

theorem readCommand_refused_of_unmapped (hm : s.winMapped = false) :
    Refused (readCommand w k off) .illegalTransition s := by
  rw [Refused, exec_readCommand]
  simp [regReadCommand, hm]

theorem writeCommand_refused_of_unmapped (hm : s.winMapped = false) :
    Refused (writeCommand w k off v) .illegalTransition s := by
  rw [Refused, exec_writeCommand]
  simp [regWriteCommand, hm]

theorem readCommand_refused_of_offset (hm : s.winMapped = true) (ho : ¬ offsetOk (s.winBytes w) k.bytes off.toNat) :
    Refused (readCommand w k off) .illegalCommand s := by
  rw [Refused, exec_readCommand]
  simp [regReadCommand, hm, ho]

theorem writeCommand_refused_of_operand (hm : s.winMapped = true)
    (ho : ¬ (offsetOk (s.winBytes w) k.bytes off.toNat = true ∧ valueFits k.bytes v = true)) :
    Refused (writeCommand w k off v) .illegalCommand s := by
  rw [Refused, exec_writeCommand]
  simp [regWriteCommand, hm, ho]

/-- A read command that passes both checks: one bus read, and its value as the answer (40 R130). -/
theorem exec_readCommand_of_offsetOk (hm : s.winMapped = true) (ho : offsetOk (s.winBytes w) k.bytes off.toNat = true)
    (hg : cmdGap s = .ok s1) {bytes : List Byte} {t : State}
    (hr : s1.settle.windowRead w off.toNat k.bytes = (bytes, t)) :
    exec (readCommand w k off) s = .next
      ((t.log .cmd (.regRead w off.toNat bytes)).respond .ok [BitVec.ofNat 32 (busValue (s.winEndian w) bytes)]) := by
  rw [exec_readCommand, regReadCommand, if_pos hm, if_pos ho, regRead_of_gap (c := cmdCtx) hg w off.toNat k.bytes,
    (sameCmd_cmdGap hg).winEndian w, cmdCtx_drainStores, hr]
  rfl

/-- A write command that passes the checks: one bus write of the value's bytes in the window's order (40 R131). -/
theorem exec_writeCommand_of_operandOk (hm : s.winMapped = true)
    (ho : offsetOk (s.winBytes w) k.bytes off.toNat = true) (hv : valueFits k.bytes v = true)
    (hg : cmdGap s = .ok s1) :
    exec (writeCommand w k off v) s = .next
      (((s1.settle.windowWrite w off.toNat (busBytes (s.winEndian w) k.bytes v.toNat)).log .cmd
        (.regWrite w off.toNat (busBytes (s.winEndian w) k.bytes v.toNat))).respond .ok []) := by
  rw [exec_writeCommand, regWriteCommand, if_pos hm, if_pos (by rw [ho, hv]; rfl), regWrite_of_gap (c := cmdCtx) hg,
    (sameCmd_cmdGap hg).winEndian w, cmdCtx_drainStores]
  rfl

end

/-! ## An access at a register's own place (40 R130, R131, R135) -/

theorem Config.wf_window0_inside {c : Config} (h : c.wf = true) :
    c.window0.all (fun r => r.1 % r.2 == 0 && decide (r.1 + r.2 ≤ c.win0Bytes)) = true := by
  simp only [Config.wf, Bool.and_eq_true] at h
  simp only [h]

/-- Every register of window 0 is naturally aligned and inside the window (00 R9). -/
theorem Reg0.offsetOk {c : Config} (hwf : c.wf = true) (r : Reg0) : offsetOk c.win0Bytes r.bytes (r.off c) = true := by
  have hmem : (r.off c, r.bytes) ∈ c.window0 := by cases r <;> simp [Config.window0, Reg0.off, Reg0.bytes]
  exact List.all_eq_true.1 (Config.wf_window0_inside hwf) _ hmem

/-- The value of a register fits its width. -/
theorem Device.regValue_lt {d : Device} {r : Reg0} {v : Nat} (h : d.regValue r = some v) : v < 256 ^ r.bytes := by
  cases r with
  | deviceFeatures => cases h; exact d.doffered.isLt
  | guestFeatures => cases h; exact d.dguest.isLt
  | queueAddress =>
    obtain ⟨q, -, rfl⟩ := Option.map_eq_some_iff.1 h
    exact (d.daddr.get q).isLt
  | queueSize =>
    simp only [Device.regValue] at h
    split at h <;> cases h
    · exact (d.dsize.get _).isLt
    · decide
  | queueSelect => cases h; exact d.dsel.isLt
  | queueNotify => cases h
  | deviceStatus => cases h; exact d.dstatus.isLt
  | isr => cases h; exact d.disr.isLt

theorem State.windowRead_register {s : State} (hwf : s.cfg.wf = true) {r : Reg0} {v : Nat}
    (hv : s.dev.regValue r = some v) :
    s.windowRead .w0 (r.off s.cfg) r.bytes = (leBytes r.bytes v, s.setDev (s.dev.readEffect r)) := by
  simp only [State.windowRead, State.window0Read, exactReg0_self hwf r, hv]

theorem State.windowWrite_register {s : State} (hwf : s.cfg.wf = true) {r : Reg0} {bytes : List Byte}
    (hb : bytes.length = r.bytes) :
    s.windowWrite .w0 (r.off s.cfg) bytes = s.setDev (s.dev.react r (ofLe bytes)) := by
  simp only [State.windowWrite, hb, exactReg0_self hwf r]

/-! ## What the device does at a register write (45 R254, 70 R303) -/

section

variable (d : Device) (v : Word)

theorem Device.react_guestFeatures : d.react .guestFeatures v.toNat = { d with dguest := v } := by
  simp [Device.react]

theorem Device.react_queueSelect : d.react .queueSelect v.toNat = { d with dsel := v.setWidth 16 } := by
  simp [Device.react]

theorem Device.react_queueAddress {q : Role} (hq : d.dsel.toNat = q.num) :
    d.react .queueAddress v.toNat = { d with daddr := d.daddr.set q v } := by
  simp [Device.react, hq, roleOfNum_num]

theorem Device.react_queueAddress_of_no_role (hq : 3 ≤ d.dsel.toNat) : d.react .queueAddress v.toNat = d := by
  simp [Device.react, roleOfNum_of_three_le hq]

theorem Device.react_deviceStatus_of_ne_zero (hv : v.toNat < 256) (hne : v ≠ 0) :
    d.react .deviceStatus v.toNat = { d with dstatus := v.setWidth 8 } := by
  have h8 : BitVec.ofNat 8 v.toNat ≠ 0 := fun h0 => hne (by bv_omega)
  rw [Device.react, if_neg h8, BitVec.ofNat_toNat]

end

/-! ## The MAC and the link status in window 1 (10 R44, 40 R142, R143) -/

theorem Config.wf_window1_inside {c : Config} (h : c.wf = true) :
    c.offMac + 6 ≤ c.win1Bytes ∧ c.offLinkStatus + 2 ≤ c.win1Bytes ∧ c.offLinkStatus % 2 = 0 := by
  simp only [Config.wf, Bool.and_eq_true] at h
  have hin : c.window1.all (fun r => decide (r.1 + r.2 ≤ c.win1Bytes)) = true := by simp only [h]
  have heven : (c.offLinkStatus % 2 == 0) = true := by simp only [h]
  have hin := List.all_eq_true.1 hin
  exact ⟨of_decide_eq_true (hin (c.offMac, 6) (by simp [Config.window1])),
    of_decide_eq_true (hin (c.offLinkStatus, 2) (by simp [Config.window1])), beq_iff_eq.1 heven⟩

theorem State.windowRead_mac {s : State} (hopen : s.dev.win1Open = false) {i : Nat} (hi : i < 6) :
    s.windowRead .w1 (s.cfg.offMac + i) 1 = ([s.dev.mac.getD i 0], s) := by
  simp [State.windowRead, State.window1Read, hopen, hi]

theorem State.windowRead_link {s : State} (hopen : s.dev.win1Open = false) :
    s.windowRead .w1 s.cfg.offLinkStatus 2 = (leBytes 2 s.dev.link.toNat, s) := by
  simp [State.windowRead, State.window1Read, hopen]

theorem busValue_singleton (e : Endian) (b : Byte) : busValue e [b] = b.toNat := by
  cases e <;> simp [busValue, ofLe]

theorem leBytes_two (x : BitVec 16) : leBytes 2 x.toNat = [x.setWidth 8, (x >>> 8).setWidth 8] := by
  have hlow : BitVec.ofNat 8 x.toNat = x.setWidth 8 := BitVec.ofNat_toNat 8 x
  have hhigh : BitVec.ofNat 8 (x.toNat / 256) = (x >>> 8).setWidth 8 := by
    rw [← BitVec.ofNat_toNat, BitVec.toNat_ushiftRight, Nat.shiftRight_eq_div_pow]
  simp only [leBytes, hlow, hhigh]

/-- In big-endian order the byte of the lower offset is the high one (20 R66). -/
theorem busValue_big_pair (a b : Byte) : busValue .big [a, b] = (a ++ b : BitVec 16).toNat := by
  rw [BitVec.toNat_append, ← Nat.shiftLeft_add_eq_or_of_lt b.isLt, Nat.shiftLeft_eq]
  simp [busValue, ofLe]
  omega

/-! ## The obligations -/

/-- Settles O9: `exec` of the twelve commands is the shared read or write, whose two checks refuse. -/
theorem registerAccessRefused : Obligations.RegisterAccessRefused := by
  intro s w k off v
  refine ⟨fun hm => ⟨readCommand_refused_of_unmapped hm, writeCommand_refused_of_unmapped hm⟩, fun hm hoff => ?_,
    fun hm hv => writeCommand_refused_of_operand hm fun h => ?_⟩
  · have hbad : ¬ offsetOk (s.winBytes w) k.bytes off.toNat = true := by
      rw [offsetOk_iff]
      omega
    exact ⟨readCommand_refused_of_offset hm hbad, writeCommand_refused_of_operand hm fun h => hbad h.1⟩
  · exact absurd (valueFits_iff.1 h.2) (Nat.not_lt.2 hv)

/-- Settles O10: the offset passes the check, the access matches the register, and its value fits its width. -/
theorem registerReadAnswersValue : Obligations.RegisterReadAnswersValue := by
  intro s s1 k off r v hwf hm hoff hk hg hv
  have hcfg : s1.settle.cfg = s.cfg := s1.settle_cfg.trans (sameCmd_cmdGap hg).cfg
  have hok : offsetOk (s.winBytes .w0) k.bytes off.toNat = true := by
    rw [hoff, hk]
    exact r.offsetOk hwf
  have hread : s1.settle.windowRead .w0 off.toNat k.bytes
      = (leBytes k.bytes v, s1.settle.setDev (s1.dev.readEffect r)) := by
    rw [hoff, hk, ← hcfg, State.windowRead_register (hcfg ▸ hwf) (by rwa [State.settle_dev]), State.settle_dev]
  have hval : busValue (s.winEndian .w0) (leBytes k.bytes v) = v := ofLe_leBytes _ _ (hk ▸ Device.regValue_lt hv)
  rw [exec_readCommand_of_offsetOk hm hok hg hread, hval]

/-- Settles O12: the access matches the register, and the device reacts to the value the bytes carry. -/
theorem registerWriteReachesRegister : Obligations.RegisterWriteReachesRegister := by
  intro s s1 k off r v hwf hm hoff hk hv hg
  have hcfg : s1.settle.cfg = s.cfg := s1.settle_cfg.trans (sameCmd_cmdGap hg).cfg
  have hok : offsetOk (s.winBytes .w0) k.bytes off.toNat = true := by
    rw [hoff, hk]
    exact r.offsetOk hwf
  have hwrite : s1.settle.windowWrite .w0 off.toNat (leBytes k.bytes v.toNat)
      = s1.settle.setDev (s1.dev.react r v.toNat) := by
    rw [hoff, ← hcfg, State.windowWrite_register (hcfg ▸ hwf) ((leBytes_length ..).trans hk), State.settle_dev,
      ofLe_leBytes _ _ hv]
  refine ⟨s1.dev.react r v.toNat, ?_, ?_, ?_, ?_, ?_, ?_, ?_, ?_⟩
  · have hexec := exec_writeCommand_of_operandOk hm hok (valueFits_iff.2 hv) hg
    rw [← hwrite]
    exact hexec
  · rintro rfl
    exact s1.dev.react_guestFeatures v
  · rintro rfl
    exact s1.dev.react_queueSelect v
  · rintro rfl q hq
    exact s1.dev.react_queueAddress v hq
  · rintro rfl hq
    exact s1.dev.react_queueAddress_of_no_role v hq
  · rintro rfl rfl
    rfl
  · rintro rfl hne
    exact s1.dev.react_deviceStatus_of_ne_zero v (by rwa [hk] at hv) hne
  · rintro (rfl | rfl | rfl | rfl) <;> rfl

/-- Settles O13: a read of window 1 at the MAC or the link status answers its bytes, which host order puts together. -/
theorem deviceWindowReadAnswersValue : Obligations.DeviceWindowReadAnswersValue := by
  intro s s1 off hwf hm hg hopen
  have hcfg : s1.settle.cfg = s.cfg := s1.settle_cfg.trans (sameCmd_cmdGap hg).cfg
  obtain ⟨hmac, hlink, heven⟩ := Config.wf_window1_inside hwf
  have hopen' : s1.settle.dev.win1Open = false := by rwa [State.settle_dev]
  constructor
  · intro i hi hoff
    have hok : offsetOk (s.winBytes .w1) 1 off.toNat = true := offsetOk_iff.2 ⟨Nat.mod_one _, by
      show off.toNat + 1 ≤ s.cfg.win1Bytes
      omega⟩
    have hread : s1.settle.windowRead .w1 off.toNat 1 = ([s1.dev.mac.getD i 0], s1.settle) := by
      rw [hoff, ← hcfg, State.windowRead_mac hopen' hi, State.settle_dev]
    have hexec := exec_readCommand_of_offsetOk (w := .w1) (k := .w8) hm hok hg hread
    rwa [busValue_singleton, BitVec.ofNat_toNat] at hexec
  · intro hoff
    have hok : offsetOk (s.winBytes .w1) 2 off.toNat = true := offsetOk_iff.2 (by
      rw [hoff]
      exact ⟨heven, hlink⟩)
    have hread : s1.settle.windowRead .w1 off.toNat 2 = (leBytes 2 s1.dev.link.toNat, s1.settle) := by
      rw [hoff, ← hcfg, State.windowRead_link hopen', State.settle_dev]
    have hexec := exec_readCommand_of_offsetOk (w := .w1) (k := .w16) hm hok hg hread
    rw [State.winEndian] at hexec
    cases he : s.cfg.hostEndian with
    | little => rwa [he, busValue, ofLe_leBytes _ _ s1.dev.link.isLt, BitVec.ofNat_toNat, leBytes_two] at hexec
    | big => rwa [he, leBytes_two, busValue_big_pair, BitVec.ofNat_toNat] at hexec

/-- Settles O14: past the checks a command makes its access, which changes the device and the counter of free values
alone. -/
theorem registerAccessCompletes : Obligations.RegisterAccessCompletes := by
  intro s s1 w k off v hm halign hin hv hg
  have hok : offsetOk (s.winBytes w) k.bytes off.toNat = true := offsetOk_iff.2 ⟨halign, hin⟩
  constructor
  · exact ⟨_, _, _, State.windowRead_length .., exec_readCommand_of_offsetOk hm hok hg
      (Prod.ext rfl (State.windowRead_eq s1.settle w off.toNat k.bytes))⟩
  · have hwrite := exec_writeCommand_of_operandOk hm hok (valueFits_iff.2 hv) hg
    rw [State.windowWrite_eq] at hwrite
    refine ⟨_, _, _, busBytes_length .., fun i hi => ?_, hwrite⟩
    cases s.winEndian w with
    | little => exact leBytes_getD_toNat v.toNat hi
    | big => exact leBytes_reverse_getD_toNat v.toNat hi

/-- Settles O15: by O14 the command leaves one of two states, and with no store pending each differs from the one the
access met in the device, the free values, the bus trace and the response port alone. -/
theorem registerCommandFrame : Obligations.RegisterCommandFrame := by
  intro s s1 t w k off v hm halign hin hv hg hstores hexec
  obtain ⟨⟨d, n, bytes, -, hread⟩, ⟨d', n', bytes', -, -, hwrite⟩⟩ :=
    registerAccessCompletes s s1 w k off v hm halign hin hv hg
  rw [hread, hwrite, State.settle_of_nil s1 hstores] at hexec
  obtain h | h := hexec <;> cases h <;> exact ⟨rfl, fun _ => rfl⟩

end Sys2Proof.Machine

namespace Sys2Proof.Machine

open Sys2Proof.Claims

/-! ## Values read from memory (20 R70) -/

theorem State.readBytes_of_readLe {s : State} {a n v : Nat} (h : s.readLe a n = some v) :
    ∃ bytes, s.readBytes a n = .ok bytes ∧ ofLe bytes = v := by
  induction n generalizing a v with
  | zero =>
    cases h
    exact ⟨[], rfl, rfl⟩
  | succ n ih =>
    simp only [State.readLe] at h
    split at h
    · rename_i b rest hb hrest
      cases h
      obtain ⟨bytes, hok, rfl⟩ := ih hrest
      exact ⟨b :: bytes, by simp only [State.readBytes, hb, hok], rfl⟩
    · cases h

/-- A value depends on its own bytes alone. -/
theorem State.readLe_congr {s t : State} {a n : Nat} (h : ∀ k, k < n → t.byteAt (a + k) = s.byteAt (a + k)) :
    t.readLe a n = s.readLe a n := by
  induction n generalizing a with
  | zero => rfl
  | succ n ih =>
    have hrest := ih (a := a + 1) fun k hk => by
      rw [Nat.add_assoc, Nat.add_comm 1 k]
      exact h (k + 1) (Nat.succ_lt_succ hk)
    simp only [State.readLe, hrest, show t.byteAt a = s.byteAt a from h 0 n.succ_pos]

@[simp] theorem State.readLe_setQueue (s : State) (q : Role) (x : Queue) (a n : Nat) :
    (s.setQueue q x).readLe a n = s.readLe a n := State.readLe_congr fun _ _ => rfl
@[simp] theorem State.readLe_log (s : State) (g : Agent) (op : BusOp) (a n : Nat) :
    (s.log g op).readLe a n = s.readLe a n := State.readLe_congr fun _ _ => rfl
@[simp] theorem State.readLe_respond (s : State) (e : Err) (d : List Word) (a n : Nat) :
    (s.respond e d).readLe a n = s.readLe a n := State.readLe_congr fun _ _ => rfl

theorem memRead_of_readLe {c : Ctx} {s s1 : State} (hg : c.gap s = .ok s1) {a n v : Nat}
    (h : (c.view s1).readLe a n = some v) : memRead c a n s = .ok (v, s1.log c.agent (.memRead a n v)) := by
  obtain ⟨bytes, hb, rfl⟩ := State.readBytes_of_readLe h
  exact memRead_of_gap hg hb

/-! ### With nobody interfering and no store pending -/

section
variable {s : State} (hgaps : s.gaps = []) (hwbuf : s.wbuf = [])
include hgaps hwbuf

theorem memRead_settled {a n v : Nat} (h : s.readLe a n = some v) :
    memRead cmdCtx a n s = .ok (v, s.log .cmd (.memRead a n v)) :=
  memRead_of_readLe (cmdGap_nil hgaps) (by rwa [show cmdCtx.view s = s.settle from rfl, State.settle_of_nil s hwbuf])

theorem fence_settled : fence cmdCtx s = .ok (s.log .cmd .fence) := by
  rw [fence_of_gap (c := cmdCtx) (cmdGap_nil hgaps), cmdCtx_drainStores, State.settle_of_nil s hwbuf]
  rfl

end

/-! ## The lock of a queue nobody else holds, taken and given back (20 R84) -/

theorem Queue.unlocked {x : Queue} (h : x.lock = none) : { x with lock := none } = x := by
  cases x
  cases h
  rfl

@[simp] theorem unlock_setQueue (q : Role) (x : Queue) (s : State) :
    unlock q (s.setQueue q x) = s.setQueue q { x with lock := none } := by
  simp [unlock]

@[simp] theorem unlock_log (q : Role) (s : State) (a : Agent) (op : BusOp) :
    unlock q (s.log a op) = (unlock q s).log a op := rfl

@[simp] theorem State.setQueue_log (s : State) (q : Role) (x : Queue) (a : Agent) (op : BusOp) :
    (s.log a op).setQueue q x = (s.setQueue q x).log a op := rfl

theorem unlock_lock {q : Role} {s : State} (h : (s.queue q).lock = none) (l : Option Agent) :
    unlock q (s.setQueue q { s.queue q with lock := l }) = s := by
  simp [Queue.unlocked h]

/-! ## A drain that finds no chain (41 R164, R166) -/

theorem drainList_of_start {q : Role} {s t : State} {b : Bool} (hfree : (s.queue q).lock = none)
    (h : drainStart cmdCtx q (s.setQueue q { s.queue q with lock := some .cmd }) = .ok (.finished b, t)) :
    drainList q s = .ok (([], b), unlock q t) := by
  have hrun : drainRun q patience { out := [], pos := .start } (s.setQueue q { s.queue q with lock := some .cmd })
      = .ok (([], b), t) := by
    refine (drainRun_step (r' := { out := [], pos := .finished b }) (t := t) (by simp) ?_ 1048575).trans
      (drainRun_finished q 1048574 [] b t)
    simp [drainStep, h]
  simp only [drainList, lock_free hfree, ok_bind, hrun]

theorem exec_vqDrain_of_start {q : Role} {s t : State} {b : Bool} (hv : (s.queue q).valid = true)
    (hfree : (s.queue q).lock = none)
    (h : drainStart cmdCtx q (s.setQueue q { s.queue q with lock := some .cmd }) = .ok (.finished b, t)) :
    exec (.vqDrain q) s = .next ((unlock q t).respond (if b then .ringCorrupt else .ok) []) := by
  simp only [exec, execVqDrain, hv, if_true, drainList_of_start hfree h, ok_bind, finish_ok, drainWords]

/-- The read of the used index, the FENCE, and what follows from how far ahead it is (41 R164). -/
theorem drainStart_of_readLe {q : Role} {s : State} {idx : Nat} (hb : (s.queue q).broken = false) (hgaps : s.gaps = [])
    (hwbuf : s.wbuf = [])
    (hidx : s.readLe (usedIdxAddr (s.queue q).base.toNat (s.queue q).n.toNat) 2 = some idx) :
    drainStart cmdCtx q s = .ok (if (s.queue q).n.toNat < (BitVec.ofNat 16 idx - (s.queue q).lastUsed).toNat
      then drainFault q ((s.log .cmd (.memRead (usedIdxAddr (s.queue q).base.toNat (s.queue q).n.toNat) 2 idx)).log
        .cmd .fence)
      else (nextElement (BitVec.ofNat 16 idx - (s.queue q).lastUsed).toNat,
        (s.log .cmd (.memRead (usedIdxAddr (s.queue q).base.toNat (s.queue q).n.toNat) 2 idx)).log .cmd .fence)) := by
  unfold drainStart
  rw [if_neg (by rw [hb]; decide), memRead_settled hgaps hwbuf hidx, ok_bind]
  dsimp only
  rw [fence_settled (by exact hgaps) (by exact hwbuf), ok_bind]
  exact (apply_ite Except.ok _ _ _).symm

/-- Settles O30. A broken queue ends the drain at its start; otherwise the start is `drainStart_of_readLe`. -/
theorem drainComparesIndicesModulo : Obligations.DrainComparesIndicesModulo := by
  intro s q idx hv hfree
  refine ⟨fun hb => ?_, fun hb hgaps hwbuf hidx => ?_⟩
  · have hstart : drainStart cmdCtx q (s.setQueue q { s.queue q with lock := some .cmd })
        = .ok (.finished true, s.setQueue q { s.queue q with lock := some .cmd }) := by simp [drainStart, hb]
    rw [Refused, exec_vqDrain_of_start hv hfree hstart, unlock_lock hfree]
    rfl
  · have hstart := drainStart_of_readLe (s := s.setQueue q { s.queue q with lock := some .cmd }) (q := q) (idx := idx)
      (by simpa using hb) hgaps hwbuf (by simpa using hidx)
    simp only [State.queue_setQueue_self] at hstart
    refine ⟨fun heq => ?_, fun hahead => ?_⟩
    · rw [if_neg (by simp [heq]), heq, BitVec.sub_self] at hstart
      rw [exec_vqDrain_of_start hv hfree hstart]
      rw [unlock_log, unlock_log, unlock_lock hfree]
      rfl
    · rw [if_pos hahead] at hstart
      rw [exec_vqDrain_of_start hv hfree hstart]
      simp [markBroken, hfree]

/-! ## The size and the memory of a new queue (41 R155, 20 R73) -/

/-- A power of two up to 32768 (41 R155). -/
theorem queueSizeOk_iff {size : BitVec 16} : queueSizeOk size = true ↔ ∃ e, e ≤ 15 ∧ size.toNat = 2 ^ e := by
  simp only [queueSizeOk, isPow2, Bool.and_eq_true, decide_eq_true_eq, beq_iff_eq]
  constructor
  · rintro ⟨⟨hpos, hand⟩, hle⟩
    obtain ⟨e, he⟩ := (Nat.and_sub_one_eq_zero_iff_isPowerOfTwo (by omega)).1 hand
    refine ⟨e, ?_, he⟩
    by_contra hlt
    have : 2 ^ 16 ≤ 2 ^ e := Nat.pow_le_pow_right (by decide) (by omega)
    omega
  · rintro ⟨e, hle, he⟩
    have hpos : 1 ≤ 2 ^ e := Nat.one_le_two_pow
    have hmax : 2 ^ e ≤ 2 ^ 15 := Nat.pow_le_pow_right (by decide) hle
    exact ⟨⟨by omega, (Nat.and_sub_one_eq_zero_iff_isPowerOfTwo (by omega)).2 ⟨e, he⟩⟩, by omega⟩

theorem queueSizeOk_le {size : BitVec 16} (h : queueSizeOk size = true) : size.toNat ≤ 32768 := by
  simp only [queueSizeOk, Bool.and_eq_true, decide_eq_true_eq] at h
  exact h.2

/-- A region is a whole number of pages, and its length fits the slot's field. -/
theorem regionBytes_bounds {n : Nat} (hn : n ≤ 32768) :
    roundUp (regionBytes n) pageBytes = regionBytes n ∧ regionBytes n < 2 ^ 32 := by
  refine ⟨?_, ?_⟩ <;> unfold regionBytes usedOff roundUp pageBytes <;> omega

/-- PLAT's answer does not depend on the queues (42 R181). -/
theorem State.platAlloc_setQueue (s : State) (q : Role) (x : Queue) (len : Nat) :
    (s.setQueue q x).platAlloc len = ((s.platAlloc len).1, (s.platAlloc len).2.setQueue q x) := by
  have hwish : (s.setQueue q x).allocWish = (s.allocWish.1, s.allocWish.2.setQueue q x) := by
    unfold State.allocWish
    rw [State.setQueue_platAllocs]
    split <;> rfl
  unfold State.platAlloc
  rw [hwish]
  obtain ⟨w, s1⟩ := s.allocWish
  cases w <;> rfl

/-- PLAT's answer uses up PLAT's answers alone. -/
theorem State.platAlloc_eq {s s1 : State} {len : Nat} {w : Option Addr} (h : s.platAlloc len = (w, s1)) :
    s1 = { s with platAllocs := s1.platAllocs, draws := s1.draws } := by
  have hsnd := s.platAlloc_snd len
  rwa [h] at hsnd

theorem State.allocLegal_of_platAlloc {s s1 : State} {len : Nat} {b : Addr} (h : s.platAlloc len = (some b, s1)) :
    s.allocLegal len b = true := by
  unfold State.platAlloc at h
  split at h
  · obtain ⟨hw, -⟩ := Prod.mk.inj h
    split at hw
    · cases hw
      assumption
    · cases hw
  · cases h

/-! ## VQ.CREATE (41 R155) -/

section
variable {s s1 : State} {q : Role} {size : BitVec 16} {h : Nat}
  (hfsm : s.fsm = .detached ∨ (s.fsm = .featuresOk ∧ size = s.qsize.get q)) (hv : (s.queue q).valid = false)
  (hfree : (s.queue q).lock = none) (hsize : queueSizeOk size = true)
include hfsm hv hfree hsize

/-- A legal VQ.CREATE takes the lock and asks for the region. -/
theorem execVqCreate_of_legal : execVqCreate q size s = finish (
    match poolReserveInternal (regionBytes size.toNat) (s.setQueue q { s.queue q with lock := some .cmd }) with
    | (some r, s) => .ok ((createOn q size r s).respond .ok [])
    | (none, s) => if (unlock q s).fsm = .featuresOk then failWith .allocationError (unlock q s)
        else .ok ((unlock q s).respond .allocationError [])) := by
  have hstate : s.fsm = .detached ∨ s.fsm = .featuresOk := hfsm.imp_right And.left
  have hreported : ¬ (s.fsm = .featuresOk ∧ size ≠ s.qsize.get q) := by
    rintro ⟨hf, hne⟩
    rcases hfsm with hd | ⟨-, heq⟩
    · rw [hd] at hf
      cases hf
    · exact hne heq
  unfold execVqCreate
  rw [if_pos hstate, if_neg (by simp [hv]), if_neg (by simp [hsize]), if_neg hreported, lock_free hfree]
  rfl

end

/-- The slot of an internal reservation for which PLAT has granted memory at `b` (42 R185). -/
def Slot.granted (b : Addr) (len : Nat) (fill : Fill) : Slot :=
  { alloc := true, bus := b, len := BitVec.ofNat 32 len, dir := .fromDevice, internal := true, loan := none,
    orphan := false, fill := fill }

section
variable {s s1 : State} {h len : Nat} {b : Addr} (hlen : len < 2 ^ 32)
include hlen

theorem poolReserveInternal_of_grant (hlow : s.lowestFree = some h) (hplat : s.platAlloc len = (some b, s1)) :
    poolReserveInternal len s
      = (some h, State.setSlot { s1 with draws := s1.draws + 1 } h (Slot.granted b len (.draw s1.draws))) := by
  simp only [poolReserveInternal, poolReserve, hlow, BitVec.toNat_ofNat, Nat.mod_eq_of_lt hlen, hplat]
  rfl

theorem poolReserveInternal_of_refusal (hlow : s.lowestFree = some h) (hplat : s.platAlloc len = (none, s1)) :
    poolReserveInternal len s = (none, s1) := by
  simp only [poolReserveInternal, poolReserve, hlow, BitVec.toNat_ofNat, Nat.mod_eq_of_lt hlen, hplat]

end

theorem poolReserveInternal_of_full {s : State} (hlow : s.lowestFree = none) (len : Nat) :
    poolReserveInternal len s = (none, s) := by
  simp only [poolReserveInternal, poolReserve, hlow]

/-- What VQ.CREATE leaves of `s`, memory having been granted at `b` in slot `h` (41 R155). -/
def State.withCreated (s : State) (q : Role) (size : BitVec 16) (h : Nat) (b : Addr) : State :=
  { s with
    queues := s.queues.set q (createdQueue size h b none)
    pool := s.pool.set h (Slot.granted b (regionBytes size.toNat) .zero)
    mem := Memory.eraseRange s.mem b.toNat (b.toNat + regionBytes size.toNat)
    acq := if s.fsm = .featuresOk then .qr q :: s.acq else s.acq
    bus := s.bus ++ [{ agent := .cmd, op := .memZero b.toNat (regionBytes size.toNat) }] }

theorem Slot.granted_len {b : Addr} {len : Nat} {f : Fill} (hlen : len < 2 ^ 32) :
    (Slot.granted b len f).len.toNat = len := by
  rw [Slot.granted, BitVec.toNat_ofNat, Nat.mod_eq_of_lt hlen]

theorem Slot.granted_region_extent {b : Addr} {n : Nat} {f : Fill} (hn : n ≤ 32768) :
    (Slot.granted b (regionBytes n) f).extent = regionBytes n := by
  rw [Slot.extent, Slot.granted_len (regionBytes_bounds hn).2, (regionBytes_bounds hn).1]

theorem memZeroSlot_of_slot {s : State} {h : Nat} {x : Slot} (hx : s.slot h = x) :
    memZeroSlot cmdCtx h s = { s with
      pool := s.pool.set h { x with fill := .zero }
      mem := Memory.eraseRange s.mem x.bus.toNat (x.bus.toNat + x.extent)
      bus := s.bus ++ [{ agent := .cmd, op := .memZero x.bus.toNat x.len.toNat }] } := by
  subst hx
  rfl

theorem createOn_eq (q : Role) (size : BitVec 16) (r : Nat) (s : State) :
    createOn q size r s = { memZeroSlot cmdCtx r s with
      queues := s.queues.set q (createdQueue size r ((memZeroSlot cmdCtx r s).slot r).bus none)
      acq := if s.fsm = .featuresOk then .qr q :: s.acq else s.acq } := by
  have hfsm : (memZeroSlot cmdCtx r s).fsm = s.fsm := rfl
  have hacq : (memZeroSlot cmdCtx r s).acq = s.acq := rfl
  have hqueues : (memZeroSlot cmdCtx r s).queues = s.queues := rfl
  unfold createOn
  generalize memZeroSlot cmdCtx r s = z at hfsm hacq hqueues ⊢
  by_cases hf : s.fsm = .featuresOk <;>
    simp [unlock, State.setQueue, State.queue, createdQueue, hf, hfsm, hacq, hqueues]

/-- `create` on a slot that has just been reserved. -/
theorem createOn_granted {s : State} {q : Role} {size : BitVec 16} {h : Nat} {b : Addr} {f : Fill}
    (hsize : size.toNat ≤ 32768) (hh : h < s.pool.length) (l : Option Agent) :
    createOn q size h ((s.setQueue q { s.queue q with lock := l }).setSlot h (Slot.granted b (regionBytes size.toNat) f))
      = s.withCreated q size h b := by
  have hslot : ((s.setQueue q { s.queue q with lock := l }).setSlot h
      (Slot.granted b (regionBytes size.toNat) f)).slot h = Slot.granted b (regionBytes size.toNat) f :=
    State.slot_setSlot_self _ _ hh
  have hbase : ((memZeroSlot cmdCtx h ((s.setQueue q { s.queue q with lock := l }).setSlot h
      (Slot.granted b (regionBytes size.toNat) f))).slot h).bus = b := by
    rw [memZeroSlot_of_slot hslot]
    exact congrArg Slot.bus (State.slot_setSlot_self (State.setSlot _ h _) _ (by simpa using hh))
  rw [createOn_eq, hbase, memZeroSlot_of_slot hslot, Slot.granted_region_extent hsize,
    Slot.granted_len (regionBytes_bounds hsize).2]
  simp [State.withCreated, Slot.granted]
  rfl

/-! ### What VQ.CREATE answers -/

section
variable {s s1 : State} {q : Role} {size : BitVec 16} {h : Nat} {b : Addr}
  (hfsm : s.fsm = .detached ∨ (s.fsm = .featuresOk ∧ size = s.qsize.get q)) (hv : (s.queue q).valid = false)
  (hfree : (s.queue q).lock = none) (hsize : queueSizeOk size = true)
include hfsm hv hfree hsize

theorem execVqCreate_of_full (hlow : s.lowestFree = none) : execVqCreate q size s = finish (
    if s.fsm = .featuresOk then failWith .allocationError s else .ok (s.respond .allocationError [])) := by
  rw [execVqCreate_of_legal hfsm hv hfree hsize, poolReserveInternal_of_full (by exact hlow)]
  simp only [unlock_lock hfree]

theorem execVqCreate_of_refusal (hlow : s.lowestFree = some h)
    (hplat : s.platAlloc (regionBytes size.toNat) = (none, s1)) : execVqCreate q size s = finish (
      if s1.fsm = .featuresOk then failWith .allocationError s1 else .ok (s1.respond .allocationError [])) := by
  have hqueue : s1.queue q = s.queue q := by rw [State.platAlloc_eq hplat]; rfl
  have hlocked := s.platAlloc_setQueue q { s.queue q with lock := some .cmd } (regionBytes size.toNat)
  rw [hplat, ← hqueue] at hlocked
  rw [execVqCreate_of_legal hfsm hv hfree hsize, ← hqueue,
    poolReserveInternal_of_refusal (regionBytes_bounds (queueSizeOk_le hsize)).2 (by exact hlow) hlocked]
  simp only [unlock_lock (hqueue ▸ hfree : (s1.queue q).lock = none)]

theorem execVqCreate_of_grant (hlow : s.lowestFree = some h)
    (hplat : s.platAlloc (regionBytes size.toNat) = (some b, s1)) : execVqCreate q size s = .next
      (State.respond (State.withCreated { s1 with draws := s1.draws + 1 } q size h b) .ok []) := by
  have hle := queueSizeOk_le hsize
  have hqueue : s1.queue q = s.queue q := by rw [State.platAlloc_eq hplat]; rfl
  have hpool : s1.pool = s.pool := by rw [State.platAlloc_eq hplat]
  have hlocked := s.platAlloc_setQueue q { s.queue q with lock := some .cmd } (regionBytes size.toNat)
  rw [hplat] at hlocked
  rw [execVqCreate_of_legal hfsm hv hfree hsize,
    poolReserveInternal_of_grant (regionBytes_bounds hle).2 (by exact hlow) hlocked, ← hqueue]
  exact congrArg (fun t => Host.Outcome.next (State.respond t .ok []))
    (createOn_granted (s := { s1 with draws := s1.draws + 1 }) hle (hpool ▸ (State.lowestFree_some hlow).1) _)

end

/-! ### The bytes of slots that come and go -/

theorem State.byteAt_congr {s t : State} {a : Nat} (hk : poolKind t.pool a = poolKind s.pool a)
    (hm : Memory.find t.mem a = Memory.find s.mem a) : t.byteAt a = s.byteAt a := by
  unfold State.byteAt
  rw [hk, hm]

/-- The slot that alone covers an address says what it reads as when unlisted. -/
theorem poolKind_of_covers {pool : List Slot} {h a : Nat} (hc : (pool.getD h Slot.free).covers a = true)
    (honly : ∀ k, (pool.getD k Slot.free).covers a = true → k = h) :
    poolKind pool a = (pool.getD h Slot.free).fill.kind := by
  unfold poolKind
  cases hf : pool.find? (fun x => x.covers a) with
  | none =>
    have hlt : h < pool.length := by
      by_contra hge
      simp [List.getD, Nat.le_of_not_lt hge] at hc
    have := List.find?_eq_none.1 hf _ (List.getElem_mem hlt)
    simp [List.getD, hlt] at hc
    exact absurd hc this
  | some x =>
    obtain ⟨k, hk, rfl⟩ := List.getElem_of_mem (List.mem_of_find?_eq_some hf)
    have hget : pool.getD k Slot.free = pool[k] := by simp [List.getD, hk]
    rw [← honly k (by rw [hget]; exact List.find?_some (p := fun x : Slot => x.covers a) hf), hget]

/-- Of an address that no slot of the table covers, a new slot is the only one. -/
theorem poolKind_set_of_dead {pool : List Slot} {h a : Nat} {y : Slot} (hh : h < pool.length)
    (hdead : poolKind pool a = .dead) (hy : y.covers a = true) : poolKind (pool.set h y) a = y.fill.kind := by
  have hself : (pool.set h y).getD h Slot.free = y := by simp [List.getD, hh]
  rw [poolKind_of_covers (h := h) (by rwa [hself]), hself]
  intro k hk
  by_contra hne
  have hother : (pool.set h y).getD k Slot.free = pool.getD k Slot.free := by simp [List.getD, Ne.symm hne]
  rw [hother] at hk
  have hlt : k < pool.length := by
    by_contra hge
    simp [List.getD, Nat.le_of_not_lt hge] at hk
  have := (poolKind_dead_iff pool a).1 hdead _ (List.getElem_mem hlt)
  simp [List.getD, hlt, this] at hk

theorem Slot.covers_iff {x : Slot} {a : Nat} :
    x.covers a = true ↔ x.alloc = true ∧ x.bus.toNat ≤ a ∧ a < x.bus.toNat + x.extent := by
  simp only [Slot.covers, Bool.and_eq_true, decide_eq_true_eq, and_assoc]

section
variable {s : State} {q : Role} {size : BitVec 16} {h : Nat} {b : Addr} (hsize : size.toNat ≤ 32768)
  (hlow : s.lowestFree = some h) {a : Nat}
include hsize hlow

/-- A fresh region reads 0 throughout (20 R72). -/
theorem State.withCreated_byteAt_inside (hlegal : s.allocLegal (regionBytes size.toNat) b = true)
    (hlo : b.toNat ≤ a) (hhi : a < b.toNat + regionBytes size.toNat) :
    (s.withCreated q size h b).byteAt a = some 0 := by
  have hcov : (Slot.granted b (regionBytes size.toNat) .zero).covers a = true := by
    rw [Slot.covers_iff, Slot.granted_region_extent hsize]
    exact ⟨rfl, hlo, hhi⟩
  have hdead := State.allocLegal_dead hlegal hlo (by rwa [(regionBytes_bounds hsize).1])
  have hkind : poolKind (s.withCreated q size h b).pool a = .zero :=
    poolKind_set_of_dead (State.lowestFree_some hlow).1 hdead hcov
  have hfind : Memory.find (s.withCreated q size h b).mem a = none :=
    (Memory.find_eraseRange ..).trans (if_pos ⟨hlo, hhi⟩)
  simp only [State.byteAt, hkind, hfind, Option.getD_none]

theorem State.withCreated_byteAt_outside (hout : a < b.toNat ∨ b.toNat + regionBytes size.toNat ≤ a) :
    (s.withCreated q size h b).byteAt a = s.byteAt a := by
  refine State.byteAt_congr (poolKind_set _ _ _ _ ?_ ?_) ((Memory.find_eraseRange ..).trans (if_neg (by omega)))
  · exact Bool.eq_false_iff.2 fun hc => by
      have := (Slot.covers_iff.1 hc).1
      rw [show (s.pool.getD h Slot.free).alloc = false from (State.lowestFree_some hlow).2] at this
      cases this
  · refine Bool.eq_false_iff.2 fun hc => ?_
    obtain ⟨-, hlo, hhi⟩ := Slot.covers_iff.1 hc
    rw [Slot.granted_region_extent hsize] at hhi
    dsimp only [Slot.granted] at hlo hhi
    omega

end

/-! ### The obligations about VQ.CREATE -/

/-- Settles O20: what a granted VQ.CREATE leaves is `State.withCreated`. -/
theorem createMakesZeroedQueue : Obligations.CreateMakesZeroedQueue := by
  intro s s1 q size h b hfsm hv hfree hpow hlow hlen hplat
  have hsize := queueSizeOk_iff.2 hpow
  have hle := queueSizeOk_le hsize
  have hlegal := State.allocLegal_of_platAlloc hplat
  obtain ⟨hh, -⟩ := State.lowestFree_some hlow
  have hexec := execVqCreate_of_grant hfsm hv hfree hsize hlow hplat
  rw [State.platAlloc_eq hplat] at hexec
  refine ⟨_, hexec, rfl, PerRole.get_set_self .., fun p hp => PerRole.get_set_ne _ _ hp, ?_, fun k hk => ?_, rfl,
    fun a hlo hhi => ?_, fun a ha => ?_, rfl⟩
  · exact State.slot_setSlot_self s _ hh
  · exact State.slot_setSlot_ne s _ hk
  · exact State.withCreated_byteAt_inside (s := { s with platAllocs := s1.platAllocs, draws := s1.draws + 1 }) (q := q) hle hlow hlegal hlo hhi
  · exact State.withCreated_byteAt_outside (s := { s with platAllocs := s1.platAllocs, draws := s1.draws + 1 }) (q := q) hle hlow
      (ha _ (List.mem_singleton.2 rfl))

/-- Settles O22. -/
theorem createWithoutMemoryInDetached : Obligations.CreateWithoutMemoryInDetached := by
  intro s q size hf hv hfree hpow
  have hsize := queueSizeOk_iff.2 hpow
  have hnot : ¬ s.fsm = .featuresOk := by rw [hf]; decide
  refine ⟨fun hlow => ?_, fun h s1 hlow hplat => ⟨?_, ?_⟩⟩
  · exact (execVqCreate_of_full (.inl hf) hv hfree hsize hlow).trans (by rw [if_neg hnot]; rfl)
  · have hnot1 : ¬ s1.fsm = .featuresOk := by rw [State.platAlloc_eq hplat]; exact hnot
    exact (execVqCreate_of_refusal (.inl hf) hv hfree hsize hlow hplat).trans (by rw [if_neg hnot1]; rfl)
  · rw [State.platAlloc_eq hplat]

/-- Settles O21. -/
theorem queueCommandsRefused : Obligations.QueueCommandsRefused := by
  intro s q size
  refine ⟨fun hd hf => ?_, fun hstate hbad => ?_, fun hd => ?_, fun hd hv => ?_, fun hv => ?_⟩
  · simp [Refused, exec, execVqCreate, hd, hf]
  · simp only [Refused, exec, execVqCreate, hstate, if_true]
    by_cases hv : (s.queue q).valid = true
    · rw [if_pos hv]
      rfl
    · rw [if_neg hv]
      by_cases hsize : queueSizeOk size = true
      · obtain ⟨e, hle, he⟩ := queueSizeOk_iff.1 hsize
        have hreported := (hbad.resolve_left hv).resolve_left fun hno => hno e hle he
        rw [if_neg (by simp [hsize]), if_pos hreported]
        rfl
      · rw [if_pos (by simpa using hsize)]
        rfl
  · simp [Refused, exec, execVqDestroy, hd]
  · simp [Refused, exec, execVqDestroy, hd, hv]
  · simp [Refused, exec, execVqDrain, hv]

/-- Settles O23: the used index of the zeroed region is 0, which is `last_used` of the new queue. -/
theorem createThenDrainIsEmpty : Obligations.CreateThenDrainIsEmpty := by
  intro s s1 q e h b he hf hv hfree hlow hlen hwbuf hgaps hplat
  have hpow : (BitVec.ofNat 16 (2 ^ e)).toNat = 2 ^ e := by
    have : 2 ^ e ≤ 2 ^ 15 := Nat.pow_le_pow_right (by decide) he
    rw [BitVec.toNat_ofNat, Nat.mod_eq_of_lt (by omega)]
  rw [← hpow] at hplat
  obtain ⟨t, hexec, -, hqueue, -, -, -, -, hzero, -, hrest⟩ := createMakesZeroedQueue s s1 q (BitVec.ofNat 16 (2 ^ e)) h b
    (.inl hf) hv hfree ⟨e, he, hpow⟩ hlow hlen hplat
  have hgapst : t.gaps = [] := (congrArg State.gaps hrest).trans hgaps
  have hwbuft : t.wbuf = [] := (congrArg State.wbuf hrest).trans hwbuf
  have hidx : t.readLe (usedIdxAddr (t.queue q).base.toNat (t.queue q).n.toNat) 2 = some 0 := by
    have hbounds := usedOff_bounds (2 ^ e)
    rw [hqueue]
    simp only [hpow] at hzero ⊢
    have hbyte : ∀ k, k < 2 → t.byteAt (usedIdxAddr b.toNat (2 ^ e) + k) = some 0 := fun k hk =>
      hzero _ (by unfold usedIdxAddr; omega) (by unfold usedIdxAddr; omega)
    simp [State.readLe, hbyte 1 (by decide), show t.byteAt (usedIdxAddr b.toNat (2 ^ e)) = some 0 from hbyte 0 (by decide)]
  have hvalid : (t.queue q).valid = true := by rw [hqueue]
  have hdrain := (((drainComparesIndicesModulo t q 0 hvalid (by rw [hqueue])).2 (by rw [hqueue]) hgapst hwbuft hidx).1
    (by rw [hqueue]; rfl))
  refine ⟨t, _, hexec, hdrain, rfl, ?_, rfl, rfl, fun _ => rfl⟩
  exact (congrArg Queue.free hqueue).trans (by simp only [hpow])

end Sys2Proof.Machine

namespace Sys2Proof.Machine

open Sys2Proof.Claims

/-! ## What the checks of a segment list ask (41 R161) -/

theorem segHandle_eq (g : Seg) : g.ctl.setWidth 16 = segHandle g := by
  refine BitVec.eq_of_toNat_eq ?_
  simp [segHandle]

theorem segWritable_eq (g : Seg) : segWritable g = g.ctl.msb := by
  simp [segWritable, BitVec.msb_eq_getLsbD_last]

theorem Slot.owned_iff {x : Slot} : x.owned = true ↔ x.state = .owned := by
  unfold Slot.owned Slot.state
  cases x.alloc <;> cases x.internal <;> cases x.loan <;> cases x.orphan <;> simp

theorem handlesDistinct_iff {hs : List Handle} : handlesDistinct hs = true ↔ hs.Nodup := by
  induction hs with
  | nil => simp [handlesDistinct]
  | cons h rest ih => simp [handlesDistinct, ih]

theorem State.segOk_iff {s : State} {g : Seg} : s.segOk g = true ↔ g.ctl.extractLsb' 16 15 = 0
    ∧ (segHandle g).toNat < s.cfg.poolSlots ∧ (s.slot (segHandle g).toNat).state = .owned ∧ g.len ≠ 0
    ∧ g.len.toNat ≤ (s.slot (segHandle g).toNat).len.toNat
    ∧ (g.ctl.msb = true ↔ (s.slot (segHandle g).toNat).dir = .fromDevice) := by
  have hlen : 1 ≤ g.len.toNat ↔ g.len ≠ 0 := by
    rw [Nat.one_le_iff_ne_zero, ne_eq, ne_eq, ← BitVec.toNat_inj]
    rfl
  have hdir : ∀ (m : Bool) (d : Dir), (m == (d == .fromDevice)) = true ↔ (m = true ↔ d = .fromDevice) := fun m d => by
    cases m <;> simp
  simp only [State.segOk, segReservedZero, segWritable_eq, Bool.and_eq_true, decide_eq_true_eq, Slot.owned_iff, hlen,
    hdir, and_assoc]
  rw [beq_iff_eq]

theorem State.segsOk_iff {s : State} {segs : List Seg} : s.segsOk segs = true ↔ 1 ≤ segs.length
    ∧ segs.length ≤ 32768 ∧ (∀ g ∈ segs, s.segOk g = true) ∧ (segs.map segHandle).Nodup := by
  simp only [State.segsOk, Bool.and_eq_true, decide_eq_true_eq, List.all_eq_true, handlesDistinct_iff, and_assoc]

/-- Settles O25. A list with one of the faults does not pass `State.segsOk`. -/
theorem submitValidatesSegments : Obligations.SubmitValidatesSegments := by
  intro s q segs
  refine ⟨fun hf => by simp [Refused, exec, execVqSubmit, hf], fun hf => by simp [Refused, exec, execVqSubmit, hf],
    fun hf hbad => ?_⟩
  have hno : s.segsOk segs = false := by
    refine Bool.eq_false_iff.2 fun hok => ?_
    obtain ⟨hpos, hmax, hsegs, hnodup⟩ := State.segsOk_iff.1 hok
    simp only [segHandle_eq] at hbad
    rcases hbad with hlen | hlen | ⟨g, hg, hfault⟩ | hdup
    · omega
    · omega
    · obtain ⟨hzero, hlt, howned, hlen, hfits, hdir⟩ := State.segOk_iff.1 (hsegs g hg)
      rcases hfault with h | h | h | h | h | ⟨hm, hd⟩ | ⟨hm, hd⟩
      · exact h hzero
      · exact absurd h (Nat.not_le_of_lt hlt)
      · exact h howned
      · exact hlen h
      · exact absurd h (Nat.not_lt_of_le hfits)
      · rw [hdir.1 hm] at hd
        cases hd
      · rw [hdir.2 hd] at hm
        cases hm
    · exact hdup hnodup
  by_cases hq : q = s.cfg.qCtrl <;> simp [Refused, exec, execVqSubmit, hf, hq, hno]

/-! ## A submission that leaves everything as it was (41 R160, R163; 60 R274) -/

section
variable {s : State} {q : Role} {segs : List Seg} (hf : s.fsm = .driverReady) (hq : q ≠ s.cfg.qCtrl)
  (hok : s.segsOk segs = true) (hfree : (s.queue q).lock = none)
include hf hq hok hfree

/-- VQ.SUBMIT of a legal segment list: the queue, and the descriptors it has left, decide (41 R160). -/
theorem exec_vqSubmit_of_legal : exec (.vqSubmit q segs) s = finish (
    if (s.queue q).broken then .ok (s.respond .ringCorrupt [])
    else if (s.queue q).free.length < descsNeeded s segs.length then .ok (s.respond .queueFull [])
    else submitChain cmdCtx q segs (s.setQueue q { s.queue q with lock := some .cmd })) := by
  simp only [exec, execVqSubmit, if_pos hf, if_neg hq, hok, Bool.not_true, Bool.false_eq_true, if_false,
    lock_free hfree, ok_bind, State.queue_setQueue_self, unlock_lock hfree]
  rfl

theorem submit_refused_of_broken (hb : (s.queue q).broken = true) : Refused (.vqSubmit q segs) .ringCorrupt s := by
  rw [Refused, exec_vqSubmit_of_legal hf hq hok hfree, if_pos hb]
  rfl

variable (hb : (s.queue q).broken = false)
include hb

theorem submit_refused_of_full (hfull : (s.queue q).free.length < descsNeeded s segs.length) :
    Refused (.vqSubmit q segs) .queueFull s := by
  rw [Refused, exec_vqSubmit_of_legal hf hq hok hfree, if_neg (by simp [hb]), if_pos hfull]
  rfl

theorem exec_vqSubmit_of_room (hroom : descsNeeded s segs.length ≤ (s.queue q).free.length) :
    exec (.vqSubmit q segs) s
      = finish (submitChain cmdCtx q segs (s.setQueue q { s.queue q with lock := some .cmd })) := by
  rw [exec_vqSubmit_of_legal hf hq hok hfree, if_neg (by simp [hb]), if_neg (Nat.not_lt_of_le hroom)]

end

/-- An indirect submission for which no table can be had: the descriptor goes back to the free-list (41 R163). -/
theorem submitChain_without_table {c : Ctx} {s s1 : State} {q : Role} {segs : List Seg}
    (hfree : (s.queue q).lock = none) (hind : goesIndirect s segs.length = true) (hqueue : s1.queue q = s.queue q)
    (hno : ∀ y, poolReserveInternal (16 * segs.length) (s.setQueue q y) = (none, s1.setQueue q y)) (l : Option Agent) :
    submitChain c q segs (s.setQueue q { s.queue q with lock := l }) = .ok (s1.respond .queueFull []) := by
  have hlocked : (s.setQueue q { s.queue q with lock := l }).indirectChain segs.length = true := hind
  unfold submitChain
  simp only [hlocked, if_true, State.queue_setQueue_self, State.setQueue_setQueue, hno, List.take_append_drop,
    unlock_setQueue, Queue.unlocked hfree]
  rw [← hqueue, State.setQueue_queue]

/-- Settles O26. -/
theorem submitBrokenOrFullChangesNothing : Obligations.SubmitBrokenOrFullChangesNothing := by
  intro s q segs hf hq hok hfree
  obtain ⟨-, hmax, -, -⟩ := State.segsOk_iff.1 hok
  refine ⟨submit_refused_of_broken hf hq hok hfree, submit_refused_of_full hf hq hok hfree,
    fun hb hneg => ⟨fun hlen hfew => ?_, fun hlen hnone => ?_⟩, fun hb hind hroom => ?_⟩
  · refine submit_refused_of_full hf hq hok hfree hb ?_
    simpa [descsNeeded, goesIndirect, hlen] using hlen ▸ hfew
  · refine submit_refused_of_full hf hq hok hfree hb ?_
    simp [descsNeeded, goesIndirect, hneg, hlen, hnone]
  · have hexec := exec_vqSubmit_of_room hf hq hok hfree hb (by rwa [descsNeeded, if_pos hind])
    refine ⟨fun hlow => ?_, fun h s1 hlow hplat => ⟨?_, ?_⟩⟩
    · rw [Refused, hexec, submitChain_without_table hfree hind rfl fun y => poolReserveInternal_of_full (by exact hlow) _]
      rfl
    · have hqueue : s1.queue q = s.queue q := by rw [State.platAlloc_eq hplat]; rfl
      rw [hexec, submitChain_without_table hfree hind hqueue fun y => ?_]
      · rfl
      · have hlocked := s.platAlloc_setQueue q y (16 * segs.length)
        rw [hplat] at hlocked
        exact poolReserveInternal_of_refusal (by omega) (by exact hlow) hlocked
    · rw [State.platAlloc_eq hplat]

end Sys2Proof.Machine

namespace Sys2Proof.Machine

open Sys2Proof.Claims

/-! ## Live slots and the bytes they cover (10 R32, R46) -/

theorem State.slot_eq_getElem {s : State} {k : Nat} (h : k < s.pool.length) : s.slot k = s.pool[k] := by
  simp [State.slot, List.getD, h]

theorem State.lt_of_covers {s : State} {k a : Nat} (h : (s.slot k).covers a = true) : k < s.pool.length :=
  State.slot_lt fun hf => by simp [hf] at h

theorem State.live_iff {s : State} {a : Nat} : poolKind s.pool a ≠ .dead ↔ ∃ k, (s.slot k).covers a = true := by
  rw [ne_eq, poolKind_dead_iff]
  push Not
  constructor
  · rintro ⟨x, hx, hc⟩
    obtain ⟨k, hk, rfl⟩ := List.getElem_of_mem hx
    exact ⟨k, by rw [State.slot_eq_getElem hk]; simpa using hc⟩
  · rintro ⟨k, hc⟩
    have hk := State.lt_of_covers hc
    rw [State.slot_eq_getElem hk] at hc
    exact ⟨_, List.getElem_mem hk, by simp [hc]⟩

/-- The slot table in order: no address lies in two live slots, and only live slots are on loan (10 R32). -/
structure State.PoolSound (s : State) : Prop where
  apart : ∀ a i j, (s.slot i).covers a = true → (s.slot j).covers a = true → i = j
  lent : ∀ k, (s.slot k).loan ≠ none → (s.slot k).alloc = true

theorem State.safe_poolSound {s : State} (h : s.safe = true) : s.PoolSound := by
  refine ⟨fun a i j hi hj => ?_, fun k hk => ?_⟩
  · have hpool : slotsApart s.pool = true := by
      simp only [State.safe, State.poolOk, Bool.and_eq_true] at h
      exact h.1.1.2.2
    have hpair : ∀ l : List Slot, slotsApart l = true → l.Pairwise fun x y =>
        ∀ a, x.covers a = true → y.covers a = false := by
      intro l
      induction l with
      | nil => exact fun _ => .nil
      | cons x rest ih =>
        intro hl
        simp only [slotsApart, Bool.and_eq_true, List.all_eq_true] at hl
        refine .cons (fun y hy a hx => Bool.eq_false_iff.2 fun hya => ?_) (ih hl.2)
        obtain ⟨hxa, hx1, hx2⟩ := Slot.covers_iff.1 hx
        obtain ⟨hya, hy1, hy2⟩ := Slot.covers_iff.1 hya
        have := hl.1 y hy
        simp only [hxa, hya, Config.apart, Bool.not_true, Bool.false_or, Bool.or_eq_true, decide_eq_true_eq] at this
        omega
    have hget := List.pairwise_iff_getElem.1 (hpair _ hpool)
    have hilt := State.lt_of_covers hi
    have hjlt := State.lt_of_covers hj
    rw [State.slot_eq_getElem hilt] at hi
    rw [State.slot_eq_getElem hjlt] at hj
    rcases Nat.lt_trichotomy i j with hij | hij | hij
    · rw [hget i j hilt hjlt hij a hi] at hj
      cases hj
    · exact hij
    · rw [hget j i hjlt hilt hij a hj] at hi
      cases hi
  · by_contra hf
    exact hk (State.safe_unlent h k (by simpa using hf))

/-- Slots that are freed or lose their loan leave the table in order. -/
theorem State.PoolSound.mono {s t : State} (h : s.PoolSound) (hst : ∀ k, t.slot k = s.slot k
    ∨ (t.slot k).loan = none ∧ ∀ a, (t.slot k).covers a = true → (s.slot k).covers a = true) : t.PoolSound := by
  have hc : ∀ k a, (t.slot k).covers a = true → (s.slot k).covers a = true := fun k a hk => by
    rcases hst k with hs | hs
    · rwa [hs] at hk
    · exact hs.2 a hk
  refine ⟨fun a i j hi hj => h.apart a i j (hc i a hi) (hc j a hj), fun k hk => ?_⟩
  rcases hst k with hs | hs
  · rw [hs] at hk ⊢
    exact h.lent k hk
  · exact absurd hs.1 hk

theorem sameLiveBytes_refl (s : State) : SameLiveBytes s s := fun _ _ => rfl

theorem sameLiveBytes_trans {s t u : State} (h : SameLiveBytes s t) (g : SameLiveBytes t u) : SameLiveBytes s u := by
  intro a ha
  have hu := g a ha
  refine hu.trans (h a fun hdead => ?_)
  have hsome := State.byteAt_isSome ha
  rw [hu, State.byteAt, hdead] at hsome
  cases hsome

/-- A slot whose loan or quarantine changes keeps its bytes. -/
theorem byteAt_relabel {s : State} {k : Nat} {y : Slot} (hc : ∀ a, y.covers a = (s.slot k).covers a)
    (hf : y.fill = (s.slot k).fill) (a : Nat) : (s.setSlot k y).byteAt a = s.byteAt a :=
  State.byteAt_congr (poolKind_set_same _ _ _ _ (hc a) hf) rfl

theorem State.slot_poolFree (s : State) (n k : Nat) : (poolFree n s).slot k = if k = n then Slot.free else s.slot k := by
  split
  · rename_i hk
    subst hk
    rcases State.slot_of_pool_set (t := poolFree k s) rfl k with hs | ⟨-, hs⟩
    · by_contra hne
      have hlt : k < s.pool.length := State.slot_lt (hs ▸ hne)
      exact hne (State.slot_setSlot_self s _ hlt)
    · exact hs
  · rename_i hk
    exact State.slot_setSlot_ne s _ hk

/-- Freeing a live slot leaves the bytes of all others (42 R186). -/
theorem poolFree_sameLiveBytes {s : State} (h : s.PoolSound) {n : Nat} (hn : (s.slot n).alloc = true) :
    SameLiveBytes s (poolFree n s) := by
  intro a ha
  obtain ⟨k, hk⟩ := State.live_iff.1 ha
  rw [State.slot_poolFree] at hk
  split at hk
  · cases hk
  · rename_i hkn
    have hout : (s.slot n).covers a = false := Bool.eq_false_iff.2 fun hna => hkn (h.apart a k n hk hna)
    refine State.byteAt_congr (poolKind_set _ _ _ _ hout rfl) ((Memory.find_eraseRange ..).trans (if_neg fun hin => ?_))
    rw [Slot.covers_iff.2 ⟨hn, hin⟩] at hout
    cases hout

theorem State.PoolSound.poolFree {s : State} (h : s.PoolSound) (n : Nat) : (poolFree n s).PoolSound := by
  refine h.mono fun k => ?_
  rw [State.slot_poolFree]
  split
  · exact .inr ⟨rfl, fun a ha => by cases ha⟩
  · exact .inl rfl

/-! ## What becomes of the slots lent to queues that are freed (41 R159) -/

/-- A slot once the queues `qs` have been freed. -/
def Slot.givenUp (qs : List Role) (mode : FreeMode) (x : Slot) : Slot :=
  match x.loan with
  | none => x
  | some l =>
    if l.q ∈ qs then
      if x.internal then Slot.free else { x with loan := none, orphan := x.orphan || mode == .orphan }
    else x

section
variable {qs : List Role} {mode : FreeMode} {x : Slot}

theorem Slot.givenUp_of_unlent (h : ∀ l, x.loan = some l → l.q ∉ qs) : x.givenUp qs mode = x := by
  unfold Slot.givenUp
  split
  · rfl
  · rename_i l hl
    rw [if_neg (h l hl)]

theorem Slot.givenUp_of_lent {l : Loan} (hl : x.loan = some l) (hq : l.q ∈ qs) : x.givenUp qs mode
    = if x.internal then Slot.free else { x with loan := none, orphan := x.orphan || mode == .orphan } := by
  simp only [Slot.givenUp, hl, hq, if_true]

theorem Slot.givenUp_cases (qs : List Role) (mode : FreeMode) (x : Slot) : x.givenUp qs mode = x
    ∨ x.loan ≠ none ∧ (x.givenUp qs mode = Slot.free
      ∨ x.givenUp qs mode = { x with loan := none, orphan := x.orphan || mode == .orphan }) := by
  unfold Slot.givenUp
  split
  · exact .inl rfl
  · rename_i l hl
    split
    · refine .inr ⟨by simp [hl], ?_⟩
      split
      · exact .inl rfl
      · exact .inr rfl
    · exact .inl rfl

theorem Slot.givenUp_givenUp (ps qs : List Role) (mode : FreeMode) (x : Slot) :
    (x.givenUp ps mode).givenUp qs mode = x.givenUp (ps ++ qs) mode := by
  cases hl : x.loan with
  | none => simp [Slot.givenUp, hl]
  | some l =>
    by_cases hp : l.q ∈ ps
    · rw [Slot.givenUp_of_lent hl hp, Slot.givenUp_of_lent hl (by simp [hp])]
      split <;> rfl
    · rw [Slot.givenUp_of_unlent (x := x) (qs := ps) fun l' hl' => by rw [hl] at hl'; cases hl'; exact hp]
      simp [Slot.givenUp, hl, hp]

theorem Slot.givenUp_unlent (qs : List Role) (mode : FreeMode) (x : Slot) : x.givenUp qs mode = x
    ∨ (x.givenUp qs mode).loan = none ∧ ∀ a, (x.givenUp qs mode).covers a = true → x.covers a = true := by
  rcases x.givenUp_cases qs mode with hx | ⟨-, hx | hx⟩
  · exact .inl hx
  · exact .inr (by rw [hx]; exact ⟨rfl, fun a ha => by cases ha⟩)
  · exact .inr (by rw [hx]; exact ⟨rfl, fun a ha => ha⟩)

theorem Slot.covers_givenUp {a : Nat} (h : x.covers a = true) (halive : (x.givenUp qs mode).alloc = true) :
    (x.givenUp qs mode).covers a = true := by
  rcases x.givenUp_cases qs mode with hx | ⟨-, hx | hx⟩ <;> rw [hx] at halive ⊢
  · exact h
  · cases halive
  · exact h

end

theorem State.pool_set_slot (s : State) (k : Nat) : s.pool.set k (s.slot k) = s.pool := by
  by_cases hk : k < s.pool.length
  · rw [State.slot_eq_getElem hk, List.set_getElem_self]
  · exact List.set_eq_of_length_le (Nat.le_of_not_lt hk)

theorem freeLent_pool (q : Role) (mode : FreeMode) (h : Handle) (s : State) :
    (freeLent q mode h s).pool = s.pool.set h.toNat ((s.slot h.toNat).givenUp [q] mode) := by
  unfold freeLent Slot.givenUp
  cases (s.slot h.toNat).loan with
  | none => exact (s.pool_set_slot _).symm
  | some l =>
    dsimp only
    by_cases hq : l.q = q
    · simp only [hq, List.mem_singleton, if_true]
      split <;> rfl
    · simp only [hq, List.mem_singleton, if_false]
      exact (s.pool_set_slot _).symm

theorem freeLent_slot (q : Role) (mode : FreeMode) (h : Handle) (s : State) (k : Nat) :
    (freeLent q mode h s).slot k = if k = h.toNat then (s.slot k).givenUp [q] mode else s.slot k := by
  split
  · rename_i hk
    subst hk
    by_cases hlt : h.toNat < s.pool.length
    · rw [State.slot, freeLent_pool]
      simp [List.getD, hlt]
    · have hfree : s.slot h.toNat = Slot.free := by simp [State.slot, List.getD, Nat.le_of_not_lt hlt]
      rw [hfree, State.slot, freeLent_pool, List.set_eq_of_length_le (Nat.le_of_not_lt hlt)]
      exact hfree
  · rename_i hk
    exact State.slot_of_pool_set_ne (freeLent_pool q mode h s) hk

theorem freeLent_sound {s : State} (hs : s.PoolSound) (q : Role) (mode : FreeMode) (h : Handle) :
    (freeLent q mode h s).PoolSound ∧ SameLiveBytes s (freeLent q mode h s) := by
  constructor
  · refine hs.mono fun k => ?_
    rw [freeLent_slot]
    split
    · exact Slot.givenUp_unlent ..
    · exact .inl rfl
  · unfold freeLent
    split
    · exact sameLiveBytes_refl s
    · rename_i l hl
      split
      · split
        · exact poolFree_sameLiveBytes hs (hs.lent _ (by simp [hl]))
        · exact fun a _ => byteAt_relabel (y := { s.slot h.toNat with loan := none, orphan := _ }) (fun _ => rfl) rfl a
      · exact sameLiveBytes_refl s

theorem freeLents_slot (q : Role) (mode : FreeMode) (hs : List Handle) (s : State) (k : Nat) :
    (freeLents q mode hs s).slot k = if k ∈ hs.map (fun h => h.toNat) then (s.slot k).givenUp [q] mode else s.slot k := by
  induction hs generalizing s with
  | nil => rfl
  | cons h rest ih =>
    have hidem : ((s.slot k).givenUp [q] mode).givenUp [q] mode = (s.slot k).givenUp [q] mode := by
      rw [Slot.givenUp_givenUp]
      simp [Slot.givenUp]
    simp only [freeLents, ih, freeLent_slot, List.map_cons, List.mem_cons]
    by_cases hr : k ∈ rest.map (fun h => h.toNat)
    · simp only [hr, if_true, or_true]
      split
      · exact hidem
      · rfl
    · simp only [hr, if_false, or_false]

theorem freeLents_sound {s : State} (h : s.PoolSound) (q : Role) (mode : FreeMode) (hs : List Handle) :
    (freeLents q mode hs s).PoolSound ∧ SameLiveBytes s (freeLents q mode hs s) := by
  induction hs generalizing s with
  | nil => exact ⟨h, sameLiveBytes_refl s⟩
  | cons x rest ih =>
    obtain ⟨hx, hbytes⟩ := freeLent_sound h q mode x
    exact ⟨(ih hx).1, sameLiveBytes_trans hbytes (ih hx).2⟩

/-- Every handle is among `State.handles`. -/
theorem State.mem_handles {s : State} (hsize : s.pool.length ≤ 65536) {k : Nat} (hk : k < s.pool.length) :
    k ∈ s.handles.map (fun h => h.toNat) := by
  simp only [State.handles, List.map_map, List.mem_map, List.mem_range]
  exact ⟨k, hk, by simp; omega⟩

theorem freeLents_handles_slot {s : State} (hsize : s.pool.length ≤ 65536) (q : Role) (mode : FreeMode) (k : Nat) :
    (freeLents q mode s.handles s).slot k = (s.slot k).givenUp [q] mode := by
  rw [freeLents_slot]
  split
  · rfl
  · rename_i hk
    have hfree : s.slot k = Slot.free := by
      by_contra hne
      exact hk (State.mem_handles hsize (State.slot_lt hne))
    rw [hfree]
    rfl

theorem dropQueue_eq (q : Role) (s : State) :
    dropQueue q s = { poolFree (s.queue q).region.toNat s with queues := s.queues.set q Queue.empty } := by
  have hqueues := dropQueue_queues q s
  unfold dropQueue unlock at hqueues ⊢
  exact congrArg (fun qs => { poolFree (s.queue q).region.toNat s with queues := qs }) hqueues

/-- Queues that CMD can free one after another: nobody holds their locks, and each has a live region of its own that is
not on loan. -/
structure State.Freeable (s : State) (qs : List Role) : Prop where
  pool : s.PoolSound
  size : s.pool.length ≤ 65536
  unlocked : ∀ p ∈ qs, (s.queue p).lock = none
  alloc : ∀ p ∈ qs, (s.slot (s.queue p).region.toNat).alloc = true
  unlent : ∀ p ∈ qs, (s.slot (s.queue p).region.toNat).loan = none
  apart : qs.Pairwise fun p p' => p ≠ p' ∧ (s.queue p).region ≠ (s.queue p').region

/-- `t` is `s` with the queues `qs` freed (41 R159): they are gone, their regions are FREE, what was lent to them is
given up, and every byte that still exists stays. -/
structure QueuesFreed (qs : List Role) (mode : FreeMode) (s t : State) : Prop where
  rest : t = { s with queues := t.queues, pool := t.pool, mem := t.mem }
  queue : ∀ p, t.queue p = if p ∈ qs then Queue.empty else s.queue p
  slot : ∀ k, t.slot k = if ∃ p ∈ qs, (s.queue p).region.toNat = k then Slot.free else (s.slot k).givenUp qs mode
  bytes : SameLiveBytes s t

theorem dropQueue_frees {q : Role} {qs : List Role} {mode : FreeMode} {s s2 : State} (h : s.Freeable (q :: qs))
    (hstate : s2 = { s.setQueue q { s.queue q with lock := some .cmd } with pool := s2.pool, mem := s2.mem })
    (hsound : s2.PoolSound) (hbytes : SameLiveBytes s s2) (hlength : s2.pool.length = s.pool.length)
    (hslot : ∀ k, s2.slot k = (s.slot k).givenUp [q] mode) :
    QueuesFreed [q] mode s (dropQueue q s2) ∧ (dropQueue q s2).Freeable qs := by
  have hq := List.mem_cons_self (a := q) (l := qs)
  have hqueues : s2.queues = (s.setQueue q { s.queue q with lock := some .cmd }).queues := by rw [hstate]
  have hregion : (s2.queue q).region.toNat = (s.queue q).region.toNat := by
    rw [State.queue, hqueues, State.setQueue_queues, PerRole.get_set_self]
  have hkept : ∀ k, (s.slot k).loan = none → s2.slot k = s.slot k := fun k hk => by
    rw [hslot, Slot.givenUp_of_unlent (by simp [hk])]
  have hslots : ∀ k, (dropQueue q s2).slot k
      = if (s.queue q).region.toNat = k then Slot.free else (s.slot k).givenUp [q] mode := fun k => by
    rw [dropQueue_eq, hregion, ← hslot]
    exact (State.slot_poolFree s2 _ k).trans (by simp only [eq_comm])
  have hqueue : ∀ p, (dropQueue q s2).queue p = if p = q then Queue.empty else s.queue p := fun p => by
    rw [State.queue, dropQueue_queues, hqueues, State.setQueue_queues, PerRole.set_set, PerRole.get_set]
    rfl
  refine ⟨⟨?_, fun p => by simp [hqueue], fun k => by simp [hslots], ?_⟩, ?_⟩
  · rw [dropQueue_eq, hstate]
    rfl
  · rw [dropQueue_eq]
    refine sameLiveBytes_trans hbytes (poolFree_sameLiveBytes hsound ?_)
    rw [hregion, hkept _ (h.unlent q hq)]
    exact h.alloc q hq
  · obtain ⟨hapart, hrest⟩ := List.pairwise_cons.1 h.apart
    have hother : ∀ p ∈ qs, (dropQueue q s2).queue p = s.queue p ∧ (dropQueue q s2).slot (s.queue p).region.toNat
        = s.slot (s.queue p).region.toNat := fun p hp => by
      obtain ⟨hne, hreg⟩ := hapart p hp
      refine ⟨by rw [hqueue, if_neg (Ne.symm hne)], ?_⟩
      rw [hslots, if_neg fun heq => hreg (BitVec.eq_of_toNat_eq heq),
        Slot.givenUp_of_unlent (by simp [h.unlent p (List.mem_cons_of_mem _ hp)])]
    refine ⟨?_, ?_, fun p hp => ?_, fun p hp => ?_, fun p hp => ?_, ?_⟩
    · rw [dropQueue_eq]
      exact ⟨(hsound.poolFree _).apart, (hsound.poolFree _).lent⟩
    · rw [dropQueue_eq]
      exact (List.length_set ..).trans_le (hlength.trans_le h.size)
    · rw [(hother p hp).1]
      exact h.unlocked p (List.mem_cons_of_mem _ hp)
    · rw [(hother p hp).1, (hother p hp).2]
      exact h.alloc p (List.mem_cons_of_mem _ hp)
    · rw [(hother p hp).1, (hother p hp).2]
      exact h.unlent p (List.mem_cons_of_mem _ hp)
    · refine hrest.imp_of_mem fun {p p'} hp hp' hpp => ?_
      rw [(hother p hp).1, (hother p' hp').1]
      exact hpp

theorem freeQueue_frees {q : Role} {qs : List Role} {s : State} (h : s.Freeable (q :: qs)) (mode : FreeMode) :
    ∃ t, freeQueue q mode s = .ok t ∧ QueuesFreed [q] mode s t ∧ t.Freeable qs := by
  refine ⟨_, freeQueue_of_free (h.unlocked q (List.mem_cons_self ..)) mode, ?_⟩
  have hlocked : (s.setQueue q { s.queue q with lock := some .cmd }).PoolSound := ⟨h.pool.apart, h.pool.lent⟩
  obtain ⟨hsound, hbytes⟩ := freeLents_sound hlocked q mode s.handles
  exact dropQueue_frees h (freeLents_eq ..) hsound hbytes
    (freeLents_givenBack (P := fun _ => True) (q := q) (fun _ _ => trivial) mode s.handles
      (.refl _ (s.setQueue q { s.queue q with lock := some .cmd }))).1
    (freeLents_handles_slot (s := s.setQueue q { s.queue q with lock := some .cmd }) h.size q mode)

/-- The valid queues of a safe state at rest can be freed. -/
theorem State.safe_freeable {s : State} (h : s.safe = true) (hirq : s.irqEn = false) {qs : List Role} (hnd : qs.Nodup)
    (hv : ∀ p ∈ qs, (s.queue p).valid = true) : s.Freeable qs := by
  have hsound := State.safe_still h hirq
  refine ⟨State.safe_poolSound h, hsound.size, fun p _ => hsound.tidy.lock_none_of_quiet rfl rfl p,
    fun p hp => (hsound.region p (hv p hp)).alloc, fun p hp => (hsound.region p (hv p hp)).loan, ?_⟩
  exact hnd.imp_of_mem fun {p p'} hp hp' hne => ⟨hne, fun hr => hne (hsound.apart p p' (hv p hp) (hv p' hp') hr)⟩

/-- Settles O24. -/
theorem destroyGivesBackLoans : Obligations.DestroyGivesBackLoans := by
  intro s q hsafe hf hv
  have hirq : s.irqEn = false :=
    (State.safe_acq hsafe).resolve_right fun hx => by
      rw [hf] at hx
      exact hx.1.elim (by decide) (by decide)
  have hfreeable := State.safe_freeable hsafe hirq (List.nodup_singleton q) (by simpa using hv)
  obtain ⟨t, ht, hfreed, -⟩ := freeQueue_frees hfreeable .giveBack
  have hunlent := hfreeable.unlent q (List.mem_singleton_self q)
  have hqueue : t.queue q = Queue.empty := by simp [hfreed.queue]
  have hslot : ∀ k, k ≠ (s.queue q).region.toNat → t.slot k = (s.slot k).givenUp [q] .giveBack := fun k hk => by
    simp [hfreed.slot, Ne.symm hk]
  have hexec : exec (.vqDestroy q) s = .next (t.respond .ok []) := by simp [exec, execVqDestroy, hf, hv, ht]
  have hresp : Answered .ok [] s (t.respond .ok []) := by
    rw [hfreed.rest]
    rfl
  refine ⟨t.respond .ok [], hexec, hresp, ?_, ?_, ?_, ?_, fun p hp => by simp [hfreed.queue, hp],
    by simp [hfreed.slot], fun k hk => ?_, fun k hk hother => ?_, fun a k hc halive => ?_, ?_⟩
  · simp [hqueue, Queue.empty]
  · simp [hqueue, Queue.empty]
  · simp [hqueue, Queue.empty]
  · simp [hqueue, Queue.empty]
  · obtain ⟨l, hl, hlq⟩ := hk
    have hne : k ≠ (s.queue q).region.toNat := fun h => by
      rw [h, hunlent] at hl
      cases hl
    rw [State.slot_respond, hslot k hne, Slot.givenUp_of_lent hl (by simp [hlq]),
      show (FreeMode.giveBack == FreeMode.orphan) = false from rfl, Bool.or_false]
  · rw [State.slot_respond, hslot k hk, Slot.givenUp_of_unlent fun l hl => by simpa using hother l hl]
  · rw [State.byteAt_respond]
    refine hfreed.bytes a (State.live_iff.2 ⟨k, ?_⟩)
    rw [State.slot_respond, hfreed.slot] at halive
    rw [hfreed.slot]
    split at halive
    · cases halive
    · rename_i hk
      rw [if_neg hk]
      exact Slot.covers_givenUp hc halive
  · rw [hfreed.rest]
    rfl

/-! ## The FAILED entry with nobody else at work (60 R276) -/

theorem Config.wf_stFailed {c : Config} (h : c.wf = true) : c.stFailed ≠ 0 := by
  simp only [Config.wf, Bool.and_eq_true] at h
  have hmasks : Config.masksApart [c.stAck, c.stDriver, c.stDriverOk, c.stFailed] = true := by simp only [h]
  simp only [Config.masksApart, Config.oneBit, Bool.and_eq_true, bne_iff_ne] at hmasks
  exact hmasks.2.2.2.1.1.1

/-- A status write of a nonzero byte, with nobody interfering (43 R202, 45 R254). -/
theorem statusWrite_settled {s : State} (hwf : s.cfg.wf = true) (hgaps : s.gaps = []) (hwbuf : s.wbuf = [])
    {bits : BitVec 8} (hne : s.stShadow ||| bits ≠ 0) : statusWrite bits s = .ok
      (State.log { s with stShadow := s.stShadow ||| bits, dev := { s.dev with dstatus := s.stShadow ||| bits } } .cmd
        (statusOp s (s.stShadow ||| bits))) := by
  generalize hv : s.stShadow ||| bits = v at hne ⊢
  have hbytes : busBytes .little 1 v.toNat = [v] := by simp [busBytes, leBytes]
  have hreact : s.dev.react .deviceStatus (ofLe [v]) = { s.dev with dstatus := v } := by
    simp [Device.react, ofLe, show ¬ v = 0#8 from hne]
  have hgap : cmdCtx.gap { s with stShadow := v } = .ok { s with stShadow := v } := cmdGap_nil (by exact hgaps)
  unfold statusWrite
  rw [hv, regWrite_of_gap hgap, cmdCtx_drainStores, State.settle_of_nil _ (by exact hwbuf)]
  have hwrite := State.windowWrite_register (s := { s with stShadow := v }) hwf (r := .deviceStatus) (bytes := [v]) rfl
  rw [show Reg0.off _ Reg0.deviceStatus = s.cfg.offDeviceStatus from rfl] at hwrite
  rw [show busBytes (State.winEndian _ .w0) 1 v.toNat = [v] from hbytes, hwrite]
  exact congrArg (fun d => Except.ok (State.log (State.setDev { s with stShadow := v } d) .cmd _)) hreact

theorem QueuesFreed.trans {ps qs : List Role} {mode : FreeMode} {s t u : State} (h : QueuesFreed ps mode s t)
    (g : QueuesFreed qs mode t u) (hdisj : ∀ p ∈ qs, p ∉ ps) : QueuesFreed (ps ++ qs) mode s u := by
  have hqueue : ∀ p ∈ qs, t.queue p = s.queue p := fun p hp => by rw [h.queue, if_neg (hdisj p hp)]
  refine ⟨?_, fun p => ?_, fun k => ?_, sameLiveBytes_trans h.bytes g.bytes⟩
  · rw [g.rest, h.rest]
  · rw [g.queue, h.queue]
    by_cases hp : p ∈ ps <;> simp [hp]
  · rw [g.slot, h.slot]
    have hregion : (∃ p ∈ qs, (t.queue p).region.toNat = k) ↔ ∃ p ∈ qs, (s.queue p).region.toNat = k :=
      exists_congr fun p => and_congr_right fun hp => by rw [hqueue p hp]
    by_cases hq : ∃ p ∈ qs, (s.queue p).region.toNat = k
    · obtain ⟨p, hp, hk⟩ := hq
      rw [if_pos (hregion.2 ⟨p, hp, hk⟩), if_pos ⟨p, List.mem_append_right _ hp, hk⟩]
    · rw [if_neg fun hx => hq (hregion.1 hx)]
      by_cases hp : ∃ p ∈ ps, (s.queue p).region.toNat = k
      · obtain ⟨p, hpp, hk⟩ := hp
        rw [if_pos ⟨p, hpp, hk⟩, if_pos ⟨p, List.mem_append_left _ hpp, hk⟩]
        rfl
      · rw [if_neg hp, if_neg, Slot.givenUp_givenUp]
        rintro ⟨p, hmem, hk⟩
        exact (List.mem_append.1 hmem).elim (fun hpp => hp ⟨p, hpp, hk⟩) fun hpq => hq ⟨p, hpq, hk⟩

theorem QueuesFreed.refl (mode : FreeMode) (s : State) : QueuesFreed [] mode s s := by
  refine ⟨rfl, fun p => by simp, fun k => ?_, sameLiveBytes_refl s⟩
  simp [Slot.givenUp_of_unlent]

/-- The queues of a device are released, and then its windows (60 R276, R277). -/
theorem releaseAll_frees {qs : List Role} {s : State} (h : s.Freeable qs) : ∃ t,
    releaseAll (qs.map .qr ++ [.win]) s = .ok { t with winMapped := false, acq := [] } ∧ QueuesFreed qs .orphan s t := by
  induction qs generalizing s with
  | nil => exact ⟨s, rfl, .refl .orphan s⟩
  | cons q rest ih =>
    have hq : State.Freeable { s with acq := rest.map .qr ++ [.win] } (q :: rest) :=
      ⟨⟨h.pool.apart, h.pool.lent⟩, h.size, h.unlocked, h.alloc, h.unlent, h.apart⟩
    obtain ⟨t, ht, hfreed, hrest⟩ := freeQueue_frees hq .orphan
    obtain ⟨u, hu, hufreed⟩ := ih hrest
    have hdisj : ∀ p ∈ rest, p ∉ [q] := fun p hp hpq =>
      ((List.pairwise_cons.1 h.apart).1 p hp).1 (List.mem_singleton.1 hpq).symm
    have hall := hfreed.trans hufreed hdisj
    refine ⟨{ u with acq := s.acq }, ?_, ?_, hall.queue, hall.slot, hall.bytes⟩
    · rw [List.map_cons, List.cons_append, releaseAll]
      show (freeQueue q .orphan _ >>= _) = _
      rw [ht, ok_bind, hu]
    · rw [hall.rest]

/-- What a device with the windows mapped, these queues and no handler loses when the FAILED entry runs with nobody
interfering (60 R276): `t` is what the freed queues leave. -/
theorem failWith_settled {s : State} {e : Err} {qs : List Role} (hwf : s.cfg.wf = true) (hgaps : s.gaps = [])
    (hwbuf : s.wbuf = []) (hwin : s.winMapped = true) (he : e ≠ .unsupportedDevice)
    (hacq : s.acq = qs.map .qr ++ [.win]) (h : s.Freeable qs) : ∃ t,
    failWith e s = .ok (State.respond { t with
      stShadow := s.stShadow ||| s.cfg.stFailed
      dev := { s.dev with dstatus := s.stShadow ||| s.cfg.stFailed }
      bus := s.bus ++ [{ agent := .cmd, op := statusOp s (s.stShadow ||| s.cfg.stFailed) }]
      winMapped := false, acq := [], errLatch := BitVec.ofNat 8 e.code, fsm := .failed } e [])
      ∧ QueuesFreed qs .orphan s t := by
  have hne : s.stShadow ||| s.cfg.stFailed ≠ 0 := fun hz =>
    Config.wf_stFailed hwf (BitVec.or_eq_zero_iff.1 hz).2
  have hwrite := statusWrite_settled hwf hgaps hwbuf hne
  generalize hs1 : State.log _ .cmd _ = s1 at hwrite
  have h1 : s1.Freeable qs := by
    subst hs1
    exact ⟨⟨h.pool.apart, h.pool.lent⟩, h.size, h.unlocked, h.alloc, h.unlent, h.apart⟩
  obtain ⟨t, ht, hfreed⟩ := releaseAll_frees h1
  have hacq1 : s1.acq = qs.map .qr ++ [.win] := by
    subst hs1
    exact hacq
  refine ⟨{ t with stShadow := s.stShadow, dev := s.dev, bus := s.bus }, ?_, ?_⟩
  · unfold failWith failEntry writeFailedBit
    rw [if_pos ⟨hwin, he⟩, hwrite, ok_bind, hacq1, ht]
    subst hs1
    rw [hfreed.rest]
    rfl
  · subst hs1
    refine ⟨?_, hfreed.queue, hfreed.slot, hfreed.bytes⟩
    rw [hfreed.rest]
    rfl

/-! ## What a safe state says of loans, sizes and acquired queues -/

section
variable {s : State} (h : s.safe = true)
include h

theorem State.safe_wf : s.cfg.wf = true := by
  simp only [State.safe, Bool.and_eq_true] at h
  obtain ⟨⟨⟨⟨⟨⟨⟨hwf, -⟩, -⟩, -⟩, -⟩, -⟩, -⟩, -⟩ := h
  exact hwf

theorem State.safe_sizes : s.sizesOk = true := by
  simp only [State.safe, State.bringUpOk, Bool.and_eq_true] at h
  obtain ⟨⟨⟨⟨-, -, hsizes⟩, -⟩, -⟩, -⟩ := h
  exact hsizes

/-- What is said of a slot by its handle holds of every slot of the table. -/
theorem State.safe_loan {k : Nat} (hk : k < s.pool.length) :
    (BitVec.ofNat 16 k).toNat = k ∧ s.loanOk (BitVec.ofNat 16 k) = true := by
  have hsize := (State.safe_pool h).1
  simp only [State.safe, State.ringsOk, Bool.and_eq_true, List.all_eq_true] at h
  obtain ⟨⟨-, ⟨-, hloans⟩, -⟩, -⟩ := h
  refine ⟨by rw [BitVec.toNat_ofNat, Nat.mod_eq_of_lt (by omega)], hloans _ ?_⟩
  exact List.mem_map.2 ⟨k, List.mem_range.2 hk, rfl⟩

/-- A slot on loan is lent to a valid queue (10 R28). -/
theorem State.safe_lent_valid {k : Nat} {l : Loan} (hl : (s.slot k).loan = some l) : (s.queue l.q).valid = true := by
  have hk : k < s.pool.length := State.slot_lt fun hf => by rw [hf] at hl; cases hl
  obtain ⟨hnat, hok⟩ := State.safe_loan h hk
  simp only [State.loanOk, hnat, hl, Bool.and_eq_true] at hok
  exact hok.1

/-- An internal slot that is not on loan is the region of a valid queue (10 R33). -/
theorem State.safe_region_of_internal {k : Nat} (hl : (s.slot k).loan = none) (hi : (s.slot k).internal = true) :
    ∃ q, (s.queue q).valid = true ∧ (s.queue q).region.toNat = k := by
  have hk : k < s.pool.length := State.slot_lt fun hf => by rw [hf] at hi; cases hi
  obtain ⟨hnat, hok⟩ := State.safe_loan h hk
  simp only [State.loanOk, hnat, hl, hi, Bool.not_true, Bool.false_or, List.any_eq_true, Bool.and_eq_true,
    beq_iff_eq] at hok
  obtain ⟨q, -, hv, hr⟩ := hok
  exact ⟨q, hv, by rw [hr, hnat]⟩

/-- Before the handler is registered the valid queues and the windows are what has been acquired (60 R277). -/
theorem State.safe_acquired (hf : s.fsm = .featuresOk) (hirq : s.irqEn = false) : s.winMapped = true
    ∧ ∃ qs : List Role, qs.Nodup ∧ s.acq = qs.map .qr ++ [.win] ∧ ∀ p, p ∈ qs ↔ (s.queue p).valid = true := by
  have hok := (State.safe_bringUp h).1
  simp only [State.acqOk, hf, hirq, Bool.false_eq_true, if_false, List.nil_append, Bool.and_eq_true, beq_iff_eq,
    List.all_eq_true, distinct_iff_nodup] at hok
  obtain ⟨⟨⟨hwin, hnd⟩, hacq⟩, hvalid⟩ := hok
  refine ⟨hwin, acquiredQueues s.acq, hnd, hacq, fun p => ?_⟩
  rw [← hvalid p (Role.mem_every p), List.contains_iff_mem]

end

theorem Slot.state_loaned {x : Slot} (h : x.state = .loaned) : (∃ l, x.loan = some l) ∧ x.internal = false := by
  obtain ⟨alloc, bus, len, dir, internal, loan, orphan, fill⟩ := x
  cases alloc <;> cases internal <;> cases loan <;> cases orphan <;> simp_all [Slot.state]

theorem Slot.state_internal {x : Slot} (h : x.state = .internal) : x.internal = true := by
  obtain ⟨alloc, bus, len, dir, internal, loan, orphan, fill⟩ := x
  cases alloc <;> cases internal <;> cases loan <;> cases orphan <;> simp_all [Slot.state]

theorem Slot.state_unlent {x : Slot} (h : x.state = .owned ∨ x.state = .orphan) :
    x.alloc = true ∧ x.loan = none ∧ x.internal = false := by
  obtain ⟨alloc, bus, len, dir, internal, loan, orphan, fill⟩ := x
  cases alloc <;> cases internal <;> cases loan <;> cases orphan <;> simp_all [Slot.state]

/-- A queue region that cannot be had in FEATURES_OK runs the FAILED entry, PLAT's answer used up (41 R155). -/
theorem execVqCreate_fails {s : State} {q : Role} (hsafe : s.safe = true) (hf : s.fsm = .featuresOk)
    (hv : (s.queue q).valid = false) (hfree : (s.queue q).lock = none)
    (hno : s.lowestFree = none
      ∨ ∃ h s1, s.lowestFree = some h ∧ s.platAlloc (regionBytes (s.qsize.get q).toNat) = (none, s1)) :
    ∃ u : State, u = { s with platAllocs := u.platAllocs, draws := u.draws }
      ∧ exec (.vqCreate q (s.qsize.get q)) s = finish (failWith .allocationError u) := by
  have hsize : queueSizeOk (s.qsize.get q) = true := by
    have hok := State.safe_sizes hsafe
    simp only [State.sizesOk, hf] at hok
    exact (PerRole.all_iff ..).1 hok q
  rcases hno with hlow | ⟨h, s1, hlow, hplat⟩
  · refine ⟨s, rfl, (execVqCreate_of_full (.inr ⟨hf, rfl⟩) hv hfree hsize hlow).trans ?_⟩
    rw [if_pos hf]
  · refine ⟨s1, State.platAlloc_eq hplat,
      (execVqCreate_of_refusal (.inr ⟨hf, rfl⟩) hv hfree hsize hlow hplat).trans ?_⟩
    rw [if_pos (by rw [State.platAlloc_eq hplat]; exact hf)]

/-- Settles O47. -/
theorem createWithoutMemoryInBringUpIsFatal : Obligations.CreateWithoutMemoryInBringUpIsFatal := by
  intro s q hsafe hgaps hf hv hno
  have hirq : s.irqEn = false := by
    by_contra hirq
    rw [State.safe_busy hsafe (.inl (by simpa using hirq)) q] at hv
    cases hv
  have hstill := State.safe_still hsafe hirq
  obtain ⟨hwin, qs, hnd, hacq, hqs⟩ := State.safe_acquired hsafe hf hirq
  have hfreeable := State.safe_freeable hsafe hirq hnd fun p hp => (hqs p).1 hp
  obtain ⟨u, hu, hexec⟩ := execVqCreate_fails hsafe hf hv (hstill.tidy.lock_none_of_quiet rfl rfl q) hno
  generalize u.platAllocs = pa, u.draws = d at hu
  subst hu
  obtain ⟨t, hfail, hfreed⟩ := failWith_settled (s := { s with platAllocs := pa, draws := d }) (e := .allocationError)
    (qs := qs) (State.safe_wf hsafe) hgaps (hstill.tidy.stores rfl) hwin (by decide) hacq
    ⟨⟨hfreeable.pool.apart, hfreeable.pool.lent⟩, hfreeable.size, hfreeable.unlocked, hfreeable.alloc, hfreeable.unlent,
      hfreeable.apart⟩
  have hslot : ∀ k, (∀ p ∈ qs, (s.queue p).region.toNat ≠ k) → t.slot k = (s.slot k).givenUp qs .orphan := fun k hk =>
    (hfreed.slot k).trans (if_neg fun ⟨p, hp, hpk⟩ => hk p hp hpk)
  have hnoregion : ∀ k, (s.slot k).internal = false → ∀ p ∈ qs, (s.queue p).region.toNat ≠ k := fun k hk p hp hpk => by
    rw [← hpk, (hstill.region p ((hqs p).1 hp)).internal] at hk
    cases hk
  rw [hexec, hfail]
  refine ⟨_, rfl, ?_⟩
  rw [hfreed.rest]
  refine ⟨rfl, rfl, rfl, rfl, rfl, rfl, hirq, rfl, rfl, rfl, rfl, rfl, rfl, rfl, rfl, rfl, rfl, rfl, rfl, rfl, rfl,
    fun p => ?_, fun k hk => ?_, fun k hk => ?_, fun k hk => ?_, hfreed.bytes⟩
  · refine (congrArg Queue.valid (hfreed.queue p)).trans ?_
    split
    · rfl
    · rename_i hp
      exact Bool.eq_false_iff.2 fun hpv => hp ((hqs p).2 hpv)
  · cases hl : (s.slot k).loan with
    | none =>
      obtain ⟨p, hpv, hpk⟩ := State.safe_region_of_internal hsafe hl (Slot.state_internal hk)
      exact (hfreed.slot k).trans (if_pos ⟨p, (hqs p).2 hpv, hpk⟩)
    | some l =>
      have hlq := (hqs l.q).2 (State.safe_lent_valid hsafe hl)
      refine (hslot k fun p hp hpk => ?_).trans ?_
      · rw [← hpk, (hstill.region p ((hqs p).1 hp)).loan] at hl
        cases hl
      · rw [Slot.givenUp_of_lent hl hlq, if_pos (Slot.state_internal hk)]
  · obtain ⟨⟨l, hl⟩, hi⟩ := Slot.state_loaned hk
    refine (hslot k (hnoregion k hi)).trans ?_
    rw [Slot.givenUp_of_lent hl ((hqs l.q).2 (State.safe_lent_valid hsafe hl)), if_neg (by simp [hi])]
    exact congrArg (fun b => { s.slot k with loan := none, orphan := b }) (Bool.or_true _)
  · obtain ⟨-, hl, hi⟩ := Slot.state_unlent hk
    exact (hslot k (hnoregion k hi)).trans (Slot.givenUp_of_unlent (by simp [hl]))

end Sys2Proof.Machine

namespace Sys2Proof.Machine

open Sys2Proof.Claims

/-! ## Stores made one after another, as they stand on the bus (20 R71, R80) -/

/-- The store that a bus operation makes. -/
def BusOp.store : BusOp → Option Store
  | .memWrite a n v => some { addr := a, bytes := leBytes n v }
  | _ => none

/-- A bus operation stores to this address. -/
def BusOp.Writes : BusOp → Nat → Prop
  | .memWrite a n _, c => a ≤ c ∧ c < a + n
  | _, _ => False

/-- No address is stored to by two of these operations. -/
def WritesApart (ops : List BusOp) : Prop := ops.Pairwise fun o p => ∀ c, o.Writes c → ¬ p.Writes c

/-- Every address that these operations store to exists in `s`. -/
def State.LiveFor (s : State) (ops : List BusOp) : Prop := ∀ o ∈ ops, ∀ c, o.Writes c → poolKind s.pool c ≠ .dead

/-- `s` once CMD has made these accesses, its stores still pending. -/
def State.made (s : State) (ops : List BusOp) : State :=
  { s with wbuf := s.wbuf ++ ops.filterMap BusOp.store, bus := s.bus ++ ops.map fun o => { agent := .cmd, op := o } }

/-- `s` with the stores of these operations in effect. -/
def State.withStores (s : State) (ops : List BusOp) : State := s.applyStores (ops.filterMap BusOp.store)

@[simp] theorem State.made_made (s : State) (ops ops' : List BusOp) : (s.made ops).made ops' = s.made (ops ++ ops') := by
  simp [State.made]

theorem State.setQueue_made (s : State) (ops : List BusOp) (q : Role) (x : Queue) :
    (s.made ops).setQueue q x = (s.setQueue q x).made ops := rfl

@[simp] theorem State.made_nil (s : State) : s.made [] = s := by
  simp [State.made]

theorem State.log_eq_made (s : State) {op : BusOp} (h : op.store = none) : s.log .cmd op = s.made [op] := by
  simp [State.log, State.made, h]

theorem State.applyStores_append (s : State) (l l' : List Store) :
    s.applyStores (l ++ l') = (s.applyStores l).applyStores l' := by
  induction l generalizing s with
  | nil => rfl
  | cons st rest ih => exact ih (s.putBytes st.addr st.bytes)

theorem State.withStores_append (s : State) (ops ops' : List BusOp) :
    s.withStores (ops ++ ops') = (s.withStores ops).withStores ops' := by
  simp [State.withStores, State.applyStores_append]

theorem State.withStores_memWrite (s : State) (a n v : Nat) (ops : List BusOp) :
    s.withStores (.memWrite a n v :: ops) = (s.putBytes a (leBytes n v)).withStores ops := rfl

@[simp] theorem State.withStores_pool (s : State) (ops : List BusOp) : (s.withStores ops).pool = s.pool := by
  rw [State.withStores, State.applyStores_eq]

/-- A byte that none of the operations stores to stays. -/
theorem State.byteAt_withStores {ops : List BusOp} {c : Nat} (h : ∀ o ∈ ops, ¬ o.Writes c) (s : State) :
    (s.withStores ops).byteAt c = s.byteAt c := by
  induction ops generalizing s with
  | nil => rfl
  | cons o rest ih =>
    obtain ⟨ho, hrest⟩ := List.forall_mem_cons.1 h
    cases o
    case memWrite a n v =>
      refine (ih hrest _).trans (State.byteAt_putBytes_outside s a _ ?_)
      rw [leBytes_length]
      simp only [BusOp.Writes] at ho
      omega
    all_goals exact ih hrest s

/-- The value stored at a place is read there, when nothing else stores to it. -/
theorem State.readLe_withStores {s : State} {ops : List BusOp} {a n v : Nat} (hop : .memWrite a n v ∈ ops)
    (hfit : v < 256 ^ n) (hlive : s.LiveFor ops) (hapart : WritesApart ops) :
    (s.withStores ops).readLe a n = some v := by
  obtain ⟨before, after, rfl⟩ := List.append_of_mem hop
  obtain ⟨-, hafter, -⟩ := List.pairwise_append.1 hapart
  have hmiss : ∀ c, a ≤ c ∧ c < a + n → ∀ o ∈ after, ¬ o.Writes c := fun c hc o ho =>
    (List.pairwise_cons.1 hafter).1 o ho c hc
  have hbyte : ∀ k (hk : k < (leBytes n v).length),
      (s.withStores (before ++ .memWrite a n v :: after)).byteAt (a + k) = some (leBytes n v)[k] := fun k hk => by
    rw [leBytes_length] at hk
    rw [State.withStores_append, State.withStores_memWrite, State.byteAt_withStores (hmiss _ (by omega))]
    refine State.byteAt_putBytes_inside _ a _ _ ?_
    rw [State.withStores_pool]
    exact hlive _ hop _ ⟨by omega, by omega⟩
  have hread : ∀ (bs : List Byte) (t : State) (c : Nat), (∀ k (hk : k < bs.length), t.byteAt (c + k) = some bs[k]) →
      t.readLe c bs.length = some (ofLe bs) := by
    intro bs t
    induction bs with
    | nil => exact fun _ _ => rfl
    | cons b rest ih =>
      intro c hbs
      have hb : t.byteAt c = some b := hbs 0 (Nat.succ_pos _)
      have hrest := ih (c + 1) fun k hk => by
        rw [Nat.add_assoc, Nat.add_comm 1 k]
        exact hbs (k + 1) (Nat.succ_lt_succ hk)
      simp only [List.length_cons, State.readLe, hb, hrest, ofLe]
  have := hread _ _ a hbyte
  rwa [leBytes_length, ofLe_leBytes n v hfit] at this

/-- A store with nobody interfering is pending. -/
theorem memWrite_settled {s : State} (hgaps : s.gaps = []) {a n : Nat} (v : Nat)
    (hlive : s.LiveFor [.memWrite a n v]) : memWrite cmdCtx a n v s = .ok (s.made [.memWrite a n v]) := by
  rw [memWrite_of_gap (cmdGap_nil hgaps) (State.checkLive_of_live fun k hk =>
    hlive _ (List.mem_singleton_self _) _ ⟨Nat.le_add_right a k, Nat.add_lt_add_left hk a⟩)]
  rfl

/-- `s` once CMD has made these accesses, its stores in effect. -/
def State.effected (s : State) (ops : List BusOp) : State :=
  { s with mem := (s.withStores ops).mem, bus := s.bus ++ ops.map fun o => { agent := .cmd, op := o } }

theorem State.putByte_mem_congr {s t : State} (hp : t.pool = s.pool) (hm : t.mem = s.mem) (a : Nat) (b : Byte) :
    (t.putByte a b).mem = (s.putByte a b).mem := by
  unfold State.putByte
  rw [hp, hm]
  cases poolKind s.pool a with
  | dead => exact hm
  | fresh k => rfl
  | zero =>
    dsimp only
    by_cases hb : b = 0
    · rw [if_pos hb, if_pos hb]
    · rw [if_neg hb, if_neg hb]

theorem State.putBytes_mem_congr {s t : State} (hp : t.pool = s.pool) (hm : t.mem = s.mem) (a : Nat) (bs : List Byte) :
    (t.putBytes a bs).mem = (s.putBytes a bs).mem := by
  induction bs generalizing s t a with
  | nil => exact hm
  | cons b rest ih => exact ih (by simp [hp]) (State.putByte_mem_congr hp hm a b) (a + 1)

/-- What stores leave in memory depends on the slot table and memory alone. -/
theorem State.withStores_mem_congr {s t : State} (hp : t.pool = s.pool) (hm : t.mem = s.mem) (ops : List BusOp) :
    (t.withStores ops).mem = (s.withStores ops).mem := by
  have hstores : ∀ (l : List Store) {s t : State}, t.pool = s.pool → t.mem = s.mem →
      (t.applyStores l).mem = (s.applyStores l).mem := by
    intro l
    induction l with
    | nil => exact fun _ hm => hm
    | cons st rest ih => exact fun hp hm => ih (by simp [hp]) (State.putBytes_mem_congr hp hm _ _)
  exact hstores _ hp hm

theorem State.byteAt_effected (s : State) (ops : List BusOp) (c : Nat) :
    (s.effected ops).byteAt c = (s.withStores ops).byteAt c :=
  State.byteAt_congr (by rw [State.withStores_pool]; rfl) rfl

theorem State.readLe_effected (s : State) (ops : List BusOp) (a n : Nat) :
    (s.effected ops).readLe a n = (s.withStores ops).readLe a n :=
  State.readLe_congr fun _ _ => s.byteAt_effected ops _

theorem State.effected_setQueue (s : State) (ops : List BusOp) (q : Role) (x : Queue) :
    (s.effected ops).setQueue q x = (s.setQueue q x).effected ops := by
  have hmem : ((s.setQueue q x).withStores ops).mem = (s.withStores ops).mem :=
    State.withStores_mem_congr (s := s) (t := s.setQueue q x) rfl rfl ops
  unfold State.effected
  rw [hmem]
  rfl

@[simp] theorem State.readLe_withStores_setQueue (s : State) (q : Role) (x : Queue) (ops : List BusOp) (a n : Nat) :
    ((s.setQueue q x).withStores ops).readLe a n = (s.withStores ops).readLe a n := by
  refine State.readLe_congr fun k _ => State.byteAt_congr (by simp) ?_
  rw [State.withStores_mem_congr (s := s) (t := s.setQueue q x) rfl rfl ops]

@[simp] theorem State.queue_made (s : State) (ops : List BusOp) (q : Role) : (s.made ops).queue q = s.queue q := rfl
@[simp] theorem State.queue_effected (s : State) (ops : List BusOp) (q : Role) :
    (s.effected ops).queue q = s.queue q := rfl

/-- Stores that are pending take effect together. -/
theorem State.settle_made {s : State} (hwbuf : s.wbuf = []) (ops ops' : List BusOp) :
    ((s.effected ops).made ops').settle = s.effected (ops ++ ops') := by
  have hmade : ((s.effected ops).made ops').wbuf = ops'.filterMap BusOp.store := by
    rw [State.made, State.effected, hwbuf]
    rfl
  have hmem : ((s.effected ops).made ops').settle.mem = (s.withStores (ops ++ ops')).mem := by
    rw [State.settle, hmade, State.withStores_append]
    exact State.withStores_mem_congr (s := s.withStores ops) (t := (s.effected ops).made ops')
      (s.withStores_pool ops).symm rfl ops'
  rw [State.settle_eq, hmem]
  simp [State.effected, State.made, hwbuf]

@[simp] theorem State.effected_nil (s : State) : s.effected [] = s := by
  simp only [State.effected, List.map_nil, List.append_nil]
  rfl

theorem State.log_effected (s : State) (ops : List BusOp) {op : BusOp} (h : op.store = none) :
    (s.effected ops).log .cmd op = s.effected (ops ++ [op]) := by
  have hstores : s.withStores (ops ++ [op]) = s.withStores ops := by simp [State.withStores, h]
  rw [State.effected, State.effected, hstores, List.map_append, ← List.append_assoc]
  rfl

/-- Stores that are pending take effect at a FENCE (20 R81). -/
theorem fence_made {s : State} (hgaps : s.gaps = []) (hwbuf : s.wbuf = []) (ops ops' : List BusOp) :
    fence cmdCtx ((s.effected ops).made ops') = .ok (s.effected (ops ++ ops' ++ [.fence])) := by
  rw [fence_of_gap (c := cmdCtx) (cmdGap_nil (by exact hgaps)), cmdCtx_drainStores, State.settle_made hwbuf]
  exact congrArg Except.ok (s.log_effected (ops ++ ops') rfl)

/-- A read with no store pending. -/
theorem memRead_effected {s : State} (hgaps : s.gaps = []) (hwbuf : s.wbuf = []) {ops : List BusOp} {a n v : Nat}
    (h : (s.withStores ops).readLe a n = some v) :
    memRead cmdCtx a n (s.effected ops) = .ok (v, s.effected (ops ++ [.memRead a n v])) := by
  rw [memRead_settled (by exact hgaps) (by exact hwbuf) (by rwa [State.readLe_effected]), s.log_effected ops rfl]

/-! ## The stores of descriptors (20 R74, 41 R160, R163) -/

theorem writes_of_mem_descOps {table d addr len flags next : Nat} {o : BusOp}
    (ho : o ∈ descOps table d addr len flags next) {c : Nat} (hc : o.Writes c) :
    table + 16 * d ≤ c ∧ c < table + 16 * d + 16 := by
  simp only [descOps, List.mem_cons, List.not_mem_nil, or_false] at ho
  rcases ho with rfl | rfl | rfl | rfl <;> simp only [BusOp.Writes] at hc <;> omega

theorem descOps_apart (table d addr len flags next : Nat) : WritesApart (descOps table d addr len flags next) := by
  simp only [WritesApart, descOps, List.pairwise_cons, List.mem_cons, List.not_mem_nil, or_false, forall_eq_or_imp,
    forall_eq, BusOp.Writes]
  refine ⟨⟨?_, ?_, ?_⟩, ⟨?_, ?_⟩, ?_, by simp⟩ <;> intro c <;> omega

/-- The four stores of a descriptor with nobody interfering. -/
theorem writeDesc_settled {s : State} (hgaps : s.gaps = []) {table i : Nat}
    (hlive : ∀ c, table + 16 * i ≤ c → c < table + 16 * i + 16 → poolKind s.pool c ≠ .dead) (addr len : Nat)
    (fl : BitVec 16) (next : Nat) : writeDesc cmdCtx table i addr len fl next s
      = .ok (s.made (descOps table i addr len fl.toNat next)) := by
  have hlives : ∀ ops a n v, .memWrite a n v ∈ descOps table i addr len fl.toNat next →
      (s.made ops).LiveFor [.memWrite a n v] := fun ops a n v ho o ho' c hc => by
    rw [List.mem_singleton.1 ho'] at hc
    exact hlive c (writes_of_mem_descOps ho hc).1 (writes_of_mem_descOps ho hc).2
  have h0 := memWrite_settled (s := s.made []) hgaps addr (hlives _ (table + 16 * i) 8 addr (by simp [descOps]))
  have h1 := memWrite_settled (s := s.made [.memWrite (table + 16 * i) 8 addr]) hgaps len
    (hlives _ (table + 16 * i + 8) 4 len (by simp [descOps]))
  have h2 := memWrite_settled (s := s.made [.memWrite (table + 16 * i) 8 addr, .memWrite (table + 16 * i + 8) 4 len])
    hgaps fl.toNat (hlives _ (table + 16 * i + 12) 2 fl.toNat (by simp [descOps]))
  have h3 := memWrite_settled (s := s.made [.memWrite (table + 16 * i) 8 addr, .memWrite (table + 16 * i + 8) 4 len,
    .memWrite (table + 16 * i + 12) 2 fl.toNat]) hgaps next
    (hlives _ (table + 16 * i + 14) 2 next (by simp [descOps]))
  simp only [State.made_made, State.made_nil, List.cons_append, List.nil_append] at h0 h1 h2 h3
  simp only [writeDesc, descAddr, h0, h1, h2, h3, ok_bind, descOps]

/-- The stores of the first descriptor of a chain: it is chained to the second one, when there is one. -/
def firstOps (s : State) (g : Seg) (rest : List Seg) (table : Nat) (place : Nat → Nat) : List BusOp :=
  descOps table (place 0) (s.slot (segHandle g).toNat).bus.toNat g.len.toNat
    (segFlags s.cfg (!rest.isEmpty) (segWritable g)).toNat (if rest.isEmpty then 0 else place 1)

theorem chainOps_cons (s : State) (g : Seg) (rest : List Seg) (table : Nat) (place : Nat → Nat) :
    chainOps s (g :: rest) table place
      = firstOps s g rest table place ++ chainOps s rest table (fun k => place (k + 1)) := by
  unfold chainOps firstOps
  rw [List.length_cons, List.range_succ_eq_map, List.flatMap_cons, List.flatMap_map]
  congr 1
  · cases rest <;> simp [segHandle_eq, segWritable_eq, segFlags]
  · simp

theorem chainOps_congr {s t : State} {segs : List Seg} (hcfg : t.cfg = s.cfg)
    (hslot : ∀ g ∈ segs, t.slot (segHandle g).toNat = s.slot (segHandle g).toNat) {table : Nat} {place place' : Nat → Nat}
    (hplace : ∀ k, k < segs.length → place' k = place k) : chainOps t segs table place' = chainOps s segs table place := by
  unfold chainOps
  rw [hcfg]
  refine List.flatMap_congr fun k hk => ?_
  have hlt := List.mem_range.1 hk
  dsimp only
  rw [hplace k hlt, segHandle_eq, hslot _ (by simp [List.getD, hlt])]
  split
  · rw [hplace (k + 1) ‹_›]
  · rfl

theorem zip_next {segs : List Seg} {ds : List DescIdx} (hlen : segs.length = ds.length) (d : DescIdx) :
    (segs.zip ds).isEmpty = segs.isEmpty ∧ ((segs.zip ds).head?.map (fun p => p.2.toNat)).getD 0
      = if segs.isEmpty then 0 else ((d :: ds).getD 1 0).toNat := by
  cases segs with
  | nil => exact ⟨rfl, rfl⟩
  | cons g rest =>
    obtain ⟨e, ds, rfl⟩ := List.exists_cons_of_length_eq_add_one hlen.symm
    exact ⟨rfl, rfl⟩

/-- The descriptors of a direct submission (41 R160). -/
theorem submitDirect_settled {q : Role} {x : Queue} {head : DescIdx} {segs : List Seg} {ds : List DescIdx} {s : State}
    (hgaps : s.gaps = []) (hlen : segs.length = ds.length)
    (hlive : ∀ d ∈ ds, ∀ c, x.base.toNat + 16 * d.toNat ≤ c → c < x.base.toNat + 16 * d.toNat + 16 →
      poolKind s.pool c ≠ .dead) :
    submitDirect cmdCtx q head (segs.zip ds) (s.setQueue q x)
      = .ok ((s.setQueue q (x.setTags (.submitted head) ds)).made
        (chainOps s segs x.base.toNat (fun k => (ds.getD k 0).toNat))) := by
  induction segs generalizing ds s x with
  | nil =>
    obtain rfl := List.length_eq_zero_iff.1 hlen.symm
    simp [submitDirect, chainOps, Queue.setTags]
  | cons g rest ih =>
    obtain ⟨d, ds, rfl⟩ := List.exists_cons_of_length_eq_add_one hlen.symm
    have hrest : rest.length = ds.length := by simpa using hlen
    obtain ⟨hempty, hnext⟩ := zip_next hrest d
    obtain ⟨hd, hds⟩ := List.forall_mem_cons.1 hlive
    have hwrite := writeDesc_settled (s := s.setQueue q x) hgaps hd (s.slot (segHandle g).toNat).bus.toNat g.len.toNat
      (segFlags s.cfg (!rest.isEmpty) (segWritable g)) (if rest.isEmpty then 0 else ((d :: ds).getD 1 0).toNat)
    have hstep := ih (ds := ds) (x := x.setTag d (.submitted head))
      (s := s.made (firstOps s g rest x.base.toNat fun k => ((d :: ds).getD k 0).toNat)) hgaps hrest hds
    rw [List.zip_cons_cons, submitDirect, hempty, hnext, State.queue_setQueue_self]
    rw [State.slot_setQueue, State.setQueue_cfg, hwrite, ok_bind, chainOps_cons, ← State.made_made]
    rw [State.queue_made, State.queue_setQueue_self, State.setQueue_made, State.setQueue_setQueue]
    refine hstep.trans ?_
    exact congrArg (fun ops => Except.ok (State.made _ ops)) (chainOps_congr rfl (fun _ _ => rfl) fun _ _ => rfl)

/-- The entries of an indirect table (41 R163). -/
theorem writeTable_settled {table : Nat} {segs : List Seg} {i : Nat} {s : State} (hgaps : s.gaps = [])
    (hlive : ∀ c, table + 16 * i ≤ c → c < table + 16 * (i + segs.length) → poolKind s.pool c ≠ .dead) :
    writeTable cmdCtx table i segs s = .ok (s.made (chainOps s segs table (fun k => i + k))) := by
  induction segs generalizing i s with
  | nil => simp [writeTable, chainOps]
  | cons g rest ih =>
    rw [List.length_cons] at hlive
    have hwrite := writeDesc_settled hgaps (table := table) (i := i) (fun c hlo hhi => hlive c hlo (by omega))
      (s.slot (segHandle g).toNat).bus.toNat g.len.toNat (segFlags s.cfg (!rest.isEmpty) (segWritable g))
      (if rest.isEmpty then 0 else i + 1)
    have hstep := ih (i := i + 1) (s := s.made (firstOps s g rest table fun k => i + k)) hgaps
      (fun c hlo hhi => hlive c (by omega) (by omega))
    rw [writeTable, hwrite, ok_bind, chainOps_cons, ← State.made_made]
    refine hstep.trans (congrArg (fun ops => Except.ok (State.made _ ops)) (chainOps_congr rfl (fun _ _ => rfl) fun k _ => ?_))
    omega

/-- The indirect block (41 R163). -/
theorem submitIndirect_settled {q : Role} {x : Queue} {head : DescIdx} {h : Nat} {segs : List Seg} {s : State}
    (hgaps : s.gaps = [])
    (htable : ∀ c, (s.slot h).bus.toNat ≤ c → c < (s.slot h).bus.toNat + 16 * segs.length → poolKind s.pool c ≠ .dead)
    (hhead : ∀ c, x.base.toNat + 16 * head.toNat ≤ c → c < x.base.toNat + 16 * head.toNat + 16 →
      poolKind s.pool c ≠ .dead) :
    submitIndirect cmdCtx q head h segs (s.setQueue q x)
      = .ok (((setLoan h (some { q := q, head := head }) s).setQueue q (x.setTags (.submitted head) [head])).made
        (chainOps s segs (s.slot h).bus.toNat (fun k => k)
          ++ descOps x.base.toNat head.toNat (s.slot h).bus.toNat (16 * segs.length) s.cfg.dfIndirect.toNat 0)) := by
  have hentries := writeTable_settled (s := s.setQueue q x) (i := 0) (segs := segs) hgaps
    (fun c hlo hhi => htable c (by omega) (by omega))
  simp only [Nat.zero_add] at hentries
  have hwrite := writeDesc_settled (s := (s.setQueue q x).made (chainOps s segs (s.slot h).bus.toNat fun k => k)) hgaps
    hhead (s.slot h).bus.toNat (16 * segs.length) s.cfg.dfIndirect 0
  rw [State.made_made] at hwrite
  unfold submitIndirect
  rw [State.slot_setQueue, hentries, ok_bind, State.queue_made, State.queue_setQueue_self]
  refine (congrArg (· >>= _) hwrite).trans ?_
  rw [ok_bind, State.queue_made, State.queue_setQueue_self, State.setQueue_made, State.setQueue_setQueue]
  rfl

/-! ## Publication with nobody interfering (41 R162) -/

/-- The accesses of a publication that reads the hint `hint` (41 R162). -/
def publishOps (c : Config) (q : Role) (x : Queue) (head : DescIdx) (hint : Nat) : List BusOp :=
  [.memWrite (availElemAddr x.base.toNat x.n.toNat (x.availIdx.toNat % x.n.toNat)) 2 head.toNat, .fence,
    .memWrite (availIdxAddr x.base.toNat x.n.toNat) 2 (x.availIdx + 1).toNat, .fence,
    .memRead (usedFlagsAddr x.base.toNat x.n.toNat) 2 hint]
  ++ (if BitVec.ofNat 16 hint &&& c.ufNoNotify = 0 then [.regWrite .w0 c.offQueueNotify [BitVec.ofNat 8 q.num, 0]] else [])

/-- The notify changes nothing at once: DEV answers it in a turn of its own (45 R254). -/
theorem notify_effected {s : State} (hwf : s.cfg.wf = true) (hgaps : s.gaps = []) (hwbuf : s.wbuf = []) (q : Role)
    (ops : List BusOp) : regWrite cmdCtx .w0 s.cfg.offQueueNotify 2 q.num (s.effected ops)
      = .ok (s.effected (ops ++ [.regWrite .w0 s.cfg.offQueueNotify [BitVec.ofNat 8 q.num, 0]])) := by
  have hbytes : busBytes .little 2 q.num = [BitVec.ofNat 8 q.num, 0] := by cases q <;> rfl
  rw [regWrite_of_gap (cmdGap_nil (by exact hgaps)), cmdCtx_drainStores, State.settle_of_nil _ (by exact hwbuf)]
  have hwrite := State.windowWrite_register (s := s.effected ops) hwf (r := .queueNotify)
    (bytes := [BitVec.ofNat 8 q.num, 0]) rfl
  rw [show busBytes (State.winEndian _ .w0) 2 q.num = [BitVec.ofNat 8 q.num, 0] from hbytes]
  exact congrArg Except.ok ((congrArg (State.log · .cmd _) hwrite).trans (State.log_effected s ops rfl))

theorem publish_settled {s : State} {q : Role} {head : DescIdx} {ops : List BusOp} {hint : Nat} (hwf : s.cfg.wf = true)
    (hgaps : s.gaps = []) (hwbuf : s.wbuf = []) (hlive : s.LiveFor (publishOps s.cfg q (s.queue q) head hint))
    (hhint : (s.withStores (ops ++ (publishOps s.cfg q (s.queue q) head hint).take 4)).readLe
      (usedFlagsAddr (s.queue q).base.toNat (s.queue q).n.toNat) 2 = some hint) :
    publish cmdCtx q head (s.made ops)
      = .ok ((s.setQueue q { s.queue q with availIdx := (s.queue q).availIdx + 1 }).effected
        (ops ++ publishOps s.cfg q (s.queue q) head hint)) := by
  have hwrites : ∀ (t : State), t.pool = s.pool → ∀ a n v, .memWrite a n v ∈ publishOps s.cfg q (s.queue q) head hint →
      t.LiveFor [.memWrite a n v] := fun t hpool a n v ho o ho' c hc => by
    rw [List.mem_singleton.1 ho'] at hc
    rw [hpool]
    exact hlive _ ho c hc
  unfold publish
  simp only [State.queue_made]
  unfold publishOps at hwrites hhint ⊢
  generalize availElemAddr _ _ _ = elem at hwrites hhint ⊢
  generalize availIdxAddr _ _ = idx at hwrites hhint ⊢
  generalize usedFlagsAddr _ _ = flags at hhint ⊢
  have helem := memWrite_settled (s := s.made ops) hgaps head.toNat (hwrites _ rfl elem 2 head.toNat (by simp))
  have hfence1 := fence_made hgaps hwbuf [] (ops ++ [.memWrite elem 2 head.toNat])
  have hidx := memWrite_settled (s := (s.setQueue q { s.queue q with availIdx := (s.queue q).availIdx + 1 }).effected
    (ops ++ [.memWrite elem 2 head.toNat, .fence])) hgaps ((s.queue q).availIdx + 1).toNat
    (hwrites _ rfl idx 2 _ (by simp))
  have hfence2 := fence_made (s := s.setQueue q { s.queue q with availIdx := (s.queue q).availIdx + 1 }) hgaps hwbuf
    (ops ++ [.memWrite elem 2 head.toNat, .fence]) [.memWrite idx 2 ((s.queue q).availIdx + 1).toNat]
  have hread := memRead_effected (s := s.setQueue q { s.queue q with availIdx := (s.queue q).availIdx + 1 }) hgaps hwbuf
    (ops := ops ++ [.memWrite elem 2 head.toNat, .fence, .memWrite idx 2 ((s.queue q).availIdx + 1).toNat, .fence])
    (a := flags) (n := 2) (v := hint) (by simpa [List.take] using hhint)
  have hnotify := notify_effected (s := s.setQueue q { s.queue q with availIdx := (s.queue q).availIdx + 1 }) hwf hgaps
    hwbuf q (ops ++ [.memWrite elem 2 head.toNat, .fence, .memWrite idx 2 ((s.queue q).availIdx + 1).toNat, .fence,
      .memRead flags 2 hint])
  simp only [State.effected_nil, State.made_made, List.nil_append, List.append_assoc, List.cons_append] at helem hfence1 hidx hfence2 hread hnotify
  simp only [helem, ok_bind, hfence1]
  simp only [State.queue_effected, State.effected_setQueue, State.queue_setQueue_self, hidx, ok_bind, hfence2, hread]
  by_cases hz : BitVec.ofNat 16 hint &&& s.cfg.ufNoNotify = 0
  · have hclear : ¬ noNotifyHint s.cfg hint = true := by simpa [noNotifyHint] using hz
    rw [if_pos hz]
    exact (if_neg hclear).trans hnotify
  · have hset : noNotifyHint s.cfg hint = true := by simpa [noNotifyHint] using hz
    rw [if_neg hz, List.append_nil]
    exact if_pos hset

end Sys2Proof.Machine

namespace Sys2Proof.Machine

open Sys2Proof.Claims

/-! ## Loans of a submission (10 R33, 41 R160) -/

theorem setLoans_setQueue (l : Option Loan) (hs : List Handle) (s : State) (q : Role) (x : Queue) :
    setLoans l hs (s.setQueue q x) = (setLoans l hs s).setQueue q x := by
  induction hs generalizing s with
  | nil => rfl
  | cons h rest ih => exact ih (setLoan h.toNat l s)

theorem setLoans_made (l : Option Loan) (hs : List Handle) (s : State) (ops : List BusOp) :
    setLoans l hs (s.made ops) = (setLoans l hs s).made ops := by
  induction hs generalizing s with
  | nil => rfl
  | cons h rest ih => exact ih (setLoan h.toNat l s)

theorem setLoan_cfg (h : Nat) (l : Option Loan) (s : State) : (setLoan h l s).cfg = s.cfg := rfl

theorem slot_setLoan {s : State} {h : Nat} (hlt : h < s.pool.length) (l : Option Loan) (k : Nat) :
    (setLoan h l s).slot k = if k = h then { s.slot k with loan := l } else s.slot k := by
  split
  · rename_i hk
    subst hk
    exact State.slot_setSlot_self s _ hlt
  · rename_i hk
    exact State.slot_setSlot_ne s _ hk

theorem slot_setLoans {hs : List Handle} {s : State} (hlt : ∀ h ∈ hs, h.toNat < s.pool.length) (l : Option Loan)
    (k : Nat) : (setLoans l hs s).slot k
      = if ∃ h ∈ hs, h.toNat = k then { s.slot k with loan := l } else s.slot k := by
  induction hs generalizing s with
  | nil => simp [setLoans]
  | cons h rest ih =>
    obtain ⟨hh, hrest⟩ := List.forall_mem_cons.1 hlt
    rw [setLoans, ih (by simpa [setLoan, State.setSlot] using hrest), slot_setLoan hh]
    by_cases hk : k = h.toNat
    · subst hk
      simp
    · simp [hk, Ne.symm hk]

/-- A loan changes no byte. -/
theorem poolKind_setLoan (h : Nat) (l : Option Loan) (s : State) (a : Nat) :
    poolKind (setLoan h l s).pool a = poolKind s.pool a :=
  poolKind_set_same _ _ _ _ rfl rfl

theorem poolKind_setLoans (l : Option Loan) (hs : List Handle) (s : State) (a : Nat) :
    poolKind (setLoans l hs s).pool a = poolKind s.pool a := by
  induction hs generalizing s with
  | nil => rfl
  | cons h rest ih => exact (ih (setLoan h.toNat l s)).trans (poolKind_setLoan h.toNat l s a)

/-! ## What a submission leaves of its queue (41 R160, R162; 10 R25, R29, R30) -/

/-- A queue whose head descriptor's record says this. -/
def Queue.withHead (x : Queue) (head : DescIdx) (n : Nat) (cookie : Handle) (ind : Option Handle) : Queue :=
  { x with
    desc := x.desc.set head.toNat { x.descAt head with chainLen := BitVec.ofNat 16 n, cookie := cookie, ind := ind } }

/-- A queue with one more chain, of the descriptors `ds`. -/
def Queue.submitted (x : Queue) (head : DescIdx) (ds : List DescIdx) (cookie : Handle) (ind : Option Handle) : Queue :=
  { (x.setTags (.submitted head) ds).withHead head ds.length cookie ind with
    free := x.free.drop ds.length, availIdx := x.availIdx + 1 }

theorem Queue.setTags_eq (x : Queue) (t : Tag) (ds : List DescIdx) :
    x.setTags t ds = { x with desc := (x.setTags t ds).desc } := by
  induction ds generalizing x with
  | nil => rfl
  | cons d rest ih => exact ih (x.setTag d t)

theorem Queue.setTags_desc_congr {x y : Queue} (h : y.desc = x.desc) (t : Tag) (ds : List DescIdx) :
    (y.setTags t ds).desc = (x.setTags t ds).desc := by
  induction ds generalizing x y with
  | nil => exact h
  | cons d rest ih => exact ih (by simp [Queue.setTag, Queue.descAt, h])

/-- Tags change nothing else of a descriptor's record. -/
theorem Queue.descAt_setTags (x : Queue) (t : Tag) (ds : List DescIdx) (d : DescIdx) :
    (x.setTags t ds).descAt d = { x.descAt d with tag := (x.setTags t ds).tagAt d } := by
  induction ds generalizing x with
  | nil => rfl
  | cons i rest ih =>
    refine (ih (x.setTag i t)).trans ?_
    rw [Queue.descAt_setTag]
    split
    · rename_i h
      rw [h.1]
      rfl
    · rfl

theorem Queue.descAt_setTags_of_not_mem (x : Queue) (t : Tag) {ds : List DescIdx} {d : DescIdx} (h : d ∉ ds) :
    (x.setTags t ds).descAt d = x.descAt d := by
  rw [Queue.descAt_setTags, Queue.tagAt_setTags_of_not_mem x t h]
  rfl

theorem Queue.descAt_withHead {x : Queue} {head : DescIdx} {n : Nat} {cookie : Handle} {ind : Option Handle}
    (hlt : head.toNat < x.desc.length) (d : DescIdx) : (x.withHead head n cookie ind).descAt d
      = if d = head then { x.descAt d with chainLen := BitVec.ofNat 16 n, cookie := cookie, ind := ind }
        else x.descAt d := by
  split
  · rename_i hd
    subst hd
    simp [Queue.withHead, Queue.descAt, List.getD, hlt]
  · rename_i hd
    have hne : head.toNat ≠ d.toNat := fun h => hd (BitVec.eq_of_toNat_eq h.symm)
    simp [Queue.withHead, Queue.descAt, List.getD, hne]

section
variable {x : Queue} {head : DescIdx} {ds : List DescIdx} {cookie : Handle} {ind : Option Handle}

theorem Queue.submitted_eq : (x.submitted head ds cookie ind)
    = { x with free := x.free.drop ds.length, availIdx := x.availIdx + 1, desc := (x.submitted head ds cookie ind).desc } := by
  unfold Queue.submitted Queue.withHead
  rw [Queue.setTags_eq]

variable (hin : ∀ d ∈ ds, d.toNat < x.desc.length) (hhead : head ∈ ds)
include hin hhead

theorem Queue.submitted_descAt (d : DescIdx) : (x.submitted head ds cookie ind).descAt d
    = if d = head then { (x.setTags (.submitted head) ds).descAt d with
        chainLen := BitVec.ofNat 16 ds.length, cookie := cookie, ind := ind }
      else (x.setTags (.submitted head) ds).descAt d :=
  Queue.descAt_withHead (by rw [((Queue.setTags_sameShape x _ ds)).entries]; exact hin head hhead) d

theorem Queue.submitted_tagAt {d : DescIdx} (hd : d ∈ ds) : (x.submitted head ds cookie ind).tagAt d = .submitted head := by
  have htag : (x.setTags (.submitted head) ds).tagAt d = .submitted head := Queue.tagAt_setTags_of_mem x _ hd (hin d hd)
  rw [Queue.tagAt, Queue.submitted_descAt hin hhead]
  split <;> exact htag

theorem Queue.submitted_descAt_of_not_mem {d : DescIdx} (hd : d ∉ ds) :
    (x.submitted head ds cookie ind).descAt d = x.descAt d := by
  rw [Queue.submitted_descAt hin hhead, if_neg (ne_of_mem_of_not_mem hhead hd).symm, Queue.descAt_setTags_of_not_mem x _ hd]

end

/-! ## The whole of a submission with nobody interfering (41 R160 to R163) -/

theorem recordHead_made (q : Role) (head : DescIdx) (n : Nat) (cookie : Handle) (ind : Option Handle) (s : State)
    (ops : List BusOp) : recordHead q head n cookie ind (s.made ops)
      = (s.setQueue q ((s.queue q).withHead head n cookie ind)).made ops := rfl

/-- The end of a submission: loans, the head's record, publication, the lock given back. -/
theorem submitTail_settled {s : State} {q : Role} {x : Queue} {head : DescIdx} {segs : List Seg} {n : Nat}
    {ind : Option Handle} {ops : List BusOp} {hint : Nat} (hwf : s.cfg.wf = true) (hgaps : s.gaps = [])
    (hwbuf : s.wbuf = []) (hlive : s.LiveFor (publishOps s.cfg q x head hint))
    (hhint : ((setLoans (some { q := q, head := head }) (segs.map segHandle) s).withStores
      (ops ++ (publishOps s.cfg q x head hint).take 4)).readLe (usedFlagsAddr x.base.toNat x.n.toNat) 2 = some hint) :
    submitTail cmdCtx q head n ind segs ((s.setQueue q x).made ops)
      = .ok (((((setLoans (some { q := q, head := head }) (segs.map segHandle) s).setQueue q
          { x.withHead head n ((segs.map segHandle).headD 0) ind with availIdx := x.availIdx + 1, lock := none }).effected
        (ops ++ publishOps s.cfg q x head hint))).respond .ok []) := by
  unfold submitTail
  dsimp only
  rw [setLoans_made, setLoans_setQueue, recordHead_made]
  have hloans := setLoans_eq (some { q := q, head := head }) (segs.map segHandle) s
  have hkind := poolKind_setLoans (some { q := q, head := head }) (segs.map segHandle) s
  generalize setLoans _ _ s = u at hloans hhint hkind ⊢
  rw [State.queue_setQueue_self, State.setQueue_setQueue]
  have hcfg : u.cfg = s.cfg := by rw [hloans]
  generalize (segs.map segHandle).headD 0 = cookie
  have hpublish := publish_settled (s := u.setQueue q (x.withHead head n cookie ind)) (q := q) (head := head) (ops := ops)
    (hint := hint) (by rw [State.setQueue_cfg, hcfg]; exact hwf) (by rw [hloans]; exact hgaps)
    (by rw [hloans]; exact hwbuf) ?_ ?_
  · rw [hpublish, ok_bind, unlock, State.effected_setQueue, State.queue_effected, State.queue_setQueue_self,
      State.queue_setQueue_self, State.setQueue_setQueue, State.setQueue_setQueue, State.setQueue_cfg, hcfg]
    rfl
  · rw [State.setQueue_cfg, hcfg, State.queue_setQueue_self]
    exact fun o ho c hc => by
      rw [State.setQueue_pool, hkind]
      exact hlive o ho c hc
  · rw [State.setQueue_cfg, hcfg, State.queue_setQueue_self, State.readLe_withStores_setQueue]
    exact hhint

/-! ### Where a submission stores -/

theorem State.InSlot.live_at {s : State} {h a n : Nat} (hs : s.InSlot h a n) {c : Nat} (hlo : a ≤ c) (hhi : c < a + n) :
    poolKind s.pool c ≠ .dead := by
  have := hs.live (k := c - a) (by omega)
  rwa [Nat.add_sub_cancel' hlo] at this

theorem State.RegionLive.live_desc {s : State} {q : Role} (hr : s.RegionLive q) {i : Nat} (hi : i < (s.queue q).n.toNat)
    {c : Nat} (hlo : (s.queue q).base.toNat + 16 * i ≤ c) (hhi : c < (s.queue q).base.toNat + 16 * i + 16) :
    poolKind s.pool c ≠ .dead :=
  (hr.descField (off := 0) (n := 16) hi (by omega)).live_at hlo hhi

theorem writes_of_mem_publishOps {cf : Config} {q : Role} {x : Queue} {head : DescIdx} {hint : Nat} {o : BusOp}
    (ho : o ∈ publishOps cf q x head hint) {c : Nat} (hc : o.Writes c) :
    (availElemAddr x.base.toNat x.n.toNat (x.availIdx.toNat % x.n.toNat) ≤ c
        ∧ c < availElemAddr x.base.toNat x.n.toNat (x.availIdx.toNat % x.n.toNat) + 2)
      ∨ (availIdxAddr x.base.toNat x.n.toNat ≤ c ∧ c < availIdxAddr x.base.toNat x.n.toNat + 2) := by
  rcases List.mem_append.1 ho with ho | ho
  · simp only [List.mem_cons, List.not_mem_nil, or_false] at ho
    rcases ho with rfl | rfl | rfl | rfl | rfl
    case inl => exact .inl hc
    case inr.inr.inl => exact .inr hc
    all_goals cases hc
  · split at ho
    · rw [List.mem_singleton.1 ho] at hc
      cases hc
    · cases ho

theorem State.RegionLive.liveFor_publishOps {s : State} {q : Role} (hr : s.RegionLive q) (cf : Config) (head : DescIdx)
    (hint : Nat) : s.LiveFor (publishOps cf q (s.queue q) head hint) := fun o ho c hc => by
  rcases writes_of_mem_publishOps ho hc with ⟨hlo, hhi⟩ | ⟨hlo, hhi⟩
  · exact (hr.availElem _).live_at hlo hhi
  · exact hr.availIdx.live_at hlo hhi

theorem writes_of_mem_chainOps {s : State} {segs : List Seg} {table : Nat} {place : Nat → Nat} {o : BusOp}
    (ho : o ∈ chainOps s segs table place) {c : Nat} (hc : o.Writes c) :
    ∃ k, k < segs.length ∧ table + 16 * place k ≤ c ∧ c < table + 16 * place k + 16 := by
  obtain ⟨k, hk, ho⟩ := List.mem_flatMap.1 ho
  exact ⟨k, List.mem_range.1 hk, writes_of_mem_descOps ho hc⟩

theorem WritesApart.append {l l' : List BusOp} (h : WritesApart l) (h' : WritesApart l')
    (hcross : ∀ c, ∀ o ∈ l, o.Writes c → ∀ p ∈ l', ¬ p.Writes c) : WritesApart (l ++ l') :=
  List.pairwise_append.2 ⟨h, h', fun o ho p hp c hc => hcross c o ho hc p hp⟩

theorem chainOps_apart (s : State) (segs : List Seg) (table : Nat) {place : Nat → Nat}
    (hinj : ∀ i j, i < j → j < segs.length → place i ≠ place j) : WritesApart (chainOps s segs table place) := by
  refine List.pairwise_flatMap.2 ⟨fun k _ => descOps_apart .., List.pairwise_lt_range.imp_of_mem fun {i j} hi hj hij o ho p hp c hc hc' => ?_⟩
  have hne := hinj i j hij (List.mem_range.1 hj)
  have hi := writes_of_mem_descOps ho hc
  have hj := writes_of_mem_descOps hp hc'
  omega

theorem publishOps_apart (cf : Config) (q : Role) (x : Queue) (head : DescIdx) (hint : Nat) :
    WritesApart (publishOps cf q x head hint) := by
  refine WritesApart.append ?_ ?_ fun c _ _ _ p hp hc => ?_
  · simp only [WritesApart, List.pairwise_cons, List.mem_cons, List.not_mem_nil, or_false, forall_eq_or_imp, forall_eq,
      BusOp.Writes, availElemAddr, availIdxAddr]
    simp
    intro c
    omega
  · split <;> simp [WritesApart]
  · split at hp
    · rw [List.mem_singleton.1 hp] at hc
      cases hc
    · cases hp

/-! ### The chain of a submission -/

/-- What a submission to `q` leaves, `r` being `s` with the slot of its table (41 R160, R163): the slots are lent, the
queue has one more chain, the accesses have been made. -/
def State.submitted (s r : State) (q : Role) (segs : List Seg) (b : Addr) (head : DescIdx) (ds : List DescIdx)
    (ind : Option Handle) (hint : Nat) : State :=
  (((setLoans (some { q := q, head := head }) (segs.map segHandle) r).setQueue q
    ((s.queue q).submitted head ds ((segs.map segHandle).headD 0) ind)).effected
      (submitOps s q segs b head ++ publishOps s.cfg q (s.queue q) head hint)).respond .ok []

/-- The queue of a submission, before and after its lock is given back. -/
theorem Queue.submitted_of_locked {x z : Queue} {l : Option Agent} {head : DescIdx} {ds : List DescIdx}
    {n : Nat} (hlock : x.lock = none) (hn : ds.length = n)
    (hz : z = ({ x with lock := l, free := x.free.drop n } : Queue).setTags (.submitted head) ds) (cookie : Handle)
    (ind : Option Handle) :
    { z.withHead head n cookie ind with availIdx := z.availIdx + 1, lock := none }
      = x.submitted head ds cookie ind := by
  have hdesc := Queue.setTags_desc_congr (x := x) (y := { x with lock := l, free := x.free.drop ds.length }) rfl
    (.submitted head) ds
  subst hn
  rw [hz]
  unfold Queue.submitted Queue.withHead Queue.descAt
  rw [hdesc, Queue.setTags_eq, Queue.setTags_eq x]
  simp [hlock]

/-- Slot `h` has been reserved at `b` for the indirect table of these segments: that leaves `u` of `s` (41 R163, 42 R185). -/
structure State.TableReserved (s u : State) (segs : List Seg) (h : Nat) (b : Addr) : Prop where
  rest : u = { s with pool := u.pool, platAllocs := u.platAllocs, draws := u.draws }
  pool : ∃ f, u.pool = s.pool.set h (Slot.granted b (16 * segs.length) f)
  reserve : ∀ q y, poolReserveInternal (16 * segs.length) (s.setQueue q y) = (some h, u.setQueue q y)
  free : h < s.pool.length ∧ (s.slot h).alloc = false
  len : segs.length ≤ 32768
  alloc : ∀ g ∈ segs, (s.slot (segHandle g).toNat).alloc = true

section
variable {s u : State} {segs : List Seg} {h : Nat} {b : Addr} (ht : s.TableReserved u segs h b)
include ht

theorem State.TableReserved.cfg : u.cfg = s.cfg := by rw [ht.rest]
theorem State.TableReserved.queue (q : Role) : u.queue q = s.queue q := by rw [ht.rest]; rfl

theorem State.TableReserved.ne_of_alloc {k : Nat} (hk : (s.slot k).alloc = true) : k ≠ h := fun heq => by
  rw [heq, ht.free.2] at hk
  cases hk

theorem State.TableReserved.other {k : Nat} (hk : k ≠ h) : u.slot k = s.slot k := by
  obtain ⟨f, hpool⟩ := ht.pool
  exact State.slot_of_pool_set_ne hpool hk

theorem State.TableReserved.slot : ∃ f, u.slot h = Slot.granted b (16 * segs.length) f := by
  obtain ⟨f, hpool⟩ := ht.pool
  refine ⟨f, ?_⟩
  rw [State.slot, hpool]
  simp [List.getD, ht.free.1]

theorem State.TableReserved.bus : (u.slot h).bus = b := by
  obtain ⟨f, hf⟩ := ht.slot
  rw [hf]
  rfl

theorem State.TableReserved.inSlot : u.InSlot h b.toNat (16 * segs.length) := by
  obtain ⟨f, hf⟩ := ht.slot
  have := ht.len
  refine ⟨by rw [hf]; rfl, by rw [hf]; exact Nat.le_refl _, ?_⟩
  rw [hf, Slot.granted_len (by omega)]
  exact Nat.le_refl _

end

theorem State.indirectChain_setQueue (s : State) (q : Role) (x : Queue) (count : Nat) :
    (s.setQueue q x).indirectChain count = goesIndirect s count := rfl

theorem State.need_setQueue (s : State) (q : Role) (x : Queue) (count : Nat) :
    (s.setQueue q x).need count = descsNeeded s count := rfl

theorem publishOps_setTags (cf : Config) (q : Role) (x : Queue) (t : Tag) (ds : List DescIdx) (head : DescIdx)
    (hint : Nat) : publishOps cf q (x.setTags t ds) head hint = publishOps cf q x head hint := by
  rw [Queue.setTags_eq]
  rfl

section
variable {s : State} {q : Role} {segs : List Seg} (hwf : s.cfg.wf = true) (hgaps : s.gaps = []) (hwbuf : s.wbuf = [])
  (hlock : (s.queue q).lock = none) (hr : s.RegionLive q) (hbound : ∀ d ∈ (s.queue q).free, d.toNat < (s.queue q).n.toNat)
  {head : DescIdx} {hint : Nat}
include hwf hgaps hwbuf hlock hr hbound

theorem submitChain_direct (hdirect : goesIndirect s segs.length = false)
    (hroom : segs.length ≤ (s.queue q).free.length) (hhead : ((s.queue q).free.take segs.length).headD 0 = head)
    (hhint : ((setLoans (some { q := q, head := head }) (segs.map segHandle) s).withStores
      (submitOps s q segs 0 head ++ (publishOps s.cfg q (s.queue q) head hint).take 4)).readLe
        (usedFlagsAddr (s.queue q).base.toNat (s.queue q).n.toNat) 2 = some hint) (l : Option Agent) :
    submitChain cmdCtx q segs (s.setQueue q { s.queue q with lock := l })
      = .ok (s.submitted s q segs 0 head ((s.queue q).free.take segs.length) none hint) := by
  have hlen : segs.length = ((s.queue q).free.take segs.length).length := by simpa using hroom
  have hops : submitOps s q segs 0 head = chainOps s segs (s.queue q).base.toNat
      (fun k => (((s.queue q).free.take segs.length).getD k 0).toNat) := by
    rw [submitOps, hdirect]
    refine chainOps_congr rfl (fun _ _ => rfl) fun k hk => ?_
    simp [List.getD, hk]
  have hchain := submitDirect_settled (q := q) (head := head) (s := s)
    (x := { s.queue q with lock := l, free := (s.queue q).free.drop segs.length }) hgaps hlen fun d hd c hlo hhi =>
      hr.live_desc (hbound d (List.mem_of_mem_take hd)) hlo hhi
  rw [← hops] at hchain
  obtain ⟨z, hz⟩ : ∃ z, z = ({ s.queue q with lock := l, free := (s.queue q).free.drop segs.length } : Queue).setTags
    (.submitted head) ((s.queue q).free.take segs.length) := ⟨_, rfl⟩
  have hpub : publishOps s.cfg q z head hint = publishOps s.cfg q (s.queue q) head hint := by
    rw [hz, publishOps_setTags]
    rfl
  have htail := submitTail_settled (s := s) (q := q) (segs := segs) (n := segs.length) (ind := none) (head := head)
    (ops := submitOps s q segs 0 head) (hint := hint) (x := z) hwf hgaps hwbuf
    (by rw [hpub]; exact hr.liveFor_publishOps s.cfg head hint) (by rw [hpub, hz, Queue.setTags_eq]; exact hhint)
  have hqueue := Queue.submitted_of_locked hlock hlen.symm hz ((segs.map segHandle).headD 0) none
  rw [← hz] at hchain
  unfold submitChain
  simp only [State.need_setQueue, State.indirectChain_setQueue, descsNeeded, hdirect, State.queue_setQueue_self,
    State.setQueue_setQueue, hhead, Bool.false_eq_true, if_false, hchain, ok_bind, htail, hpub, hqueue]
  rfl

theorem submitChain_indirect {u : State} {h : Nat} {b : Addr} (hind : goesIndirect s segs.length = true)
    (hhead : (s.queue q).free.head? = some head) (ht : s.TableReserved u segs h b)
    (hhint : ((setLoans (some { q := q, head := head }) (segs.map segHandle)
        (setLoan h (some { q := q, head := head }) u)).withStores
      (submitOps s q segs b head ++ (publishOps s.cfg q (s.queue q) head hint).take 4)).readLe
        (usedFlagsAddr (s.queue q).base.toNat (s.queue q).n.toNat) 2 = some hint) (l : Option Agent) :
    submitChain cmdCtx q segs (s.setQueue q { s.queue q with lock := l })
      = .ok (s.submitted (setLoan h (some { q := q, head := head }) u) q segs b head [head] (some (BitVec.ofNat 16 h))
          hint) := by
  obtain ⟨fs, hfs⟩ := List.head?_eq_some_iff.1 hhead
  have hru : u.RegionLive q := hr.congr (ht.queue q) (ht.other (ht.ne_of_alloc hr.alloc))
  have hdesc : ∀ c, (s.queue q).base.toNat + 16 * head.toNat ≤ c → c < (s.queue q).base.toNat + 16 * head.toNat + 16 →
      poolKind u.pool c ≠ .dead := fun c hlo hhi => by
    rw [← ht.queue] at hlo hhi
    exact hru.live_desc (by rw [ht.queue]; exact hbound head (by rw [hfs]; exact List.mem_cons_self ..)) hlo hhi
  have hchain := submitIndirect_settled (q := q) (head := head) (h := h) (segs := segs) (s := u)
    (x := { s.queue q with lock := l, free := (s.queue q).free.drop 1 }) (by rw [ht.rest]; exact hgaps)
    (fun c hlo hhi => by
      rw [ht.bus] at hlo hhi
      exact ht.inSlot.live_at hlo hhi) hdesc
  have hops : submitOps s q segs b head = chainOps u segs (u.slot h).bus.toNat (fun k => k)
      ++ descOps (s.queue q).base.toNat head.toNat (u.slot h).bus.toNat (16 * segs.length) u.cfg.dfIndirect.toNat 0 := by
    rw [submitOps, if_pos hind, ht.bus, ht.cfg, chainOps_congr ht.cfg (fun g hg => ht.other (ht.ne_of_alloc (ht.alloc g hg)))
      fun _ _ => rfl]
  have hlive : (setLoan h (some { q := q, head := head }) u).LiveFor (publishOps s.cfg q (s.queue q) head hint) :=
    fun o ho c hc => by
      rw [poolKind_setLoan]
      exact hru.liveFor_publishOps s.cfg head hint o (by rwa [ht.queue]) c hc
  obtain ⟨z, hz⟩ : ∃ z, z = ({ s.queue q with lock := l, free := (s.queue q).free.drop 1 } : Queue).setTags
    (.submitted head) [head] := ⟨_, rfl⟩
  have hpub : publishOps s.cfg q z head hint = publishOps s.cfg q (s.queue q) head hint := by
    rw [hz, publishOps_setTags]
    rfl
  rw [← hops, ← hz] at hchain
  have htail := submitTail_settled (s := setLoan h (some { q := q, head := head }) u)
    (q := q) (segs := segs) (n := 1) (ind := some (BitVec.ofNat 16 h)) (head := head)
    (ops := submitOps s q segs b head) (hint := hint) (x := z) (by rw [setLoan_cfg, ht.cfg]; exact hwf)
    (by rw [ht.rest]; exact hgaps) (by rw [ht.rest]; exact hwbuf) (by rw [setLoan_cfg, ht.cfg, hpub]; exact hlive)
    (by rw [setLoan_cfg, ht.cfg, hpub, hz, Queue.setTags_eq]; exact hhint)
  have hnext := Queue.submitted_of_locked hlock (show [head].length = 1 from rfl) hz ((segs.map segHandle).headD 0)
    (some (BitVec.ofNat 16 h))
  have hfirst : ((s.queue q).free.take 1).headD 0 = head := by rw [hfs]; rfl
  unfold submitChain
  simp only [State.need_setQueue, State.indirectChain_setQueue, descsNeeded, hind, State.queue_setQueue_self,
    State.setQueue_setQueue, if_true, ht.reserve, hfirst, hchain, ok_bind, htail, setLoan_cfg, ht.cfg, hpub, hnext]
  rfl

end

end Sys2Proof.Machine

namespace Sys2Proof.Machine

open Sys2Proof.Claims

/-! ## Where the stores of a submission lie (20 R73 to R77) -/

theorem State.readLe_of_live {s : State} {a n : Nat} (h : ∀ k, k < n → poolKind s.pool (a + k) ≠ .dead) :
    ∃ v, s.readLe a n = some v := by
  induction n generalizing a with
  | zero => exact ⟨0, rfl⟩
  | succ n ih =>
    obtain ⟨b, hb⟩ := Option.isSome_iff_exists.1 (State.byteAt_isSome (h 0 n.succ_pos))
    obtain ⟨v, hv⟩ := ih (a := a + 1) fun k hk => by
      rw [Nat.add_assoc, Nat.add_comm 1 k]
      exact h (k + 1) (Nat.succ_lt_succ hk)
    exact ⟨b.toNat + 256 * v, by simp only [State.readLe, show s.byteAt a = some b from hb, hv]⟩

theorem State.InSlot.readLe {s : State} {h a n : Nat} (hs : s.InSlot h a n) : ∃ v, s.readLe a n = some v :=
  State.readLe_of_live fun _ hk => hs.live hk

/-- A submission's chain fits its queue: the free-list names enough different descriptors, and an indirect table lies
outside the region. -/
structure State.ChainFits (s : State) (q : Role) (segs : List Seg) (b : Addr) (head : DescIdx) : Prop where
  room : descsNeeded s segs.length ≤ (s.queue q).free.length
  bound : ∀ d ∈ (s.queue q).free, d.toNat < (s.queue q).n.toNat
  nodup : (s.queue q).free.Nodup
  head : (s.queue q).free.head? = some head
  pos : 1 ≤ (s.queue q).n.toNat
  table : goesIndirect s segs.length = true → ∀ c, b.toNat ≤ c → c < b.toNat + 16 * segs.length →
    c < (s.queue q).base.toNat ∨ (s.queue q).base.toNat + regionBytes (s.queue q).n.toNat ≤ c

section
variable {s : State} {q : Role} {segs : List Seg} {b : Addr} {head : DescIdx} (h : s.ChainFits q segs b head)
include h

theorem State.ChainFits.getD_mem {k : Nat} (hk : k < descsNeeded s segs.length) :
    (s.queue q).free.getD k 0 ∈ (s.queue q).free.take (descsNeeded s segs.length) := by
  have hlt : k < (s.queue q).free.length := Nat.lt_of_lt_of_le hk h.room
  rw [List.getD_eq_getElem _ _ hlt]
  exact List.mem_take_iff_getElem.2 ⟨k, by omega, rfl⟩

theorem State.ChainFits.writes_submitOps {o : BusOp} (ho : o ∈ submitOps s q segs b head) {c : Nat} (hc : o.Writes c) :
    (goesIndirect s segs.length = true ∧ b.toNat ≤ c ∧ c < b.toNat + 16 * segs.length)
      ∨ ∃ d ∈ (s.queue q).free.take (descsNeeded s segs.length), (s.queue q).base.toNat + 16 * d.toNat ≤ c
          ∧ c < (s.queue q).base.toNat + 16 * d.toNat + 16 := by
  unfold submitOps at ho
  split at ho
  · rename_i hind
    rcases List.mem_append.1 ho with ho | ho
    · obtain ⟨k, hk, hlo, hhi⟩ := writes_of_mem_chainOps ho hc
      exact .inl ⟨hind, by omega, by omega⟩
    · obtain ⟨fs, hfs⟩ := List.head?_eq_some_iff.1 h.head
      exact .inr ⟨head, by simp [descsNeeded, hind, hfs], writes_of_mem_descOps ho hc⟩
  · rename_i hdirect
    obtain ⟨k, hk, hin⟩ := writes_of_mem_chainOps ho hc
    exact .inr ⟨_, h.getD_mem (by simpa [descsNeeded, hdirect] using hk), hin⟩

theorem State.ChainFits.submitOps_apart : WritesApart (submitOps s q segs b head) := by
  unfold submitOps
  split
  · rename_i hind
    refine WritesApart.append (chainOps_apart s segs _ fun i j hij _ => Nat.ne_of_lt hij) (descOps_apart ..)
      fun c o ho hc p hp hc' => ?_
    obtain ⟨k, hk, hlo, hhi⟩ := writes_of_mem_chainOps ho hc
    obtain ⟨hlo', hhi'⟩ := writes_of_mem_descOps hp hc'
    have hhead := h.bound head (List.mem_of_mem_head? h.head)
    have hregion := usedOff_bounds (s.queue q).n.toNat
    have := h.table hind c (by omega) (by omega)
    omega
  · rename_i hdirect
    have hroom := h.room
    rw [descsNeeded, if_neg hdirect] at hroom
    refine chainOps_apart s segs _ fun i j hij hj heq => Nat.ne_of_lt hij ?_
    have hi' : i < (s.queue q).free.length := by omega
    have hj' : j < (s.queue q).free.length := by omega
    rw [List.getD_eq_getElem _ _ hi', List.getD_eq_getElem _ _ hj'] at heq
    exact (List.Nodup.getElem_inj_iff h.nodup).1 (BitVec.eq_of_toNat_eq heq)

/-- The stores of a submission lie in its descriptors, its indirect table, the available element and index. -/
theorem State.ChainFits.writes {hint : Nat} {o : BusOp}
    (ho : o ∈ submitOps s q segs b head ++ publishOps s.cfg q (s.queue q) head hint) {c : Nat} (hc : o.Writes c) :
    (goesIndirect s segs.length = true ∧ b.toNat ≤ c ∧ c < b.toNat + 16 * segs.length)
      ∨ (∃ d ∈ (s.queue q).free.take (descsNeeded s segs.length), (s.queue q).base.toNat + 16 * d.toNat ≤ c
          ∧ c < (s.queue q).base.toNat + 16 * d.toNat + 16)
      ∨ (availElemAddr (s.queue q).base.toNat (s.queue q).n.toNat ((s.queue q).availIdx.toNat % (s.queue q).n.toNat) ≤ c
        ∧ c < availElemAddr (s.queue q).base.toNat (s.queue q).n.toNat
          ((s.queue q).availIdx.toNat % (s.queue q).n.toNat) + 2)
      ∨ (availIdxAddr (s.queue q).base.toNat (s.queue q).n.toNat ≤ c
        ∧ c < availIdxAddr (s.queue q).base.toNat (s.queue q).n.toNat + 2) := by
  rcases List.mem_append.1 ho with ho | ho
  · exact (h.writes_submitOps ho hc).imp_right .inl
  · exact .inr (.inr (writes_of_mem_publishOps ho hc))

/-- Outside its table a submission stores between the first descriptor and the used ring. -/
theorem State.ChainFits.writes_bounds {hint : Nat} {o : BusOp}
    (ho : o ∈ submitOps s q segs b head ++ publishOps s.cfg q (s.queue q) head hint) {c : Nat} (hc : o.Writes c) :
    (goesIndirect s segs.length = true ∧ b.toNat ≤ c ∧ c < b.toNat + 16 * segs.length)
      ∨ ((s.queue q).base.toNat ≤ c ∧ c < (s.queue q).base.toNat + 18 * (s.queue q).n.toNat + 4) := by
  have hmod := Nat.mod_lt (s.queue q).availIdx.toNat h.pos
  rcases h.writes ho hc with hc | ⟨d, hd, hlo, hhi⟩ | ⟨hlo, hhi⟩ | ⟨hlo, hhi⟩
  · exact .inl hc
  · have := h.bound d (List.mem_of_mem_take hd)
    exact .inr ⟨by omega, by omega⟩
  · unfold availElemAddr availOff at hlo hhi
    exact .inr ⟨by omega, by omega⟩
  · unfold availIdxAddr availOff at hlo hhi
    exact .inr ⟨by omega, by omega⟩

theorem State.ChainFits.apart (hint : Nat) :
    WritesApart (submitOps s q segs b head ++ publishOps s.cfg q (s.queue q) head hint) := by
  refine h.submitOps_apart.append (publishOps_apart ..) fun c o ho hc p hp hc' => ?_
  have hmod := Nat.mod_lt (s.queue q).availIdx.toNat h.pos
  have hregion := usedOff_bounds (s.queue q).n.toNat
  have havail : (s.queue q).base.toNat + 16 * (s.queue q).n.toNat ≤ c
      ∧ c < (s.queue q).base.toNat + 18 * (s.queue q).n.toNat + 4 := by
    rcases writes_of_mem_publishOps hp hc' with ⟨hlo, hhi⟩ | ⟨hlo, hhi⟩
    · unfold availElemAddr availOff at hlo hhi
      exact ⟨by omega, by omega⟩
    · unfold availIdxAddr availOff at hlo hhi
      exact ⟨by omega, by omega⟩
  rcases h.writes_submitOps ho hc with ⟨hind, hlo, hhi⟩ | ⟨d, hd, hlo, hhi⟩
  · have := h.table hind c hlo hhi
    omega
  · have := h.bound d (List.mem_of_mem_take hd)
    omega

end

/-! ## What memory holds after a submission -/

/-- `r` is `s` with the slot of an indirect table, when there is one: the bytes that existed stay. -/
structure State.SlotsReady (s r : State) (segs : List Seg) (b : Addr) : Prop where
  kind : ∀ c, poolKind s.pool c ≠ .dead → poolKind r.pool c = poolKind s.pool c
  table : goesIndirect s segs.length = true → ∀ c, b.toNat ≤ c → c < b.toNat + 16 * segs.length →
    poolKind r.pool c ≠ .dead
  mem : r.mem = s.mem

section
variable {s r : State} {q : Role} {segs : List Seg} {b : Addr} {head : DescIdx} (h : s.ChainFits q segs b head)
  (hr : s.RegionLive q) (hready : s.SlotsReady r segs b)
include h hr hready

theorem State.ChainFits.live (hint : Nat) (l : Option Loan) (hs : List Handle) :
    (setLoans l hs r).LiveFor (submitOps s q segs b head ++ publishOps s.cfg q (s.queue q) head hint) :=
  fun o ho c hc => by
    rw [poolKind_setLoans]
    rcases h.writes ho hc with ⟨hind, hlo, hhi⟩ | ⟨d, hd, hlo, hhi⟩ | ⟨hlo, hhi⟩ | ⟨hlo, hhi⟩
    · exact hready.table hind c hlo hhi
    all_goals rw [hready.kind c ?_]
    · exact hr.live_desc (h.bound d (List.mem_of_mem_take hd)) hlo hhi
    · exact hr.live_desc (h.bound d (List.mem_of_mem_take hd)) hlo hhi
    · exact (hr.availElem _).live_at hlo hhi
    · exact (hr.availElem _).live_at hlo hhi
    · exact hr.availIdx.live_at hlo hhi
    · exact hr.availIdx.live_at hlo hhi

/-- The hint is not stored to: a submission reads what was there before it. -/
theorem State.ChainFits.hint {hint : Nat}
    (hhint : s.readLe (usedFlagsAddr (s.queue q).base.toNat (s.queue q).n.toNat) 2 = some hint) (l : Option Loan)
    (hs : List Handle) : ((setLoans l hs r).withStores
      (submitOps s q segs b head ++ (publishOps s.cfg q (s.queue q) head hint).take 4)).readLe
        (usedFlagsAddr (s.queue q).base.toNat (s.queue q).n.toNat) 2 = some hint := by
  rw [← hhint]
  refine State.readLe_congr fun k hk => ?_
  have hlive := hr.usedFlags.live hk
  have hbounds := usedOff_bounds (s.queue q).n.toNat
  unfold usedFlagsAddr at hlive ⊢
  rw [State.byteAt_withStores fun o ho hc => ?_]
  · refine State.byteAt_congr ((poolKind_setLoans ..).trans (hready.kind _ hlive)) ?_
    rw [setLoans_eq, hready.mem]
  · have ho' : o ∈ submitOps s q segs b head ++ publishOps s.cfg q (s.queue q) head hint :=
      (List.mem_append.1 ho).elim (List.mem_append_left _) fun hp => List.mem_append_right _ (List.mem_of_mem_take hp)
    rcases h.writes_bounds ho' hc with ⟨hind, hlo, hhi⟩ | ⟨hlo, hhi⟩
    · have := h.table hind _ hlo hhi
      omega
    · omega

end

/-! ### The state a submission leaves -/

section
variable {s r : State} {q : Role} {segs : List Seg} {b : Addr} {head : DescIdx} {ds : List DescIdx} {ind : Option Handle}
  {hint : Nat}

theorem State.byteAt_submitted (c : Nat) : (s.submitted r q segs b head ds ind hint).byteAt c
    = ((setLoans (some { q := q, head := head }) (segs.map segHandle) r).withStores
        (submitOps s q segs b head ++ publishOps s.cfg q (s.queue q) head hint)).byteAt c := by
  rw [State.submitted, State.byteAt_respond, State.byteAt_effected]
  refine State.byteAt_congr (by simp) (congrArg (Memory.find · c) (State.withStores_mem_congr ?_ ?_ _)) <;> rfl

theorem State.queue_submitted : (s.submitted r q segs b head ds ind hint).queue q
    = (s.queue q).submitted head ds ((segs.map segHandle).headD 0) ind :=
  PerRole.get_set_self ..

theorem State.slot_submitted (k : Nat) : (s.submitted r q segs b head ds ind hint).slot k
    = (setLoans (some { q := q, head := head }) (segs.map segHandle) r).slot k := rfl

theorem State.queue_submitted_ne {p : Role} (hp : p ≠ q) : (s.submitted r q segs b head ds ind hint).queue p
    = r.queue p := by
  refine (PerRole.get_set_ne _ _ hp).trans ?_
  rw [setLoans_eq]
  rfl

/-- The bytes outside the stores of a submission and outside its table stay. -/
theorem State.SlotsReady.byteAt (hready : s.SlotsReady r segs b) {c : Nat}
    (hkind : poolKind r.pool c = poolKind s.pool c)
    (hmiss : ∀ o ∈ submitOps s q segs b head ++ publishOps s.cfg q (s.queue q) head hint, ¬ o.Writes c) :
    (s.submitted r q segs b head ds ind hint).byteAt c = s.byteAt c := by
  rw [State.byteAt_submitted, State.byteAt_withStores hmiss]
  refine State.byteAt_congr ((poolKind_setLoans ..).trans hkind) ?_
  rw [setLoans_eq, hready.mem]

theorem State.ChainFits.readLe (h : s.ChainFits q segs b head) (hr : s.RegionLive q) (hready : s.SlotsReady r segs b)
    {a n v : Nat} (hop : .memWrite a n v ∈ submitOps s q segs b head ++ publishOps s.cfg q (s.queue q) head hint)
    (hfit : v < 256 ^ n) : (s.submitted r q segs b head ds ind hint).readLe a n = some v := by
  rw [← State.readLe_withStores hop hfit (h.live hr hready hint _ _) (h.apart hint)]
  exact State.readLe_congr fun _ _ => State.byteAt_submitted _

end

/-! ## An accepted submission -/

theorem State.safe_ready {s : State} (h : s.safe = true) (hf : s.fsm = .driverReady) (q : Role) :
    (s.queue q).valid = true := by
  have hqueues := (State.safe_bringUp h).2.1
  simp only [State.queuesByFsm, hf, Bool.and_eq_true] at hqueues
  exact State.safe_busy h (.inl (by simpa using hqueues.2)) q

theorem Queue.conserved_nodup {x : Queue} (h : x.conserved = true) : x.free.Nodup := by
  simp only [Queue.conserved, Bool.and_eq_true] at h
  exact (distinct_iff_nodup _).1 h.1.1

theorem Slot.state_owned {x : Slot} (h : x.state = .owned) : x.alloc = true := by
  obtain ⟨alloc, bus, len, dir, internal, loan, orphan, fill⟩ := x
  cases alloc <;> simp_all [Slot.state]

/-- The slot of an indirect table (41 R163). -/
theorem State.tableReserved {s s1 : State} {segs : List Seg} (hok : s.segsOk segs = true) {h : Nat} {b : Addr} (hlow : s.lowestFree = some h)
    (hplat : s.platAlloc (16 * segs.length) = (some b, s1)) : s.TableReserved (State.setSlot
      { s1 with draws := s1.draws + 1 } h (Slot.granted b (16 * segs.length) (.draw s1.draws))) segs h b := by
  obtain ⟨-, hlen, hsegs, -⟩ := State.segsOk_iff.1 hok
  have hs1 := State.platAlloc_eq hplat
  refine ⟨by rw [hs1]; rfl, ⟨.draw s1.draws, by rw [hs1]; rfl⟩, fun q y => ?_, State.lowestFree_some hlow, hlen,
    fun g hg => Slot.state_owned (State.segOk_iff.1 (hsegs g hg)).2.2.1⟩
  have hplat' := s.platAlloc_setQueue q y (16 * segs.length)
  rw [hplat] at hplat'
  exact poolReserveInternal_of_grant (by omega) (by exact hlow) hplat'

/-- The bytes outside the pages of an indirect table are as they were. -/
theorem State.TableReserved.kind {s u : State} {segs : List Seg} {h : Nat} {b : Addr} (ht : s.TableReserved u segs h b)
    {c : Nat} (hout : c < b.toNat ∨ b.toNat + roundUp (16 * segs.length) pageBytes ≤ c) :
    poolKind u.pool c = poolKind s.pool c := by
  obtain ⟨f, hpool⟩ := ht.pool
  rw [hpool]
  refine poolKind_set _ _ _ _ (Bool.eq_false_iff.2 fun hc => ?_) (Bool.eq_false_iff.2 fun hc => ?_)
  · have hfree : (s.slot h).alloc = true := (Slot.covers_iff.1 hc).1
    rw [ht.free.2] at hfree
    cases hfree
  · have hlen := ht.len
    obtain ⟨-, hlo, hhi⟩ := Slot.covers_iff.1 hc
    rw [Slot.extent, Slot.granted_len (by omega)] at hhi
    dsimp only [Slot.granted] at hlo hhi
    omega

theorem State.lt_of_alloc {s : State} {k : Nat} (h : (s.slot k).alloc = true) : k < s.pool.length :=
  State.slot_lt fun hf => by
    rw [hf] at h
    cases h

section
variable {s : State} {q : Role} {segs : List Seg} {head : DescIdx} {hint : Nat} (hsafe : s.safe = true) (hgaps : s.gaps = [])
  (hf : s.fsm = .driverReady) (hq : q ≠ s.cfg.qCtrl) (hok : s.segsOk segs = true) (hlock : (s.queue q).lock = none)
  (hb : (s.queue q).broken = false) (hroom : descsNeeded s segs.length ≤ (s.queue q).free.length)
  (hhead : (s.queue q).free.head? = some head)
  (hhint : s.readLe (usedFlagsAddr (s.queue q).base.toNat (s.queue q).n.toNat) 2 = some hint)
include hsafe hf hlock hb hroom hhead

theorem State.safe_chainFits {b : Addr} (htable : goesIndirect s segs.length = true → ∀ c, b.toNat ≤ c →
    c < b.toNat + 16 * segs.length →
      c < (s.queue q).base.toNat ∨ (s.queue q).base.toNat + regionBytes (s.queue q).n.toNat ≤ c) :
    s.ChainFits q segs b head := by
  have hv := State.safe_ready hsafe hf q
  obtain ⟨hcons, -⟩ := State.safe_ring hsafe hv hb
  rw [State.safe_ring_of_unlocked hsafe hlock] at hcons
  exact ⟨hroom, fun d hd => Queue.conserved_free hcons hd, Queue.conserved_nodup hcons, hhead,
    (State.safe_region hsafe q hv).pos, htable⟩

include hgaps hq hok hhint

/-- A direct submission (41 R160). -/
theorem exec_vqSubmit_direct (hdirect : goesIndirect s segs.length = false) : s.ChainFits q segs 0 head
    ∧ s.SlotsReady s segs 0 ∧ exec (.vqSubmit q segs) s
      = .next (s.submitted s q segs 0 head ((s.queue q).free.take segs.length) none hint) := by
  have hfits := State.safe_chainFits (b := 0) hsafe hf hlock hb hroom hhead (by simp [hdirect])
  have hready : s.SlotsReady s segs 0 := ⟨fun _ _ => rfl, by simp [hdirect], rfl⟩
  have hregion := State.safe_region hsafe q (State.safe_ready hsafe hf q)
  have hfirst : ((s.queue q).free.take segs.length).headD 0 = head := by
    obtain ⟨fs, hfs⟩ := List.head?_eq_some_iff.1 hhead
    obtain ⟨n, hn⟩ := Nat.exists_eq_add_one_of_ne_zero (Nat.one_le_iff_ne_zero.1 (State.segsOk_iff.1 hok).1)
    rw [hfs, hn]
    rfl
  refine ⟨hfits, hready, ?_⟩
  rw [exec_vqSubmit_of_room hf hq hok hlock hb hroom,
    submitChain_direct (State.safe_wf hsafe) hgaps ((State.safe_tidy hsafe).stores rfl) hlock hregion hfits.bound hdirect
      (by simpa [descsNeeded, hdirect] using hroom) hfirst (hfits.hint hregion hready hhint _ _)]
  rfl

/-- An indirect submission (41 R163). -/
theorem exec_vqSubmit_indirect {u : State} {h : Nat} {b : Addr} (hind : goesIndirect s segs.length = true)
    (ht : s.TableReserved u segs h b) (hlegal : s.allocLegal (16 * segs.length) b = true) :
    s.ChainFits q segs b head ∧ s.SlotsReady (setLoan h (some { q := q, head := head }) u) segs b
      ∧ exec (.vqSubmit q segs) s = .next (s.submitted (setLoan h (some { q := q, head := head }) u) q segs b head [head]
          (some (BitVec.ofNat 16 h)) hint) := by
  have hregion := State.safe_region hsafe q (State.safe_ready hsafe hf q)
  have hdead : ∀ c, b.toNat ≤ c → c < b.toNat + 16 * segs.length → poolKind s.pool c = .dead := fun c hlo hhi =>
    State.allocLegal_dead hlegal hlo (hhi.trans_le (Nat.add_le_add_left (le_roundUp_page _) _))
  have hfits := State.safe_chainFits (b := b) hsafe hf hlock hb hroom hhead fun _ c hlo hhi => by
    by_contra hin
    exact (hregion.inSlot (a := (s.queue q).base.toNat) (n := regionBytes (s.queue q).n.toNat) (Nat.le_refl _)
      (Nat.le_refl _)).live_at (by omega) (by omega) (hdead c hlo hhi)
  have hready : s.SlotsReady (setLoan h (some { q := q, head := head }) u) segs b := by
    refine ⟨fun c hc => ?_, fun _ c hlo hhi => ?_, by rw [setLoan, ht.rest]; rfl⟩
    · rw [poolKind_setLoan]
      refine ht.kind ?_
      by_contra hin
      exact hc (State.allocLegal_dead hlegal (by omega) (by omega))
    · rw [poolKind_setLoan]
      exact ht.inSlot.live_at hlo hhi
  refine ⟨hfits, hready, ?_⟩
  rw [exec_vqSubmit_of_room hf hq hok hlock hb hroom,
    submitChain_indirect (State.safe_wf hsafe) hgaps ((State.safe_tidy hsafe).stores rfl) hlock hregion hfits.bound hind
      hhead ht (hfits.hint hregion hready hhint _ _)]
  rfl

end

/-- A submission changes none of the global fields, and its accesses are on the bus. -/
theorem State.submitted_globals {s r : State} {q : Role} {segs : List Seg} {b : Addr} {head : DescIdx}
    {ds : List DescIdx} {ind : Option Handle} {hint : Nat}
    (hr : r = { s with pool := r.pool, platAllocs := r.platAllocs, draws := r.draws }) :
    SameGlobals s (s.submitted r q segs b head ds ind hint)
      ∧ Made (submitOps s q segs b head ++ publishOps s.cfg q (s.queue q) head hint) s
          (s.submitted r q segs b head ds ind hint)
      ∧ Answered .ok [] s (s.submitted r q segs b head ds ind hint)
      ∧ SameOtherQueues q s (s.submitted r q segs b head ds ind hint) := by
  generalize r.pool = pool, r.platAllocs = pa, r.draws = dr at hr
  subst hr
  refine ⟨?_, ?_, ?_, fun p hp => State.queue_submitted_ne hp⟩ <;>
    simp only [SameGlobals, Made, Answered, State.submitted] <;> rw [setLoans_eq]
  · exact ⟨rfl, rfl, rfl, rfl, rfl, rfl, rfl, rfl, rfl, rfl, rfl, rfl, rfl, rfl, rfl, rfl, rfl, rfl, rfl⟩
  · rfl
  · rfl

theorem State.TableReserved.rest_lent {s u : State} {segs : List Seg} {h : Nat} {b : Addr}
    (ht : s.TableReserved u segs h b) (l : Option Loan) : setLoan h l u
      = { s with pool := (setLoan h l u).pool, platAllocs := (setLoan h l u).platAllocs, draws := (setLoan h l u).draws } := by
  generalize hp : (setLoan h l u).pool = pool
  rw [setLoan, ht.rest] at hp ⊢
  subst hp
  rfl

/-- Settles O29. -/
theorem publishOrdersIndexLast : Obligations.PublishOrdersIndexLast := by
  intro s q segs hint b hsafe hgaps hf hq hok hlock hb hroom htable hhint
  obtain ⟨head, hhead⟩ : ∃ head, (s.queue q).free.head? = some head := by
    obtain ⟨hpos, -⟩ := State.segsOk_iff.1 hok
    have hneed : 1 ≤ descsNeeded s segs.length := by
      unfold descsNeeded
      split <;> omega
    exact ⟨_, List.head?_eq_some_head (List.ne_nil_of_length_pos (by omega))⟩
  by_cases hind : goesIndirect s segs.length = true
  · obtain ⟨h, s1, hlow, hplat⟩ := htable hind
    obtain ⟨u, ht⟩ : ∃ u, s.TableReserved u segs h b := ⟨_, State.tableReserved hok hlow hplat⟩
    obtain ⟨-, -, hexec⟩ := exec_vqSubmit_indirect hsafe hgaps hf hq hok hlock hb hroom hhead hhint hind ht
      (State.allocLegal_of_platAlloc hplat)
    obtain ⟨-, hmade, -⟩ := State.submitted_globals (q := q) (segs := segs) (b := b) (head := head) (ds := [head])
      (ind := some (BitVec.ofNat 16 h)) (hint := hint) (ht.rest_lent (some { q := q, head := head }))
    exact ⟨_, head, hexec, hhead, congrArg Queue.availIdx State.queue_submitted, by
      rw [List.append_assoc]
      exact hmade⟩
  · have hdirect : goesIndirect s segs.length = false := by simpa using hind
    obtain ⟨-, -, hexec⟩ := exec_vqSubmit_direct hsafe hgaps hf hq hok hlock hb hroom hhead hhint hdirect
    obtain ⟨-, hmade, -⟩ := State.submitted_globals (s := s) (r := s) (q := q) (segs := segs) (b := 0) (head := head)
      (ds := (s.queue q).free.take segs.length) (ind := none) (hint := hint) rfl
    have hops : submitOps s q segs 0 head = submitOps s q segs b head := by simp [submitOps, hdirect]
    exact ⟨_, head, hexec, hhead, congrArg Queue.availIdx State.queue_submitted, by
      rw [List.append_assoc, ← hops]
      exact hmade⟩

/-! ## The descriptors of a submission in memory (20 R74) -/

/-- The stores of the k-th descriptor are among those of its chain. -/
theorem descOps_mem_chainOps {s : State} {segs : List Seg} {table k : Nat} {place : Nat → Nat} {g : Seg}
    (hg : segs[k]? = some g) {o : BusOp} (ho : o ∈ descOps table (place k) (s.slot (g.ctl.setWidth 16 : Handle).toNat).bus.toNat
      g.len.toNat
      ((if k + 1 < segs.length then s.cfg.dfChained else 0) ||| (if g.ctl.msb then s.cfg.dfWritable else 0)).toNat
      (if k + 1 < segs.length then place (k + 1) else 0)) : o ∈ chainOps s segs table place := by
  obtain ⟨hk, rfl⟩ := List.getElem?_eq_some_iff.1 hg
  refine List.mem_flatMap.2 ⟨k, List.mem_range.2 hk, ?_⟩
  rwa [List.getD_eq_getElem _ _ hk]

/-- A descriptor whose stores have been made is in memory. -/
theorem descIs_of_stores {t : State} {table d addr len flags next : Nat} (haddr : addr < 2 ^ 64) (hlen : len < 2 ^ 32)
    (hflags : flags < 2 ^ 16) (hnext : next < 2 ^ 16)
    (hread : ∀ a n v, .memWrite a n v ∈ descOps table d addr len flags next → v < 256 ^ n → t.readLe a n = some v) :
    DescIs t table d addr len flags next :=
  ⟨hread _ _ _ (by simp [descOps]) haddr, hread _ _ _ (by simp [descOps]) hlen,
    hread _ _ _ (by simp [descOps]) hflags, hread _ _ _ (by simp [descOps]) hnext⟩

theorem mem_publishOps (cf : Config) (q : Role) (x : Queue) (head : DescIdx) (hint : Nat) :
    .memWrite (availElemAddr x.base.toNat x.n.toNat (x.availIdx.toNat % x.n.toNat)) 2 head.toNat
        ∈ publishOps cf q x head hint
      ∧ .memWrite (availIdxAddr x.base.toNat x.n.toNat) 2 (x.availIdx + 1).toNat ∈ publishOps cf q x head hint := by
  simp [publishOps]

theorem slots_lent {s : State} {segs : List Seg} (hlt : ∀ g ∈ segs, (segHandle g).toNat < s.pool.length)
    (l : Option Loan) (k : Nat) : (setLoans l (segs.map segHandle) s).slot k
      = if (∃ g ∈ segs, (g.ctl.setWidth 16 : Handle).toNat = k) then { s.slot k with loan := l } else s.slot k := by
  rw [slot_setLoans (by simpa using hlt)]
  simp [segHandle_eq]

/-- Settles O27. -/
theorem submitDirectPublishesChain : Obligations.SubmitDirectPublishesChain := by
  intro s q segs hsafe hgaps hf hq hok hlock hb hwhy hroom
  have hdirect : goesIndirect s segs.length = false := by
    rcases hwhy with hneg | hlen
    · simp [goesIndirect, hneg]
    · simp [goesIndirect, Nat.not_lt_of_le hlen]
  obtain ⟨hpos, hmax, hsegs, -⟩ := State.segsOk_iff.1 hok
  have hregion := State.safe_region hsafe q (State.safe_ready hsafe hf q)
  obtain ⟨hint, hhint⟩ := hregion.usedFlags.readLe
  obtain ⟨head, hhead⟩ : ∃ head, (s.queue q).free.head? = some head :=
    ⟨_, List.head?_eq_some_head (List.ne_nil_of_length_pos (by omega))⟩
  have hneed : descsNeeded s segs.length = segs.length := by simp [descsNeeded, hdirect]
  obtain ⟨hfits, hready, hexec⟩ := exec_vqSubmit_direct hsafe hgaps hf hq hok hlock hb (hneed.trans_le hroom) hhead hhint hdirect
  obtain ⟨hglobals, -, hanswer, hqueues⟩ := State.submitted_globals (s := s) (r := s) (q := q) (segs := segs) (b := 0)
    (head := head) (ds := (s.queue q).free.take segs.length) (ind := none) (hint := hint) rfl
  have hlen : ((s.queue q).free.take segs.length).length = segs.length := by simpa using hroom
  have hfirst : ((s.queue q).free.take segs.length).head? = some head := by
    rw [List.head?_take, if_neg (by omega), hhead]
  have hmem : head ∈ (s.queue q).free.take segs.length := List.mem_of_mem_head? hfirst
  have hin : ∀ d ∈ (s.queue q).free.take segs.length, d.toNat < (s.queue q).desc.length := fun d hd => by
    rw [hregion.entries]
    exact hfits.bound d (List.mem_of_mem_take hd)
  obtain ⟨helem, hidx⟩ := mem_publishOps s.cfg q (s.queue q) head hint
  refine ⟨_, head, hexec, hanswer, ?_, ?_, congrArg Queue.availIdx State.queue_submitted, fun d hd => ?_, fun d hd => ?_, ?_,
    ?_, ?_, ?_, hqueues, fun k => ?_, fun k g d hg hd => ?_, hfits.readLe hregion hready (List.mem_append_right _ helem)
      head.isLt, hfits.readLe hregion hready (List.mem_append_right _ hidx) (BitVec.isLt _), fun a ha => ?_, hglobals⟩
  · exact hfirst
  · rw [State.queue_submitted, Queue.submitted, hlen]
  · rw [State.queue_submitted, Queue.submitted_tagAt hin hmem hd]
  · rw [State.queue_submitted, Queue.submitted_descAt_of_not_mem hin hmem hd]
  · rw [State.queue_submitted, Queue.submitted_descAt hin hmem, if_pos rfl, hlen]
    exact (BitVec.toNat_ofNat ..).trans (Nat.mod_eq_of_lt (by omega))
  · obtain ⟨g, hg⟩ : ∃ g, segs.head? = some g := ⟨_, List.head?_eq_some_head (List.ne_nil_of_length_pos (by omega))⟩
    refine ⟨g, hg, ?_⟩
    rw [State.queue_submitted, Queue.submitted_descAt hin hmem, if_pos rfl, segHandle_eq]
    simp [List.headD_eq_head?_getD, hg]
  · rw [State.queue_submitted, Queue.submitted_descAt hin hmem, if_pos rfl]
  · rw [State.queue_submitted, Queue.submitted_eq]
  · exact slots_lent (fun g hg => State.lt_of_alloc (Slot.state_owned (State.segOk_iff.1 (hsegs g hg)).2.2.1)) _ k
  · have hplace : ((s.queue q).free.getD k 0).toNat = d.toNat := by simp [List.getD, hd]
    have hfit : (if k + 1 < segs.length then ((s.queue q).free.getD (k + 1) 0).toNat else 0) < 2 ^ 16 := by
      split
      · exact BitVec.isLt _
      · decide
    refine descIs_of_stores (BitVec.isLt _) g.len.isLt (BitVec.isLt _) hfit fun a n v ho hv =>
      hfits.readLe hregion hready (List.mem_append_left _ ?_) hv
    rw [← hplace] at ho
    rw [submitOps, hdirect]
    exact descOps_mem_chainOps (place := fun k => ((s.queue q).free.getD k 0).toNat) hg ho
  · refine hready.byteAt rfl fun o ho hc => ?_
    simp only [List.mem_append, List.mem_map, List.mem_cons, List.not_mem_nil, or_false, taken] at ha
    rcases hfits.writes ho hc with ⟨hind, -⟩ | ⟨d, hd, hlo, hhi⟩ | ⟨hlo, hhi⟩ | ⟨hlo, hhi⟩
    · rw [hdirect] at hind
      cases hind
    · have := ha _ (.inl ⟨d, hneed ▸ hd, rfl⟩)
      omega
    · have := ha _ (.inr (.inl rfl))
      omega
    · have := ha _ (.inr (.inr rfl))
      omega

/-- Settles O28. -/
theorem submitIndirectUsesTable : Obligations.SubmitIndirectUsesTable := by
  intro s s1 q segs h b head hsafe hgaps hf hq hok hlock hb hneg hthresh hhead hlow hplat
  have hind : goesIndirect s segs.length = true := by simp [goesIndirect, hneg, hthresh]
  obtain ⟨hpos, hmax, hsegs, -⟩ := State.segsOk_iff.1 hok
  have hregion := State.safe_region hsafe q (State.safe_ready hsafe hf q)
  obtain ⟨hint, hhint⟩ := hregion.usedFlags.readLe
  have hneed : descsNeeded s segs.length = 1 := by simp [descsNeeded, hind]
  have htake : (s.queue q).free.take 1 = [head] := by
    obtain ⟨fs, hfs⟩ := List.head?_eq_some_iff.1 hhead
    rw [hfs]
    rfl
  have hroom : descsNeeded s segs.length ≤ (s.queue q).free.length := by
    have := congrArg List.length htake
    rw [List.length_take] at this
    simp only [List.length_singleton] at this
    omega
  obtain ⟨u, ht, hself⟩ : ∃ u, s.TableReserved u segs h b ∧ u.slot h = Slot.granted b (16 * segs.length) (.draw s1.draws) :=
    ⟨_, State.tableReserved hok hlow hplat, State.slot_setSlot_self _ _ (by
      rw [State.platAlloc_eq hplat]
      exact (State.lowestFree_some hlow).1)⟩
  obtain ⟨hfits, hready, hexec⟩ := exec_vqSubmit_indirect hsafe hgaps hf hq hok hlock hb hroom hhead hhint hind ht
    (State.allocLegal_of_platAlloc hplat)
  obtain ⟨hglobals, -, hanswer, hqueues⟩ := State.submitted_globals (q := q) (segs := segs) (b := b) (head := head)
    (ds := [head]) (ind := some (BitVec.ofNat 16 h)) (hint := hint) (ht.rest_lent (some { q := q, head := head }))
  have hin : ∀ d ∈ [head], d.toNat < (s.queue q).desc.length := fun d hd => by
    rw [hregion.entries, List.mem_singleton.1 hd]
    exact hfits.bound head (List.mem_of_mem_head? hhead)
  have hmem := List.mem_singleton_self head
  obtain ⟨helem, hidx⟩ := mem_publishOps s.cfg q (s.queue q) head hint
  have hlength : u.pool.length = s.pool.length := by
    obtain ⟨f, hpool⟩ := ht.pool
    rw [hpool, List.length_set]
  have hu : h < u.pool.length := hlength ▸ ht.free.1
  have hlent := slots_lent (s := setLoan h (some { q := q, head := head }) u) (segs := segs) (fun g hg => by
    rw [setLoan, State.setSlot, List.length_set, hlength]
    exact State.lt_of_alloc (ht.alloc g hg)) (some { q := q, head := head })
  refine ⟨_, hexec, hanswer, ?_, congrArg Queue.availIdx State.queue_submitted, ?_, ?_, ?_, ?_,
    hfits.readLe hregion hready (List.mem_append_right _ helem) head.isLt,
    hfits.readLe hregion hready (List.mem_append_right _ hidx) (BitVec.isLt _), ?_, fun k hk => ?_, fun k g hg => ?_, ?_,
    fun d hd => ?_, ?_, fun a ha => ?_, hqueues, hglobals⟩
  · rw [State.queue_submitted]
    rfl
  · rw [State.queue_submitted, Queue.submitted_tagAt hin hmem hmem]
  · rw [State.queue_submitted, Queue.submitted_descAt hin hmem, if_pos rfl]
    rfl
  · rw [State.queue_submitted, Queue.submitted_descAt hin hmem, if_pos rfl]
  · obtain ⟨g, hg⟩ : ∃ g, segs.head? = some g := ⟨_, List.head?_eq_some_head (List.ne_nil_of_length_pos (by omega))⟩
    refine ⟨g, hg, ?_⟩
    rw [State.queue_submitted, Queue.submitted_descAt hin hmem, if_pos rfl, segHandle_eq]
    simp [List.headD_eq_head?_getD, hg]
  · rw [State.slot_submitted, hlent, if_neg fun ⟨g, hg, hk⟩ => ht.ne_of_alloc (ht.alloc g hg) hk, slot_setLoan hu, if_pos rfl,
      hself]
    rfl
  · rw [State.slot_submitted, hlent, slot_setLoan hu, if_neg hk, ht.other hk]
  · have hfit : (if k + 1 < segs.length then k + 1 else 0) < 2 ^ 16 := by
      split <;> omega
    refine descIs_of_stores (BitVec.isLt _) g.len.isLt (BitVec.isLt _) hfit fun a n v ho hv =>
      hfits.readLe hregion hready (List.mem_append_left _ ?_) hv
    rw [submitOps, if_pos hind]
    exact List.mem_append_left _ (descOps_mem_chainOps (place := fun k => k) hg ho)
  · refine descIs_of_stores (BitVec.isLt _) (by omega) (BitVec.isLt _) (by decide) fun a n v ho hv =>
      hfits.readLe hregion hready (List.mem_append_left _ ?_) hv
    rw [submitOps, if_pos hind]
    exact List.mem_append_right _ ho
  · rw [State.queue_submitted, Queue.submitted_descAt_of_not_mem hin hmem (by simpa using hd)]
  · rw [State.queue_submitted, Queue.submitted_eq]
  · simp only [List.mem_cons, List.not_mem_nil, or_false, forall_eq_or_imp, forall_eq] at ha
    obtain ⟨htable, hdesc, helem, hidx⟩ := ha
    have hout : a < b.toNat ∨ b.toNat + roundUp (16 * segs.length) pageBytes ≤ a := htable
    have hpages := le_roundUp_page (16 * segs.length)
    refine hready.byteAt ((poolKind_setLoan ..).trans (ht.kind hout)) fun o ho hc => ?_
    rcases hfits.writes ho hc with ⟨-, hlo, hhi⟩ | ⟨d, hd, hlo, hhi⟩ | ⟨hlo, hhi⟩ | ⟨hlo, hhi⟩
    · omega
    · rw [hneed, htake, List.mem_singleton] at hd
      subst hd
      omega
    · omega
    · omega

end Sys2Proof.Machine

namespace Sys2Proof.Machine

open Sys2Proof.Claims

/-! ## The moves of a drain with nobody interfering (41 R164, R165) -/

/-- One step of CMD's drain, before its end. -/
def DrainMove (q : Role) (a b : DrainRun × State) : Prop :=
  (∀ c, a.1.pos ≠ .finished c) ∧ drainStep cmdCtx q a.1 a.2 = .ok b

/-- Some steps of CMD's drain. -/
abbrev DrainMoves (q : Role) : DrainRun × State → DrainRun × State → Prop := Relation.ReflTransGen (DrainMove q)

/-- A drain that ends goes through the states its moves lead to. -/
theorem drainRun_of_moves {q : Role} {a b : DrainRun × State} (h : DrainMoves q a b) {n : Nat}
    {res : (List Drained × Bool) × State} (hrun : drainRun q n a.1 a.2 = .ok res) :
    ∃ m, drainRun q m b.1 b.2 = .ok res := by
  induction h with
  | refl => exact ⟨n, hrun⟩
  | tail _ hmove ih =>
    obtain ⟨m, hm⟩ := ih
    cases m with
    | zero => cases hm
    | succ m => exact ⟨m, by rwa [drainRun_step hmove.1 hmove.2] at hm⟩

theorem drainRun_of_moves_finished {q : Role} {a : DrainRun × State} {out : List Drained} {c : Bool} {t : State}
    (h : DrainMoves q a ({ out := out, pos := .finished c }, t)) {n : Nat} {res : (List Drained × Bool) × State}
    (hrun : drainRun q n a.1 a.2 = .ok res) : res = ((out, c), t) := by
  obtain ⟨m, hm⟩ := drainRun_of_moves h hrun
  cases m with
  | zero => cases hm
  | succ m =>
    rw [drainRun_finished] at hm
    exact (Except.ok.inj hm).symm

/-- What VQ.DRAIN answers and leaves, when its moves lead to the end. -/
theorem exec_vqDrain_of_moves {s t : State} {q : Role} {out : List Drained} {c : Bool} (hsafe : s.safe = true)
    (hv : (s.queue q).valid = true) (hlock : (s.queue q).lock = none)
    (h : DrainMoves q ({ out := [], pos := .start }, s.setQueue q { s.queue q with lock := some .cmd })
      ({ out := out, pos := .finished c }, t)) :
    exec (.vqDrain q) s = .next ((unlock q t).respond (if c then .ringCorrupt else .ok) (drainWords out)) := by
  obtain ⟨r, hr, -⟩ := drainList_succeeds (q := q) rfl (State.safe_sound hsafe) hv
  have hlist : drainList q s = .ok ((out, c), unlock q t) := by
    simp only [drainList, lock_free hlock, ok_bind] at hr ⊢
    cases hrun : drainRun q patience { out := [], pos := .start } (s.setQueue q { s.queue q with lock := some .cmd }) with
    | error f =>
      rw [hrun] at hr
      cases hr
    | ok res =>
      rw [drainRun_of_moves_finished h hrun]
      rfl
  simp only [exec, execVqDrain, if_pos hv, hlist, ok_bind, finish_ok]

/-! ### One move at each position -/

/-- The walk of a chain at its head. -/
def Visit.first (rest : Nat) (id : DescIdx) (len : Word) : Visit :=
  { rest := rest, id := id, len := len, visited := [], cur := id }

/-- The walk of a chain once it has visited the descriptor at hand. -/
def Visit.past (v : Visit) : Visit := { v with visited := v.visited ++ [v.cur] }

@[simp] theorem State.readLe_made (s : State) (ops : List BusOp) (a n : Nat) : (s.made ops).readLe a n = s.readLe a n :=
  State.readLe_congr fun _ _ => rfl

section
variable {q : Role} {s : State} {out : List Drained} (hgaps : s.gaps = []) (hwbuf : s.wbuf = [])
include hgaps hwbuf

theorem memRead_made {a n v : Nat} (h : s.readLe a n = some v) :
    memRead cmdCtx a n s = .ok (v, s.made [.memRead a n v]) := by
  rw [memRead_settled hgaps hwbuf h, State.log_eq_made s rfl]

theorem DrainMove.start {idx : Nat} (hb : (s.queue q).broken = false)
    (hidx : s.readLe (usedIdxAddr (s.queue q).base.toNat (s.queue q).n.toNat) 2 = some idx) {p : DrainPos} {t : State}
    (hp : (if (s.queue q).n.toNat < (BitVec.ofNat 16 idx - (s.queue q).lastUsed).toNat
      then drainFault q (s.made [.memRead (usedIdxAddr (s.queue q).base.toNat (s.queue q).n.toNat) 2 idx, .fence])
      else (nextElement (BitVec.ofNat 16 idx - (s.queue q).lastUsed).toNat,
        s.made [.memRead (usedIdxAddr (s.queue q).base.toNat (s.queue q).n.toNat) 2 idx, .fence])) = (p, t)) :
    DrainMove q ({ out := out, pos := .start }, s) ({ out := out, pos := p }, t) := by
  refine ⟨fun c => by simp, ?_⟩
  have hstart := drainStart_of_readLe hb hgaps hwbuf hidx
  rw [State.log_eq_made s rfl, State.log_eq_made _ rfl, State.made_made] at hstart
  simp only [drainStep, hstart, List.cons_append, List.nil_append, hp, ok_bind]

theorem DrainMove.element {rest id : Nat}
    (hid : s.readLe (usedIdAddr (s.queue q).base.toNat (s.queue q).n.toNat (s.queue q).usedPos) 4 = some id) :
    DrainMove q ({ out := out, pos := .element rest }, s) ({ out := out, pos := .length rest id },
      s.made [.memRead (usedIdAddr (s.queue q).base.toNat (s.queue q).n.toNat (s.queue q).usedPos) 4 id]) := by
  refine ⟨fun c => by simp, ?_⟩
  simp only [drainStep, drainId, memRead_made hgaps hwbuf hid, ok_bind]

section
variable {rest id len : Nat}
  (hlen : s.readLe (usedLenAddr (s.queue q).base.toNat (s.queue q).n.toNat (s.queue q).usedPos) 4 = some len)
include hlen

theorem DrainMove.length (hlt : id < (s.queue q).n.toNat)
    (htag : (s.queue q).tagAt (BitVec.ofNat 16 id) = .submitted (BitVec.ofNat 16 id)) :
    DrainMove q ({ out := out, pos := .length rest id }, s)
      ({ out := out, pos := .flags (.first rest (BitVec.ofNat 16 id) (BitVec.ofNat 32 len)) },
      s.made [.memRead (usedLenAddr (s.queue q).base.toNat (s.queue q).n.toNat (s.queue q).usedPos) 4 len]) := by
  have hstep : drainLength cmdCtx q rest id s = .ok
      (.flags (.first rest (BitVec.ofNat 16 id) (BitVec.ofNat 32 len)),
      s.made [.memRead (usedLenAddr (s.queue q).base.toNat (s.queue q).n.toNat (s.queue q).usedPos) 4 len]) := by
    unfold drainLength
    rw [memRead_made hgaps hwbuf hlen, ok_bind]
    exact if_pos ⟨hlt, htag⟩
  exact ⟨fun c => by simp, by simp only [drainStep, hstep, ok_bind]⟩

theorem DrainMove.length_fault
    (hno : ¬ (id < (s.queue q).n.toNat ∧ (s.queue q).tagAt (BitVec.ofNat 16 id) = .submitted (BitVec.ofNat 16 id))) :
    DrainMove q ({ out := out, pos := .length rest id }, s) ({ out := out, pos := .finished true }, markBroken q
      (s.made [.memRead (usedLenAddr (s.queue q).base.toNat (s.queue q).n.toNat (s.queue q).usedPos) 4 len])) := by
  have hstep : drainLength cmdCtx q rest id s = .ok (drainFault q
      (s.made [.memRead (usedLenAddr (s.queue q).base.toNat (s.queue q).n.toNat (s.queue q).usedPos) 4 len])) := by
    unfold drainLength
    rw [memRead_made hgaps hwbuf hlen, ok_bind]
    exact if_neg hno
  exact ⟨fun c => by simp, by simp only [drainStep, hstep, drainFault, ok_bind]⟩

end

end

/-! ### The walk of a chain -/

/-- `u` while the chain at hand is walked: these descriptors visited, these accesses made. -/
def State.walked (u : State) (q : Role) (visited : List DescIdx) (ops : List BusOp) : State :=
  (u.setQueue q ((u.queue q).setTags .completedPendingReturn visited)).made ops

theorem Queue.setTags_append (x : Queue) (t : Tag) (l l' : List DescIdx) :
    x.setTags t (l ++ l') = (x.setTags t l).setTags t l' := by
  induction l generalizing x with
  | nil => rfl
  | cons i rest ih => exact ih (x.setTag i t)

@[simp] theorem State.walked_nil (u : State) (q : Role) (ops : List BusOp) : u.walked q [] ops = u.made ops := by
  simp [State.walked, Queue.setTags]

theorem State.walked_made (u : State) (q : Role) (visited : List DescIdx) (ops ops' : List BusOp) :
    (u.walked q visited ops).made ops' = u.walked q visited (ops ++ ops') := by
  simp [State.walked]

theorem State.queue_walked (u : State) (q : Role) (visited : List DescIdx) (ops : List BusOp) :
    (u.walked q visited ops).queue q = (u.queue q).setTags .completedPendingReturn visited := by
  simp [State.walked]

theorem State.base_walked (u : State) (q : Role) (visited : List DescIdx) (ops : List BusOp) :
    ((u.walked q visited ops).queue q).base = (u.queue q).base := by
  rw [State.queue_walked]
  exact (Queue.setTags_sameShape ..).base

theorem State.n_walked (u : State) (q : Role) (visited : List DescIdx) (ops : List BusOp) :
    ((u.walked q visited ops).queue q).n = (u.queue q).n := by
  rw [State.queue_walked]
  exact (Queue.setTags_sameShape ..).n

theorem State.walked_visit (u : State) (q : Role) (visited : List DescIdx) (ops : List BusOp) (d : DescIdx) :
    (u.walked q visited ops).setQueue q (((u.walked q visited ops).queue q).setTag d .completedPendingReturn)
      = u.walked q (visited ++ [d]) ops := by
  rw [State.queue_walked, State.walked, State.walked, State.setQueue_made, State.setQueue_setQueue, Queue.setTags_append]
  rfl

@[simp] theorem State.readLe_walked (u : State) (q : Role) (visited : List DescIdx) (ops : List BusOp) (a n : Nat) :
    (u.walked q visited ops).readLe a n = u.readLe a n := by
  simp [State.walked]

section
variable {q : Role} {u : State} {out : List Drained} {v : Visit} {ops : List BusOp} (hgaps : u.gaps = [])
  (hwbuf : u.wbuf = [])
include hgaps hwbuf

/-- The read of the flags of the descriptor at hand, which is then visited. -/
theorem memRead_walked {a n val : Nat} (visited : List DescIdx) (hops : ∀ o ∈ ops, o.store = none)
    (h : u.readLe a n = some val) :
    memRead cmdCtx a n (u.walked q visited ops) = .ok (val, u.walked q visited (ops ++ [.memRead a n val])) := by
  have hstores : ops.filterMap BusOp.store = [] := List.filterMap_eq_nil_iff.2 hops
  rw [memRead_made (by exact hgaps) (by simp [State.walked, State.made, hstores, hwbuf]) (by simpa using h),
    State.walked_made]

section
variable {f : Nat} (hops : ∀ o ∈ ops, o.store = none)
  (hf : u.readLe ((u.queue q).base.toNat + 16 * v.cur.toNat + 12) 2 = some f)
include hops hf

theorem drainFlags_walked : drainFlags cmdCtx q v (u.walked q v.visited ops)
    = if (BitVec.ofNat 16 f &&& u.cfg.dfChained) != 0 then .ok (.link v.past,
        u.walked q v.past.visited (ops ++ [.memRead ((u.queue q).base.toNat + 16 * v.cur.toNat + 12) 2 f]))
      else if v.past.visited.length = ((u.queue q).descAt v.id).chainLen.toNat then .ok (.unlend v.past [],
        u.walked q v.past.visited (ops ++ [.memRead ((u.queue q).base.toNat + 16 * v.cur.toNat + 12) 2 f]))
      else .ok (.finished true, markBroken q
        (u.walked q v.past.visited (ops ++ [.memRead ((u.queue q).base.toNat + 16 * v.cur.toNat + 12) 2 f]))) := by
  have hread := memRead_walked (q := q) hgaps hwbuf v.past.visited hops hf
  have hbase := State.base_walked u q v.past.visited ops
  unfold drainFlags
  dsimp only
  rw [State.walked_visit, show v.visited ++ [v.cur] = v.past.visited from rfl, hbase]
  unfold descAddr
  rw [hread, ok_bind, State.queue_walked, Queue.chainLen_setTags]
  rfl

/-- The flags of the descriptor at hand lead to its link. -/
theorem DrainMove.flags_chained (hc : ((BitVec.ofNat 16 f &&& u.cfg.dfChained) != 0) = true) :
    DrainMove q ({ out := out, pos := .flags v }, u.walked q v.visited ops) ({ out := out, pos := .link v.past },
      u.walked q v.past.visited (ops ++ [.memRead ((u.queue q).base.toNat + 16 * v.cur.toNat + 12) 2 f])) := by
  refine ⟨fun c => by simp, ?_⟩
  simp only [drainStep, drainFlags_walked hgaps hwbuf hops hf, if_pos hc, ok_bind]

/-- A walk that ends at the chain's length is accepted. -/
theorem DrainMove.flags_last (hc : ((BitVec.ofNat 16 f &&& u.cfg.dfChained) != 0) = false)
    (hlen : v.past.visited.length = ((u.queue q).descAt v.id).chainLen.toNat) :
    DrainMove q ({ out := out, pos := .flags v }, u.walked q v.visited ops) ({ out := out, pos := .unlend v.past [] },
      u.walked q v.past.visited (ops ++ [.memRead ((u.queue q).base.toNat + 16 * v.cur.toNat + 12) 2 f])) := by
  refine ⟨fun c => by simp, ?_⟩
  simp only [drainStep, drainFlags_walked hgaps hwbuf hops hf, hc, Bool.false_eq_true, if_false, if_pos hlen, ok_bind]

/-- A walk that ends at another length is corrupt. -/
theorem DrainMove.flags_fault (hc : ((BitVec.ofNat 16 f &&& u.cfg.dfChained) != 0) = false)
    (hlen : v.past.visited.length ≠ ((u.queue q).descAt v.id).chainLen.toNat) :
    DrainMove q ({ out := out, pos := .flags v }, u.walked q v.visited ops) ({ out := out, pos := .finished true },
      markBroken q
        (u.walked q v.past.visited (ops ++ [.memRead ((u.queue q).base.toNat + 16 * v.cur.toNat + 12) 2 f]))) := by
  refine ⟨fun c => by simp, ?_⟩
  simp only [drainStep, drainFlags_walked hgaps hwbuf hops hf, hc, Bool.false_eq_true, if_false, if_neg hlen, ok_bind]

end

section
variable {nx : Nat} (hops : ∀ o ∈ ops, o.store = none)
  (hnx : u.readLe ((u.queue q).base.toNat + 16 * v.cur.toNat + 14) 2 = some nx)
include hops hnx

theorem drainLink_walked : drainLink cmdCtx q v (u.walked q v.visited ops)
    = if nx < (u.queue q).n.toNat
        ∧ ((u.queue q).setTags .completedPendingReturn v.visited).tagAt (BitVec.ofNat 16 nx) = .submitted v.id then
        .ok (.flags { v with cur := BitVec.ofNat 16 nx },
          u.walked q v.visited (ops ++ [.memRead ((u.queue q).base.toNat + 16 * v.cur.toNat + 14) 2 nx]))
      else .ok (.finished true, markBroken q
        (u.walked q v.visited (ops ++ [.memRead ((u.queue q).base.toNat + 16 * v.cur.toNat + 14) 2 nx]))) := by
  have hread := memRead_walked (q := q) hgaps hwbuf v.visited hops hnx
  have hbase := State.base_walked u q v.visited ops
  unfold drainLink descAddr
  rw [hbase, hread, ok_bind]
  dsimp only
  rw [State.n_walked, State.queue_walked]
  rfl

/-- A link that stays in the chain is followed. -/
theorem DrainMove.link (hlt : nx < (u.queue q).n.toNat)
    (htag : ((u.queue q).setTags .completedPendingReturn v.visited).tagAt (BitVec.ofNat 16 nx) = .submitted v.id) :
    DrainMove q ({ out := out, pos := .link v }, u.walked q v.visited ops)
      ({ out := out, pos := .flags { v with cur := BitVec.ofNat 16 nx } },
        u.walked q v.visited (ops ++ [.memRead ((u.queue q).base.toNat + 16 * v.cur.toNat + 14) 2 nx])) := by
  refine ⟨fun c => by simp, ?_⟩
  simp only [drainStep, drainLink_walked hgaps hwbuf hops hnx, if_pos (And.intro hlt htag), ok_bind]

/-- A link out of range, out of the chain, or back is corrupt. -/
theorem DrainMove.link_fault (hno : ¬ (nx < (u.queue q).n.toNat
      ∧ ((u.queue q).setTags .completedPendingReturn v.visited).tagAt (BitVec.ofNat 16 nx) = .submitted v.id)) :
    DrainMove q ({ out := out, pos := .link v }, u.walked q v.visited ops) ({ out := out, pos := .finished true },
      markBroken q (u.walked q v.visited (ops ++ [.memRead ((u.queue q).base.toNat + 16 * v.cur.toNat + 14) 2 nx]))) := by
  refine ⟨fun c => by simp, ?_⟩
  simp only [drainStep, drainLink_walked hgaps hwbuf hops hnx, if_neg hno, ok_bind]

end

end

/-- The operation reads memory. -/
def BusOp.IsRead (o : BusOp) : Prop := ∃ a n v, o = .memRead a n v

theorem BusOp.IsRead.store {o : BusOp} (h : o.IsRead) : o.store = none := by
  obtain ⟨a, n, v, rfl⟩ := h
  rfl

theorem isRead_append {l l' : List BusOp} (h : ∀ o ∈ l, o.IsRead) (h' : ∀ o ∈ l', o.IsRead) : ∀ o ∈ l ++ l', o.IsRead :=
  fun o ho => (List.mem_append.1 ho).elim (h o) (h' o)

theorem isRead_snoc {l : List BusOp} (h : ∀ o ∈ l, o.IsRead) (a n v : Nat) :
    ∀ o ∈ l ++ [.memRead a n v], o.IsRead :=
  isRead_append h fun _ ho => ⟨a, n, v, List.mem_singleton.1 ho⟩

/-- The walk goes along descriptors that memory links, up to the last of them (41 R165). -/
theorem walk_moves {q : Role} {u : State} (hgaps : u.gaps = []) (hwbuf : u.wbuf = []) (out : List Drained)
    {rest : List DescIdx} {v : Visit} {ops : List BusOp} {last : DescIdx} (hops : ∀ o ∈ ops, o.IsRead)
    (hlinked : LinkedInMemory u (u.queue q).base.toNat (v.cur :: rest)) (hlast : (v.cur :: rest).getLast? = some last)
    (hnd : (v.visited ++ v.cur :: rest).Nodup)
    (hmem : ∀ d ∈ rest, d.toNat < (u.queue q).n.toNat ∧ (u.queue q).tagAt d = .submitted v.id) :
    ∃ more, (∀ o ∈ more, o.IsRead) ∧ DrainMoves q ({ out := out, pos := .flags v }, u.walked q v.visited ops)
      ({ out := out, pos := .flags { v with visited := v.visited ++ (v.cur :: rest).dropLast, cur := last } },
        u.walked q (v.visited ++ (v.cur :: rest).dropLast) (ops ++ more)) := by
  induction rest generalizing v ops with
  | nil =>
    obtain rfl : v.cur = last := Option.some.inj hlast
    refine ⟨[], by simp, ?_⟩
    simp only [List.dropLast_singleton, List.append_nil]
    exact .refl
  | cons e rest ih =>
    obtain ⟨⟨f, hf, hc⟩, hnx, hlinked⟩ := hlinked
    obtain ⟨⟨helt, hetag⟩, hmem⟩ := List.forall_mem_cons.1 hmem
    have hflags := DrainMove.flags_chained (out := out) hgaps hwbuf (fun o ho => (hops o ho).store) hf hc
    have hback : BitVec.ofNat 16 e.toNat = e := by simp
    have hnd' : (v.past.visited ++ e :: rest).Nodup := (List.append_cons ..) ▸ hnd
    have hnot : e ∉ v.past.visited := fun he => (List.nodup_append.1 hnd').2.2 e he e (List.mem_cons_self ..) rfl
    have hops1 := isRead_snoc hops ((u.queue q).base.toNat + 16 * v.cur.toNat + 12) 2 f
    have hops2 := isRead_snoc hops1 ((u.queue q).base.toNat + 16 * v.cur.toNat + 14) 2 e.toNat
    have hlink := DrainMove.link (v := v.past) (out := out) hgaps hwbuf (fun o ho => (hops1 o ho).store) hnx helt
      (by rw [hback]; exact ((u.queue q).tagAt_setTags_of_not_mem _ hnot).trans hetag)
    rw [hback] at hlink
    obtain ⟨more, hmore, hmoves⟩ := ih (v := { v.past with cur := e }) hops2 hlinked (by rw [← hlast]; rfl) hnd' hmem
    refine ⟨[.memRead ((u.queue q).base.toNat + 16 * v.cur.toNat + 12) 2 f,
      .memRead ((u.queue q).base.toNat + 16 * v.cur.toNat + 14) 2 e.toNat] ++ more, isRead_append ?_ hmore, .head hflags (.head hlink ?_)⟩
    · simp only [List.forall_mem_cons]
      exact ⟨⟨_, _, _, rfl⟩, ⟨_, _, _, rfl⟩, by simp⟩
    · have hpast : v.past.visited ++ (e :: rest).dropLast = v.visited ++ (v.cur :: e :: rest).dropLast := by
        simp [Visit.past]
      dsimp only at hmoves
      rw [hpast] at hmoves
      simpa [Visit.past] using hmoves

end Sys2Proof.Machine

namespace Sys2Proof.Machine

open Sys2Proof.Claims

/-! ## The end of a chain: its loans, its descriptors, its table (41 R165) -/

/-- The loans of a chain end one by one, until none of its buffers is lent. -/
theorem unlend_moves {q : Role} {v : Visit} (out : List Drained) {w : State} (hgaps : w.gaps = []) (hsound : w.PoolSound)
    (done : List Handle) : ∃ y done', DrainMoves q ({ out := out, pos := .unlend v done }, w)
      ({ out := out, pos := .unlend v done' }, y) ∧ y.lentTo q v.id = [] ∧ y = { w with pool := y.pool }
      ∧ y.pool.length = w.pool.length ∧ y.PoolSound ∧ (∀ a, y.byteAt a = w.byteAt a)
      ∧ ∀ k, y.slot k = w.slot k ∨ ((w.slot k).loan = some { q := q, head := v.id } ∧ (w.slot k).internal = false
          ∧ y.slot k = { w.slot k with loan := none }) := by
  induction hn : w.loanCount using Nat.strong_induction_on generalizing w done with
  | _ n ih =>
    cases hl : w.lentTo q v.id with
    | nil => exact ⟨w, done, .refl, hl, rfl, rfl, hsound, fun _ => rfl, fun k => .inl rfl⟩
    | cons h rest =>
      obtain ⟨hloan, hint⟩ := State.mem_lentTo (hl ▸ List.mem_cons_self ..)
      have hlt : h.toNat < w.pool.length := State.slot_lt fun hf => by
        rw [hf] at hloan
        cases hloan
      have hmove : DrainMove q ({ out := out, pos := .unlend v done }, w)
          ({ out := out, pos := .unlend v (done ++ [h]) }, endLoan h.toNat w) := by
        refine ⟨fun c => by simp, ?_⟩
        simp only [drainStep, show cmdCtx.gap w = .ok w from cmdGap_nil hgaps, ok_bind, hl]
        rfl
      have hself : (endLoan h.toNat w).slot h.toNat = { w.slot h.toNat with loan := none } :=
        State.slot_setSlot_self w _ hlt
      have hother : ∀ k, k ≠ h.toNat → (endLoan h.toNat w).slot k = w.slot k := fun k hk =>
        State.slot_setSlot_ne w _ hk
      have hsound1 : (endLoan h.toNat w).PoolSound := hsound.mono fun k => by
        by_cases hk : k = h.toNat
        · rw [hk, hself]
          exact .inr ⟨rfl, fun _ ha => ha⟩
        · exact .inl (hother k hk)
      obtain ⟨y, done', hmoves, hnone, hrest, hlen, hsoundy, hbytes, hslot⟩ := ih (endLoan h.toNat w).loanCount
        (hn ▸ State.loanCount_pool_set_lt rfl rfl (by rw [hloan]; rfl)) (by exact hgaps) hsound1 (done ++ [h]) rfl
      refine ⟨y, done', .head hmove hmoves, hnone, hrest, hlen.trans (List.length_set ..), hsoundy, fun a => ?_,
        fun k => ?_⟩
      · exact (hbytes a).trans (byteAt_relabel (y := { w.slot h.toNat with loan := none }) (fun _ => rfl) rfl a)
      · by_cases hk : k = h.toNat
        · subst hk
          rcases hslot h.toNat with hs | ⟨hs, -⟩
          · exact .inr ⟨hloan, hint, hs.trans hself⟩
          · rw [hself] at hs
            cases hs
        · rw [← hother k hk]
          exact hslot k

/-! ## What a drain has done so far (41 R164, R165) -/

/-- The two reads of used element `k` of a queue (20 R76). -/
def usedReads (x : Queue) (k id len : Nat) : List BusOp :=
  [.memRead (usedIdAddr x.base.toNat x.n.toNat k) 4 id, .memRead (usedLenAddr x.base.toNat x.n.toNat k) 4 len]

/-- `y` is `x` once these chains have been drained, its lock held by CMD. -/
structure Queue.Drained (x y : Queue) (done : List DoneChain) : Prop where
  rest : y = { x with
    lock := some .cmd
    free := x.free ++ done.flatMap fun c => c.order
    lastUsed := x.lastUsed + BitVec.ofNat 16 done.length
    desc := y.desc }
  entries : y.desc.length = x.desc.length
  tag : ∀ d, y.tagAt d = if ∃ c ∈ done, d ∈ c.order then .free else x.tagAt d
  desc : ∀ d, { y.descAt d with tag := x.tagAt d } = x.descAt d

/-- CMD's drain of queue `q` of `s` has reached `u`: these chains have been drained, these accesses made. -/
structure DrainedTo (s u : State) (q : Role) (done : List DoneChain) (ops : List BusOp) : Prop where
  rest : u = { s with
    queues := s.queues.set q (u.queue q)
    pool := u.pool
    mem := u.mem
    bus := s.bus ++ ops.map fun o => { agent := .cmd, op := o } }
  queue : (s.queue q).Drained (u.queue q) done
  members : ∀ c ∈ done, c.id ∈ c.order ∧ ∀ d ∈ c.order, (s.queue q).tagAt d = .submitted c.id
  slots : LoansGivenBack s u q done
  size : u.pool.length = s.pool.length
  sound : u.PoolSound
  bytes : SameLiveBytes s u

/-- What CMD's drain needs of the queue it begins with. -/
structure State.Drainable (s : State) (q : Role) : Prop where
  gaps : s.gaps = []
  wbuf : s.wbuf = []
  region : s.RegionLive q
  ring : s.RingSound q
  tables : ∀ k id, (s.slot k).loan = some { q := q, head := id } → (s.slot k).internal = true →
    ∃ t, ((s.queue q).descAt id).ind = some t ∧ t.toNat = k
  size : s.pool.length ≤ 65536
  sound : s.PoolSound
  working : (s.queue q).broken = false

section
variable {s u : State} {q : Role} {done : List DoneChain} {ops : List BusOp} (h : DrainedTo s u q done ops)
  (hs : s.Drainable q)
include h

theorem DrainedTo.n : (u.queue q).n = (s.queue q).n := by rw [h.queue.rest]
theorem DrainedTo.base : (u.queue q).base = (s.queue q).base := by rw [h.queue.rest]
theorem DrainedTo.cfg : u.cfg = s.cfg := by rw [h.rest]

theorem DrainedTo.usedPos : (u.queue q).usedPos
    = ((s.queue q).lastUsed + BitVec.ofNat 16 done.length).toNat % (s.queue q).n.toNat := by
  rw [Queue.usedPos, h.queue.rest]

theorem DrainedTo.desc (d : DescIdx) : ((u.queue q).descAt d).cookie = ((s.queue q).descAt d).cookie
    ∧ ((u.queue q).descAt d).chainLen = ((s.queue q).descAt d).chainLen
    ∧ ((u.queue q).descAt d).ind = ((s.queue q).descAt d).ind := by
  rw [← h.queue.desc d]
  exact ⟨rfl, rfl, rfl⟩

/-- The chains not drained yet are as they were. -/
theorem DrainedTo.tag_of_member {id d : DescIdx} (hid : ∀ c ∈ done, c.id ≠ id)
    (ht : (s.queue q).tagAt d = .submitted id) : (u.queue q).tagAt d = .submitted id := by
  rw [h.queue.tag, if_neg, ht]
  rintro ⟨c, hc, hd⟩
  have hown := (h.members c hc).2 d hd
  rw [ht] at hown
  exact hid c hc (Tag.submitted.inj hown).symm

include hs

theorem DrainedTo.gaps : u.gaps = [] := by rw [h.rest]; exact hs.gaps
theorem DrainedTo.wbuf : u.wbuf = [] := by rw [h.rest]; exact hs.wbuf

theorem DrainedTo.region : u.RegionLive q := by
  have hslot : u.slot (s.queue q).region.toNat = s.slot (s.queue q).region.toNat := by
    rw [h.slots, if_neg]
    rintro ⟨c, -, hloan⟩
    rw [hs.region.loan] at hloan
    cases hloan
  have hreg : (u.queue q).region = (s.queue q).region := by rw [h.queue.rest]
  refine ⟨?_, ?_, ?_, ?_, ?_, ?_, ?_, ?_⟩
  · rw [h.n]; exact hs.region.pos
  · rw [h.n]; exact hs.region.le
  · rw [h.n, h.queue.entries]; exact hs.region.entries
  all_goals rw [hreg, hslot]
  · exact hs.region.alloc
  · exact hs.region.internal
  · exact hs.region.loan
  · rw [h.n]; exact hs.region.len
  · rw [h.base]; exact hs.region.bus

omit hs in
/-- The region still reads as it did. -/
theorem DrainedTo.readLe {a n v : Nat} (hin : u.InSlot (u.queue q).region.toNat a n) (hv : s.readLe a n = some v) :
    u.readLe a n = some v :=
  (State.readLe_congr fun _ hk => h.bytes _ (hin.live hk)).trans hv

theorem DrainedTo.readLe_desc {d : DescIdx} {off n v : Nat} (hd : d.toNat < (s.queue q).n.toNat) (hoff : off + n ≤ 16)
    (hv : s.readLe ((s.queue q).base.toNat + 16 * d.toNat + off) n = some v) :
    u.readLe ((u.queue q).base.toNat + 16 * d.toNat + off) n = some v := by
  refine h.readLe ((h.region hs).descField (by rw [h.n]; exact hd) hoff) ?_
  rw [h.base]
  exact hv

theorem DrainedTo.chainedIs {d : DescIdx} {c : Bool} (hd : d.toNat < (s.queue q).n.toNat)
    (hc : ChainedIs s (s.queue q).base.toNat d c) : ChainedIs u (u.queue q).base.toNat d c := by
  obtain ⟨f, hf, hc⟩ := hc
  exact ⟨f, h.readLe_desc hs hd (by decide) hf, by rw [h.cfg]; exact hc⟩

theorem DrainedTo.linked {ds : List DescIdx} (hds : ∀ d ∈ ds, d.toNat < (s.queue q).n.toNat)
    (hl : LinkedInMemory s (s.queue q).base.toNat ds) : LinkedInMemory u (u.queue q).base.toNat ds := by
  induction ds with
  | nil => trivial
  | cons d rest ih =>
    obtain ⟨hd, hrest⟩ := List.forall_mem_cons.1 hds
    cases rest with
    | nil => trivial
    | cons e rest =>
      obtain ⟨hc, hnx, hl⟩ := hl
      exact ⟨h.chainedIs hs hd hc, h.readLe_desc hs hd (by decide) hnx, ih hrest hl⟩

section
variable {id len : Nat} (hused : UsedElement s q done.length id len) (out : List Drained) (rest : Nat)
include hused

/-- The read of the id of the used element at hand, and what the read of its length finds. -/
theorem DrainedTo.element_moves : DrainMove q ({ out := out, pos := .element rest }, u)
      ({ out := out, pos := .length rest id }, u.made ((usedReads (u.queue q) (u.queue q).usedPos id len).take 1))
    ∧ (u.made ((usedReads (u.queue q) (u.queue q).usedPos id len).take 1)).readLe
        (usedLenAddr (u.queue q).base.toNat (u.queue q).n.toNat (u.queue q).usedPos) 4 = some len
    ∧ (u.made ((usedReads (u.queue q) (u.queue q).usedPos id len).take 1)).wbuf = []
    ∧ usedReads (u.queue q) (u.queue q).usedPos id len = usedReads (s.queue q)
        (((s.queue q).lastUsed + BitVec.ofNat 16 done.length).toNat % (s.queue q).n.toNat) id len := by
  obtain ⟨hid, hlen⟩ := hused
  obtain ⟨hinId, hinLen⟩ := (h.region hs).usedElem
  have hreads : usedReads (u.queue q) (u.queue q).usedPos id len = usedReads (s.queue q)
        (((s.queue q).lastUsed + BitVec.ofNat 16 done.length).toNat % (s.queue q).n.toNat) id len := by
    unfold usedReads
    rw [h.usedPos, h.n, h.base]
  rw [← h.usedPos, ← h.n, ← h.base] at hid hlen
  refine ⟨DrainMove.element (h.gaps hs) (h.wbuf hs) (h.readLe hinId hid), ?_, ?_, hreads⟩
  · rw [State.readLe_made]
    exact h.readLe hinLen hlen
  · rw [State.made, h.wbuf hs]
    rfl

/-- A used element that names the head of a chain in flight begins the walk of that chain. -/
theorem DrainedTo.element_head (hlt : id < (s.queue q).n.toNat)
    (htag : (u.queue q).tagAt (BitVec.ofNat 16 id) = .submitted (BitVec.ofNat 16 id)) :
    DrainMoves q ({ out := out, pos := .element rest }, u)
      ({ out := out, pos := .flags (.first rest (BitVec.ofNat 16 id) (BitVec.ofNat 32 len)) },
        u.walked q [] (usedReads (s.queue q)
          (((s.queue q).lastUsed + BitVec.ofNat 16 done.length).toNat % (s.queue q).n.toNat) id len)) := by
  obtain ⟨hfirst, hlen, hwbuf, hreads⟩ := h.element_moves hs hused out rest
  have hmove := DrainMove.length (out := out) (rest := rest) (by exact h.gaps hs) hwbuf hlen (by rw [State.queue_made, h.n]; exact hlt)
    htag
  rw [← hreads, State.walked_nil]
  rw [State.made_made] at hmove
  exact .head hfirst (.single hmove)

/-- Another used element is corrupt. -/
theorem DrainedTo.element_fault (hno : ¬ (id < (s.queue q).n.toNat
      ∧ (u.queue q).tagAt (BitVec.ofNat 16 id) = .submitted (BitVec.ofNat 16 id))) :
    DrainMoves q ({ out := out, pos := .element rest }, u) ({ out := out, pos := .finished true },
      markBroken q (u.walked q [] (usedReads (s.queue q)
        (((s.queue q).lastUsed + BitVec.ofNat 16 done.length).toNat % (s.queue q).n.toNat) id len))) := by
  obtain ⟨hfirst, hlen, hwbuf, hreads⟩ := h.element_moves hs hused out rest
  have hmove := DrainMove.length_fault (out := out) (rest := rest) (id := id) (by exact h.gaps hs) hwbuf hlen
    (by rw [State.queue_made, h.n]; exact hno)
  rw [← hreads, State.walked_nil]
  rw [State.made_made] at hmove
  exact .head hfirst (.single hmove)

end

end

end Sys2Proof.Machine

namespace Sys2Proof.Machine

open Sys2Proof.Claims

/-! ## One chain of a drain (41 R165) -/

/-- One more chain has been drained. -/
theorem Queue.Drained.snoc {x y : Queue} {done : List DoneChain} {c : DoneChain} (h : x.Drained y done)
    (hin : ∀ d ∈ c.order, d.toNat < x.desc.length) :
    x.Drained ((y.setTags .completedPendingReturn c.order).reclaimed c.order) (done ++ [c]) := by
  have hentries : (y.setTags .completedPendingReturn c.order).desc.length = x.desc.length :=
    (Queue.setTags_sameShape ..).entries.trans h.entries
  refine ⟨?_, (Queue.reclaimed_sameShape ..).entries.trans hentries, fun d => ?_, fun d => ?_⟩
  · rw [Queue.reclaimed, Queue.setTags_eq, Queue.setTags_eq y, h.rest]
    simp [List.flatMap_append, BitVec.ofNat_add, BitVec.add_assoc]
  · have htag : ((y.setTags .completedPendingReturn c.order).reclaimed c.order).tagAt d
        = ((y.setTags .completedPendingReturn c.order).setTags .free c.order).tagAt d := rfl
    rw [htag]
    by_cases hd : d ∈ c.order
    · rw [Queue.tagAt_setTags_of_mem _ _ hd (by rw [hentries]; exact hin d hd), if_pos ⟨c, by simp, hd⟩]
    · rw [Queue.tagAt_setTags_of_not_mem _ _ hd, Queue.tagAt_setTags_of_not_mem _ _ hd, h.tag]
      simp [hd]
  · have hdesc : ((y.setTags .completedPendingReturn c.order).reclaimed c.order).descAt d
        = ((y.setTags .completedPendingReturn c.order).setTags .free c.order).descAt d := rfl
    rw [hdesc, Queue.descAt_setTags, Queue.descAt_setTags]
    exact h.desc d

section
variable {s u : State} {q : Role} {done : List DoneChain} {ops : List BusOp} (h : DrainedTo s u q done ops)
  (hs : s.Drainable q)
include h hs

/-- The walk of a chain not drained yet comes to the last descriptor that memory links. -/
theorem DrainedTo.walk_moves {id last : DescIdx} {ds : List DescIdx} {reads : List BusOp} (hid : ∀ c ∈ done, c.id ≠ id)
    (hm : MembersFrom s q id ds) (hl : LinkedInMemory s (s.queue q).base.toNat ds) (hlast : ds.getLast? = some last)
    (hreads : ∀ o ∈ reads, o.IsRead) (rest : Nat) (len : Word) (out : List Drained) :
    ∃ more, (∀ o ∈ more, o.IsRead) ∧ DrainMoves q
      ({ out := out, pos := .flags (.first rest id len) }, u.walked q [] reads)
      ({ out := out, pos := .flags { Visit.first rest id len with visited := ds.dropLast, cur := last } },
        u.walked q ds.dropLast (reads ++ more)) := by
  obtain ⟨hhead, hnd, hmem⟩ := hm
  obtain ⟨tl, rfl⟩ := List.head?_eq_some_iff.1 hhead
  exact Machine.walk_moves (v := .first rest id len) (h.gaps hs) (h.wbuf hs) out hreads
    (h.linked hs (fun d hd => (hmem d hd).1) hl) hlast (by simpa [Visit.first] using hnd) fun d hd =>
      ⟨by rw [h.n]; exact (hmem d (List.mem_cons_of_mem _ hd)).1,
        h.tag_of_member hid (hmem d (List.mem_cons_of_mem _ hd)).2⟩

/-- The walk of a completed chain is accepted. -/
theorem DrainedTo.accepted_moves {c : DoneChain} {last : DescIdx} {reads : List BusOp} (hid : ∀ c' ∈ done, c'.id ≠ c.id)
    (hm : MembersFrom s q c.id c.order) (hlen : c.order.length = ((s.queue q).descAt c.id).chainLen.toNat)
    (hl : LinkedInMemory s (s.queue q).base.toNat c.order) (hlast : c.order.getLast? = some last)
    (hend : ChainedIs s (s.queue q).base.toNat last false) (hreads : ∀ o ∈ reads, o.IsRead) (rest : Nat) (len : Word)
    (out : List Drained) : ∃ more, (∀ o ∈ more, o.IsRead) ∧ DrainMoves q
      ({ out := out, pos := .flags (.first rest c.id len) }, u.walked q [] reads)
      ({ out := out, pos := .unlend { Visit.first rest c.id len with visited := c.order, cur := last } [] },
        u.walked q c.order (reads ++ more)) := by
  obtain ⟨more, hmore, hmoves⟩ := h.walk_moves hs hid hm hl hlast hreads rest len out
  have hlastmem := List.mem_of_getLast? hlast
  obtain ⟨f, hf, hc⟩ := h.chainedIs hs (hm.2.2 _ hlastmem).1 hend
  have horder : c.order.dropLast ++ [last] = c.order := List.dropLast_append_getLast? last hlast
  have hflags := DrainMove.flags_last (q := q) (out := out) (h.gaps hs) (h.wbuf hs)
    (v := { Visit.first rest c.id len with visited := c.order.dropLast, cur := last })
    (fun o ho => (isRead_append hreads hmore o ho).store) hf hc (by
      rw [Visit.past]
      dsimp only
      rw [horder, hlen, ← (h.desc c.id).2.1]
      rfl)
  unfold Visit.past at hflags
  dsimp only at hflags
  rw [horder] at hflags
  refine ⟨_, isRead_snoc hmore _ _ _, hmoves.tail (List.append_assoc .. ▸ hflags)⟩

end

/-! ### The state after a chain has been reclaimed -/

/-- Accesses that store nothing are only logged. -/
theorem State.made_of_reads {ops : List BusOp} (hops : ∀ o ∈ ops, o.IsRead) (s : State) :
    s.made ops = { s with bus := s.bus ++ ops.map fun o => { agent := .cmd, op := o } } := by
  have hstores : ops.filterMap BusOp.store = [] := List.filterMap_eq_nil_iff.2 fun o ho => (hops o ho).store
  rw [State.made, hstores, List.append_nil]

/-- The move that reclaims a chain none of whose buffers is lent any more. -/
theorem DrainMove.reclaim {q : Role} {y : State} {v : Visit} {lent : List Handle} (out : List Drained)
    (hgaps : y.gaps = []) (hnone : y.lentTo q v.id = []) : ∃ hs, DrainMove q
      ({ out := out, pos := .unlend v lent }, y)
      ({ out := out ++ [{ cookie := ((y.queue q).descAt v.id).cookie, len := v.len, handles := hs }],
         pos := nextElement v.rest }, Machine.reclaim q v.id v.visited y) := by
  refine ⟨lent ++ [], fun c => by simp, ?_⟩
  simp only [drainStep, show cmdCtx.gap y = .ok y from cmdGap_nil hgaps, ok_bind, hnone]
  rfl

theorem reclaim_eq (q : Role) (id : DescIdx) (order : List DescIdx) (y : State) : reclaim q id order y = { y with
    queues := y.queues.set q ((y.queue q).reclaimed order)
    pool := (reclaim q id order y).pool
    mem := (reclaim q id order y).mem } := by
  cases hind : ((y.queue q).descAt id).ind with
  | none => rw [reclaim_of_no_table hind]; rfl
  | some t => rw [reclaim_of_table hind]; rfl

theorem reclaim_slot (q : Role) (id : DescIdx) (order : List DescIdx) (y : State) (k : Nat) :
    (reclaim q id order y).slot k
      = if ∃ t, ((y.queue q).descAt id).ind = some t ∧ t.toNat = k then Slot.free else y.slot k := by
  cases hind : ((y.queue q).descAt id).ind with
  | none => rw [reclaim_of_no_table hind, if_neg (by simp)]; rfl
  | some t =>
    rw [reclaim_of_table hind, State.slot_poolFree]
    simp [eq_comm]

theorem reclaim_length (q : Role) (id : DescIdx) (order : List DescIdx) (y : State) :
    (reclaim q id order y).pool.length = y.pool.length := by
  cases hind : ((y.queue q).descAt id).ind with
  | none => rw [reclaim_of_no_table hind]; rfl
  | some t => rw [reclaim_of_table hind]; exact List.length_set ..

/-- Reclaiming a chain whose table is live leaves the bytes of all other slots. -/
theorem reclaim_sound {q : Role} {id : DescIdx} (order : List DescIdx) {y : State} (hy : y.PoolSound)
    (ht : ∀ t, ((y.queue q).descAt id).ind = some t → (y.slot t.toNat).alloc = true) :
    (reclaim q id order y).PoolSound ∧ SameLiveBytes y (reclaim q id order y) := by
  have hset : (y.setQueue q ((y.queue q).reclaimed order)).PoolSound := ⟨hy.apart, hy.lent⟩
  cases hind : ((y.queue q).descAt id).ind with
  | none =>
    rw [reclaim_of_no_table hind]
    exact ⟨hset, fun _ _ => rfl⟩
  | some t =>
    rw [reclaim_of_table hind]
    exact ⟨hset.poolFree _, poolFree_sameLiveBytes hset (ht t hind)⟩

/-- No buffer of the chain is lent any more: what is, is its table. -/
theorem State.internal_of_lentTo_nil {y : State} {q : Role} {id : DescIdx} (hnone : y.lentTo q id = [])
    (hsize : y.pool.length ≤ 65536) {k : Nat} (hl : (y.slot k).loan = some { q := q, head := id }) :
    (y.slot k).internal = true := by
  have hlt : k < y.pool.length := State.slot_lt fun hf => by
    rw [hf] at hl
    cases hl
  obtain ⟨x, hx, rfl⟩ := List.mem_map.1 (State.mem_handles hsize hlt)
  by_contra hint
  have hmem : x ∈ y.lentTo q id := List.mem_filter.2 ⟨hx, by simpa [hl] using hint⟩
  rw [hnone] at hmem
  cases hmem

section
variable {s u y : State} {q : Role} {done : List DoneChain} {ops : List BusOp} {c : DoneChain}
  (h : DrainedTo s u q done ops) (hs : s.Drainable q) (hid : ∀ c' ∈ done, c'.id ≠ c.id) (hnone : y.lentTo q c.id = [])
  (hsize : y.pool.length ≤ 65536)
  (hslot : ∀ k, y.slot k = u.slot k ∨ ((u.slot k).loan = some { q := q, head := c.id } ∧ (u.slot k).internal = false
          ∧ y.slot k = { u.slot k with loan := none }))
include h hid

/-- The slots lent to a chain not drained yet are as they were. -/
theorem DrainedTo.slot_of_chain (k : Nat) : (u.slot k).loan = some { q := q, head := c.id }
    ↔ (s.slot k).loan = some { q := q, head := c.id } := by
  rw [h.slots]
  split
  · rename_i hdone
    obtain ⟨c', hc', hl⟩ := hdone
    have hne : (s.slot k).loan ≠ some { q := q, head := c.id } := fun heq => by
      rw [hl] at heq
      exact hid c' hc' (Loan.mk.inj (Option.some.inj heq)).2
    refine ⟨fun hu => ?_, fun heq => absurd heq hne⟩
    split at hu
    · cases hu
    · cases hu
  · exact Iff.rfl

theorem DrainedTo.slot_eq_of_chain {k : Nat} (hl : (s.slot k).loan = some { q := q, head := c.id }) :
    u.slot k = s.slot k := by
  rw [h.slots, if_neg]
  rintro ⟨c', hc', hl'⟩
  rw [hl] at hl'
  exact hid c' hc' (Loan.mk.inj (Option.some.inj hl')).2.symm

include hs hnone hsize hslot

/-- The loans of the chain have ended, and its table is free. -/
theorem DrainedTo.loans_reclaimed (hind : ((y.queue q).descAt c.id).ind = ((s.queue q).descAt c.id).ind)
    (htag : (s.queue q).tagAt c.id = .submitted c.id) :
    LoansGivenBack s (reclaim q c.id c.order y) q (done ++ [c]) := by
  intro k
  rw [reclaim_slot, hind]
  by_cases hl : (s.slot k).loan = some { q := q, head := c.id }
  · have huk := h.slot_eq_of_chain hid hl
    have hlent : ∃ c' ∈ done ++ [c], (s.slot k).loan = some { q := q, head := c'.id } := ⟨c, by simp, hl⟩
    rw [if_pos hlent]
    by_cases hint : (s.slot k).internal = true
    · rw [if_pos (hs.tables k c.id hl hint), if_pos hint]
    · rw [if_neg, if_neg hint]
      · rcases hslot k with heq | ⟨-, -, heq⟩
        · rw [huk] at heq
          have := State.internal_of_lentTo_nil hnone hsize (heq ▸ hl : (y.slot k).loan = _)
          rw [heq] at this
          exact absurd this hint
        · rw [heq, huk]
      · rintro ⟨t, ht, rfl⟩
        exact hint ((hs.ring.tables c.id htag) t ht).2.1
  · have hyk : y.slot k = u.slot k := (hslot k).resolve_right fun hr => hl ((h.slot_of_chain hid k).1 hr.1)
    rw [if_neg, hyk, h.slots]
    · simp [hl]
    · rintro ⟨t, ht, rfl⟩
      exact hl ((hs.ring.tables c.id htag) t ht).2.2

end

theorem DrainedTo.walked_rest {s u : State} {q : Role} {done : List DoneChain} {ops reads : List BusOp}
    (h : DrainedTo s u q done ops) (hreads : ∀ o ∈ reads, o.IsRead) (visited : List DescIdx) :
    u.walked q visited reads = { s with
      queues := s.queues.set q ((u.queue q).setTags .completedPendingReturn visited)
      pool := u.pool
      mem := u.mem
      bus := s.bus ++ (ops ++ reads).map fun o => { agent := .cmd, op := o } } := by
  have hrest := h.rest
  rw [State.walked, State.made_of_reads hreads]
  generalize (u.queue q).setTags .completedPendingReturn visited = x
  generalize u.queue q = x', u.pool = p, u.mem = m at hrest ⊢
  rw [hrest]
  simp [State.setQueue]

/-- One more chain has been drained, once its loans have ended and it has been reclaimed. -/
theorem DrainedTo.reclaimed {s u y : State} {q : Role} {done : List DoneChain} {ops reads : List BusOp} {c : DoneChain}
    (h : DrainedTo s u q done ops) (hs : s.Drainable q) (hid : ∀ c' ∈ done, c'.id ≠ c.id)
    (hm : MembersFrom s q c.id c.order) (hreads : ∀ o ∈ reads, o.IsRead) (hnone : y.lentTo q c.id = [])
    (hy : y = { u.walked q c.order reads with pool := y.pool }) (hlen : y.pool.length = u.pool.length)
    (hsound : y.PoolSound) (hbytes : ∀ a, y.byteAt a = (u.walked q c.order reads).byteAt a)
    (hslot : ∀ k, y.slot k = u.slot k ∨ ((u.slot k).loan = some { q := q, head := c.id } ∧ (u.slot k).internal = false
          ∧ y.slot k = { u.slot k with loan := none })) :
    DrainedTo s (reclaim q c.id c.order y) q (done ++ [c]) (ops ++ reads) := by
  obtain ⟨hhead, -, hmem⟩ := hm
  have hidmem : c.id ∈ c.order := List.mem_of_mem_head? hhead
  have hqueue : y.queue q = (u.queue q).setTags .completedPendingReturn c.order := by
    rw [hy]
    exact State.queue_walked u q c.order reads
  have hind : ((y.queue q).descAt c.id).ind = ((s.queue q).descAt c.id).ind := by
    rw [hqueue, Queue.ind_setTags, (h.desc c.id).2.2]
  have hreclaimed : (reclaim q c.id c.order y).queue q
      = ((u.queue q).setTags .completedPendingReturn c.order).reclaimed c.order := by
    rw [reclaim_eq, ← hqueue]
    exact PerRole.get_set_self ..
  have halloc : ∀ t, ((y.queue q).descAt c.id).ind = some t → (y.slot t.toNat).alloc = true := fun t ht => by
    rw [hind] at ht
    obtain ⟨ha, -, hl⟩ := (hs.ring.tables c.id (hmem _ hidmem).2) t ht
    have hu := h.slot_eq_of_chain hid hl
    rcases hslot t.toNat with heq | ⟨-, -, heq⟩
    · rw [heq, hu, ha]
    · rw [heq, hu]
      exact ha
  obtain ⟨hsound', hbytes'⟩ := reclaim_sound c.order hsound halloc
  refine ⟨?_, ?_, ?_, ?_, ?_, hsound', ?_⟩
  · rw [hreclaimed, ← hqueue]
    refine (reclaim_eq ..).trans ?_
    generalize (reclaim q c.id c.order y).pool = pool, (reclaim q c.id c.order y).mem = mem
    generalize (y.queue q).reclaimed c.order = x
    rw [hy, h.walked_rest hreads]
    simp only [PerRole.set_set]
  · rw [hreclaimed]
    exact h.queue.snoc fun d hd => by
      rw [hs.region.entries]
      exact (hmem d hd).1
  · intro c' hc'
    rcases List.mem_append.1 hc' with hc' | hc'
    · exact h.members c' hc'
    · rw [List.mem_singleton.1 hc']
      exact ⟨hidmem, fun d hd => (hmem d hd).2⟩
  · exact h.loans_reclaimed hs hid hnone (by rw [hlen, h.size]; exact hs.size) hslot hind (hmem _ hidmem).2
  · rw [reclaim_length, hlen, h.size]
  · refine sameLiveBytes_trans h.bytes (sameLiveBytes_trans (fun a _ => (hbytes a).trans ?_) hbytes')
    exact State.byteAt_congr rfl rfl

/-! ### A completed chain, and any number of them -/

theorem usedReads_isRead (x : Queue) (k id len : Nat) : ∀ o ∈ usedReads x k id len, o.IsRead := by
  simp only [usedReads, List.forall_mem_cons]
  exact ⟨⟨_, _, _, rfl⟩, ⟨_, _, _, rfl⟩, by simp⟩

/-- The chain that the used element at hand names has been completed. -/
structure ChainCompleted (s : State) (q : Role) (j : Nat) (c : DoneChain) : Prop where
  used : UsedElement s q j c.id.toNat c.len
  members : MembersFrom s q c.id c.order
  length : c.order.length = ((s.queue q).descAt c.id).chainLen.toNat
  linked : LinkedInMemory s (s.queue q).base.toNat c.order
  last : ∃ d, c.order.getLast? = some d ∧ ChainedIs s (s.queue q).base.toNat d false

/-- What a drain puts out for a chain (30 R115). -/
def chainWords (x : Queue) (c : DoneChain) : List Word :=
  [(x.descAt c.id).cookie.setWidth 32, BitVec.ofNat 32 c.len]

theorem drainWords_append (l l' : List Drained) : drainWords (l ++ l') = drainWords l ++ drainWords l' := by
  induction l with
  | nil => rfl
  | cons d rest ih => simp [drainWords, ih]

/-- A drain takes a completed chain: its walk, the end of its loans, its reclaim (41 R165). -/
theorem DrainedTo.chain_moves {s u : State} {q : Role} {done : List DoneChain} {ops : List BusOp} {c : DoneChain}
    (h : DrainedTo s u q done ops) (hs : s.Drainable q) (hid : ∀ c' ∈ done, c'.id ≠ c.id)
    (hc : ChainCompleted s q done.length c) (out : List Drained) (rest : Nat) : ∃ u' d reads,
      DrainMoves q ({ out := out, pos := .element rest }, u) ({ out := out ++ [d], pos := nextElement rest }, u')
      ∧ DrainedTo s u' q (done ++ [c]) (ops ++ reads) ∧ (∀ o ∈ reads, o.IsRead)
      ∧ reads.head? = some (.memRead (usedIdAddr (s.queue q).base.toNat (s.queue q).n.toNat
          (((s.queue q).lastUsed + BitVec.ofNat 16 done.length).toNat % (s.queue q).n.toNat)) 4 c.id.toNat)
      ∧ drainWords [d] = chainWords (s.queue q) c := by
  obtain ⟨hused, hm, hlength, hlinked, last, hlast, hend⟩ := hc
  have hidmem : c.id ∈ c.order := List.mem_of_mem_head? hm.1
  obtain ⟨hidlt, hidtag⟩ := hm.2.2 _ hidmem
  have hback : BitVec.ofNat 16 c.id.toNat = c.id := by simp
  have hhead := h.element_head hs hused out rest hidlt (by rw [hback]; exact h.tag_of_member hid hidtag)
  rw [hback] at hhead
  obtain ⟨first, hfirst⟩ : ∃ l, l = usedReads (s.queue q)
    (((s.queue q).lastUsed + BitVec.ofNat 16 done.length).toNat % (s.queue q).n.toNat) c.id.toNat c.len := ⟨_, rfl⟩
  have hreads : ∀ o ∈ first, o.IsRead := hfirst ▸ usedReads_isRead _ _ _ _
  rw [← hfirst] at hhead
  obtain ⟨more, hmore, hwalk⟩ := h.accepted_moves hs hid hm hlength hlinked hlast hend hreads rest
    (BitVec.ofNat 32 c.len) out
  obtain ⟨y, lent, hunlend, hnone, hy, hlen, hsound, hbytes, hslot⟩ := unlend_moves (q := q) out
    (v := { Visit.first rest c.id (BitVec.ofNat 32 c.len) with visited := c.order, cur := last })
    (w := u.walked q c.order (first ++ more)) (h.gaps hs) ⟨h.sound.apart, h.sound.lent⟩ []
  obtain ⟨handles, hreclaim⟩ := DrainMove.reclaim out (lent := lent) (by rw [hy]; exact h.gaps hs) hnone
  refine ⟨_, _, _, hhead.trans (hwalk.trans (hunlend.trans (.single hreclaim))),
    h.reclaimed hs hid hm (isRead_append hreads hmore) hnone hy hlen hsound hbytes hslot, isRead_append hreads hmore,
    by rw [hfirst]; rfl, ?_⟩
  have hcookie : ((y.queue q).descAt c.id).cookie = ((s.queue q).descAt c.id).cookie := by
    have hwalked : (((u.walked q c.order (first ++ more)).queue q).descAt c.id).cookie
        = ((s.queue q).descAt c.id).cookie := by
      rw [State.queue_walked, Queue.descAt_setTags, ← (h.desc c.id).1]
    rw [hy]
    exact hwalked
  simp only [drainWords, chainWords, ← hcookie]
  rfl

/-- The reads of a drain after its FENCE: the first of them is of the id of the oldest used element (20 R82). -/
structure ReadsSoFar (x : Queue) (done : List DoneChain) (reads : List BusOp) : Prop where
  isRead : ∀ o ∈ reads, o.IsRead
  nonempty : done ≠ [] → reads ≠ []
  first : ∀ o, reads.head? = some o →
    ∃ id, o = .memRead (usedIdAddr x.base.toNat x.n.toNat (x.lastUsed.toNat % x.n.toNat)) 4 id

theorem ReadsSoFar.append {x : Queue} {done : List DoneChain} {reads more : List BusOp} (h : ReadsSoFar x done reads)
    (hmore : ∀ o ∈ more, o.IsRead) {id : Nat} (hfirst : more.head? = some (.memRead (usedIdAddr x.base.toNat x.n.toNat
      ((x.lastUsed + BitVec.ofNat 16 done.length).toNat % x.n.toNat)) 4 id)) (done' : List DoneChain) :
    ReadsSoFar x done' (reads ++ more) := by
  obtain ⟨tl, rfl⟩ := List.head?_eq_some_iff.1 hfirst
  refine ⟨isRead_append h.isRead hmore, fun _ => by simp, fun o ho => ?_⟩
  cases reads with
  | nil =>
    have hdone : done = [] := by
      by_contra hne
      exact h.nonempty hne rfl
    subst hdone
    obtain rfl := Option.some.inj ho
    exact ⟨id, by simp⟩
  | cons r rest => exact h.first o ho

/-- A drain takes any number of completed chains in used-ring order. -/
theorem DrainedTo.chains_moves {s : State} {q : Role} (hs : s.Drainable q) {start : List BusOp} (cs : List DoneChain)
    (extra : Nat) {u : State} {done : List DoneChain} {reads : List BusOp} {out : List Drained}
    (h : DrainedTo s u q done (start ++ reads)) (hreads : ReadsSoFar (s.queue q) done reads)
    (hids : ((done ++ cs).map fun c => c.id).Nodup) (hcs : ∀ k c, cs[k]? = some c → ChainCompleted s q (done.length + k) c)
    (hout : drainWords out = drainedWords (s.queue q) done) : ∃ u' out' reads',
      DrainMoves q ({ out := out, pos := nextElement (cs.length + extra) }, u)
        ({ out := out', pos := nextElement extra }, u')
      ∧ DrainedTo s u' q (done ++ cs) (start ++ reads') ∧ ReadsSoFar (s.queue q) (done ++ cs) reads'
      ∧ drainWords out' = drainedWords (s.queue q) (done ++ cs) := by
  induction cs generalizing u done reads out with
  | nil =>
    simp only [List.append_nil, List.length_nil, Nat.zero_add]
    exact ⟨u, out, reads, .refl, h, hreads, hout⟩
  | cons c cs ih =>
    have hid : ∀ c' ∈ done, c'.id ≠ c.id := fun c' hc' heq => by
      rw [List.map_append, List.nodup_append] at hids
      exact hids.2.2 c'.id (List.mem_map_of_mem hc') c.id (by simp) heq
    obtain ⟨u1, d, more, hmoves, h1, hmore, hfirst, hd⟩ := h.chain_moves hs hid (hcs 0 c rfl) out (cs.length + extra)
    rw [List.append_assoc] at h1
    obtain ⟨u', out', reads', hrest, h', hreads', hout'⟩ := ih (out := out ++ [d]) h1 (hreads.append hmore hfirst (done ++ [c]))
      (by simpa using hids) (fun k c' hk => by
        have := hcs (k + 1) c' hk
        rwa [List.length_append, List.length_singleton, Nat.add_assoc, Nat.add_comm 1 k])
      (by rw [drainWords_append, hout, hd]; simp [drainedWords, chainWords])
    rw [List.append_assoc] at h' hreads' hout'
    refine ⟨u', out', reads', ?_, h', hreads', hout'⟩
    rw [List.length_cons, Nat.add_right_comm]
    exact hmoves.trans hrest

end Sys2Proof.Machine

namespace Sys2Proof.Machine

open Sys2Proof.Claims

/-! ## Corruption (41 R166) -/

section
variable {s u : State} {q : Role} {done : List DoneChain} {ops : List BusOp} (h : DrainedTo s u q done ops)
  (hs : s.Drainable q)
include h hs

/-- A link that leads out of range, out of the chain or back. -/
theorem DrainedTo.link_corrupt {id : DescIdx} {visited : List DescIdx} {nx : Nat} (hm : MembersFrom s q id visited)
    (hbad : (s.queue q).n.toNat ≤ nx ∨ (s.queue q).tagAt (BitVec.ofNat 16 nx) ≠ .submitted id
      ∨ BitVec.ofNat 16 nx ∈ visited) : ¬ (nx < (u.queue q).n.toNat
        ∧ ((u.queue q).setTags .completedPendingReturn visited).tagAt (BitVec.ofNat 16 nx) = .submitted id) := by
  rintro ⟨hlt, ht⟩
  rw [h.n] at hlt
  by_cases hv : BitVec.ofNat 16 nx ∈ visited
  · rw [Queue.tagAt_setTags_of_mem _ _ hv (by
      rw [h.queue.entries, hs.region.entries]
      exact (hm.2.2 _ hv).1)] at ht
    cases ht
  · rw [Queue.tagAt_setTags_of_not_mem _ _ hv, h.queue.tag] at ht
    split at ht
    · cases ht
    · rcases hbad with hge | hne | hin
      · omega
      · exact hne ht
      · exact hv hin

/-- A walk that finds corruption after these descriptors ends there (41 R166). -/
theorem DrainedTo.walk_faults {id last : DescIdx} {visited : List DescIdx} {reads : List BusOp}
    (hid : ∀ c ∈ done, c.id ≠ id) (hm : MembersFrom s q id visited)
    (hl : LinkedInMemory s (s.queue q).base.toNat visited) (hlast : visited.getLast? = some last)
    (hbad : (ChainedIs s (s.queue q).base.toNat last false
          ∧ visited.length ≠ ((s.queue q).descAt id).chainLen.toNat)
        ∨ (ChainedIs s (s.queue q).base.toNat last true
          ∧ ∃ nx, s.readLe ((s.queue q).base.toNat + 16 * last.toNat + 14) 2 = some nx
            ∧ ((s.queue q).n.toNat ≤ nx ∨ (s.queue q).tagAt (BitVec.ofNat 16 nx) ≠ .submitted id
              ∨ BitVec.ofNat 16 nx ∈ visited)))
    (hreads : ∀ o ∈ reads, o.IsRead) (rest : Nat) (len : Word) (out : List Drained) :
    ∃ more, (∀ o ∈ more, o.IsRead) ∧ DrainMoves q
      ({ out := out, pos := .flags (.first rest id len) }, u.walked q [] reads)
      ({ out := out, pos := .finished true }, markBroken q (u.walked q visited (reads ++ more))) := by
  obtain ⟨more, hmore, hmoves⟩ := h.walk_moves hs hid hm hl hlast hreads rest len out
  have hlastlt := (hm.2.2 _ (List.mem_of_getLast? hlast)).1
  have horder : visited.dropLast ++ [last] = visited := List.dropLast_append_getLast? last hlast
  have hall := isRead_append hreads hmore
  rcases hbad with ⟨hend, hlen⟩ | ⟨hend, nx, hnx, hbad⟩
  · obtain ⟨f, hf, hc⟩ := h.chainedIs hs hlastlt hend
    have hflags := DrainMove.flags_fault (q := q) (out := out) (h.gaps hs) (h.wbuf hs)
      (v := { Visit.first rest id len with visited := visited.dropLast, cur := last })
      (fun o ho => (hall o ho).store) hf hc (by
        rw [Visit.past]
        dsimp only
        rw [horder, (h.desc _).2.1]
        exact hlen)
    unfold Visit.past at hflags
    dsimp only at hflags
    rw [horder] at hflags
    exact ⟨_, isRead_snoc hmore _ _ _, hmoves.tail (List.append_assoc .. ▸ hflags)⟩
  · obtain ⟨f, hf, hc⟩ := h.chainedIs hs hlastlt hend
    have hflags := DrainMove.flags_chained (q := q) (out := out) (h.gaps hs) (h.wbuf hs)
      (v := { Visit.first rest id len with visited := visited.dropLast, cur := last })
      (fun o ho => (hall o ho).store) hf hc
    have hall1 := isRead_snoc hall ((u.queue q).base.toNat + 16 * last.toNat + 12) 2 f
    have hlink := DrainMove.link_fault (q := q) (out := out) (h.gaps hs) (h.wbuf hs)
      (v := { Visit.first rest id len with visited := visited, cur := last })
      (fun o ho => (hall1 o ho).store) (h.readLe_desc hs hlastlt (by decide) hnx) (h.link_corrupt hs hm hbad)
    unfold Visit.past at hflags
    dsimp only at hflags
    rw [horder] at hflags
    refine ⟨_, isRead_snoc (isRead_snoc hmore ((u.queue q).base.toNat + 16 * last.toNat + 12) 2 f)
      ((u.queue q).base.toNat + 16 * last.toNat + 14) 2 nx, (hmoves.tail hflags).tail ?_⟩
    rw [← List.append_assoc, ← List.append_assoc]
    exact hlink

/-- A drain that comes to a corrupt used element ends there (41 R166). -/
theorem DrainedTo.corrupt_moves {visited : List DescIdx} (hbad : ElementCorrupt s q done visited) (rest : Nat)
    (out : List Drained) : ∃ more, (∀ o ∈ more, o.IsRead)
      ∧ (∃ id, more.head? = some (.memRead (usedIdAddr (s.queue q).base.toNat (s.queue q).n.toNat
          (((s.queue q).lastUsed + BitVec.ofNat 16 done.length).toNat % (s.queue q).n.toNat)) 4 id))
      ∧ DrainMoves q ({ out := out, pos := .element rest }, u)
          ({ out := out, pos := .finished true }, markBroken q (u.walked q visited more)) := by
  obtain ⟨id, len, hused, hcases⟩ := hbad
  have hreads := usedReads_isRead (s.queue q)
    (((s.queue q).lastUsed + BitVec.ofNat 16 done.length).toNat % (s.queue q).n.toNat) id len
  rcases hcases with ⟨rfl, hno⟩ | ⟨hlt, hnew, hm, hl, last, hlast, hend⟩
  · refine ⟨_, hreads, ⟨id, rfl⟩, h.element_fault hs hused out rest ?_⟩
    rintro ⟨hlt, ht⟩
    rw [h.queue.tag] at ht
    split at ht
    · cases ht
    · rename_i hnot
      rcases hno with hge | hne | ⟨c, hc, hcid⟩
      · omega
      · exact hne ht
      · refine hnot ⟨c, hc, ?_⟩
        rw [← hcid, BitVec.ofNat_toNat, BitVec.setWidth_eq]
        exact (h.members c hc).1
  · have hid : ∀ c ∈ done, c.id ≠ BitVec.ofNat 16 id := fun c hc heq => hnew c hc (by
      rw [heq, BitVec.toNat_ofNat]
      exact Nat.mod_eq_of_lt (hlt.trans (s.queue q).n.isLt))
    have hhead := h.element_head hs hused out rest hlt
      (h.tag_of_member hid (hm.2.2 _ (List.mem_of_mem_head? hm.1)).2)
    obtain ⟨more, hmore, hmoves⟩ := h.walk_faults hs hid hm hl hlast hend hreads rest (BitVec.ofNat 32 len) out
    exact ⟨_, isRead_append hreads hmore, ⟨id, rfl⟩, hhead.trans hmoves⟩

end

/-! ## The start and the result of a drain -/

/-- The accesses with which a drain begins: the used index, a FENCE (20 R82, 41 R164). -/
def startOps (x : Queue) (idx : Nat) : List BusOp :=
  [.memRead (usedIdxAddr x.base.toNat x.n.toNat) 2 idx, .fence]

theorem State.safe_drainable {s : State} {q : Role} (hsafe : s.safe = true) (hgaps : s.gaps = [])
    (hv : (s.queue q).valid = true) (hb : (s.queue q).broken = false) (hlock : (s.queue q).lock = none) :
    s.Drainable q := by
  refine ⟨hgaps, (State.safe_tidy hsafe).stores rfl, State.safe_region hsafe q hv,
    State.safe_ringSound hsafe hv hb (State.safe_ring_of_unlocked hsafe hlock), fun k id hl hint => ?_,
    (State.safe_pool hsafe).1, State.safe_poolSound hsafe, hb⟩
  have hk : k < s.pool.length := State.slot_lt fun hf => by
    rw [hf] at hl
    cases hl
  obtain ⟨hnat, hok⟩ := State.safe_loan hsafe hk
  have hover : (s.toHandOver.contains (BitVec.ofNat 16 k) && s.dq == q) = false := by
    refine Bool.eq_false_iff.2 fun hover => ?_
    obtain ⟨hmem, hdq⟩ := Bool.and_eq_true_iff.1 hover
    unfold State.toHandOver at hmem
    split at hmem
    · rename_i r hr
      have := ((State.safe_tidy hsafe).disp q).2 ⟨by rw [hr]; rfl, beq_iff_eq.1 hdq⟩
      rw [hlock] at this
      cases this
    · cases hmem
  simp only [State.loanOk, hnat, hl, hb, hint, hover, Bool.not_true, Bool.false_or, Bool.and_eq_true, beq_iff_eq] at hok
  exact ⟨_, hok.2.2, hnat⟩

/-- A drain after the read of the used index and its FENCE: nothing drained yet. -/
theorem State.Drainable.start {s : State} {q : Role} (hs : s.Drainable q) (idx : Nat) : DrainedTo s
    ((s.setQueue q { s.queue q with lock := some .cmd }).made (startOps (s.queue q) idx)) q []
    (startOps (s.queue q) idx ++ []) := by
  have hqueue : ((s.setQueue q { s.queue q with lock := some .cmd }).made (startOps (s.queue q) idx)).queue q
      = { s.queue q with lock := some .cmd } := State.queue_setQueue_self ..
  refine ⟨?_, ?_, by simp, fun k => ?_, rfl, ⟨hs.sound.apart, hs.sound.lent⟩, fun a _ => rfl⟩
  · rw [hqueue, State.made, List.append_nil]
    simp [startOps, BusOp.store, State.setQueue]
  · rw [hqueue]
    refine ⟨?_, rfl, fun d => ?_, fun d => rfl⟩
    · simp
    · rw [if_neg (by simp)]
      rfl
  · rw [if_neg (by simp)]
    rfl

theorem State.Drainable.start_moves {s : State} {q : Role} (hs : s.Drainable q) {idx : Nat}
    (hidx : s.readLe (usedIdxAddr (s.queue q).base.toNat (s.queue q).n.toNat) 2 = some idx) :
    DrainMove q ({ out := [], pos := .start }, s.setQueue q { s.queue q with lock := some .cmd })
      (if (s.queue q).n.toNat < (BitVec.ofNat 16 idx - (s.queue q).lastUsed).toNat
        then ({ out := [], pos := .finished true },
          markBroken q ((s.setQueue q { s.queue q with lock := some .cmd }).made (startOps (s.queue q) idx)))
        else ({ out := [], pos := nextElement (BitVec.ofNat 16 idx - (s.queue q).lastUsed).toNat },
          (s.setQueue q { s.queue q with lock := some .cmd }).made (startOps (s.queue q) idx))) := by
  have hmove := fun p t => DrainMove.start (s := s.setQueue q { s.queue q with lock := some .cmd }) (q := q) (out := [])
    (idx := idx) hs.gaps hs.wbuf (by simpa using hs.working) (by simpa using hidx) (p := p) (t := t)
  simp only [State.queue_setQueue_self] at hmove
  split
  · rename_i hahead
    exact hmove _ _ (if_pos hahead)
  · rename_i hahead
    exact hmove _ _ (if_neg hahead)

/-- What a drain leaves that has drained these chains, and then either found no more or met corruption after these
descriptors: the state in which its lock has been given back and its answer sent. -/
def State.drainEnd (u : State) (q : Role) (visited : List DescIdx) (more : List BusOp) (corrupt : Bool)
    (words : List Word) : State :=
  ((u.walked q visited more).setQueue q
    { (u.walked q visited more).queue q with broken := corrupt, lock := none }).respond
      (if corrupt then .ringCorrupt else .ok) words

section
variable {s u : State} {q : Role} {done : List DoneChain} {idx : Nat} {reads more : List BusOp} {visited : List DescIdx}
  {corrupt : Bool} {words : List Word} (h : DrainedTo s u q done (startOps (s.queue q) idx ++ reads))
include h

omit h in
theorem State.queue_drainEnd : (u.drainEnd q visited more corrupt words).queue q
    = { (u.queue q).setTags .completedPendingReturn visited with broken := corrupt, lock := none } := by
  rw [State.drainEnd, State.queue_walked]
  exact PerRole.get_set_self ..

/-- What the drain leaves of its queue. -/
theorem DrainedTo.queueDrained (hs : s.Drainable q) (hlock : (s.queue q).lock = none)
    (hin : ∀ d ∈ visited, d.toNat < (s.queue q).n.toNat) (hapart : ∀ c ∈ done, ∀ d ∈ c.order, d ∉ visited) :
    QueueDrained s (u.drainEnd q visited more corrupt words) q done visited corrupt := by
  have htag : ∀ d, ((u.drainEnd q visited more corrupt words).queue q).tagAt d
      = ((u.queue q).setTags .completedPendingReturn visited).tagAt d := fun d => by
    rw [State.queue_drainEnd]
    rfl
  refine ⟨?_, ?_, ?_, fun c hc d hd => ?_, fun d hd => ?_, fun d hout hd => ?_, fun d => ?_, ?_⟩
  · rw [State.queue_drainEnd]
    exact (Queue.setTags_free ..).trans (by rw [h.queue.rest])
  · rw [State.queue_drainEnd]
    exact (Queue.setTags_lastUsed ..).trans (by rw [h.queue.rest])
  · rw [State.queue_drainEnd]
  · rw [htag, Queue.tagAt_setTags_of_not_mem _ _ (hapart c hc d hd), h.queue.tag, if_pos ⟨c, hc, hd⟩]
  · rw [htag, Queue.tagAt_setTags_of_mem _ _ hd (by rw [h.queue.entries, hs.region.entries]; exact hin d hd)]
  · rw [htag, Queue.tagAt_setTags_of_not_mem _ _ hd, h.queue.tag, if_neg fun ⟨c, hc, hm⟩ => hout c hc hm]
  · rw [State.queue_drainEnd]
    refine Eq.trans ?_ (h.queue.desc d)
    exact congrArg (fun e => { e with tag := (s.queue q).tagAt d }) (Queue.descAt_setTags ..)
  · rw [State.queue_drainEnd, Queue.setTags_eq, h.queue.rest]
    exact Queue.unlocked hlock

/-- The accesses of the drain. -/
theorem DrainedTo.drainReads (hidx : s.readLe (usedIdxAddr (s.queue q).base.toNat (s.queue q).n.toNat) 2 = some idx)
    (hmore : ∀ o ∈ more, o.IsRead) (hreads : ReadsSoFar (s.queue q) done (reads ++ more)) :
    DrainReads s (u.drainEnd q visited more corrupt words) q done := by
  refine ⟨idx, reads ++ more, hidx, ?_, hreads.isRead, hreads.nonempty, hreads.first⟩
  have hbus := congrArg State.bus (h.walked_rest hmore visited)
  exact hbus.trans (by rw [List.append_assoc]; rfl)

/-- Everything else stays. -/
theorem DrainedTo.drainEnd_rest (hmore : ∀ o ∈ more, o.IsRead) :
    Answered (if corrupt then .ringCorrupt else .ok) words s (u.drainEnd q visited more corrupt words)
      ∧ LoansGivenBack s (u.drainEnd q visited more corrupt words) q done
      ∧ SameOtherQueues q s (u.drainEnd q visited more corrupt words)
      ∧ SameGlobals s (u.drainEnd q visited more corrupt words)
      ∧ SameLiveBytes s (u.drainEnd q visited more corrupt words) := by
  refine ⟨?_, h.slots, fun p hp => ?_, ?_, fun a ha => (State.byteAt_congr rfl rfl).trans (h.bytes a ha)⟩
  · rw [Answered, State.drainEnd, h.walked_rest hmore]
    rfl
  · rw [State.drainEnd, h.walked_rest hmore]
    exact (PerRole.get_set_ne _ _ hp).trans (PerRole.get_set_ne _ _ hp)
  · rw [SameGlobals, State.drainEnd, h.walked_rest hmore]
    exact ⟨rfl, rfl, rfl, rfl, rfl, rfl, rfl, rfl, rfl, rfl, rfl, rfl, rfl, rfl, rfl, rfl, rfl, rfl, rfl⟩

end

/-! ## The obligations about VQ.DRAIN (41 R164 to R167) -/

/-- The drain of a queue that ends in order gives its lock back. -/
theorem DrainedTo.unlock {s u : State} {q : Role} {done : List DoneChain} {ops : List BusOp}
    (h : DrainedTo s u q done ops) (hs : s.Drainable q) (words : List Word) :
    (Machine.unlock q u).respond .ok words = u.drainEnd q [] [] false words := by
  have hb : (u.queue q).broken = false := by
    rw [h.queue.rest]
    exact hs.working
  have hqueue : { u.queue q with lock := none } = { u.queue q with broken := false, lock := none } := by
    rw [← hb]
  rw [State.drainEnd, State.walked_nil, State.made_nil, Machine.unlock, hqueue]
  rfl

theorem unlock_markBroken (q : Role) (u : State) (visited : List DescIdx) (more : List BusOp) (words : List Word) :
    (unlock q (markBroken q (u.walked q visited more))).respond .ringCorrupt words
      = u.drainEnd q visited more true words := by
  rw [markBroken, unlock_setQueue]
  rfl

theorem ReadsSoFar.nil (x : Queue) : ReadsSoFar x [] [] := ⟨by simp, by simp, by simp⟩

theorem chainCompleted_of_getElem? {s : State} {q : Role} {chains : List DoneChain} (h : ChainsCompleted s q chains)
    {j : Nat} {c : DoneChain} (hc : chains[j]? = some c) : ChainCompleted s q j c := by
  obtain ⟨hused, hm, hlen, hl, hlast⟩ := h.2 j c hc
  exact ⟨hused, hm, hlen, hl, hlast⟩

/-- Different chains are no more than the queue has descriptors. -/
theorem chainsCompleted_length_le {s : State} {q : Role} {chains : List DoneChain} (h : ChainsCompleted s q chains) :
    chains.length ≤ (s.queue q).n.toNat := by
  have hnd : (chains.map fun c => c.id.toNat).Nodup := by
    have := h.1.map (f := BitVec.toNat) fun _ _ => BitVec.eq_of_toNat_eq
    rwa [List.map_map] at this
  have hsub : chains.map (fun c => c.id.toNat) ⊆ List.range (s.queue q).n.toNat := fun i hi => by
    obtain ⟨c, hc, rfl⟩ := List.mem_map.1 hi
    obtain ⟨j, hj⟩ := List.getElem?_of_mem hc
    obtain ⟨-, ⟨hhead, -, hm⟩, -⟩ := h.2 j c hj
    exact List.mem_range.2 (hm _ (List.mem_of_mem_head? hhead)).1
  have := (List.subperm_of_subset hnd hsub).length_le
  rwa [List.length_map, List.length_range] at this

/-- The drain up to the end of the completed chains. -/
theorem State.Drainable.chains_moves {s : State} {q : Role} (hs : s.Drainable q) {chains : List DoneChain}
    (hchains : ChainsCompleted s q chains) (idx extra : Nat) : ∃ u' out' reads',
    DrainMoves q ({ out := [], pos := nextElement (chains.length + extra) },
        (s.setQueue q { s.queue q with lock := some .cmd }).made (startOps (s.queue q) idx))
      ({ out := out', pos := nextElement extra }, u')
    ∧ DrainedTo s u' q chains (startOps (s.queue q) idx ++ reads') ∧ ReadsSoFar (s.queue q) chains reads'
    ∧ drainWords out' = drainedWords (s.queue q) chains := by
  have h := DrainedTo.chains_moves hs chains extra (out := []) (hs.start idx) (ReadsSoFar.nil _)
    (by simpa using hchains.1) (fun k c hk => by simpa using chainCompleted_of_getElem? hchains hk) rfl
  simpa using h

/-- Settles O31. -/
theorem drainReturnsCompletedChains : Obligations.DrainReturnsCompletedChains := by
  intro s q chains hsafe hgaps hv hb hlock hfinds
  obtain ⟨hchains, idx, hidx, hcount, -⟩ := hfinds
  have hs := State.safe_drainable hsafe hgaps hv hb hlock
  have hle := chainsCompleted_length_le hchains
  have hpend : (BitVec.ofNat 16 idx - (s.queue q).lastUsed).toNat = chains.length := by
    have := hs.region.le
    rw [hcount]
    simp
    omega
  have hstart := hs.start_moves hidx
  rw [hpend, if_neg (Nat.not_lt_of_le hle)] at hstart
  obtain ⟨u, out, reads, hmoves, h, hreads, hout⟩ := hs.chains_moves hchains idx 0
  have hexec := exec_vqDrain_of_moves hsafe hv hlock (.head hstart hmoves)
  rw [hout] at hexec
  obtain ⟨hanswer, hloans, hqueues, hglobals, hbytes⟩ := h.drainEnd_rest (visited := []) (more := []) (corrupt := false)
    (words := drainedWords (s.queue q) chains) (by simp)
  exact ⟨_, hexec.trans (congrArg _ (h.unlock hs _)), hanswer, h.queueDrained hs hlock (by simp) (by simp), hloans,
    h.drainReads hidx (by simp) (by simpa using hreads), hqueues, hglobals, hbytes⟩

/-- What a corrupt element's walk has visited belongs to none of the chains drained before it. -/
theorem DrainedTo.visited_apart {s u : State} {q : Role} {done : List DoneChain} {ops : List BusOp}
    {visited : List DescIdx} (h : DrainedTo s u q done ops) (hbad : ElementCorrupt s q done visited) :
    (∀ d ∈ visited, d.toNat < (s.queue q).n.toNat) ∧ ∀ c ∈ done, ∀ d ∈ c.order, d ∉ visited := by
  obtain ⟨id, len, -, ⟨rfl, -⟩ | ⟨hlt, hnew, ⟨-, -, hm⟩, -⟩⟩ := hbad
  · simp
  · refine ⟨fun d hd => (hm d hd).1, fun c hc d hd hv => hnew c hc ?_⟩
    have htag := (h.members c hc).2 d hd
    rw [(hm d hv).2] at htag
    rw [← Tag.submitted.inj htag, BitVec.toNat_ofNat]
    exact Nat.mod_eq_of_lt (hlt.trans (s.queue q).n.isLt)

/-- Settles O32. -/
theorem drainStopsAtCorruption : Obligations.DrainStopsAtCorruption := by
  intro s q chains visited hsafe hgaps hv hb hlock hfinds
  obtain ⟨hchains, idx, hidx, hcase⟩ := hfinds
  have hs := State.safe_drainable hsafe hgaps hv hb hlock
  have hstart := hs.start_moves hidx
  rcases hcase with ⟨hahead, rfl, rfl⟩ | ⟨hmore, hle, hbad⟩
  · rw [if_pos hahead] at hstart
    have h := hs.start idx
    have hexec := exec_vqDrain_of_moves hsafe hv hlock (.single hstart)
    have hend := unlock_markBroken q ((s.setQueue q { s.queue q with lock := some .cmd }).made (startOps (s.queue q) idx))
      [] [] (drainedWords (s.queue q) [])
    rw [State.walked_nil, State.made_nil] at hend
    obtain ⟨hanswer, hloans, hqueues, hglobals, hbytes⟩ := h.drainEnd_rest (visited := []) (more := []) (corrupt := true)
      (words := drainedWords (s.queue q) []) (by simp)
    exact ⟨_, hexec.trans (congrArg _ hend), hanswer, h.queueDrained hs hlock (by simp) (by simp), hloans,
      h.drainReads hidx (by simp) (ReadsSoFar.nil _), hqueues, hglobals, hbytes⟩
  · obtain ⟨rest, hrest⟩ : ∃ rest, (BitVec.ofNat 16 idx - (s.queue q).lastUsed).toNat = chains.length + (rest + 1) :=
      (Nat.exists_eq_add_of_lt hmore).imp fun _ h => h
    rw [if_neg (Nat.not_lt_of_le hle), hrest] at hstart
    obtain ⟨u, out, reads, hmoves, h, hreads, hout⟩ := hs.chains_moves hchains idx (rest + 1)
    obtain ⟨more, hisRead, ⟨id, hfirst⟩, hfault⟩ := h.corrupt_moves hs hbad rest out
    have hexec := exec_vqDrain_of_moves hsafe hv hlock (.head hstart (hmoves.trans hfault))
    rw [hout] at hexec
    obtain ⟨hin, hapart⟩ := h.visited_apart hbad
    obtain ⟨hanswer, hloans, hqueues, hglobals, hbytes⟩ := h.drainEnd_rest (visited := visited) (corrupt := true)
      (words := drainedWords (s.queue q) chains) hisRead
    exact ⟨_, hexec.trans (congrArg _ (unlock_markBroken ..)), hanswer, h.queueDrained hs hlock hin hapart, hloans,
      h.drainReads hidx hisRead (hreads.append hisRead hfirst chains), hqueues, hglobals, hbytes⟩

end Sys2Proof.Machine

namespace Sys2Proof.Machine

open Sys2Proof.Claims

/-! ## The lowest free handle, and what a reservation does with PLAT's answer (42 R182) -/

theorem State.lowestFree_eq_some {s : State} {h : Nat} (hh : h < s.pool.length) (hfree : (s.slot h).alloc = false)
    (hlow : ∀ k, k < h → (s.slot k).alloc = true) : s.lowestFree = some h := by
  rw [State.lowestFree, List.findIdx?_eq_some_iff_getElem]
  refine ⟨hh, by simpa [State.slot_eq_getElem hh] using hfree, fun k hk => ?_⟩
  simpa [State.slot_eq_getElem (hk.trans hh)] using hlow k hk

theorem State.lowestFree_eq_none_iff {s : State} :
    s.lowestFree = none ↔ ∀ k, k < s.pool.length → (s.slot k).alloc = true := by
  rw [State.lowestFree, List.findIdx?_eq_none_iff, List.forall_mem_iff_forall_getElem]
  refine forall₂_congr fun k hk => ?_
  rw [State.slot_eq_getElem hk, Bool.not_eq_false']

section
variable {s s1 : State} {len : Word} (hlen : len ≠ 0)
include hlen

theorem execPoolReserve_of_full (dir : Dir) (hlow : s.lowestFree = none) :
    execPoolReserve dir len s = .next (s.respond .queueFull []) := by
  simp only [execPoolReserve, if_neg hlen, poolReserve, hlow]

theorem execPoolReserve_of_refusal (dir : Dir) {h : Nat} (hlow : s.lowestFree = some h)
    (hplat : s.platAlloc len.toNat = (none, s1)) :
    execPoolReserve dir len s = .next (s1.respond .queueFull []) := by
  simp only [execPoolReserve, if_neg hlen, poolReserve, hlow, hplat]

end

/-- The slot of a buffer for which PLAT has granted memory at `b`, its bytes the free values of draw `k` (42 R182). -/
def Slot.buffer (dir : Dir) (len : Word) (b : Addr) (k : Nat) : Slot :=
  { alloc := true, bus := b, len := len, dir := dir, internal := false, loan := none, orphan := false, fill := .draw k }

/-- What a reservation leaves of `s`: slot `h` taken by `y`, the answers of PLAT used up that `s1` has used up, and one
free value drawn after those of `s1` (42 R182). -/
def State.withReserved (s s1 : State) (h : Nat) (y : Slot) : State :=
  { s with pool := s.pool.set h y, platAllocs := s1.platAllocs, draws := s1.draws + 1 }

section
variable {s s1 : State} (dir : Dir) {len : Word} {h : Nat} {b : Addr}

theorem poolReserve_of_grant (hlow : s.lowestFree = some h) (hplat : s.platAlloc len.toNat = (some b, s1)) :
    poolReserve false dir len s = (some h, s.withReserved s1 h (Slot.buffer dir len b s1.draws)) := by
  simp only [poolReserve, hlow, hplat]
  rw [State.platAlloc_eq hplat]
  rfl

theorem execPoolReserve_of_grant (hlen : len ≠ 0) (hlow : s.lowestFree = some h)
    (hplat : s.platAlloc len.toNat = (some b, s1)) :
    execPoolReserve dir len s
      = .next ((s.withReserved s1 h (Slot.buffer dir len b s1.draws)).respond .ok [BitVec.ofNat 32 h]) := by
  rw [execPoolReserve, if_neg hlen, poolReserve_of_grant dir hlow hplat]

end

/-! ## The bytes of a slot that is taken (10 R46, 42 R181) -/

theorem Slot.buffer_covers_iff {dir : Dir} {len : Word} {b : Addr} {k a : Nat} :
    (Slot.buffer dir len b k).covers a = true
      ↔ b.toNat ≤ a ∧ a < b.toNat + 4096 * ((len.toNat + 4095) / 4096) := by
  rw [Slot.covers_iff]
  exact and_iff_right rfl

theorem State.allocLegal_aligned {s : State} {len : Nat} {b : Addr} (h : s.allocLegal len b = true) :
    b.toNat % 4096 = 0 := by
  simp only [State.allocLegal, Bool.and_eq_true, beq_iff_eq] at h
  obtain ⟨⟨haligned, -⟩, -⟩ := h
  exact haligned

/-- Memory lists no byte that does not exist. -/
theorem State.find_eq_none_of_dead {s : State} (hs : s.canonical) {a : Nat} (hdead : poolKind s.pool a = .dead) :
    Memory.find s.mem a = none := by
  refine Option.eq_none_iff_forall_not_mem.2 fun b hb => ?_
  have := ((Memory.wf_iff _ _).1 hs).2 _ (Memory.find_mem hb)
  rwa [hdead] at this

section
variable {s s1 : State} {h : Nat} {y : Slot} {a : Nat}

/-- Taking a free slot leaves every byte that the new slot does not cover. -/
theorem State.withReserved_byteAt_outside (hfree : (s.slot h).alloc = false) (hout : y.covers a = false) :
    (s.withReserved s1 h y).byteAt a = s.byteAt a := by
  have hdead : (s.slot h).covers a = false := by rw [Slot.covers, hfree, Bool.false_and, Bool.false_and]
  exact State.byteAt_congr (poolKind_set _ _ _ _ hdead hout) rfl

/-- A byte that comes to exist with a slot of free values reads as one of them. -/
theorem State.withReserved_byteAt_fresh (hs : s.canonical) (hh : h < s.pool.length) {k : Nat}
    (hdead : poolKind s.pool a = .dead) (hc : y.covers a = true) (hfill : y.fill = .draw k) :
    (s.withReserved s1 h y).byteAt a = some (Config.freshByte k a) := by
  have hkind : poolKind (s.withReserved s1 h y).pool a = .fresh k :=
    (poolKind_set_of_dead hh hdead hc).trans (congrArg Fill.kind hfill)
  have hfind : Memory.find (s.withReserved s1 h y).mem a = none := State.find_eq_none_of_dead hs hdead
  simp only [State.byteAt, hkind, hfind, Option.getD_none]

end

/-! ## The bytes of a slot that is freed (42 R186) -/

theorem poolFree_byteAt_inside {s : State} (hs : s.PoolSound) {n a : Nat} (hc : (s.slot n).covers a = true) :
    (poolFree n s).byteAt a = none := by
  have hdead : poolKind (poolFree n s).pool a = .dead := by
    by_contra hlive
    obtain ⟨k, hk⟩ := State.live_iff.1 hlive
    rw [State.slot_poolFree] at hk
    split at hk
    · cases hk
    · exact absurd (hs.apart a k n hk hc) ‹_›
  rw [State.byteAt, hdead]

theorem poolFree_byteAt_outside {s : State} {n a : Nat} (hn : (s.slot n).alloc = true)
    (hout : (s.slot n).covers a = false) : (poolFree n s).byteAt a = s.byteAt a := by
  refine State.byteAt_congr (poolKind_set _ _ _ _ hout rfl) ((Memory.find_eraseRange ..).trans (if_neg fun hin => ?_))
  rw [Slot.covers_iff.2 ⟨hn, hin⟩] at hout
  cases hout

/-! ## What POOL.RELEASE answers in each state of the slot (42 R184, 10 R33) -/

section
variable {s : State} {h : Handle}

theorem execPoolRelease_out_of_range (hh : s.cfg.poolSlots ≤ h.toNat) :
    execPoolRelease h s = refuse .illegalCommand s := by
  rw [execPoolRelease, if_neg fun hin => Nat.not_lt_of_le hh hin.1]

/-- The answer turns on the slot's state alone. -/
theorem execPoolRelease_in_range (hh : h.toNat < s.cfg.poolSlots) :
    execPoolRelease h s = match (s.slot h.toNat).state with
      | .free | .internal => refuse .illegalCommand s
      | .loaned | .orphan => refuse .bufferInFlight s
      | .owned => .next ((poolFree h.toNat s).respond .ok []) := by
  unfold execPoolRelease Slot.state
  by_cases halloc : (s.slot h.toNat).alloc = true
  · by_cases hint : (s.slot h.toNat).internal = true
    · simp [hh, halloc, hint]
    · cases hloan : (s.slot h.toNat).loan with
      | some l => simp [hh, halloc, hint]
      | none => cases horphan : (s.slot h.toNat).orphan <;> simp [hh, halloc, hint]
  · simp [halloc]

end

/-! ## The obligations about the pool -/

/-- Settles O16: the granted pages held no live byte, so nothing is listed in them and they read as the free values. -/
theorem reserveTakesLowestFreeHandle : Obligations.ReserveTakesLowestFreeHandle := by
  intro s s1 dir len h b hlen _ hh hfree hlow hplat
  have hlegal := State.allocLegal_of_platAlloc hplat
  refine ⟨_, execPoolReserve_of_grant dir hlen (State.lowestFree_eq_some hh hfree hlow) hplat, rfl,
    State.slot_setSlot_self s _ hh, fun k hk => State.slot_setSlot_ne s _ hk, State.allocLegal_aligned hlegal, rfl,
    fun a ha => (State.byteAt_respond ..).trans (State.withReserved_byteAt_outside hfree ?_),
    fun hcanon a hlo hhi => (State.byteAt_respond ..).trans (State.withReserved_byteAt_fresh hcanon hh
      (State.allocLegal_dead hlegal hlo hhi) (Slot.buffer_covers_iff.2 ⟨hlo, hhi⟩) rfl)⟩
  refine Bool.eq_false_iff.2 fun hc => ?_
  have hin := Slot.buffer_covers_iff.1 hc
  have hout := ha _ (List.mem_singleton.2 rfl)
  omega

/-- Settles O18: in a safe state no other slot covers the bytes of the freed one. -/
theorem releaseFreesOwnedSlot : Obligations.ReleaseFreesOwnedSlot := by
  intro s h hsafe hh howned
  have hexec := execPoolRelease_in_range hh
  rw [howned] at hexec
  exact ⟨_, hexec, rfl, (State.slot_poolFree ..).trans (if_pos rfl),
    fun k hk => (State.slot_poolFree ..).trans (if_neg hk), rfl,
    fun a hc => poolFree_byteAt_inside (State.safe_poolSound hsafe) hc,
    fun a hout => poolFree_byteAt_outside (Slot.state_owned howned) hout⟩

/-- Settles O17: the table is searched before PLAT is asked, so a full table uses up no answer of PLAT's. -/
theorem reserveExhaustionIsQueueFull : Obligations.ReserveExhaustionIsQueueFull := by
  intro s s1 dir len
  refine ⟨rfl, fun hlen hfull => execPoolReserve_of_full hlen dir (State.lowestFree_eq_none_iff.2 hfull),
    fun hlen ⟨k, hk, hfree⟩ hplat => ⟨?_, by rw [State.platAlloc_eq hplat]⟩⟩
  cases hlow : s.lowestFree with
  | none =>
    rw [State.lowestFree_eq_none_iff.1 hlow k hk] at hfree
    cases hfree
  | some h => exact execPoolReserve_of_refusal hlen dir hlow hplat

/-- Settles O19, by the states of 10 R33. -/
theorem releaseRefusedUnlessOwned : Obligations.ReleaseRefusedUnlessOwned := by
  intro s h
  refine ⟨execPoolRelease_out_of_range, fun hh hstate => (execPoolRelease_in_range hh).trans ?_,
    fun hh hstate => (execPoolRelease_in_range hh).trans ?_⟩
  · obtain hfree | hinternal := hstate
    · rw [hfree]
      rfl
    · rw [hinternal]
      rfl
  · obtain hloaned | horphan := hstate
    · rw [hloaned]
      rfl
    · rw [horphan]
      rfl

end Sys2Proof.Machine

namespace Sys2Proof.Machine

/-! ## What the other agents leave of the bring-up machine (43 R200, 44 R231, R239) -/

/-- `t` has CMD's fields and the existing and wired queues of `s`; the dispatcher still rests where it rested with the
handler off. -/
structure SameOrder (s t : State) : Prop where
  cmd : SameCmd s t
  queue : ∀ q, (t.queue q).valid = (s.queue q).valid ∧ (t.queue q).wired = (s.queue q).wired
  rest : s.irqEn = false → s.disp = .idle → t.disp = .idle

theorem SameOrder.refl (s : State) : SameOrder s s := ⟨.refl s, fun _ => ⟨rfl, rfl⟩, fun _ => id⟩

theorem SameOrder.trans {s t u : State} (h : SameOrder s t) (g : SameOrder t u) : SameOrder s u :=
  ⟨h.cmd.trans g.cmd, fun q => ⟨(g.queue q).1.trans (h.queue q).1, (g.queue q).2.trans (h.queue q).2⟩,
    fun hi hd => g.rest (h.cmd.irqEn.trans hi) (h.rest hi hd)⟩

theorem SameOrder.of_rings {s t : State} (hc : SameCmd s t) (h : SameRings s t) : SameOrder s t := by
  refine ⟨hc, fun q => by rw [h.queue q]; exact ⟨rfl, rfl⟩, fun hi hd => ?_⟩
  rcases h.disp with h1 | ⟨h1, -, -⟩
  · exact h1.trans hd
  · rw [hi] at h1
    cases h1

theorem SameOrder.of_eq {s t : State} {p : List Slot} {i : BitVec 8} {dq : Role} {w : WalkPos} {dev : Device}
    {m : Memory} {cp ep : List Word} {hs : List Byte} {wb : List Store} {b : List Access} {g : List (List Act)} {n : Nat}
    (h : t = { s with pool := p, isrLat := i, dq := dq, walk := w, dev := dev, mem := m, cmdPort := cp, eventPort := ep
                      hostSeen := hs, wbuf := wb, bus := b, gaps := g, draws := n }) : SameOrder s t := by
  subst h
  exact ⟨.of_eq rfl, fun _ => ⟨rfl, rfl⟩, fun _ => id⟩

theorem SameOrder.setQueue (s : State) {q : Role} {x : Queue} (hv : x.valid = (s.queue q).valid)
    (hw : x.wired = (s.queue q).wired) : SameOrder s (s.setQueue q x) := by
  refine ⟨.of_eq rfl, fun p => ?_, fun _ => id⟩
  rw [State.queue_setQueue]
  split
  · rename_i hp
    rw [hp]
    exact ⟨hv, hw⟩
  · exact ⟨rfl, rfl⟩

theorem Queue.setTags_wired (x : Queue) (t : Tag) (order : List DescIdx) : (x.setTags t order).wired = x.wired := by
  induction order generalizing x with
  | nil => rfl
  | cons i rest ih => exact ih (x.setTag i t)

/-! ### Accesses and the steps of a drain -/

/-- What happens before an access of this agent leaves the bring-up machine in order. -/
def Ctx.KeepsOrder (c : Ctx) : Prop := ∀ s : State, Ensures (c.gap s) (SameOrder s)

theorem dispCtx_keepsOrder : dispCtx.KeepsOrder := fun s => .ok (.refl s)

theorem sameOrder_drainStores (c : Ctx) (s : State) : SameOrder s (c.drainStores s) :=
  .of_rings (sameCmd_drainStores c s) (sameRings_drainStores c s)

theorem sameOrder_windowRead (s : State) (w : Win) (off n : Nat) : SameOrder s (s.windowRead w off n).2 :=
  .of_rings (.of_eq (State.windowRead_eq ..)) (sameRings_windowRead ..)

theorem sameOrder_windowWrite (s : State) (w : Win) (off : Nat) (bytes : List Byte) :
    SameOrder s (s.windowWrite w off bytes) :=
  .of_rings (.of_eq (State.windowWrite_eq ..)) (sameRings_windowWrite ..)

section
variable {c : Ctx} (hc : c.KeepsOrder) (s : State)
include hc

theorem regRead_order (w : Win) (off n : Nat) : Ensures (regRead c w off n s) (fun r => SameOrder s r.2) :=
  (hc s).bind fun s1 h1 => .ok <|
    ((h1.trans (sameOrder_drainStores c s1)).trans (sameOrder_windowRead _ w off n)).trans (.of_eq rfl)

theorem regWrite_order (w : Win) (off n v : Nat) : Ensures (regWrite c w off n v s) (SameOrder s) :=
  (hc s).bind fun s1 h1 => .ok <|
    ((h1.trans (sameOrder_drainStores c s1)).trans (sameOrder_windowWrite _ w off _)).trans (.of_eq rfl)

theorem pciRead_order (r : PciReg) : Ensures (pciRead c r s) (fun r => SameOrder s r.2) :=
  (hc s).bind fun _ h1 => .ok (h1.trans (.of_eq rfl))

theorem memRead_order (a n : Nat) : Ensures (memRead c a n s) (fun r => SameOrder s r.2) :=
  (hc s).bind fun _ h1 => Ensures.bind_any fun _ => .ok (h1.trans (.of_eq rfl))

theorem memWrite_order (a n v : Nat) : Ensures (memWrite c a n v s) (SameOrder s) :=
  (hc s).bind fun _ h1 => Ensures.bind_any fun _ => .ok (h1.trans (.of_eq rfl))

theorem fence_order : Ensures (fence c s) (SameOrder s) :=
  (hc s).bind fun s1 h1 => .ok ((h1.trans (sameOrder_drainStores c s1)).trans (.of_eq rfl))

theorem readLink_order : Ensures (readLink c s) (fun r => SameOrder s r.2) := by
  unfold readLink
  split
  · exact (regRead_order hc s _ _ _).bind fun _ h1 => .ok h1
  · exact .ok (.refl s)

omit hc in
theorem drainFault_order (q : Role) : SameOrder s (drainFault q s).2 := .setQueue s rfl rfl

theorem drainStart_order (q : Role) : Ensures (drainStart c q s) (fun r => SameOrder s r.2) := by
  unfold drainStart
  split
  · exact .ok (.refl s)
  · refine (memRead_order hc s _ _).bind fun r h1 => (fence_order hc r.2).bind fun s2 h2 => ?_
    dsimp only
    split
    · exact .ok ((h1.trans h2).trans (drainFault_order s2 q))
    · exact .ok (h1.trans h2)

theorem drainLength_order (q : Role) (rest id : Nat) :
    Ensures (drainLength c q rest id s) (fun r => SameOrder s r.2) := by
  refine (memRead_order hc s _ _).bind fun r h1 => ?_
  dsimp only
  split
  · exact .ok h1
  · exact .ok (h1.trans (drainFault_order r.2 q))

theorem drainFlags_order (q : Role) (v : Visit) : Ensures (drainFlags c q v s) (fun r => SameOrder s r.2) := by
  have h0 : SameOrder s (s.setQueue q ((s.queue q).setTag v.cur .completedPendingReturn)) := .setQueue s rfl rfl
  refine (memRead_order hc _ _ _).bind fun r h1 => ?_
  dsimp only
  split
  · exact .ok (h0.trans h1)
  · split
    · exact .ok (h0.trans h1)
    · exact .ok ((h0.trans h1).trans (drainFault_order r.2 q))

theorem drainLink_order (q : Role) (v : Visit) : Ensures (drainLink c q v s) (fun r => SameOrder s r.2) := by
  refine (memRead_order hc s _ _).bind fun r h1 => ?_
  dsimp only
  split
  · exact .ok h1
  · exact .ok (h1.trans (drainFault_order r.2 q))

omit hc in
theorem reclaim_order (q : Role) (id : DescIdx) (order : List DescIdx) : SameOrder s (reclaim q id order s) := by
  have h1 : SameOrder s (s.setQueue q ((s.queue q).reclaimed order)) :=
    .setQueue s (Queue.reclaimed_sameShape ..).valid (Queue.setTags_wired ..)
  cases hind : ((s.queue q).descAt id).ind with
  | none =>
    rw [reclaim_of_no_table hind]
    exact h1
  | some t =>
    rw [reclaim_of_table hind]
    exact h1.trans (.of_eq (poolFree_eq ..))

theorem drainStep_order (q : Role) (r : DrainRun) : Ensures (drainStep c q r s) (fun p => SameOrder s p.2) := by
  unfold drainStep
  split
  · exact (drainStart_order hc s q).bind fun _ h1 => .ok h1
  · exact ((memRead_order hc s _ _).bind fun _ h1 => .ok h1 :
      Ensures (drainId c q _ s) (fun p => SameOrder s p.2)).bind fun _ h1 => .ok h1
  · exact (drainLength_order hc s q _ _).bind fun _ h1 => .ok h1
  · exact (drainFlags_order hc s q _).bind fun _ h1 => .ok h1
  · exact (drainLink_order hc s q _).bind fun _ h1 => .ok h1
  · refine (hc s).bind fun s1 h1 => ?_
    split
    · exact .ok (h1.trans (.of_eq rfl))
    · exact .ok (h1.trans (reclaim_order s1 q _ _))
  · exact .ok (.refl s)

end

/-! ### The dispatcher, gaps and waits -/

theorem SameOrder.advanceWalk {s t : State} (h : SameOrder s t) (hd : s.disp ≠ .idle) : SameOrder s (advanceWalk t) := by
  refine ⟨h.cmd.trans (.of_eq (advanceWalk_eq t)), fun q => ?_, fun _ hi => absurd hi hd⟩
  rw [advanceWalk_eq]
  exact h.queue q

theorem handOver_order (out : List Drained) (corrupt : Bool) (s : State) : SameOrder s (handOver out corrupt s) := by
  have hq : SameOrder s (unlock s.dq s) := .setQueue s rfl rfl
  have hqueue : ∀ q, (handOver out corrupt s).queue q = (unlock s.dq s).queue q := fun q =>
    congrArg (fun x : PerRole Queue => x.get q) (handOver_queues out corrupt s)
  refine ⟨.of_eq (handOver_eq ..), fun q => ?_, fun _ hd => ?_⟩
  · rw [hqueue]
    exact hq.queue q
  · rw [handOver_eq]
    exact hd

theorem dispWalk_order (s : State) (hd : s.disp ≠ .idle) : Ensures (dispWalk s) (SameOrder s) := by
  unfold dispWalk
  split
  · unfold walkEnter reportUnknown
    refine .ok ?_
    split <;> split <;> exact ⟨.of_eq rfl, fun _ => ⟨rfl, rfl⟩, fun _ hi => absurd hi hd⟩
  · unfold walkTest
    split
    · exact .ok (.of_eq rfl)
    · exact .ok ((SameOrder.refl s).advanceWalk hd)
  · unfold walkLock
    split
    · exact .ok ((SameOrder.setQueue s (x := { s.queue s.dq with lock := some .disp }) rfl rfl).trans (.of_eq rfl))
    · exact .ok (.refl s)
  · refine (drainStep_order dispCtx_keepsOrder s s.dq _).bind fun r h1 => ?_
    dsimp only
    split
    · exact .ok ((h1.trans (handOver_order ..)).advanceWalk hd)
    · exact .ok (h1.trans (.of_eq rfl))

theorem dispTurn_order (s : State) : Ensures (dispTurn s) (SameOrder s) := by
  by_cases hd : s.disp = .idle
  · simp only [dispTurn, hd]
    exact .ok (.refl s)
  · -- every other state of the dispatcher is left for one of 44 R239
    have hmove : ∀ s1 t : State, SameOrder s s1 → SameCmd s1 t → t.queues = s1.queues → SameOrder s t :=
      fun s1 t h1 hc hq => ⟨h1.cmd.trans hc, fun q => by rw [State.queue, hq]; exact h1.queue q,
        fun _ hi => absurd hi hd⟩
    unfold dispTurn
    split
    · exact .ok (.refl s)
    · exact (regRead_order dispCtx_keepsOrder s _ _ _).bind fun r h1 => .ok (hmove r.2 _ h1 (.of_eq rfl) rfl)
    · exact dispWalk_order s hd
    · unfold dispConfig
      split
      · exact (readLink_order dispCtx_keepsOrder s).bind fun r h1 => .ok (hmove r.2 _ h1 (.of_eq rfl) rfl)
      · exact .ok (hmove s _ (.refl s) (.of_eq rfl) rfl)
    · exact .ok (hmove s _ (.refl s) (.of_eq rfl) rfl)

theorem sameOrder_external (s : State) (a : Act) : SameOrder s (s.external a) :=
  .of_rings (sameCmd_external s a) (sameRings_external s a)

theorem cmdActs_order (acts : List Act) (s : State) : Ensures (cmdActs acts s) (SameOrder s) := by
  induction acts generalizing s with
  | nil => exact .ok (.refl s)
  | cons a rest ih =>
    cases a with
    | disp => exact (dispTurn_order s).bind fun s1 h1 t ht => h1.trans (ih s1 t ht)
    | _ => exact fun t ht => (sameOrder_external s _).trans (ih _ t ht)

theorem cmdCtx_keepsOrder : cmdCtx.KeepsOrder := by
  intro s
  show Ensures (cmdGap s) (SameOrder s)
  unfold cmdGap
  split
  · exact .ok (.refl s)
  · exact fun t ht => SameOrder.trans (.of_eq rfl) (cmdActs_order _ _ t ht)

theorem waitUntil_order (s : State) (p : State → Bool) (f : Fault) (n : Nat) :
    Ensures (waitUntil p f n s) (fun t => SameOrder s t ∧ p t = true) := fun _ ht =>
  (waitUntil_ok .refl (fun _ _ _ => .trans) (fun s => .of_rings (sameCmd_waitGap s) (sameRings_waitGap s))
    (fun s => dispTurn_order s) n ht).symm

theorem lock_order (s : State) (q : Role) : Ensures (lock q s) (SameOrder s) :=
  (waitUntil_order s _ _ _).bind fun s1 h1 => .ok (h1.1.trans (.setQueue s1 rfl rfl))

theorem drainRun_order (q : Role) (n : Nat) (r : DrainRun) (s : State) :
    Ensures (drainRun q n r s) (fun p => SameOrder s p.2) := by
  induction n generalizing r s with
  | zero => exact .error _
  | succ n ih =>
    rw [drainRun]
    split
    · exact .ok (.refl s)
    · exact (drainStep_order cmdCtx_keepsOrder s q r).bind fun p h1 _ ht => h1.trans (ih _ _ _ ht)

theorem drainList_order (s : State) (q : Role) : Ensures (drainList q s) (fun p => SameOrder s p.2) :=
  (lock_order s q).bind fun s1 h1 => (drainRun_order q _ _ s1).bind fun p h2 =>
    .ok ((h1.trans h2).trans (.setQueue p.2 rfl rfl))

end Sys2Proof.Machine

namespace Sys2Proof.Machine

/-! ## The bring-up machine, phase by phase (43 R200, 60 R277) -/

theorem State.queues_get (s : State) (q : Role) : s.queues.get q = s.queue q := rfl

theorem State.queuesByFsm_iff {s : State} : s.queuesByFsm = true ↔
    ((∀ q, (s.queue q).valid = false) ∨ s.fsm = .detached ∨ s.fsm = .featuresOk ∨ s.fsm = .driverReady)
      ∧ ((∀ q, (s.queue q).wired = false) ∨ s.fsm = .featuresOk ∨ s.fsm = .driverReady)
      ∧ (∀ q, (s.queue q).wired = true → (s.queue q).valid = true)
      ∧ (s.irqEn = true → ∀ q, (s.queue q).wired = true) ∧ (s.fsm = .driverReady → s.irqEn = true) := by
  simp only [State.queuesByFsm, Bool.and_eq_true, Bool.or_eq_true, PerRole.all_iff, beq_iff_eq, bne_iff_ne,
    Bool.not_eq_true', and_assoc, or_assoc, State.queues_get, imp_iff_not_or, Bool.not_eq_true, ne_eq]

/-- The negotiated mask lies inside the offered and the supported ones (43 R206). -/
def State.MasksInside (s : State) : Prop :=
  s.negotiated &&& ~~~s.offered = 0 ∧ s.negotiated &&& ~~~s.cfg.driverSupported = 0

theorem State.MasksInside.of_zero {s : State} (h : s.negotiated = 0) : s.MasksInside := by
  rw [State.MasksInside, h]
  exact ⟨BitVec.zero_and, BitVec.zero_and⟩

/-- What `bringUpOk` asks in DETACHED. -/
structure State.Detached (s : State) : Prop where
  acq : s.acq = []
  win : s.winMapped = false
  irq : s.irqEn = false
  wired : ∀ q, (s.queue q).wired = false
  disp : s.disp = .idle
  shadow : s.stShadow = 0
  negotiated : s.negotiated = 0
  sizes : s.qsize = ⟨0, 0, 0⟩

/-- What it asks in RESET, ACKNOWLEDGED and DRIVER_LOADED, the reported sizes apart. -/
structure State.Early (s : State) : Prop where
  acq : s.acq = [.win]
  win : s.winMapped = true
  irq : s.irqEn = false
  queues : ∀ q, (s.queue q).valid = false ∧ (s.queue q).wired = false
  disp : s.disp = .idle
  shadow : s.stShadow &&& s.cfg.stDriverOk = 0
  negotiated : s.negotiated = 0

/-- What has been acquired once a device works: the windows, these queues, the interrupt path last (60 R277). -/
def workingAcq (irq : Bool) (qs : List Role) : List Resource :=
  (if irq then [.irq] else []) ++ qs.map .qr ++ [.win]

/-- What it asks in FEATURES_OK and DRIVER_READY. -/
structure State.Working (s : State) : Prop where
  win : s.winMapped = true
  acq : ∃ qs : List Role, qs.Nodup ∧ s.acq = workingAcq s.irqEn qs ∧ ∀ q, q ∈ qs ↔ (s.queue q).valid = true
  wired : ∀ q, (s.queue q).wired = true → (s.queue q).valid = true
  handler : s.irqEn = true → ∀ q, (s.queue q).wired = true
  ready : s.fsm = .driverReady → s.irqEn = true
  disp : s.disp = .idle ∨ s.irqEn = true
  shadow : s.fsm = .driverReady ∨ s.stShadow &&& s.cfg.stDriverOk = 0
  masks : s.MasksInside ∧ s.negotiated ≠ 0
  sizes : s.qsize.all queueSizeOk = true

/-- What it asks in FAILED. -/
structure State.Fallen (s : State) : Prop where
  acq : s.acq = []
  win : s.winMapped = false
  irq : s.irqEn = false
  queues : ∀ q, (s.queue q).valid = false ∧ (s.queue q).wired = false
  disp : s.disp = .idle
  masks : s.MasksInside

theorem acquiredQueues_workingAcq (irq : Bool) (qs : List Role) : acquiredQueues (workingAcq irq qs) = qs := by
  have hqs : acquiredQueues (qs.map .qr ++ [.win]) = qs := by
    induction qs with
    | nil => rfl
    | cons q rest ih => exact congrArg (q :: ·) ih
  cases irq
  · exact hqs
  · exact hqs

theorem State.bringUpOk_iff {s : State} : s.bringUpOk = true ↔ s.acqOk = true ∧ s.queuesByFsm = true
    ∧ (s.disp = .idle ∨ s.irqEn = true) ∧ s.shadowOk = true ∧ s.featuresNegotiated = true ∧ s.sizesOk = true := by
  simp only [State.bringUpOk, Bool.and_eq_true, and_assoc, State.dispOk, Bool.or_eq_true, beq_iff_eq]

section
variable {s : State}

theorem State.bringUpOk_detached (hf : s.fsm = .detached) : s.bringUpOk = true ↔ s.Detached := by
  rw [State.bringUpOk_iff, State.queuesByFsm_iff]
  simp only [State.acqOk, State.shadowOk, State.featuresNegotiated, State.sizesOk, hf, Bool.and_eq_true, beq_iff_eq,
    Bool.not_eq_true']
  constructor
  · rintro ⟨⟨⟨hacq, hwin⟩, hirq⟩, ⟨-, hwired, -⟩, hdisp, hshadow, ⟨-, hneg⟩, hsizes⟩
    exact ⟨hacq, hwin, hirq, by simpa using hwired, hdisp.resolve_right (by simp [hirq]), by simpa using hshadow.1, hneg,
      hsizes⟩
  · rintro ⟨hacq, hwin, hirq, hwired, hdisp, hshadow, hneg, hsizes⟩
    simp [hacq, hwin, hirq, hwired, hdisp, hshadow, hneg, hsizes]

theorem State.bringUpOk_early (hf : s.fsm = .reset ∨ s.fsm = .acknowledged ∨ s.fsm = .driverLoaded) :
    s.bringUpOk = true ↔ s.Early ∧ s.sizesOk = true := by
  have hacq : s.acqOk = true ↔ s.acq = [.win] ∧ s.winMapped = true ∧ s.irqEn = false := by
    rcases hf with hf | hf | hf <;> simp [State.acqOk, hf, and_assoc]
  have hqueues : s.queuesByFsm = true ↔ (∀ q, (s.queue q).valid = false) ∧ (∀ q, (s.queue q).wired = false)
      ∧ (∀ q, (s.queue q).wired = true → (s.queue q).valid = true)
      ∧ (s.irqEn = true → ∀ q, (s.queue q).wired = true) := by
    rw [State.queuesByFsm_iff]
    rcases hf with hf | hf | hf <;> simp [hf]
  have hshadow : s.shadowOk = true ↔ s.stShadow &&& s.cfg.stDriverOk = 0 := by
    rcases hf with hf | hf | hf <;> simp [State.shadowOk, hf]
  have hmasks : s.featuresNegotiated = true ↔ s.negotiated = 0 := by
    have hof : s.negotiated = 0 → s.MasksInside := .of_zero
    rcases hf with hf | hf | hf <;> simpa [State.featuresNegotiated, hf, State.MasksInside] using hof
  rw [State.bringUpOk_iff, hacq, hqueues, hshadow, hmasks]
  constructor
  · rintro ⟨⟨hacq, hwin, hirq⟩, ⟨hvalid, hwired, -⟩, hdisp, hshadow, hneg, hsizes⟩
    exact ⟨⟨hacq, hwin, hirq, fun q => ⟨hvalid q, hwired q⟩, hdisp.resolve_right (by simp [hirq]), hshadow, hneg⟩,
      hsizes⟩
  · rintro ⟨⟨hacq, hwin, hirq, hqueues, hdisp, hshadow, hneg⟩, hsizes⟩
    simp [hacq, hwin, hirq, hqueues, hdisp, hshadow, hneg, hsizes]

theorem State.bringUpOk_working (hf : s.fsm = .featuresOk ∨ s.fsm = .driverReady) :
    s.bringUpOk = true ↔ s.Working := by
  have hacq : s.acqOk = true ↔ s.winMapped = true ∧ ∃ qs : List Role, qs.Nodup ∧ s.acq = workingAcq s.irqEn qs
      ∧ ∀ q, q ∈ qs ↔ (s.queue q).valid = true := by
    have hunfold : s.acqOk = true ↔ ((s.winMapped = true ∧ (acquiredQueues s.acq).Nodup)
        ∧ s.acq = workingAcq s.irqEn (acquiredQueues s.acq))
        ∧ ∀ q, (acquiredQueues s.acq).contains q = (s.queue q).valid := by
      rcases hf with hf | hf <;>
        simp only [State.acqOk, hf, Bool.and_eq_true, distinct_iff_nodup, beq_iff_eq, List.all_eq_true, Role.mem_every,
          true_imp_iff, workingAcq]
    have hmem : (∀ q, (acquiredQueues s.acq).contains q = (s.queue q).valid)
        ↔ ∀ q, q ∈ acquiredQueues s.acq ↔ (s.queue q).valid = true :=
      forall_congr' fun q => by rw [← Bool.coe_iff_coe, List.contains_iff_mem]
    rw [hunfold, hmem, and_assoc, and_assoc]
    refine and_congr_right fun _ => ⟨fun h => ⟨_, h⟩, ?_⟩
    rintro ⟨qs, hnd, heq, hmem⟩
    have hqs : acquiredQueues s.acq = qs := by rw [heq, acquiredQueues_workingAcq]
    rw [hqs]
    exact ⟨hnd, heq, hmem⟩
  have hqueues : s.queuesByFsm = true ↔ (∀ q, (s.queue q).wired = true → (s.queue q).valid = true)
      ∧ (s.irqEn = true → ∀ q, (s.queue q).wired = true) ∧ (s.fsm = .driverReady → s.irqEn = true) := by
    rw [State.queuesByFsm_iff]
    rcases hf with hf | hf <;> simp [hf]
  have hshadow : s.shadowOk = true ↔ s.fsm = .driverReady ∨ s.stShadow &&& s.cfg.stDriverOk = 0 := by
    rcases hf with hf | hf <;> simp [State.shadowOk, hf]
  have hmasks : s.featuresNegotiated = true ↔ s.MasksInside ∧ s.negotiated ≠ 0 := by
    rcases hf with hf | hf <;> simp [State.featuresNegotiated, hf, State.MasksInside]
  have hsizes : s.sizesOk = true ↔ s.qsize.all queueSizeOk = true := by
    rcases hf with hf | hf <;> simp [State.sizesOk, hf]
  rw [State.bringUpOk_iff, hacq, hqueues, hshadow, hmasks, hsizes]
  constructor
  · rintro ⟨⟨hwin, hqs⟩, ⟨hwired, hhandler, hready⟩, hdisp, hshadow, hmasks, hsizes⟩
    exact ⟨hwin, hqs, hwired, hhandler, hready, hdisp, hshadow, hmasks, hsizes⟩
  · rintro ⟨hwin, hqs, hwired, hhandler, hready, hdisp, hshadow, hmasks, hsizes⟩
    exact ⟨⟨hwin, hqs⟩, ⟨hwired, hhandler, hready⟩, hdisp, hshadow, hmasks, hsizes⟩

theorem State.bringUpOk_failed (hf : s.fsm = .failed) : s.bringUpOk = true ↔ s.Fallen := by
  rw [State.bringUpOk_iff, State.queuesByFsm_iff]
  simp only [State.acqOk, State.shadowOk, State.featuresNegotiated, State.sizesOk, hf, Bool.and_eq_true, beq_iff_eq,
    Bool.not_eq_true']
  constructor
  · rintro ⟨⟨⟨hacq, hwin⟩, hirq⟩, ⟨hvalid, hwired, -⟩, hdisp, -, ⟨hmasks, -⟩, -⟩
    have hvalid := hvalid.resolve_right (by decide)
    have hwired := hwired.resolve_right (by decide)
    exact ⟨hacq, hwin, hirq, fun q => ⟨hvalid q, hwired q⟩, hdisp.resolve_right (by simp [hirq]), hmasks⟩
  · rintro ⟨hacq, hwin, hirq, hqueues, hdisp, hmasks⟩
    simp [hacq, hwin, hirq, hqueues, hdisp, hmasks.1, hmasks.2]

end

theorem SameOrder.bringUpOk {s t : State} (h : SameOrder s t) (hs : s.bringUpOk = true) : t.bringUpOk = true := by
  obtain ⟨hc, hq, hrest⟩ := h
  obtain ⟨hacq, hqueues, hdisp, hshadow, hmasks, hsizes⟩ := State.bringUpOk_iff.1 hs
  refine State.bringUpOk_iff.2 ⟨?_, ?_, ?_, ?_, ?_, ?_⟩
  · simpa only [State.acqOk, hc.fsm, hc.acq, hc.winMapped, hc.irqEn, hq] using hacq
  · rw [State.queuesByFsm_iff] at hqueues ⊢
    simpa only [hc.fsm, hc.irqEn, hq] using hqueues
  · rw [hc.irqEn]
    cases hi : s.irqEn with
    | true => exact .inr rfl
    | false => exact .inl (hrest hi (hdisp.resolve_right (by simp [hi])))
  · simpa only [State.shadowOk, hc.fsm, hc.stShadow, hc.cfg] using hshadow
  · simpa only [State.featuresNegotiated, hc.fsm, hc.negotiated, hc.offered, hc.cfg] using hmasks
  · simpa only [State.sizesOk, hc.fsm, hc.qsize] using hsizes

end Sys2Proof.Machine

namespace Sys2Proof.Machine

/-! ## Releasing what a device has acquired (60 R276, R277) -/

theorem SameOrder.setQueue_both {s t : State} (h : SameOrder s t) {q : Role} {x y : Queue} (hv : y.valid = x.valid)
    (hw : y.wired = x.wired) : SameOrder (s.setQueue q x) (t.setQueue q y) := by
  have hc := h.cmd
  refine ⟨⟨hc.cfg, hc.fsm, hc.stShadow, hc.offered, hc.negotiated, hc.qsize,
    hc.winMapped, hc.irqEn, hc.acq, hc.errLatch, hc.respPort, hc.turns, hc.platAllocs, hc.platMaps⟩, fun p => ?_, h.rest⟩
  rw [State.queue_setQueue, State.queue_setQueue]
  split
  · exact ⟨hv, hw⟩
  · exact h.queue p

theorem waitIdle_order (s : State) : Ensures (waitIdle s) (SameOrder { s with disp := .idle }) := fun t ht =>
  have ⟨h, hp⟩ := waitUntil_order s _ _ _ t ht
  ⟨(SameCmd.of_eq rfl).trans h.cmd, h.queue, fun _ _ => beq_iff_eq.1 hp⟩

theorem freeQueue_order (q : Role) (mode : FreeMode) (s : State) :
    Ensures (freeQueue q mode s) (SameOrder (s.setQueue q Queue.empty)) := by
  refine (lock_order s q).bind fun s1 h1 => .ok ?_
  have h2 : SameOrder s1 (poolFree ((freeLents q mode s1.handles s1).queue q).region.toNat
      (freeLents q mode s1.handles s1)) := by
    rw [poolFree_eq, freeLents_eq]
    exact .of_eq rfl
  rw [unlock_setQueue]
  exact (h1.trans h2).setQueue_both rfl rfl

theorem statusWrite_order (bits : BitVec 8) (s : State) :
    Ensures (statusWrite bits s) (SameOrder { s with stShadow := s.stShadow ||| bits }) :=
  regWrite_order cmdCtx_keepsOrder { s with stShadow := s.stShadow ||| bits } _ _ _ _

theorem statusWrite0_order (s : State) : Ensures (statusWrite0 s) (SameOrder { s with stShadow := 0 }) :=
  (regWrite_order cmdCtx_keepsOrder { s with stShadow := 0 } _ _ _ _).bind fun _ h1 => .ok (h1.trans (.of_eq rfl))

/-- Everything acquired stands on `acq`, so a release of `acq` leaves nothing behind. -/
structure State.Accounted (s : State) : Prop where
  irq : s.irqEn = true → .irq ∈ s.acq
  win : s.winMapped = true → .win ∈ s.acq
  queue : ∀ q, (s.queue q).valid = true → .qr q ∈ s.acq
  wired : ∀ q, (s.queue q).wired = true → (s.queue q).valid = true
  disp : s.disp = .idle ∨ s.irqEn = true
  masks : s.MasksInside

theorem State.Early.accounted {s : State} (h : s.Early) : s.Accounted where
  irq hi := by simp [h.irq] at hi
  win _ := by simp [h.acq]
  queue q hv := by simp [(h.queues q).1] at hv
  wired q hw := by simp [(h.queues q).2] at hw
  disp := .inl h.disp
  masks := .of_zero h.negotiated

theorem State.accounted_of_bringUpOk {s : State} (h : s.bringUpOk = true)
    (hd : s.fsm = .detached → ∀ q, (s.queue q).valid = false) : s.Accounted := by
  have hworking : s.Working → s.Accounted := by
    rintro ⟨hwin, ⟨qs, -, hacq, hqs⟩, hwired, hhandler, -, hdisp, -, hmasks, -⟩
    refine ⟨fun hi => ?_, fun _ => ?_, fun q hv => ?_, hwired, hdisp, hmasks.1⟩
    · simp [hacq, hi, workingAcq]
    · simp [hacq, workingAcq]
    · simp [hacq, workingAcq, (hqs q).2 hv]
  cases hf : s.fsm with
  | detached =>
    obtain ⟨-, hwin, hirq, hwired, hdisp, -, hneg, -⟩ := (State.bringUpOk_detached hf).1 h
    exact ⟨by simp [hirq], by simp [hwin], by simp [hd hf], by simp [hwired], .inl hdisp, .of_zero hneg⟩
  | reset => exact ((State.bringUpOk_early (.inl hf)).1 h).1.accounted
  | acknowledged => exact ((State.bringUpOk_early (.inr (.inl hf))).1 h).1.accounted
  | driverLoaded => exact ((State.bringUpOk_early (.inr (.inr hf))).1 h).1.accounted
  | featuresOk => exact hworking ((State.bringUpOk_working (.inl hf)).1 h)
  | driverReady => exact hworking ((State.bringUpOk_working (.inr hf)).1 h)
  | failed =>
    obtain ⟨-, hwin, hirq, hqueues, hdisp, hmasks⟩ := (State.bringUpOk_failed hf).1 h
    exact ⟨by simp [hirq], by simp [hwin], by simp [hqueues], by simp [hqueues], .inl hdisp, hmasks⟩

theorem State.MasksInside.same {s t : State} (h : s.MasksInside) (hc : SameCmd s t) : t.MasksInside := by
  rw [State.MasksInside, hc.negotiated, hc.offered, hc.cfg]
  exact h

theorem State.Accounted.same {s t : State} (h : s.Accounted) (hst : SameOrder s t) : t.Accounted := by
  have hc := hst.cmd
  refine ⟨by rw [hc.irqEn, hc.acq]; exact h.irq, by rw [hc.winMapped, hc.acq]; exact h.win, fun q => ?_, fun q => ?_, ?_,
    h.masks.same hc⟩
  · rw [(hst.queue q).1, hc.acq]
    exact h.queue q
  · rw [(hst.queue q).1, (hst.queue q).2]
    exact h.wired q
  · rw [hc.irqEn]
    cases hi : s.irqEn with
    | true => exact .inr rfl
    | false => exact .inl (hst.rest hi (h.disp.resolve_right (by simp [hi])))

/-- One release leaves what has been acquired accounted for by the rest of `acq`. -/
theorem releaseResource_accounted {s : State} (h : s.Accounted) {r : Resource} {rest : List Resource}
    (hacq : s.acq = r :: rest) : Ensures (releaseResource r { s with acq := rest })
      (fun t => t.Accounted ∧ t.acq = rest ∧ t.cfg = s.cfg) := by
  obtain ⟨hirq, hwin, hqueue, hwired, hdisp, hmasks⟩ := h
  rw [hacq] at hirq hwin hqueue
  have hdone : ∀ {u t : State}, SameOrder u t → u.acq = rest → u.cfg = s.cfg → u.Accounted →
      t.Accounted ∧ t.acq = rest ∧ t.cfg = s.cfg := fun hut hrest hcfg hu =>
    ⟨hu.same hut, hut.cmd.acq.trans hrest, hut.cmd.cfg.trans hcfg⟩
  cases r with
  | irq =>
    refine fun t ht => hdone (waitIdle_order _ t ht) rfl rfl
      ⟨fun hi => ?_, fun hw => ?_, fun q hv => ?_, hwired, .inl rfl, hmasks⟩
    · cases hi
    · simpa using hwin hw
    · simpa using hqueue q hv
  | win =>
    refine .ok (hdone (.refl _) rfl rfl ⟨fun hi => ?_, fun hw => ?_, fun q hv => ?_, hwired, hdisp, hmasks⟩)
    · simpa using hirq hi
    · cases hw
    · simpa using hqueue q hv
  | qr q =>
    refine fun t ht => hdone (freeQueue_order q .orphan _ t ht) rfl rfl
      ⟨fun hi => ?_, fun hw => ?_, fun p hv => ?_, fun p hp => ?_, hdisp, hmasks⟩
    · simpa using hirq hi
    · simpa using hwin hw
    · rw [State.queue_setQueue] at hv
      split at hv
      · cases hv
      · rename_i hpq
        simpa [hpq] using hqueue p hv
    · rw [State.queue_setQueue] at hp ⊢
      split at hp
      · cases hp
      · rename_i hpq
        rw [if_neg hpq]
        exact hwired p hp

theorem releaseAll_accounted (rs : List Resource) {s : State} (h : s.Accounted) (hacq : s.acq = rs) :
    Ensures (releaseAll rs s) (fun t => t.Accounted ∧ t.acq = [] ∧ t.cfg = s.cfg) := by
  induction rs generalizing s with
  | nil => exact .ok ⟨h, hacq, rfl⟩
  | cons r rest ih =>
    exact (releaseResource_accounted h hacq).bind fun s1 ⟨h1, hacq1, hcfg1⟩ t ht =>
      have ⟨h2, hacq2, hcfg2⟩ := ih h1 hacq1 t ht
      ⟨h2, hacq2, hcfg2.trans hcfg1⟩

/-! ## Every command leaves the bring-up machine in order -/

/-- The bring-up machine is in order, under these parameters. -/
def State.InOrder (c : Config) (s : State) : Prop := s.bringUpOk = true ∧ s.cfg = c

theorem State.InOrder.same {c : Config} {s t : State} (h : s.InOrder c) (hst : SameOrder s t) : t.InOrder c :=
  ⟨hst.bringUpOk h.1, hst.cmd.cfg.trans h.2⟩

theorem State.InOrder.respond {c : Config} {s : State} (h : s.InOrder c) (e : Err) (data : List Word) :
    (s.respond e data).InOrder c := h

theorem State.Accounted.fallen {s : State} (h : s.Accounted) (hacq : s.acq = []) (e : BitVec 8) :
    State.InOrder s.cfg { s with errLatch := e, fsm := .failed } := by
  obtain ⟨hirq, hwin, hqueue, hwired, hdisp, hmasks⟩ := h
  rw [hacq] at hirq hwin hqueue
  have hoff : s.irqEn = false := by simpa using hirq
  have hvalid : ∀ q, (s.queue q).valid = false := fun q => by simpa using hqueue q
  have hunwired : ∀ q, (s.queue q).wired = false := fun q => by simpa [hvalid q] using hwired q
  exact ⟨(State.bringUpOk_failed rfl).2 ⟨hacq, by simpa using hwin, hoff, fun q => ⟨hvalid q, hunwired q⟩,
    hdisp.resolve_right (by simp [hoff]), hmasks⟩, rfl⟩

theorem failWith_order (e : Err) {s : State} (h : s.Accounted) : Ensures (failWith e s) (State.InOrder s.cfg) := by
  have hwrite : Ensures (writeFailedBit e s) (fun t => t.Accounted ∧ t.cfg = s.cfg) := by
    unfold writeFailedBit
    split
    · have h0 : State.Accounted { s with stShadow := s.stShadow ||| s.cfg.stFailed } :=
        ⟨h.irq, h.win, h.queue, h.wired, h.disp, h.masks⟩
      exact fun t ht => ⟨h0.same (statusWrite_order _ s t ht), (statusWrite_order _ s t ht).cmd.cfg⟩
    · exact .ok ⟨h, rfl⟩
  have hentry : Ensures (failEntry e s) (State.InOrder s.cfg) :=
    hwrite.bind fun s1 ⟨h1, hcfg1⟩ => (releaseAll_accounted _ h1 rfl).bind fun s2 ⟨h2, hacq, hcfg2⟩ => .ok <| by
      rw [← hcfg1, ← hcfg2]
      exact h2.fallen hacq _
  exact hentry.bind fun _ ht => .ok (ht.respond e [])

end Sys2Proof.Machine

namespace Sys2Proof.Machine

/-! ## The bring-up commands keep the bring-up machine in order (43) -/

theorem SameOrder.withFsm {s t : State} (h : SameOrder s t) (f : Fsm) :
    SameOrder { s with fsm := f } { t with fsm := f } := by
  have hc := h.cmd
  exact ⟨⟨hc.cfg, rfl, hc.stShadow, hc.offered, hc.negotiated, hc.qsize, hc.winMapped, hc.irqEn, hc.acq, hc.errLatch,
    hc.respPort, hc.turns, hc.platAllocs, hc.platMaps⟩, h.queue, h.rest⟩

/-- A status bit that is not DRIVER_OK keeps that bit out of the shadow (43 R213). -/
theorem shadow_or_stays_clear {a b ok : BitVec 8} (ha : a &&& ok = 0) (hb : b &&& ok = 0) : (a ||| b) &&& ok = 0 := by
  rw [BitVec.and_or_distrib_right, ha, hb]
  rfl

theorem Config.wf_statusBits {c : Config} (h : c.wf = true) :
    c.stAck ≠ 0 ∧ c.stDriver ≠ 0 ∧ c.stDriverOk ≠ 0 ∧ c.stAck &&& c.stDriverOk = 0
      ∧ c.stDriver &&& c.stDriverOk = 0 := by
  simp only [Config.wf, Bool.and_eq_true] at h
  have hmasks : Config.masksApart [c.stAck, c.stDriver, c.stDriverOk, c.stFailed] = true := by simp only [h]
  simp only [Config.masksApart, Config.oneBit, Bool.and_eq_true, bne_iff_ne, beq_iff_eq, List.all_cons] at hmasks
  obtain ⟨⟨⟨hack, -⟩, -, hackOk, -⟩, ⟨⟨hdriver, -⟩, hdriverOk, -⟩, ⟨⟨hok, -⟩, -⟩, -⟩ := hmasks
  exact ⟨hack, hdriver, hok, hackOk, hdriverOk⟩

/-- PLAT's answer uses up an input of PLAT alone (43 R203). -/
theorem State.platMap_snd (s : State) :
    s.platMap.2 = { s with platMaps := s.platMap.2.platMaps, draws := s.platMap.2.draws } := by
  unfold State.platMap
  split <;> rfl

theorem State.someValid_eq_false {s : State} : s.someValid = false ↔ ∀ q, (s.queue q).valid = false := by
  rw [State.someValid, Bool.eq_false_iff, ne_eq, PerRole.any_iff, not_exists]
  simp only [Bool.not_eq_true]
  rfl

theorem State.allWired_iff {s : State} : s.allWired = true ↔ ∀ q, (s.queue q).wired = true := PerRole.all_iff ..

theorem State.Detached.newInstance {s : State} (h : s.Detached) : (newInstance s).platMap.2.Detached := by
  rw [State.platMap_snd]
  exact ⟨h.acq, h.win, h.irq, h.wired, h.disp, rfl, rfl, rfl⟩

/-- The next phase of bring-up is entered by writing one more status bit (43 R204, R205, R212). -/
theorem statusWrite_next {c : Config} {s : State} {f : Fsm} {bits : BitVec 8}
    (hnext : State.InOrder c { s with stShadow := s.stShadow ||| bits, fsm := f }) :
    Ensures (statusWrite bits s >>= fun t => .ok (State.respond { t with fsm := f } .ok [])) (State.InOrder c) :=
  (statusWrite_order bits s).bind fun _ ht => .ok ((hnext.same (ht.withFsm f)).respond .ok [])

theorem State.Early.same {s t : State} (h : s.Early) (hst : SameOrder s t) : t.Early := by
  have hc := hst.cmd
  refine ⟨hc.acq.trans h.acq, hc.winMapped.trans h.win, hc.irqEn.trans h.irq, fun q => ?_, hst.rest h.irq h.disp, ?_,
    hc.negotiated.trans h.negotiated⟩
  · rw [(hst.queue q).1, (hst.queue q).2]
    exact h.queues q
  · rw [hc.stShadow, hc.cfg]
    exact h.shadow

/-- BU.ACK and BU.DRIVER lead from one early phase to the next. -/
theorem State.Early.next {s : State} (h : s.Early) {f : Fsm} (hf : f = .reset ∨ f = .acknowledged ∨ f = .driverLoaded)
    {bits : BitVec 8} (hbits : bits &&& s.cfg.stDriverOk = 0) (hsizes : State.sizesOk { s with fsm := f } = true) :
    State.InOrder s.cfg { s with stShadow := s.stShadow ||| bits, fsm := f } :=
  ⟨(State.bringUpOk_early hf).2 ⟨⟨h.acq, h.win, h.irq, h.queues, h.disp, shadow_or_stays_clear h.shadow hbits,
    h.negotiated⟩, hsizes⟩, rfl⟩

section
variable {c : Config} {s : State} (h : s.InOrder c)
include h

theorem State.InOrder.refused (e : Err) : EnsuresNext (refuse e s) (State.InOrder c) := .next h

theorem State.InOrder.failWith (e : Err) (hd : s.fsm = .detached → ∀ q, (s.queue q).valid = false) :
    Ensures (failWith e s) (State.InOrder c) := h.2 ▸ failWith_order e (State.accounted_of_bringUpOk h.1 hd)

theorem execBuReset_order : EnsuresNext (execBuReset s) (State.InOrder c) := by
  unfold execBuReset
  split
  · rename_i hs
    obtain ⟨hf, hnone⟩ := hs
    have hvalid := State.someValid_eq_false.1 hnone
    have hdet := ((State.bringUpOk_detached hf).1 h.1).newInstance
    have hsnd := State.platMap_snd (newInstance s)
    dsimp only
    rw [choose_eq]
    generalize (newInstance s).platMap = answer at hdet hsnd ⊢
    have hf1 : answer.2.fsm = .detached := by rw [hsnd]; exact hf
    have hcfg1 : answer.2.cfg = c := by rw [hsnd]; exact h.2
    have hvalid1 : ∀ q, (answer.2.queue q).valid = false := fun q => by rw [hsnd]; exact hvalid q
    refine Ensures.finish ?_
    split
    · have hreset : State.InOrder c { answer.2 with
          winMapped := true, acq := .win :: answer.2.acq, stShadow := 0, fsm := .reset } :=
        ⟨(State.bringUpOk_early (.inl rfl)).2 ⟨⟨congrArg (.win :: ·) hdet.acq, rfl, hdet.irq,
          fun q => ⟨hvalid1 q, hdet.wired q⟩, hdet.disp, BitVec.zero_and, hdet.negotiated⟩,
          beq_iff_eq.2 hdet.sizes⟩, hcfg1⟩
      exact (statusWrite0_order _).bind fun t ht => .ok ((hreset.same (ht.withFsm .reset)).respond .ok [])
    · exact State.InOrder.failWith ⟨(State.bringUpOk_detached hf1).2 hdet, hcfg1⟩ .mapFailure fun _ => hvalid1
  · exact h.refused _

theorem execBuAck_order (hwf : c.wf = true) : EnsuresNext (execBuAck s) (State.InOrder c) := by
  unfold execBuAck
  split
  · rename_i hf
    obtain ⟨-, -, -, hbits, -⟩ := Config.wf_statusBits hwf
    refine Ensures.finish <| (pciRead_order cmdCtx_keepsOrder s _).bind fun r1 h1 =>
      (pciRead_order cmdCtx_keepsOrder r1.2 _).bind fun r2 h2 =>
        (pciRead_order cmdCtx_keepsOrder r2.2 _).bind fun r3 h3 => ?_
    have h3 := (h1.trans h2).trans h3
    have hf3 : r3.2.fsm = .reset := h3.cmd.fsm.trans hf
    have ho := h.same h3
    obtain ⟨hearly, hsizes⟩ := (State.bringUpOk_early (.inl hf3)).1 ho.1
    rw [← ho.2] at hbits ⊢
    dsimp only
    split
    · exact statusWrite_next (hearly.next (.inr (.inl rfl)) hbits (by simpa only [State.sizesOk, hf3] using hsizes))
    · exact failWith_order _ hearly.accounted
  · exact h.refused _

end

/-! ### BU.DRIVER and BU.FEATURES (43 R205, R207) -/

theorem SameOrder.withSizes {s t : State} (h : SameOrder s t) (z : PerRole (BitVec 16)) :
    SameOrder { s with qsize := z } { t with qsize := z } := by
  have hc := h.cmd
  exact ⟨⟨hc.cfg, hc.fsm, hc.stShadow, hc.offered, hc.negotiated, rfl, hc.winMapped, hc.irqEn, hc.acq, hc.errLatch,
    hc.respPort, hc.turns, hc.platAllocs, hc.platMaps⟩, h.queue, h.rest⟩

theorem SameOrder.withOffered {s t : State} (h : SameOrder s t) (o : BitVec 32) :
    SameOrder { s with offered := o } { t with offered := o } := by
  have hc := h.cmd
  exact ⟨⟨hc.cfg, hc.fsm, hc.stShadow, rfl, hc.negotiated, hc.qsize, hc.winMapped, hc.irqEn, hc.acq, hc.errLatch,
    hc.respPort, hc.turns, hc.platAllocs, hc.platMaps⟩, h.queue, h.rest⟩

theorem negotiate_inside (o v : BitVec 32) : negotiate o v &&& ~~~o = 0 ∧ negotiate o v &&& ~~~v = 0 := by
  constructor
  · simp [negotiate, BitVec.and_comm o v, BitVec.and_assoc]
  · simp [negotiate, BitVec.and_assoc]

theorem readQueueSize_order (q : Role) (s : State) :
    Ensures (readQueueSize q s) (fun t => SameOrder { s with qsize := t.qsize } t) :=
  (regWrite_order cmdCtx_keepsOrder s _ _ _ _).bind fun s1 h1 =>
    (regRead_order cmdCtx_keepsOrder s1 _ _ _).bind fun _ h2 => .ok ((h1.trans h2).withSizes _)

section
variable {c : Config} {s : State} (h : s.InOrder c)
include h

theorem execBuDriver_order (hwf : c.wf = true) : EnsuresNext (execBuDriver s) (State.InOrder c) := by
  unfold execBuDriver
  split
  · rename_i hf
    obtain ⟨-, -, -, -, hbits⟩ := Config.wf_statusBits hwf
    refine Ensures.finish <| (readQueueSize_order .q0 s).bind fun s1 h1 => (readQueueSize_order .q1 s1).bind
      fun s2 h2 => (readQueueSize_order .q2 s2).bind fun s3 h3 =>
        (regRead_order cmdCtx_keepsOrder s3 _ _ _).bind fun r h4 => ?_
    have h2 := (h1.withSizes s2.qsize).trans h2
    have h3 := (h2.withSizes s3.qsize).trans h3
    have h4 := (h3.trans h4).withOffered (BitVec.ofNat 32 r.1)
    obtain ⟨hearly, -⟩ := (State.bringUpOk_early (.inr (.inl hf))).1 h.1
    have hread : State.Early { s with qsize := s3.qsize, offered := BitVec.ofNat 32 r.1 } :=
      ⟨hearly.acq, hearly.win, hearly.irq, hearly.queues, hearly.disp, hearly.shadow, hearly.negotiated⟩
    have hread := hread.same h4
    have hcfg : r.2.cfg = c := h4.cmd.cfg.trans h.2
    rw [← hcfg] at hbits ⊢
    dsimp only
    split
    · exact statusWrite_next (hread.next (.inr (.inr rfl)) hbits ‹_›)
    · exact failWith_order _ hread.accounted
  · exact h.refused _

theorem execBuFeatures_order : EnsuresNext (execBuFeatures s) (State.InOrder c) := by
  unfold execBuFeatures
  split
  · rename_i hf
    obtain ⟨hearly, hsizes⟩ := (State.bringUpOk_early (.inr (.inr hf))).1 h.1
    have hmasks : State.MasksInside { s with negotiated := negotiate s.offered s.cfg.driverSupported } :=
      negotiate_inside s.offered s.cfg.driverSupported
    have hacc := hearly.accounted
    refine Ensures.finish ?_
    dsimp only
    split
    · exact h.2 ▸ failWith_order _ ⟨hacc.irq, hacc.win, hacc.queue, hacc.wired, hacc.disp, hmasks⟩
    · rename_i hne
      have hnext : State.InOrder c
          { s with negotiated := negotiate s.offered s.cfg.driverSupported, fsm := .featuresOk } := by
        refine ⟨(State.bringUpOk_working (.inl rfl)).2 ⟨hearly.win, ⟨[], List.nodup_nil, ?_, fun q => ?_⟩, hacc.wired,
          fun hi => ?_, fun hd => ?_, hacc.disp, .inr hearly.shadow, ⟨hmasks, hne⟩, ?_⟩, h.2⟩
        · exact hearly.acq.trans (by rw [workingAcq, hearly.irq]; rfl)
        · exact iff_of_false (List.not_mem_nil) (Bool.eq_false_iff.1 (hearly.queues q).1)
        · exact absurd (hi : s.irqEn = true) (by simp [hearly.irq])
        · cases hd
        · simpa only [State.sizesOk, hf] using hsizes
      exact (regWrite_order cmdCtx_keepsOrder _ _ _ _ _).bind fun t ht =>
        .ok ((hnext.same (ht.withFsm .featuresOk)).respond .ok [])
  · exact h.refused _

end

end Sys2Proof.Machine

namespace Sys2Proof.Machine

/-! ### The commands of a working device, and the way out (43 R209, R211, R212, R214, R215) -/

section
variable {c : Config} {s : State} (h : s.InOrder c)
include h

theorem execBuQwire_order (q : Role) : EnsuresNext (execBuQwire q s) (State.InOrder c) := by
  unfold execBuQwire
  split
  · rename_i hf
    split
    · exact h.refused _
    · rename_i hq
      refine Ensures.finish ?_
      split
      · exact h.failWith _ fun hd => by rw [hf] at hd; cases hd
      · refine (regWrite_order cmdCtx_keepsOrder s _ _ _ _).bind fun s1 h1 =>
          (regWrite_order cmdCtx_keepsOrder s1 _ _ _ _).bind fun s2 h2 => .ok (State.InOrder.respond ?_ .ok [])
        have h2 := h1.trans h2
        have ho := h.same h2
        have hf2 : s2.fsm = .featuresOk := h2.cmd.fsm.trans hf
        have hv : (s2.queue q).valid = true := by
          rw [(h2.queue q).1]
          by_contra hv
          exact hq (.inl (by simpa using hv))
        obtain ⟨hwin, ⟨qs, hnd, hacq, hqs⟩, hwired, hhandler, hready, hdisp, hshadow, hmasks, hsizes⟩ :=
          (State.bringUpOk_working (.inl hf2)).1 ho.1
        have hvalid : ∀ p, ((s2.setQueue q { s2.queue q with wired := true }).queue p).valid = (s2.queue p).valid :=
          fun p => by rw [State.queue_setQueue]; split <;> simp_all
        refine ⟨(State.bringUpOk_working (s := State.setQueue _ _ _) (.inl hf2)).2
          ⟨hwin, ⟨qs, hnd, hacq, fun p => ?_⟩, fun p hp => ?_, fun hi p => ?_, hready, hdisp, hshadow, hmasks, hsizes⟩, ho.2⟩
        · rw [hvalid]
          exact hqs p
        · rw [hvalid]
          rw [State.queue_setQueue] at hp
          split at hp
          · rename_i hpq
            rwa [hpq]
          · exact hwired p hp
        · rw [State.queue_setQueue]
          split
          · rfl
          · exact hhandler hi p
  · exact h.refused _

theorem execBuIrq_order : EnsuresNext (execBuIrq s) (State.InOrder c) := by
  unfold execBuIrq
  split
  · rename_i hs
    obtain ⟨hf, hirq, hall⟩ := hs
    obtain ⟨hwin, ⟨qs, hnd, hacq, hqs⟩, hwired, -, -, -, hshadow, hmasks, hsizes⟩ :=
      (State.bringUpOk_working (.inl hf)).1 h.1
    rw [hirq] at hacq
    exact .next ⟨(State.bringUpOk_working (s := { s with irqEn := true, acq := .irq :: s.acq }) (.inl hf)).2
      ⟨hwin, ⟨qs, hnd, congrArg (.irq :: ·) hacq, hqs⟩, hwired, fun _ => State.allWired_iff.1 hall, fun _ => rfl, .inr rfl, hshadow, hmasks, hsizes⟩, h.2⟩
  · exact h.refused _

theorem execBuOk_order : EnsuresNext (execBuOk s) (State.InOrder c) := by
  unfold execBuOk
  split
  · rename_i hs
    obtain ⟨hf, hirq, -⟩ := hs
    obtain ⟨hwin, hqs, hwired, hhandler, -, hdisp, -, hmasks, hsizes⟩ := (State.bringUpOk_working (.inl hf)).1 h.1
    exact Ensures.finish <| statusWrite_next ⟨(State.bringUpOk_working (.inr rfl)).2 ⟨hwin, hqs, hwired, hhandler,
      fun _ => hirq, hdisp, .inl rfl, hmasks, hsizes⟩, h.2⟩
  · exact h.refused _

theorem execBuFail_order : EnsuresNext (execBuFail s) (State.InOrder c) := by
  unfold execBuFail
  split
  · exact h.refused _
  · rename_i hf
    exact Ensures.finish (h.failWith _ fun hd => absurd (.inl hd) hf)

end

/-- The teardown of a queue leaves it as if it had never existed, be it valid or not (43 R215). -/
theorem detachQueue_order (q : Role) {s : State} (hw : (s.queue q).wired = true → (s.queue q).valid = true) :
    Ensures (detachQueue q s) (SameOrder (s.setQueue q Queue.empty)) := by
  unfold detachQueue
  split
  · dsimp only
    split
    · exact freeQueue_order q .giveBack s
    · exact (drainList_order s q).bind fun r h1 t ht =>
        (h1.setQueue_both rfl rfl).trans (freeQueue_order q .giveBack r.2 t ht)
  · rename_i hv
    have hv : (s.queue q).valid = false := by simpa using hv
    have hwired : (s.queue q).wired = false := by simpa [hv] using hw
    have hself : SameOrder (s.setQueue q Queue.empty) (s.setQueue q (s.queue q)) :=
      (SameOrder.refl s).setQueue_both hv hwired
    rw [State.setQueue_queue] at hself
    exact .ok hself

theorem detachQueues_order (qs : List Role) {s : State}
    (hw : ∀ q, (s.queue q).wired = true → (s.queue q).valid = true) (hi : s.irqEn = false) (hd : s.disp = .idle) :
    Ensures (detachQueues qs s) (fun t => SameCmd s t ∧ t.disp = .idle
      ∧ (∀ q, (t.queue q).wired = true → (t.queue q).valid = true)
      ∧ ∀ q, (t.queue q).valid = true → (s.queue q).valid = true ∧ q ∉ qs) := by
  induction qs generalizing s with
  | nil => exact .ok ⟨.refl s, hd, hw, fun q hv => ⟨hv, List.not_mem_nil⟩⟩
  | cons p rest ih =>
    refine (detachQueue_order p (hw p)).bind fun s1 h1 t ht => ?_
    have hc1 : SameCmd s s1 := (SameCmd.of_eq rfl).trans h1.cmd
    have hqueue : ∀ q, (s1.queue q).valid = (if q = p then Queue.empty else s.queue q).valid
        ∧ (s1.queue q).wired = (if q = p then Queue.empty else s.queue q).wired := fun q => by
      rw [← State.queue_setQueue]
      exact h1.queue q
    obtain ⟨hc, hdisp, hwired, hvalid⟩ := ih (fun q hq => by
      rw [(hqueue q).2] at hq
      rw [(hqueue q).1]
      split at hq
      · cases hq
      · rw [if_neg ‹_›]
        exact hw q hq) (hc1.irqEn.trans hi) (h1.rest hi hd) t ht
    refine ⟨hc1.trans hc, hdisp, hwired, fun q hv => ?_⟩
    obtain ⟨hv1, hrest⟩ := hvalid q hv
    rw [(hqueue q).1] at hv1
    split at hv1
    · cases hv1
    · exact ⟨hv1, fun hm => (List.mem_cons.1 hm).elim ‹_› hrest⟩

/-- The teardown takes every valid queue, whatever their order (43 R215, log 11). -/
theorem State.mem_detachRoles {s : State} {q : Role} (hmem : .qr q ∈ s.acq) : q ∈ s.detachRoles := by
  unfold State.detachRoles
  split
  · exact Role.mem_every q
  · generalize s.acq = acq at hmem
    induction acq with
    | nil => cases hmem
    | cons r rest ih =>
      rcases List.mem_cons.1 hmem with hr | hr
      · rw [← hr]
        exact List.mem_cons_self
      · cases r with
        | qr p => exact List.mem_cons_of_mem _ (ih hr)
        | win => exact ih hr
        | irq => exact ih hr

/-- What BU.DETACH leaves once the queues are gone (43 R215, R222). -/
def State.afterDetach (s : State) : State :=
  { s with winMapped := false, acq := [], offered := 0, negotiated := 0, qsize := ⟨0, 0, 0⟩, stShadow := 0
           isrLat := 0, dq := .q0, walk := .enter, fsm := .detached }

theorem detachQueues_ends {s : State} (h : s.Accounted) (hi : s.irqEn = false) (hd : s.disp = .idle) :
    Ensures (detachQueues s.detachRoles s) (fun t => t.afterDetach.InOrder s.cfg) := fun t ht => by
  obtain ⟨hc, hdisp, hwired, hvalid⟩ := detachQueues_order s.detachRoles h.wired hi hd t ht
  refine ⟨(State.bringUpOk_detached rfl).2 ⟨rfl, rfl, hc.irqEn.trans hi, fun q => ?_, hdisp, rfl, rfl, rfl⟩, hc.cfg⟩
  refine Bool.eq_false_iff.2 fun hq => ?_
  obtain ⟨hv, hnot⟩ := hvalid q (hwired q hq)
  exact hnot (State.mem_detachRoles (h.queue q hv))

theorem detachDevice_order {s : State} (h : s.Accounted) : Ensures (detachDevice s) (State.InOrder s.cfg) := by
  refine (waitIdle_order { s with irqEn := false }).bind fun s1 h1 => ?_
  have hstopped : State.Accounted { s with irqEn := false, disp := .idle } :=
    ⟨fun hi => (by cases hi), h.win, h.queue, h.wired, .inl rfl, h.masks⟩
  have hacc1 := hstopped.same h1
  have hirq1 : s1.irqEn = false := h1.cmd.irqEn
  have hidle1 : s1.disp = .idle := h1.rest rfl rfl
  have hcfg1 : s1.cfg = s.cfg := h1.cmd.cfg
  dsimp only
  split
  · refine (statusWrite0_order s1).bind fun s2 h2 => ?_
    have hacc2 : s2.Accounted :=
      State.Accounted.same (s := { s1 with stShadow := 0 })
        ⟨hacc1.irq, hacc1.win, hacc1.queue, hacc1.wired, hacc1.disp, hacc1.masks⟩ h2
    have hcfg2 : s2.cfg = s.cfg := h2.cmd.cfg.trans hcfg1
    exact hcfg2 ▸ (detachQueues_ends hacc2 (h2.cmd.irqEn.trans hirq1) (h2.rest hirq1 hidle1)).bind fun _ ht => .ok ht
  · exact hcfg1 ▸ (detachQueues_ends hacc1 hirq1 hidle1).bind fun _ ht => .ok ht

section
variable {c : Config} {s : State} (h : s.InOrder c)
include h

theorem execBuDetach_order : EnsuresNext (execBuDetach s) (State.InOrder c) := by
  unfold execBuDetach
  split
  · exact h.refused _
  · rename_i hf
    exact Ensures.finish <| (h.2 ▸ detachDevice_order
      (State.accounted_of_bringUpOk h.1 fun hd => absurd hd hf)).bind fun _ ht => .ok (ht.respond .ok [])

/-! ### Register, pool and query commands (40, 42, 43 R217) -/

theorem regReadCommand_order (w : Win) (n : Nat) (off : BitVec 16) :
    EnsuresNext (regReadCommand w n off s) (State.InOrder c) := by
  unfold regReadCommand
  split
  · split
    · exact Ensures.finish <| (regRead_order cmdCtx_keepsOrder s _ _ _).bind fun _ h1 =>
        .ok ((h.same h1).respond .ok _)
    · exact h.refused _
  · exact h.refused _

theorem regWriteCommand_order (w : Win) (n : Nat) (off : BitVec 16) (value : Word) :
    EnsuresNext (regWriteCommand w n off value s) (State.InOrder c) := by
  unfold regWriteCommand
  split
  · split
    · exact Ensures.finish <| (regWrite_order cmdCtx_keepsOrder s _ _ _ _).bind fun _ h1 =>
        .ok ((h.same h1).respond .ok _)
    · exact h.refused _
  · exact h.refused _

theorem execLinkState_order : EnsuresNext (execLinkState s) (State.InOrder c) := by
  unfold execLinkState
  split
  · exact Ensures.finish <| (readLink_order cmdCtx_keepsOrder s).bind fun _ h1 => .ok ((h.same h1).respond .ok _)
  · exact h.refused _

theorem poolReserve_order (internal : Bool) (dir : Dir) (len : BitVec 32) :
    (poolReserve internal dir len s).2.InOrder c := by
  rw [poolReserve_snd]
  exact h

theorem execPoolReserve_order (dir : Dir) (len : Word) : EnsuresNext (execPoolReserve dir len s) (State.InOrder c) := by
  unfold execPoolReserve
  split
  · exact h.refused _
  · have hr := poolReserve_order h false dir len
    refine .next ?_
    split <;> rename_i heq <;> rw [heq] at hr <;> exact hr.respond _ _

theorem execPoolRelease_order (hd : Handle) : EnsuresNext (execPoolRelease hd s) (State.InOrder c) := by
  unfold execPoolRelease
  split
  · split
    · exact h.refused _
    · split
      · exact h.refused _
      · exact .next (State.InOrder.respond (s := poolFree hd.toNat s) h .ok [])
  · exact h.refused _

/-! ### The ring commands (41) -/

theorem State.InOrder.setQueue {q : Role} {x : Queue} (hv : x.valid = (s.queue q).valid)
    (hw : x.wired = (s.queue q).wired) : (s.setQueue q x).InOrder c := h.same (.setQueue s hv hw)

theorem createOn_order {q : Role} (size : BitVec 16) (r : Nat) (hf : s.fsm = .detached ∨ s.fsm = .featuresOk)
    (hv : (s.queue q).valid = false) : (createOn q size r s).InOrder c := by
  rw [createOn_eq]
  generalize ((memZeroSlot cmdCtx r s).slot r).bus = base
  have hqueue : ∀ p, (s.setQueue q (createdQueue size r base none)).queue p
      = if p = q then createdQueue size r base none else s.queue p := fun p => State.queue_setQueue s ..
  have hunwired : ∀ p, ((s.setQueue q (createdQueue size r base none)).queue p).wired = true →
      p ≠ q ∧ (s.queue p).wired = true := fun p hp => by
    rw [hqueue] at hp
    split at hp
    · cases hp
    · exact ⟨‹_›, hp⟩
  rcases hf with hf | hf
  · obtain ⟨hacq, hwin, hirq, hwired, hdisp, hshadow, hneg, hsizes⟩ := (State.bringUpOk_detached hf).1 h.1
    refine ⟨(State.bringUpOk_detached (s := { memZeroSlot cmdCtx r s with queues := _, acq := _ }) hf).2
      ⟨?_, hwin, hirq, fun p => Bool.eq_false_iff.2 fun hp => ?_, hdisp, hshadow, hneg, hsizes⟩, h.2⟩
    · rw [hf]
      exact hacq
    · exact Bool.eq_false_iff.1 (hwired p) (hunwired p hp).2
  · obtain ⟨hwin, ⟨qs, hnd, hacq, hqs⟩, hwired, hhandler, -, hdisp, hshadow, hmasks, hsizes⟩ :=
      (State.bringUpOk_working (.inl hf)).1 h.1
    -- the handler asks for three wired queues, and this one does not exist
    have hoff : s.irqEn = false := Bool.eq_false_iff.2 fun hi => by simp [hwired q (hhandler hi q)] at hv
    refine ⟨(State.bringUpOk_working (s := { memZeroSlot cmdCtx r s with queues := _, acq := _ }) (.inl hf)).2
      ⟨hwin, ⟨q :: qs, List.nodup_cons.2 ⟨fun hm => by simp [(hqs q).1 hm] at hv, hnd⟩, ?_, fun p => ?_⟩,
        fun p hp => ?_,
        fun hi => ?_, fun hd => ?_, hdisp, hshadow, hmasks, hsizes⟩, h.2⟩
    · rw [if_pos hf, hacq]
      show _ = workingAcq s.irqEn _
      rw [hoff]
      rfl
    · rw [List.mem_cons, hqs]
      refine Iff.trans ?_ (iff_of_eq (congrArg (fun x : Queue => x.valid = true) (hqueue p)).symm)
      by_cases hpq : p = q
      · simp [hpq, createdQueue]
      · simp [hpq]
    · obtain ⟨hpq, hp⟩ := hunwired p hp
      refine (congrArg Queue.valid (hqueue p)).trans ?_
      rw [if_neg hpq]
      exact hwired p hp
    · exact absurd (hoff.symm.trans hi) (by decide)
    · exact absurd (hf.symm.trans hd) (by decide)

theorem execVqCreate_order (q : Role) (size : BitVec 16) : EnsuresNext (execVqCreate q size s) (State.InOrder c) := by
  unfold execVqCreate
  split
  · rename_i hf
    split
    · exact h.refused _
    · rename_i hv
      split
      · exact h.refused _
      · split
        · exact h.refused _
        · refine Ensures.finish <| (lock_order s q).bind fun s1 h1 => ?_
          have hr := poolReserve_order (h.same h1) true .fromDevice (BitVec.ofNat 32 (regionBytes size.toNat))
          have hsnd := poolReserve_snd true .fromDevice (BitVec.ofNat 32 (regionBytes size.toNat)) s1
          have hf1 : s1.fsm = .detached ∨ s1.fsm = .featuresOk := by rwa [h1.cmd.fsm]
          have hv1 : (s1.queue q).valid = false := by rw [(h1.queue q).1]; simpa using hv
          unfold poolReserveInternal
          split <;> rename_i s2 heq <;> rw [heq] at hr hsnd <;> dsimp only at hr hsnd
          · refine .ok ((createOn_order hr size _ ?_ ?_).respond .ok [])
            · rwa [hsnd]
            · rwa [hsnd]
          · have hu : (unlock q s2).InOrder c := hr.setQueue rfl rfl
            dsimp only
            split
            · rename_i hfeat
              exact hu.failWith _ fun hd => absurd (hfeat.symm.trans hd) (by decide)
            · exact .ok (hu.respond _ _)
  · exact h.refused _

theorem execVqDestroy_order (q : Role) : EnsuresNext (execVqDestroy q s) (State.InOrder c) := by
  unfold execVqDestroy
  split
  · rename_i hf
    split
    · obtain ⟨hacq, hwin, hirq, hwired, hdisp, hshadow, hneg, hsizes⟩ := (State.bringUpOk_detached hf).1 h.1
      have hgone : (s.setQueue q Queue.empty).InOrder c := by
        refine ⟨(State.bringUpOk_detached (s := s.setQueue q Queue.empty) hf).2
          ⟨hacq, hwin, hirq, fun p => ?_, hdisp, hshadow, hneg, hsizes⟩, h.2⟩
        rw [State.queue_setQueue]
        split
        · rfl
        · exact hwired p
      exact Ensures.finish <| (freeQueue_order q .giveBack s).bind fun _ h1 => .ok ((hgone.same h1).respond .ok [])
    · exact h.refused _
  · exact h.refused _

theorem execVqDrain_order (q : Role) : EnsuresNext (execVqDrain q s) (State.InOrder c) := by
  unfold execVqDrain
  split
  · exact Ensures.finish <| (drainList_order s q).bind fun _ h1 => .ok ((h.same h1).respond _ _)
  · exact h.refused _

end

section
variable {c : Config} {q : Role}

theorem sameOrder_setTag (s : State) (d : DescIdx) (tag : Tag) :
    SameOrder s (s.setQueue q ((s.queue q).setTag d tag)) := .setQueue s rfl rfl

theorem sameOrder_unlock (s : State) : SameOrder s (unlock q s) := .setQueue s rfl rfl

theorem sameOrder_recordHead (head : DescIdx) (n : Nat) (cookie : Handle) (ind : Option Handle) (s : State) :
    SameOrder s (recordHead q head n cookie ind s) := .setQueue s rfl rfl

theorem sameOrder_setFree (s : State) (free : List DescIdx) :
    SameOrder s (s.setQueue q { s.queue q with free := free }) := .setQueue s rfl rfl

theorem writeDesc_order (s : State) (table i addr len next : Nat) (fl : BitVec 16) :
    Ensures (writeDesc cmdCtx table i addr len fl next s) (SameOrder s) :=
  have hc := cmdCtx_keepsOrder
  (memWrite_order hc s _ _ _).bind fun s1 h1 => (memWrite_order hc s1 _ _ _).bind fun s2 h2 =>
    (memWrite_order hc s2 _ _ _).bind fun s3 h3 => fun t ht =>
      ((h1.trans h2).trans h3).trans (memWrite_order hc s3 _ _ _ t ht)

theorem submitDirect_order (head : DescIdx) (l : List (Seg × DescIdx)) (s : State) :
    Ensures (submitDirect cmdCtx q head l s) (SameOrder s) := by
  induction l generalizing s with
  | nil => exact .ok (.refl s)
  | cons p rest ih =>
    exact (writeDesc_order s _ _ _ _ _ _).bind fun s1 h1 t ht => (h1.trans (sameOrder_setTag s1 ..)).trans (ih _ t ht)

theorem writeTable_order (table k : Nat) (segs : List Seg) (s : State) :
    Ensures (writeTable cmdCtx table k segs s) (SameOrder s) := by
  induction segs generalizing k s with
  | nil => exact .ok (.refl s)
  | cons g rest ih => exact (writeDesc_order s _ _ _ _ _ _).bind fun s1 h1 t ht => h1.trans (ih _ s1 t ht)

theorem submitIndirect_order (head : DescIdx) (t : Nat) (segs : List Seg) (s : State) :
    Ensures (submitIndirect cmdCtx q head t segs s) (SameOrder s) :=
  (writeTable_order _ _ segs s).bind fun s1 h1 => (writeDesc_order s1 _ _ _ _ _ _).bind fun s2 h2 =>
    .ok (((h1.trans h2).trans (sameOrder_setTag s2 ..)).trans (.of_eq rfl))

theorem publish_order (head : DescIdx) (s : State) : Ensures (publish cmdCtx q head s) (SameOrder s) := by
  have hc := cmdCtx_keepsOrder
  refine (memWrite_order hc s _ _ _).bind fun s1 h1 => (fence_order hc s1).bind fun s2 h2 => ?_
  have h3 := (h1.trans h2).trans
    (.setQueue s2 (x := { s2.queue q with availIdx := (s2.queue q).availIdx + 1 }) rfl rfl)
  refine (memWrite_order hc _ _ _ _).bind fun s4 h4 => (fence_order hc s4).bind fun s5 h5 =>
    (memRead_order hc s5 _ _).bind fun r h6 => ?_
  have h6 := ((h3.trans h4).trans h5).trans h6
  dsimp only
  split
  · exact .ok h6
  · exact fun t ht => h6.trans (regWrite_order hc r.2 _ _ _ _ t ht)

theorem submitTail_order (head : DescIdx) (n : Nat) (ind : Option Handle) (segs : List Seg) {s : State}
    (h : s.InOrder c) : Ensures (submitTail cmdCtx q head n ind segs s) (State.InOrder c) := by
  have hl : (setLoans (some { q := q, head := head }) (segs.map segHandle) s).InOrder c := by
    rw [setLoans_eq]
    exact h
  exact (publish_order head _).bind fun t ht =>
    .ok ((((hl.same (sameOrder_recordHead ..)).same ht).same (sameOrder_unlock t)).respond .ok [])

theorem submitChain_order (segs : List Seg) {s : State} (h : s.InOrder c) :
    Ensures (submitChain cmdCtx q segs s) (State.InOrder c) := by
  have hx : (s.setQueue q { s.queue q with free := (s.queue q).free.drop (s.need segs.length) }).InOrder c :=
    h.same (sameOrder_setFree s _)
  have hr := poolReserve_order hx true .fromDevice (BitVec.ofNat 32 (16 * segs.length))
  unfold submitChain poolReserveInternal
  dsimp only
  split
  · split <;> rename_i s2 hp <;> rw [hp] at hr
    · exact .ok (((hr.same (sameOrder_setFree s2 _)).same (sameOrder_unlock _)).respond .queueFull [])
    · exact (submitIndirect_order _ _ segs _).bind fun _ h1 => submitTail_order _ _ _ segs (hr.same h1)
  · exact (submitDirect_order _ _ _).bind fun _ h1 => submitTail_order _ _ _ segs (hx.same h1)

end

section
variable {c : Config} {s : State} (h : s.InOrder c)
include h

theorem execVqSubmit_order (q : Role) (segs : List Seg) : EnsuresNext (execVqSubmit q segs s) (State.InOrder c) := by
  unfold execVqSubmit
  split
  · split
    · exact h.refused _
    · split
      · exact h.refused _
      · refine Ensures.finish <| (lock_order s q).bind fun s1 h1 => ?_
        have ho := h.same h1
        have hu : (unlock q s1).InOrder c := ho.setQueue rfl rfl
        split
        · exact .ok (hu.respond _ _)
        · split
          · exact .ok (hu.respond _ _)
          · exact submitChain_order segs ho
  · exact h.refused _

theorem exec_order (i : Instr) (hwf : c.wf = true) : EnsuresNext (exec i s) (State.InOrder c) := by
  cases i with
  | rd8 off => exact regReadCommand_order h .w0 1 off
  | rd16 off => exact regReadCommand_order h .w0 2 off
  | rd32 off => exact regReadCommand_order h .w0 4 off
  | wr8 off value => exact regWriteCommand_order h .w0 1 off value
  | wr16 off value => exact regWriteCommand_order h .w0 2 off value
  | wr32 off value => exact regWriteCommand_order h .w0 4 off value
  | drd8 off => exact regReadCommand_order h .w1 1 off
  | drd16 off => exact regReadCommand_order h .w1 2 off
  | drd32 off => exact regReadCommand_order h .w1 4 off
  | dwr8 off value => exact regWriteCommand_order h .w1 1 off value
  | dwr16 off value => exact regWriteCommand_order h .w1 2 off value
  | dwr32 off value => exact regWriteCommand_order h .w1 4 off value
  | vqCreate q size => exact execVqCreate_order h q size
  | vqDestroy q => exact execVqDestroy_order h q
  | vqSubmit q segs => exact execVqSubmit_order h q segs
  | vqDrain q => exact execVqDrain_order h q
  | poolReserve dir len => exact execPoolReserve_order h dir len
  | poolRelease hd => exact execPoolRelease_order h hd
  | buReset => exact execBuReset_order h
  | buAck => exact execBuAck_order h hwf
  | buDriver => exact execBuDriver_order h hwf
  | buFeatures => exact execBuFeatures_order h
  | buQwire q => exact execBuQwire_order h q
  | buIrq => exact execBuIrq_order h
  | buOk => exact execBuOk_order h
  | buFail => exact execBuFail_order h
  | buDetach => exact execBuDetach_order h
  | linkState => exact execLinkState_order h
  | propFeat => exact .next h
  | propQsize q => exact .next h

theorem State.InOrder.nextTurn : s.nextTurn.2.InOrder c := by
  unfold State.nextTurn
  split <;> exact h

theorem step_order (hwf : c.wf = true) : EnsuresNext (step s) (State.InOrder c) := by
  have hn := h.nextTurn
  cases hturn : s.nextTurn with
  | mk turn s1 =>
    rw [hturn] at hn
    cases turn with
    | cmd =>
      rw [step_of_nextTurn_cmd hturn]
      unfold cmdTurn
      split
      · exact .next hn
      · exact .next hn
      · rename_i i rest _
        exact exec_order (s := { s1 with cmdPort := rest }) hn i hwf
    | act a =>
      rw [step_of_nextTurn_act hturn]
      cases a with
      | disp => exact Ensures.finish fun t ht => hn.same (dispTurn_order s1 t ht)
      | _ => exact .next (hn.same (sameOrder_external s1 _))

end

/-- Settles O58: the agents beside CMD leave what `bringUpOk` speaks of alone, and each command either leaves it alone,
enters the next phase of bring-up with what that phase asks, or releases everything that was acquired. -/
theorem stepKeepsBringUpInOrder : Obligations.StepKeepsBringUpInOrder :=
  fun _ t hwf hs ht => step_order ⟨hs, rfl⟩ hwf t ht

end Sys2Proof.Machine

namespace Sys2Proof.Machine

open Sys2Proof.Claims

/-! ## One register access of CMD (40 R130, R135; 43 R202) -/

section
variable {s s1 : State} (hwf : s.cfg.wf = true) (hg : cmdGap s = .ok s1)
include hwf hg

theorem regWrite_register (r : Reg0) {v : Nat} (hv : v < 256 ^ r.bytes) :
    regWrite cmdCtx .w0 (r.off s.cfg) r.bytes v s = .ok ((s1.settle.setDev (s1.dev.react r v)).log .cmd
      (.regWrite .w0 (r.off s.cfg) (leBytes r.bytes v))) := by
  have hcfg : s1.settle.cfg = s.cfg := s1.settle_cfg.trans (sameCmd_cmdGap hg).cfg
  have hwrite : s1.settle.windowWrite .w0 (r.off s.cfg) (leBytes r.bytes v)
      = s1.settle.setDev (s1.dev.react r v) := by
    rw [← hcfg, State.windowWrite_register (hcfg ▸ hwf) (leBytes_length ..), State.settle_dev, ofLe_leBytes _ _ hv]
  rw [regWrite_of_gap (c := cmdCtx) hg]
  exact congrArg (fun t : State => Except.ok (t.log .cmd _)) hwrite

theorem regRead_register {r : Reg0} {v : Nat} (hv : s1.dev.regValue r = some v) :
    regRead cmdCtx .w0 (r.off s.cfg) r.bytes s = .ok (v, (s1.settle.setDev (s1.dev.readEffect r)).log .cmd
      (.regRead .w0 (r.off s.cfg) (leBytes r.bytes v))) := by
  have hcfg : s1.settle.cfg = s.cfg := s1.settle_cfg.trans (sameCmd_cmdGap hg).cfg
  have hread : s1.settle.windowRead .w0 (r.off s.cfg) r.bytes
      = (leBytes r.bytes v, s1.settle.setDev (s1.dev.readEffect r)) := by
    rw [← hcfg, State.windowRead_register (hcfg ▸ hwf) (by rwa [State.settle_dev]), State.settle_dev]
  rw [regRead_of_gap (c := cmdCtx) hg, cmdCtx_drainStores, hread,
    show busValue (s1.winEndian .w0) (leBytes r.bytes v) = v from ofLe_leBytes _ _ (Device.regValue_lt hv)]
  rfl

end

section
variable {s : State} (hwf : s.cfg.wf = true) (hgaps : s.gaps = []) (hwbuf : s.wbuf = [])
include hwf hgaps hwbuf

theorem regWrite_settled (r : Reg0) {v : Nat} (hv : v < 256 ^ r.bytes) :
    regWrite cmdCtx .w0 (r.off s.cfg) r.bytes v s = .ok ((s.setDev (s.dev.react r v)).log .cmd
      (.regWrite .w0 (r.off s.cfg) (leBytes r.bytes v))) := by
  rw [regWrite_register hwf (cmdGap_nil hgaps) r hv, State.settle_of_nil s hwbuf]

theorem regRead_settled {r : Reg0} {v : Nat} (hv : s.dev.regValue r = some v) :
    regRead cmdCtx .w0 (r.off s.cfg) r.bytes s = .ok (v, (s.setDev (s.dev.readEffect r)).log .cmd
      (.regRead .w0 (r.off s.cfg) (leBytes r.bytes v))) := by
  rw [regRead_register hwf (cmdGap_nil hgaps) hv, State.settle_of_nil s hwbuf]

end

/-- A status write as it stands on the bus (43 R202). -/
theorem statusWrite_register {s s1 : State} {bits v : BitVec 8} (hwf : s.cfg.wf = true) (hv : s.stShadow ||| bits = v)
    (hg : cmdGap { s with stShadow := v } = .ok s1) : statusWrite bits s
      = .ok ((s1.settle.setDev (s1.dev.react .deviceStatus v.toNat)).log .cmd (statusOp s v)) := by
  have hbytes : leBytes 1 v.toNat = [v] := by simp [leBytes]
  unfold statusWrite statusOp
  rw [hv, ← hbytes]
  exact regWrite_register (s := { s with stShadow := v }) hwf hg .deviceStatus v.isLt

theorem Device.react_status_of_ne_zero (d : Device) {v : BitVec 8} (h : v ≠ 0) :
    d.react .deviceStatus v.toNat = { d with dstatus := v } := by
  rw [Device.react, BitVec.ofNat_toNat, BitVec.setWidth_eq, if_neg h]

/-! ## The FAILED entry of a device with no queue (60 R276) -/

theorem failWith_of_nothing {s : State} (e : Err) (hwin : s.winMapped = false) (hacq : s.acq = []) : failWith e s
    = .ok (State.respond { s with errLatch := BitVec.ofNat 8 e.code, fsm := .failed } e []) := by
  have hwrite : writeFailedBit e s = .ok s := if_neg fun h => by simp [hwin] at h
  have hrelease : releaseAll s.acq s = .ok s := by rw [hacq]; rfl
  unfold failWith failEntry
  rw [hwrite, ok_bind, hrelease]
  rfl

theorem releaseAll_windows (s : State) :
    releaseAll [.win] s = .ok { s with winMapped := false, acq := [] } := rfl

/-- An unsupported device is unmapped with no register written (90 C1). -/
theorem failWith_unsupported {s : State} (hacq : s.acq = [.win]) : failWith .unsupportedDevice s = .ok
    (State.respond { s with winMapped := false, acq := [], errLatch := 1, fsm := .failed } .unsupportedDevice []) := by
  have hwrite : writeFailedBit .unsupportedDevice s = .ok s := if_neg fun h => h.2 rfl
  unfold failWith failEntry
  rw [hwrite, ok_bind, hacq, releaseAll_windows]
  rfl

theorem failWith_of_windows {s : State} {e : Err} (hwf : s.cfg.wf = true) (hgaps : s.gaps = []) (hwbuf : s.wbuf = [])
    (hwin : s.winMapped = true) (he : e ≠ .unsupportedDevice) (hacq : s.acq = [.win]) : failWith e s
      = .ok (State.respond { s with
        stShadow := s.stShadow ||| s.cfg.stFailed
        dev := { s.dev with dstatus := s.stShadow ||| s.cfg.stFailed }
        bus := s.bus ++ [{ agent := .cmd, op := statusOp s (s.stShadow ||| s.cfg.stFailed) }]
        winMapped := false, acq := [], errLatch := BitVec.ofNat 8 e.code, fsm := .failed } e []) := by
  have hne : s.stShadow ||| s.cfg.stFailed ≠ 0 := fun hz => Config.wf_stFailed hwf (BitVec.or_eq_zero_iff.1 hz).2
  unfold failWith failEntry writeFailedBit
  rw [if_pos ⟨hwin, he⟩, statusWrite_settled hwf hgaps hwbuf hne, ok_bind]
  show (releaseAll s.acq _ >>= _) >>= _ = _
  rw [hacq, releaseAll_windows]
  rfl

/-! ## Bring-up commands out of order (43 R201) -/

theorem State.allWired_of_unwired {s : State} (h : ∃ q, (s.queue q).wired = false) : ¬ s.allWired = true := fun hw => by
  obtain ⟨q, hq⟩ := h
  simp [State.allWired_iff.1 hw q] at hq

theorem execBuIrq_refused {s : State} (h : s.fsm ≠ .featuresOk ∨ s.irqEn = true ∨ ∃ q, (s.queue q).wired = false) :
    Refused .buIrq .illegalTransition s :=
  if_neg fun ⟨hf, hirq, hw⟩ => h.elim (fun h => h hf) fun h =>
    h.elim (fun h => by simp [hirq] at h) fun h => State.allWired_of_unwired h hw

theorem execBuOk_refused {s : State} (h : s.fsm ≠ .featuresOk ∨ s.irqEn = false ∨ ∃ q, (s.queue q).wired = false) :
    Refused .buOk .illegalTransition s :=
  if_neg fun ⟨hf, hirq, hw⟩ => h.elim (fun h => h hf) fun h =>
    h.elim (fun h => by simp [hirq] at h) fun h => State.allWired_of_unwired h hw

theorem execBuReset_refused {s : State} (h : s.fsm ≠ .detached ∨ ∃ p, (s.queue p).valid = true) :
    Refused .buReset .illegalTransition s :=
  if_neg fun ⟨hf, hnone⟩ => h.elim (fun h => h hf) fun ⟨p, hp⟩ => by simp [State.someValid_eq_false.1 hnone p] at hp

/-- Settles O33: each command's first test is the one of its row in 43 R200. -/
theorem bringUpOutOfOrderRefused : Obligations.BringUpOutOfOrderRefused := by
  intro s q
  exact ⟨execBuReset_refused, fun h => if_neg h, fun h => if_neg h, fun _ hf hd => if_neg fun h => h.elim hd hf,
    fun h => if_neg h, fun h => if_neg h, execBuIrq_refused, execBuOk_refused, fun h => if_pos h, fun h => if_pos h,
    fun hf h => (if_pos hf).trans (if_pos h)⟩

/-- Settles O42. -/
theorem irqRegistersHandler : Obligations.IrqRegistersHandler := fun _ =>
  ⟨by decide, fun hf hirq hw => if_pos ⟨hf, hirq, State.allWired_iff.2 hw⟩, execBuIrq_refused⟩

/-- Settles O45: what a phase before FEATURES_OK asks of the negotiated mask, and before DRIVER_LOADED of the sizes. -/
theorem propertiesAnswerEverywhere : Obligations.PropertiesAnswerEverywhere := by
  intro s q
  refine ⟨by decide, by decide, rfl, rfl, fun hok => ⟨fun hf => ?_, fun hf => ?_⟩⟩
  · rcases hf with hf | hf
    · exact ((State.bringUpOk_detached hf).1 hok).negotiated
    · exact ((State.bringUpOk_early hf).1 hok).1.negotiated
  · have hsizes : s.qsize = ⟨0, 0, 0⟩ := by
      obtain ⟨-, -, -, -, -, hok⟩ := State.bringUpOk_iff.1 hok
      rcases hf with hf | hf | hf <;> simpa [State.sizesOk, hf] using hok
    rw [hsizes]
    cases q <;> rfl

/-! ## BU.RESET (43 R203) -/

theorem exec_buReset_of_answer {s s1 : State} {b : Bool} (hf : s.fsm = .detached) (hv : ∀ q, (s.queue q).valid = false)
    (hmap : (newInstance s).platMap = (b, s1)) :
    exec .buReset s = finish (if b then resetMapped s1 else failWith .mapFailure s1) := by
  show execBuReset s = _
  unfold execBuReset
  rw [if_pos ⟨hf, State.someValid_eq_false.2 hv⟩, hmap, ← choose_eq]

/-- PLAT's answer leaves the new Device as it is (43 R203). -/
theorem State.eq_of_platMap {s s1 : State} {b : Bool} (hmap : s.platMap = (b, s1)) :
    s1 = { s with platMaps := s1.platMaps, draws := s1.draws } := by
  have h := s.platMap_snd
  rwa [hmap] at h

/-- Settles O35. -/
theorem mapFailureIsFatal : Obligations.MapFailureIsFatal := by
  intro s s1 hf hv hacq hwin hmap
  have hs1 := State.eq_of_platMap hmap
  refine ⟨?_, by rw [hs1]; rfl, by rw [hs1]; rfl⟩
  rw [exec_buReset_of_answer hf hv hmap, if_neg (by decide),
    failWith_of_nothing .mapFailure (by rw [hs1]; exact hwin) (by rw [hs1]; exact hacq)]
  rfl

theorem poolKind_clearOrphans (s : State) (a : Nat) : poolKind (clearOrphans s).pool a = poolKind s.pool a := by
  have hfind : (clearOrphans s).pool.find? (fun x => x.covers a)
      = (s.pool.find? fun x => x.covers a).map fun x => { x with orphan := false } := List.find?_map ..
  rw [poolKind, poolKind, hfind]
  cases s.pool.find? (fun x => x.covers a) <;> rfl

/-- Bringing the quarantined buffers back leaves every byte (43 R216). -/
theorem byteAt_clearOrphans (s : State) (a : Nat) : (clearOrphans s).byteAt a = s.byteAt a :=
  State.byteAt_congr (poolKind_clearOrphans s a) rfl

theorem statusWrite0_register {s s1 : State} (hwf : s.cfg.wf = true)
    (hg : cmdGap { s with stShadow := 0 } = .ok s1) : statusWrite0 s
      = .ok (clearOrphans ((s1.settle.setDev s1.dev.resetByStatus).log .cmd (statusOp s 0))) := by
  unfold statusWrite0 statusOp
  have hwrite := regWrite_register (s := { s with stShadow := 0 }) hwf hg .deviceStatus (v := 0) (by decide)
  rw [show regWrite cmdCtx .w0 s.cfg.offDeviceStatus 1 0 { s with stShadow := 0 } = _ from hwrite, ok_bind]
  rfl

/-- What BU.RESET makes of the state in which the interference before its write has happened (43 R203, R216). -/
def State.afterReset (s : State) (op : BusOp) : State :=
  State.respond { s with
    fsm := .reset
    pool := s.pool.map fun x => { x with orphan := false }
    dev := s.dev.resetByStatus
    mem := s.settle.mem
    wbuf := []
    bus := s.bus ++ [{ agent := .cmd, op := op }] } .ok []

theorem sameBytes_afterReset {s : State} (op : BusOp) (hwbuf : s.wbuf = []) : SameBytes s (s.afterReset op) := fun a =>
  State.byteAt_congr (poolKind_clearOrphans s a) (by
    show Memory.find s.settle.mem a = _
    rw [State.settle_of_nil s hwbuf])

theorem resetMapped_register {s s1 : State} (hwf : s.cfg.wf = true)
    (hg : cmdGap { s with winMapped := true, acq := .win :: s.acq, stShadow := 0 } = .ok s1) :
    resetMapped s = .ok (s1.afterReset (statusOp s 0)) := by
  have hwrite : statusWrite0 { s with winMapped := true, acq := .win :: s.acq }
      = .ok (clearOrphans ((s1.settle.setDev s1.dev.resetByStatus).log .cmd (statusOp s 0))) :=
    statusWrite0_register (s := { s with winMapped := true, acq := .win :: s.acq }) hwf hg
  unfold resetMapped
  rw [hwrite, ok_bind, State.settle_eq]
  simp only [clearOrphans, State.log, State.setDev, State.afterReset]

/-- Settles O34. -/
theorem resetMapsWindowsAndResetsDevice : Obligations.ResetMapsWindowsAndResetsDevice := by
  intro s s1 s2 hwf hf hv hmap hg
  have hs1 := State.eq_of_platMap hmap
  have hc := sameCmd_cmdGap hg
  have hcfg : s1.cfg = s.cfg := (congrArg State.cfg hs1 :)
  have hop : statusOp s1 0 = statusOp s 0 := by rw [statusOp, statusOp, hcfg]
  have hexec := exec_buReset_of_answer hf hv hmap
  rw [if_pos rfl, resetMapped_register (hcfg ▸ hwf) hg, finish_ok, hop] at hexec
  refine ⟨_, hexec, ?_⟩
  generalize s1.platMaps = maps, s1.draws = n at hs1
  subst hs1
  exact ⟨congrArg (· ++ _) hc.respPort, rfl, hc.winMapped, hc.acq, hc.stShadow, hc.errLatch, hc.offered, hc.negotiated,
    hc.qsize, rfl, rfl, rfl, rfl, hc.irqEn, hc.cfg, rfl, rfl, rfl, rfl, rfl, rfl, rfl, hc.turns, sameBytes_afterReset _⟩

end Sys2Proof.Machine

namespace Sys2Proof.Machine

open Sys2Proof.Claims

/-! ## BU.ACK (43 R204) -/

theorem statusWrite_react {s : State} (hwf : s.cfg.wf = true) (hgaps : s.gaps = []) (hwbuf : s.wbuf = [])
    (bits : BitVec 8) : statusWrite bits s = .ok (State.log { s with
      stShadow := s.stShadow ||| bits, dev := s.dev.react .deviceStatus (s.stShadow ||| bits).toNat } .cmd
        (statusOp s (s.stShadow ||| bits))) := by
  have hgap : cmdGap { s with stShadow := s.stShadow ||| bits } = .ok { s with stShadow := s.stShadow ||| bits } :=
    cmdGap_nil (by exact hgaps)
  rw [statusWrite_register hwf rfl hgap, State.settle_of_nil _ (by exact hwbuf)]
  rfl

/-- The reads of the three identifiers, on the bus trace (43 R204). -/
def State.withIdentifiers (s : State) : State :=
  { s with bus := s.bus ++ [{ agent := .cmd, op := .pciRead s.cfg.pciOffVendor 2 s.dev.vendor.toNat },
      { agent := .cmd, op := .pciRead s.cfg.pciOffDevice 2 s.dev.device.toNat },
      { agent := .cmd, op := .pciRead s.cfg.pciOffRevision 1 s.dev.revision.toNat }] }

/-- BU.ACK with nobody interfering: the reads, and what the comparison of the identifiers makes of them. -/
theorem exec_buAck_settled {s : State} (hf : s.fsm = .reset) (hgaps : s.gaps = []) : exec .buAck s = finish
    (if s.dev.vendor = s.cfg.expVendor ∧ s.dev.device = s.cfg.expDevice ∧ s.dev.revision = s.cfg.expRevision then
      statusWrite s.cfg.stAck s.withIdentifiers >>= fun t => .ok (State.respond { t with fsm := .acknowledged } .ok [])
    else failWith .unsupportedDevice s.withIdentifiers) := by
  have hread : ∀ (r : PciReg) (u : State), u.gaps = [] → pciRead cmdCtx r u = .ok ((u.pciReg r).2.2,
      u.log .cmd (.pciRead (u.pciReg r).1 (u.pciReg r).2.1 (u.pciReg r).2.2)) := fun r u hu =>
    pciRead_of_gap (c := cmdCtx) (cmdGap_nil hu) r
  refine (if_pos hf).trans (congrArg finish ?_)
  rw [hread .vendor s hgaps, ok_bind]
  dsimp only
  rw [hread .device _ (by exact hgaps), ok_bind]
  dsimp only
  rw [hread .revision _ (by exact hgaps), ok_bind]
  simp only [BitVec.toNat_inj, State.pciReg, State.log, State.withIdentifiers, List.append_assoc, List.cons_append,
    List.nil_append]

/-- Settles O36. -/
theorem ackSetsAckBit : Obligations.AckSetsAckBit := by
  intro s hwf hf hgaps hwbuf hv hd hr
  have hexec := exec_buAck_settled hf hgaps
  rw [if_pos ⟨hv, hd, hr⟩, statusWrite_react (s := s.withIdentifiers) hwf hgaps hwbuf, ok_bind, finish_ok] at hexec
  dsimp only [State.withIdentifiers] at hexec
  exact ⟨_, hexec, rfl, by simp [Made, State.log, State.respond, statusOp], rfl, rfl, rfl, rfl⟩

/-- Settles O37. -/
theorem wrongIdentifierIsFatal : Obligations.WrongIdentifierIsFatal := by
  intro s hf hacq hgaps hne
  have hdiff : ¬ (s.dev.vendor = s.cfg.expVendor ∧ s.dev.device = s.cfg.expDevice
      ∧ s.dev.revision = s.cfg.expRevision) := fun ⟨hv, hd, hr⟩ => hne.elim (· hv) (·.elim (· hd) (· hr))
  have hexec := exec_buAck_settled hf hgaps
  rw [if_neg hdiff, failWith_unsupported (s := s.withIdentifiers) hacq, finish_ok] at hexec
  exact ⟨_, hexec, rfl, by simp [Made, State.withIdentifiers, State.respond], rfl, rfl, rfl, rfl, rfl⟩

/-! ## BU.DRIVER (43 R205) -/

/-- The state after a queue's size has been read (43 R205). -/
def State.withSize (s : State) (q : Role) : State :=
  { s with
    dev := { s.dev with dsel := BitVec.ofNat 16 q.num }
    bus := s.bus ++ [{ agent := .cmd, op := .regWrite .w0 s.cfg.offQueueSelect (leBytes 2 q.num) },
      { agent := .cmd, op := .regRead .w0 s.cfg.offQueueSize (leBytes 2 (s.dev.dsize.get q).toNat) }]
    qsize := s.qsize.set q (s.dev.dsize.get q) }

theorem selectQueue_settled {s : State} (hwf : s.cfg.wf = true) (hgaps : s.gaps = []) (hwbuf : s.wbuf = [])
    (q : Role) : regWrite cmdCtx .w0 s.cfg.offQueueSelect 2 q.num s
      = .ok (State.log { s with dev := { s.dev with dsel := BitVec.ofNat 16 q.num } } .cmd
        (.regWrite .w0 s.cfg.offQueueSelect (leBytes 2 q.num))) :=
  regWrite_settled hwf hgaps hwbuf .queueSelect (Nat.lt_trans q.num_lt (by decide))

theorem readQueueSize_settled {s : State} (hwf : s.cfg.wf = true) (hgaps : s.gaps = []) (hwbuf : s.wbuf = [])
    (q : Role) : readQueueSize q s = .ok (s.withSize q) := by
  unfold readQueueSize
  rw [selectQueue_settled hwf hgaps hwbuf, ok_bind]
  generalize hu : State.log _ .cmd _ = u
  obtain ⟨hwf1, hgaps1, hwbuf1, hsize⟩ : u.cfg.wf = true ∧ u.gaps = [] ∧ u.wbuf = []
      ∧ u.dev.regValue .queueSize = some (s.dev.dsize.get q).toNat := by
    subst hu
    exact ⟨hwf, hgaps, hwbuf, by cases q <;> rfl⟩
  have hread : regRead cmdCtx .w0 u.cfg.offQueueSize 2 u = _ := regRead_settled hwf1 hgaps1 hwbuf1 hsize
  rw [hread, ok_bind]
  subst hu
  simp [State.withSize, State.log, State.setDev, Device.readEffect, Reg0.off, Reg0.bytes]

/-- The state in which BU.DRIVER judges the sizes (43 R205). -/
def State.sized (s : State) : State :=
  State.log { ((s.withSize .q0).withSize .q1).withSize .q2 with offered := s.dev.doffered } .cmd
    (.regRead .w0 s.cfg.offDeviceFeatures (leBytes 4 s.dev.doffered.toNat))

theorem exec_buDriver_settled {s : State} (hwf : s.cfg.wf = true) (hf : s.fsm = .acknowledged) (hgaps : s.gaps = [])
    (hwbuf : s.wbuf = []) : exec .buDriver s = finish (if s.dev.dsize.all queueSizeOk then
      statusWrite s.cfg.stDriver s.sized >>= fun t => .ok (State.respond { t with fsm := .driverLoaded } .ok [])
    else failWith .noUsableQueues s.sized) := by
  refine (if_pos hf).trans (congrArg finish ?_)
  rw [readQueueSize_settled hwf hgaps hwbuf, ok_bind,
    readQueueSize_settled (s := s.withSize .q0) hwf hgaps hwbuf, ok_bind,
    readQueueSize_settled (s := (s.withSize .q0).withSize .q1) hwf hgaps hwbuf, ok_bind]
  generalize hu : ((s.withSize .q0).withSize .q1).withSize .q2 = u
  obtain ⟨hwf1, hgaps1, hwbuf1⟩ : u.cfg.wf = true ∧ u.gaps = [] ∧ u.wbuf = [] := by
    subst hu
    exact ⟨hwf, hgaps, hwbuf⟩
  have hread : regRead cmdCtx .w0 u.cfg.offDeviceFeatures 4 u = _ :=
    regRead_settled (r := .deviceFeatures) hwf1 hgaps1 hwbuf1 rfl
  rw [hread, ok_bind]
  dsimp only
  rw [BitVec.ofNat_toNat, BitVec.setWidth_eq]
  subst hu
  rfl

/-- Settles O38. -/
theorem driverReadsSizesThenFeatures : Obligations.DriverReadsSizesThenFeatures := by
  intro s hwf hf hgaps hwbuf hacq hwin
  have hexec := exec_buDriver_settled hwf hf hgaps hwbuf
  obtain ⟨-, hdriver, -, -, -⟩ := Config.wf_statusBits hwf
  have hne : s.stShadow ||| s.cfg.stDriver ≠ 0 := fun hz => hdriver (BitVec.or_eq_zero_iff.1 hz).2
  by_cases hsizes : s.dev.dsize.all queueSizeOk = true
  · rw [if_pos hsizes, statusWrite_settled (s := s.sized) hwf hgaps hwbuf hne, ok_bind, finish_ok] at hexec
    dsimp only [State.sized, State.withSize, State.log] at hexec
    refine ⟨_, .ok, s.cfg.stDriver, hexec, rfl, rfl, rfl, rfl, ?_, rfl, ?_, rfl⟩
    · rw [if_pos hsizes]
      exact ⟨rfl, rfl, rfl, hwin, rfl, rfl⟩
    · simp [Made, State.respond, statusOp, PerRole.get, Role.num, leBytes]
  · rw [if_neg hsizes, failWith_of_windows (s := s.sized) hwf hgaps hwbuf hwin (by decide) hacq, finish_ok] at hexec
    dsimp only [State.sized, State.withSize, State.log] at hexec
    refine ⟨_, .noUsableQueues, s.cfg.stFailed, hexec, rfl, rfl, rfl, rfl, ?_, rfl, ?_, rfl⟩
    · rw [if_neg hsizes]
      exact ⟨rfl, rfl, rfl, rfl, rfl, rfl⟩
    · simp [Made, State.respond, statusOp, PerRole.get, Role.num, leBytes]

end Sys2Proof.Machine

namespace Sys2Proof.Machine

open Sys2Proof.Claims

/-! ## BU.FEATURES (43 R206, R207) -/

theorem negotiate_again (o v : BitVec 32) : negotiate (negotiate o v) v = negotiate o v := by
  rw [negotiate, negotiate, BitVec.and_assoc, BitVec.and_self]

/-- Settles O39. -/
theorem featuresAreBitwiseAnd : Obligations.FeaturesAreBitwiseAnd := by
  intro s s1 hwf hf hne hg
  have hc := sameCmd_cmdGap hg
  have hwrite := regWrite_register (s := { s with negotiated := s.offered &&& s.cfg.driverSupported }) hwf hg
    .guestFeatures (v := (s.offered &&& s.cfg.driverSupported).toNat) (BitVec.isLt _)
  rw [Device.react_guestFeatures] at hwrite
  refine ⟨?_, hc.negotiated, hc.stShadow, fun o v => ⟨rfl, negotiate_again o v⟩⟩
  show execBuFeatures s = _
  unfold execBuFeatures
  rw [if_pos hf]
  dsimp only
  rw [negotiate, if_neg hne, show regWrite cmdCtx .w0 s.cfg.offGuestFeatures 4 _ _ = _ from hwrite, ok_bind, finish_ok]
  rfl

/-- Settles O40. -/
theorem emptyFeaturesAreFatal : Obligations.EmptyFeaturesAreFatal := by
  intro s hwf hf hacq hwin hgaps hwbuf hzero
  have hexec : exec .buFeatures s
      = finish (failWith .featureNegotiationFailed { s with negotiated := s.offered &&& s.cfg.driverSupported }) :=
    (if_pos hf).trans (congrArg finish (if_pos hzero))
  rw [failWith_of_windows (by exact hwf) (by exact hgaps) (by exact hwbuf) (by exact hwin) (by decide) (by exact hacq),
    finish_ok] at hexec
  exact ⟨_, hexec, rfl, rfl, hzero, rfl, rfl, rfl, rfl, rfl, rfl, rfl⟩

/-! ## BU.QWIRE and BU.OK (43 R209, R212) -/

/-- The state after the device has been told of a queue (43 R209). -/
def State.withWired (s : State) (q : Role) : State :=
  { s with
    dev := { s.dev with
      dsel := BitVec.ofNat 16 q.num
      daddr := s.dev.daddr.set q (BitVec.ofNat 32 ((s.queue q).base.toNat / 4096)) }
    bus := s.bus ++ [{ agent := .cmd, op := .regWrite .w0 s.cfg.offQueueSelect (leBytes 2 q.num) },
      { agent := .cmd, op := .regWrite .w0 s.cfg.offQueueAddress (leBytes 4 ((s.queue q).base.toNat / 4096)) }]
    queues := s.queues.set q { s.queue q with wired := true } }

theorem writeAddress_settled {s : State} (hwf : s.cfg.wf = true) (hgaps : s.gaps = []) (hwbuf : s.wbuf = []) {q : Role}
    (hsel : s.dev.dsel = BitVec.ofNat 16 q.num) {v : Nat} (hv : v < 2 ^ 32) :
    regWrite cmdCtx .w0 s.cfg.offQueueAddress 4 v s
      = .ok (State.log { s with dev := { s.dev with daddr := s.dev.daddr.set q (BitVec.ofNat 32 v) } } .cmd
        (.regWrite .w0 s.cfg.offQueueAddress (leBytes 4 v))) := by
  have hnum : s.dev.dsel.toNat = q.num := by rw [hsel]; cases q <;> rfl
  have hreact := s.dev.react_queueAddress (BitVec.ofNat 32 v) hnum
  rw [BitVec.toNat_ofNat, Nat.mod_eq_of_lt hv] at hreact
  rw [show regWrite cmdCtx .w0 s.cfg.offQueueAddress 4 v s = _ from
    regWrite_settled hwf hgaps hwbuf .queueAddress hv, hreact]
  rfl

theorem exec_buQwire_settled {s : State} {q : Role} (hwf : s.cfg.wf = true) (hf : s.fsm = .featuresOk)
    (hv : (s.queue q).valid = true) (hw : (s.queue q).wired = false) (hsize : s.qsize.get q ≠ 0) (hgaps : s.gaps = [])
    (hwbuf : s.wbuf = []) (hbase : (s.queue q).base.toNat / 4096 < 2 ^ 32) :
    exec (.buQwire q) s = .next ((s.withWired q).respond .ok []) := by
  show execBuQwire q s = _
  unfold execBuQwire
  rw [if_pos hf, if_neg (by simp [hv, hw]), if_neg hsize, selectQueue_settled hwf hgaps hwbuf, ok_bind]
  generalize hu : State.log _ .cmd _ = u
  obtain ⟨hwf1, hgaps1, hwbuf1, hsel, hqueue⟩ : u.cfg.wf = true ∧ u.gaps = [] ∧ u.wbuf = []
      ∧ u.dev.dsel = BitVec.ofNat 16 q.num ∧ u.queue q = s.queue q := by
    subst hu
    exact ⟨hwf, hgaps, hwbuf, rfl, rfl⟩
  rw [hqueue, show pageBytes = 4096 from rfl, writeAddress_settled hwf1 hgaps1 hwbuf1 hsel hbase, ok_bind, finish_ok]
  subst hu
  simp [State.withWired, State.log, State.setQueue, State.queue]

/-- Settles O41. -/
theorem qwireTellsDeviceTheRegion : Obligations.QwireTellsDeviceTheRegion := by
  intro s q hwf hf hv hw hsize hgaps hwbuf hbase
  have hqueue : ∀ p, (s.withWired q).queue p = if p = q then { s.queue q with wired := true } else s.queue p :=
    fun p => State.queue_setQueue s ..
  refine ⟨_, exec_buQwire_settled hwf hf hv hw hsize hgaps hwbuf (Nat.div_lt_of_lt_mul (by omega)), rfl, rfl, rfl,
    (hqueue q).trans (if_pos rfl), fun p hp => (hqueue p).trans (if_neg hp), rfl⟩

/-- Settles O43. -/
theorem okSetsDriverOk : Obligations.OkSetsDriverOk := by
  intro s s1
  refine ⟨by decide, fun hwf hf hirq hw hg => ⟨?_, (sameCmd_cmdGap hg).stShadow⟩, execBuOk_refused⟩
  obtain ⟨-, -, hok, -, -⟩ := Config.wf_statusBits hwf
  have hwrite := statusWrite_register hwf rfl hg
  rw [Device.react_status_of_ne_zero s1.dev fun hz => hok (BitVec.or_eq_zero_iff.1 hz).2] at hwrite
  refine (if_pos ⟨hf, hirq, State.allWired_iff.2 hw⟩).trans ?_
  rw [hwrite, ok_bind, finish_ok]

/-! ## LINKSTATE (43 R217) -/

theorem exec_linkState_of_read {s s1 t : State} {bytes : List Byte} (hf : s.fsm = .featuresOk ∨ s.fsm = .driverReady)
    (hn : s.negotiated.getLsbD s.cfg.fStatus = true) (hg : cmdGap s = .ok s1)
    (hr : s1.settle.windowRead .w1 s.cfg.offLinkStatus 2 = (bytes, t)) : exec .linkState s = .next
      ((t.log .cmd (.regRead .w1 s.cfg.offLinkStatus bytes)).respond .ok
        [if (BitVec.ofNat 16 (busValue s.cfg.hostEndian bytes)).getLsbD s.cfg.linkUpBit then 1 else 0]) := by
  have hread := regRead_of_gap (c := cmdCtx) hg .w1 s.cfg.offLinkStatus 2
  rw [cmdCtx_drainStores, hr, (sameCmd_cmdGap hg).winEndian] at hread
  refine (if_pos hf).trans ?_
  have hfeature : featureBit s.negotiated s.cfg.fStatus = true := hn
  have hcfg : t.cfg = s.cfg := by
    have heq := State.windowRead_eq s1.settle .w1 s.cfg.offLinkStatus 2
    rw [hr] at heq
    exact (congrArg State.cfg heq).trans (s1.settle_cfg.trans (sameCmd_cmdGap hg).cfg)
  rw [readLink, if_pos hfeature, hread]
  show Host.Outcome.next (State.respond _ _ [flagWord (linkUp t.cfg _)]) = _
  rw [hcfg]
  rfl

/-- Settles O44. -/
theorem linkStateReadsOnlyIfNegotiated : Obligations.LinkStateReadsOnlyIfNegotiated := by
  intro s s1
  refine ⟨by decide, fun hf hd => if_neg fun h => h.elim hf hd, fun hf => ⟨fun hn => ?_, fun hn hg hopen => ?_,
    fun hn hg hopen => ?_⟩⟩
  · refine (if_pos hf).trans ?_
    rw [readLink, if_neg (by simpa [featureBit] using hn)]
    rfl
  · have hcfg : s1.settle.cfg = s.cfg := s1.settle_cfg.trans (sameCmd_cmdGap hg).cfg
    have hread := State.windowRead_link (s := s1.settle) (by rwa [State.settle_dev])
    rw [hcfg, State.settle_dev] at hread
    exact exec_linkState_of_read hf hn hg hread
  · have hread : s1.settle.windowRead .w1 s.cfg.offLinkStatus 2 = s1.settle.drawBytes 2 := if_pos (by rwa [State.settle_dev])
    have hdraw := s1.settle.drawBytes_snd 2
    have hlength := s1.settle.drawBytes_length 2
    generalize s1.settle.drawBytes 2 = drawn at hread hdraw hlength
    have hexec := exec_linkState_of_read hf hn hg hread
    rw [hdraw, State.settle_eq] at hexec
    refine ⟨_, drawn.1, hexec, ?_, hlength, rfl, by rw [State.settle_eq]; rfl⟩
    cases (BitVec.ofNat 16 (busValue s.cfg.hostEndian drawn.1)).getLsbD s.cfg.linkUpBit
    · exact .inl rfl
    · exact .inr rfl

end Sys2Proof.Machine

namespace Sys2Proof.Machine

open Sys2Proof.Claims

/-! ## Loans that end (42 R187, 41 R165) -/

/-- A slot before and after loans have ended: an internal one may have been freed, a lent buffer is OWNED, or, where the
dispatcher ended its loan, FREE (44 R234). -/
def Slot.LetGo (g : Agent) (x y : Slot) : Prop :=
  y = x ∨ (x.internal = true ∨ g = .disp ∧ x.loan ≠ none) ∧ y = Slot.free
    ∨ x.loan ≠ none ∧ x.internal = false ∧ y = { x with loan := none }

theorem Slot.LetGo.eq_of_owned {g : Agent} {x y : Slot} (h : x.LetGo g y) (hl : x.loan = none) (hi : x.internal = false) :
    y = x := by
  rcases h with h | ⟨h, -⟩ | ⟨h, -⟩
  · exact h
  · simp [hl, hi] at h
  · exact absurd hl h

theorem Slot.LetGo.trans {g : Agent} {x y z : Slot} (h : x.LetGo g y) (h' : y.LetGo g z) : x.LetGo g z := by
  rcases h with rfl | ⟨hx, rfl⟩ | ⟨hl, hi, rfl⟩
  · exact h'
  · exact .inr (.inl ⟨hx, h'.eq_of_owned rfl rfl⟩)
  · exact .inr (.inr ⟨hl, hi, h'.eq_of_owned rfl hi⟩)

theorem Slot.LetGo.shrinks {g : Agent} {x y : Slot} (h : x.LetGo g y) :
    y = x ∨ y.loan = none ∧ ∀ a, y.covers a = true → x.covers a = true := by
  rcases h with h | ⟨-, rfl⟩ | ⟨-, -, rfl⟩
  · exact .inl h
  · exact .inr ⟨rfl, fun a ha => by cases ha⟩
  · exact .inr ⟨rfl, fun _ => id⟩

/-- `t` is `s` after loans have ended: the slots so, and every byte that still exists stays. -/
structure LoansEnd (g : Agent) (s t : State) : Prop where
  slot : ∀ k, (s.slot k).LetGo g (t.slot k)
  bytes : s.PoolSound → SameLiveBytes s t

theorem LoansEnd.poolSound {g : Agent} {s t : State} (h : LoansEnd g s t) (hs : s.PoolSound) : t.PoolSound :=
  hs.mono fun k => (h.slot k).shrinks

theorem LoansEnd.trans {g : Agent} {s t u : State} (h : LoansEnd g s t) (h' : LoansEnd g t u) : LoansEnd g s u :=
  ⟨fun k => (h.slot k).trans (h'.slot k), fun hs => sameLiveBytes_trans (h.bytes hs) (h'.bytes (h.poolSound hs))⟩

theorem LoansEnd.of_same {g : Agent} {s t : State} (hp : t.pool = s.pool) (hm : t.mem = s.mem) : LoansEnd g s t :=
  ⟨fun k => .inl (congrArg (fun p => p.getD k Slot.free) hp), fun _ a _ => State.byteAt_congr (by rw [hp]) (by rw [hm])⟩

theorem loansEnd_endLoan {g : Agent} {s : State} {h : Nat} (hl : (s.slot h).loan ≠ none)
    (hi : (s.slot h).internal = false) : LoansEnd g s (endLoan h s) := by
  refine ⟨fun k => ?_, fun _ a _ => byteAt_relabel (y := { s.slot h with loan := none }) (fun _ => rfl) rfl a⟩
  rcases State.slot_of_pool_set (t := endLoan h s) rfl k with hk | ⟨rfl, hk⟩
  · exact .inl hk
  · exact .inr (.inr ⟨hl, hi, hk⟩)

theorem loansEnd_poolFree {g : Agent} {s : State} {h : Nat} (ha : (s.slot h).alloc = true)
    (hi : (s.slot h).internal = true) : LoansEnd g s (poolFree h s) := by
  refine ⟨fun k => ?_, fun hs => poolFree_sameLiveBytes hs ha⟩
  rw [State.slot_poolFree]
  split
  · rename_i hk
    subst hk
    exact .inr (.inl ⟨.inl hi, rfl⟩)
  · exact .inl rfl

/-! ## A drain with nobody interfering, whatever it finds (41 R164, R165) -/

/-- Nothing happens before an access of this agent when the schedule leaves no gap. -/
def Ctx.Quiet (c : Ctx) : Prop := ∀ s : State, s.gaps = [] → c.gap s = .ok s

theorem cmdCtx_quiet : cmdCtx.Quiet := fun _ h => cmdGap_nil h
theorem dispCtx_quiet : dispCtx.Quiet := fun _ _ => rfl

/-- `t` is `s` after steps of a drain by `g`: bus operations of its own, loans ended, queues relabelled. -/
structure Drawn (g : Agent) (s t : State) : Prop where
  rest : t = { s with queues := t.queues, pool := t.pool, mem := t.mem, bus := t.bus }
  shape : ∀ p, (t.queue p).SameShape (s.queue p)
  loans : LoansEnd g s t
  bus : ∃ ops, t.bus = s.bus ++ ops ∧ ∀ o ∈ ops, o.agent = g

section
variable {g : Agent} {s t u : State}

theorem Drawn.refl (g : Agent) (s : State) : Drawn g s s :=
  ⟨rfl, fun _ => .refl _, .of_same rfl rfl, [], (List.append_nil _).symm, by simp⟩

theorem Drawn.trans (h : Drawn g s t) (h' : Drawn g t u) : Drawn g s u := by
  refine ⟨?_, fun p => (h'.shape p).trans (h.shape p), h.loans.trans h'.loans, ?_⟩
  · rw [h'.rest, h.rest]
  · obtain ⟨ops, hops, hg⟩ := h.bus
    obtain ⟨ops', hops', hg'⟩ := h'.bus
    exact ⟨ops ++ ops', by rw [hops', hops, List.append_assoc],
      fun o ho => (List.mem_append.1 ho).elim (hg o) (hg' o)⟩

theorem Drawn.gaps (h : Drawn g s t) : t.gaps = s.gaps := by rw [h.rest]
theorem Drawn.wbuf (h : Drawn g s t) : t.wbuf = s.wbuf := by rw [h.rest]

theorem drawn_log (g : Agent) (s : State) (op : BusOp) : Drawn g s (s.log g op) :=
  ⟨rfl, fun _ => .refl _, .of_same rfl rfl, _, rfl, by simp⟩

theorem drawn_setQueue (g : Agent) (s : State) {q : Role} {x : Queue} (hx : x.SameShape (s.queue q)) :
    Drawn g s (s.setQueue q x) := by
  refine ⟨rfl, fun p => ?_, .of_same rfl rfl, [], (List.append_nil _).symm, by simp⟩
  rw [State.queue_setQueue]
  split
  · rename_i hp
    rwa [hp]
  · exact .refl _

theorem Drawn.of_loans (h : LoansEnd g s t) (ht : t = { s with pool := t.pool, mem := t.mem }) : Drawn g s t := by
  refine ⟨?_, fun p => ?_, h, [], ?_, by simp⟩
  · rw [ht]
  · rw [ht]
    exact .refl _
  · rw [ht]
    exact (List.append_nil _).symm

end

section
variable {c : Ctx} (hc : c.Quiet) {s : State} (hgaps : s.gaps = []) (hwbuf : s.wbuf = [])
include hc hgaps

theorem memRead_drawn (a n : Nat) : Ensures (memRead c a n s) (fun r => Drawn c.agent s r.2) := by
  unfold memRead
  rw [hc s hgaps, ok_bind]
  exact Ensures.bind_any fun _ => .ok (drawn_log ..)

include hwbuf

theorem fence_drawn : Ensures (fence c s) (Drawn c.agent s) := by
  have hsettle : c.drainStores s = s := by
    unfold Ctx.drainStores
    split
    · exact State.settle_of_nil s hwbuf
    · rfl
  rw [fence_of_gap (hc s hgaps), hsettle]
  exact .ok (drawn_log ..)

omit hc hgaps hwbuf in
theorem drainFault_drawn (g : Agent) (q : Role) (s : State) : Drawn g s (drainFault q s).2 :=
  drawn_setQueue g s ⟨⟨rfl, rfl, rfl, rfl, rfl⟩, rfl⟩

theorem drainStart_drawn (q : Role) : Ensures (drainStart c q s) (fun r => Drawn c.agent s r.2) := by
  unfold drainStart
  split
  · exact .ok (.refl ..)
  · refine (memRead_drawn hc hgaps _ _).bind fun r h1 =>
      (fence_drawn hc (h1.gaps.trans hgaps) (h1.wbuf.trans hwbuf)).bind fun s2 h2 => ?_
    dsimp only
    split
    · exact .ok ((h1.trans h2).trans (drainFault_drawn ..))
    · exact .ok (h1.trans h2)

omit hwbuf

theorem drainId_drawn (q : Role) (rest : Nat) : Ensures (drainId c q rest s) (fun r => Drawn c.agent s r.2) :=
  (memRead_drawn hc hgaps _ _).bind fun _ h1 => .ok h1

theorem drainLength_drawn (q : Role) (rest id : Nat) :
    Ensures (drainLength c q rest id s) (fun r => Drawn c.agent s r.2) := by
  refine (memRead_drawn hc hgaps _ _).bind fun r h1 => ?_
  dsimp only
  split
  · exact .ok h1
  · exact .ok (h1.trans (drainFault_drawn ..))

theorem drainFlags_drawn (q : Role) (v : Visit) : Ensures (drainFlags c q v s) (fun r => Drawn c.agent s r.2) := by
  have h0 : Drawn c.agent s (s.setQueue q ((s.queue q).setTag v.cur .completedPendingReturn)) :=
    drawn_setQueue _ s (Queue.setTag_sameShape ..)
  refine (memRead_drawn hc (s := s.setQueue q _) hgaps _ _).bind fun r h1 => ?_
  dsimp only
  split
  · exact .ok (h0.trans h1)
  · split
    · exact .ok (h0.trans h1)
    · exact .ok ((h0.trans h1).trans (drainFault_drawn ..))

theorem drainLink_drawn (q : Role) (v : Visit) : Ensures (drainLink c q v s) (fun r => Drawn c.agent s r.2) := by
  refine (memRead_drawn hc hgaps _ _).bind fun r h1 => ?_
  dsimp only
  split
  · exact .ok h1
  · exact .ok (h1.trans (drainFault_drawn ..))

omit hc hgaps in
theorem reclaim_drawn (g : Agent) {q : Role} {id : DescIdx} (ht : s.TableLent q id) (order : List DescIdx) :
    Drawn g s (reclaim q id order s) := by
  have h1 : Drawn g s (s.setQueue q ((s.queue q).reclaimed order)) :=
    drawn_setQueue g s (Queue.reclaimed_sameShape ..)
  cases hind : ((s.queue q).descAt id).ind with
  | none =>
    rw [reclaim_of_no_table hind]
    exact h1
  | some t =>
    obtain ⟨halloc, hinternal, -⟩ := ht t hind
    rw [reclaim_of_table hind]
    exact h1.trans (.of_loans (loansEnd_poolFree halloc hinternal) rfl)

include hwbuf

theorem drainStep_drawn {q : Role} {r : DrainRun} (hd : s.DrainReady q r.pos) :
    Ensures (drainStep c q r s) (fun p => Drawn c.agent s p.2) := by
  unfold drainStep
  split
  · exact (drainStart_drawn hc hgaps hwbuf q).bind fun _ h1 => .ok h1
  · exact (drainId_drawn hc hgaps q _).bind fun _ h1 => .ok h1
  · exact (drainLength_drawn hc hgaps q _ _).bind fun _ h1 => .ok h1
  · exact (drainFlags_drawn hc hgaps q _).bind fun _ h1 => .ok h1
  · exact (drainLink_drawn hc hgaps q _).bind fun _ h1 => .ok h1
  · rename_i v done hpos
    have hvisit : s.VisitSound q v := by
      have hp := hd.pos
      rw [hpos] at hp
      exact hp.1
    rw [hc s hgaps, ok_bind]
    split
    · rename_i h _ _ hlent
      obtain ⟨hl, hi⟩ := State.mem_lentTo (hlent ▸ List.mem_cons_self : h ∈ s.lentTo q v.id)
      exact .ok (.of_loans (loansEnd_endLoan (by simp [hl]) hi) rfl)
    · exact .ok (reclaim_drawn _ hvisit.table _)
  · exact .ok (.refl ..)

end

end Sys2Proof.Machine

namespace Sys2Proof.Machine

open Sys2Proof.Claims

/-! ## What the end of a walk hands over (44 R234) -/

/-- Freeing a slot that is FREE already leaves every byte. -/
theorem byteAt_poolFree_of_free {s : State} {h : Nat} (hf : s.slot h = Slot.free) (a : Nat) :
    (poolFree h s).byteAt a = s.byteAt a := by
  have hpool : (poolFree h s).pool = s.pool := by
    show s.pool.set h Slot.free = s.pool
    rw [← hf, State.pool_set_slot]
  have hmem : (poolFree h s).mem = s.mem.eraseRange 0 0 := by
    simp [poolFree, hf, Slot.free, Slot.extent, roundUp, pageBytes]
  refine State.byteAt_congr (by rw [hpool]) ?_
  rw [hmem, Memory.find_eraseRange, if_neg (by omega)]

/-- `t` is `s` with loans of these slots ended and the slots perhaps freed, and events emitted. -/
structure HandedOver (P : Nat → Prop) (s t : State) : Prop where
  slot : ∀ k, t.slot k = s.slot k ∨ P k ∧ (t.slot k = Slot.free ∨ t.slot k = { s.slot k with loan := none })
  bytes : SameLiveBytes s t
  events : ∃ ev, t.eventPort = s.eventPort ++ ev

section
variable {P : Nat → Prop} {s t u : State} (hs : s.PoolSound)

theorem HandedOver.refl (P : Nat → Prop) (s : State) : HandedOver P s s :=
  ⟨fun _ => .inl rfl, sameLiveBytes_refl s, [], (List.append_nil _).symm⟩

theorem HandedOver.of_same (h : HandedOver P s t) (hp : u.pool = t.pool) (hm : u.mem = t.mem)
    (he : ∃ ev, u.eventPort = t.eventPort ++ ev) : HandedOver P s u := by
  obtain ⟨hslot, hbytes, ev, hev⟩ := h
  obtain ⟨ev', hev'⟩ := he
  refine ⟨fun k => ?_, fun a ha => ?_, ev ++ ev', by rw [hev', hev, List.append_assoc]⟩
  · rw [show u.slot k = t.slot k from congrArg (fun p => p.getD k Slot.free) hp]
    exact hslot k
  · rw [show u.byteAt a = t.byteAt a from State.byteAt_congr (by rw [hp]) (by rw [hm])]
    exact hbytes a (by rwa [← hp])

theorem HandedOver.emit (h : HandedOver P s t) (e : Event) : HandedOver P s (t.emit e) := h.of_same rfl rfl ⟨_, rfl⟩

theorem HandedOver.loansEnd (h : HandedOver P s t)
    (hP : ∀ k, P k → (s.slot k).loan ≠ none ∧ (s.slot k).internal = false) : LoansEnd .disp s t := by
  refine ⟨fun k => ?_, fun _ => h.bytes⟩
  rcases h.slot k with hk | ⟨hPk, hk | hk⟩
  · exact .inl hk
  · exact .inr (.inl ⟨.inr ⟨rfl, (hP k hPk).1⟩, hk⟩)
  · exact .inr (.inr ⟨(hP k hPk).1, (hP k hPk).2, hk⟩)

theorem HandedOver.setLoan (h : HandedOver P s t) {n : Nat} (hn : P n) : HandedOver P s (setLoan n none t) := by
  have hbyte : ∀ a, (Machine.setLoan n none t).byteAt a = t.byteAt a :=
    byteAt_relabel (y := { t.slot n with loan := none }) (fun _ => rfl) rfl
  have hkind : ∀ a, poolKind (Machine.setLoan n none t).pool a = poolKind t.pool a := fun a =>
    poolKind_set_same _ _ _ _ rfl rfl
  refine ⟨fun k => ?_, fun a ha => ?_, h.events⟩
  · rcases State.slot_of_pool_set (t := Machine.setLoan n none t) rfl k with hk | ⟨rfl, hk⟩
    · rw [hk]
      exact h.slot k
    · rcases h.slot k with hk' | ⟨-, hk' | hk'⟩ <;> rw [hk'] at hk
      · exact .inr ⟨hn, .inr hk⟩
      · exact .inr ⟨hn, .inl hk⟩
      · exact .inr ⟨hn, .inr hk⟩
  · rw [hbyte]
    exact h.bytes a (by rwa [← hkind])

include hs

theorem HandedOver.poolSound (h : HandedOver P s t) : t.PoolSound := by
  refine hs.mono fun k => ?_
  rcases h.slot k with hk | ⟨-, hk | hk⟩
  · exact .inl hk
  · rw [hk]
    exact .inr ⟨rfl, fun a ha => by cases ha⟩
  · rw [hk]
    exact .inr ⟨rfl, fun _ => id⟩

theorem HandedOver.poolFree (h : HandedOver P s t) {n : Nat} (hn : P n) (hl : (s.slot n).loan ≠ none) :
    HandedOver P s (poolFree n t) := by
  have hlive : (t.slot n).alloc = true ∨ t.slot n = Slot.free := by
    rcases h.slot n with hk | ⟨-, hk | hk⟩
    · exact .inl (hk ▸ hs.lent n hl)
    · exact .inr hk
    · exact .inl (hk ▸ hs.lent n hl)
  refine ⟨fun k => ?_, ?_, h.events⟩
  · rw [State.slot_poolFree]
    split
    · rename_i hk
      exact .inr ⟨hk ▸ hn, .inl rfl⟩
    · exact h.slot k
  · rcases hlive with ha | hf
    · exact sameLiveBytes_trans h.bytes (poolFree_sameLiveBytes (h.poolSound hs) ha)
    · exact sameLiveBytes_trans h.bytes fun a _ => byteAt_poolFree_of_free hf a

omit hs in
theorem HandedOver.setLoans (l : List Handle) {t : State} (h : HandedOver P s t) (hl : ∀ x ∈ l, P x.toNat) :
    HandedOver P s (setLoans none l t) := by
  induction l generalizing t with
  | nil => exact h
  | cons x rest ih =>
    exact ih (h.setLoan (hl x List.mem_cons_self)) fun y hy => hl y (List.mem_cons_of_mem _ hy)

variable (hP : ∀ k, P k → (s.slot k).loan ≠ none ∧ (s.slot k).internal = false)
include hP

theorem HandedOver.poolFrees (l : List Handle) {t : State} (h : HandedOver P s t) (hl : ∀ x ∈ l, P x.toNat) :
    HandedOver P s (poolFrees l t) := by
  induction l generalizing t with
  | nil => exact h
  | cons x rest ih =>
    have hx := hl x List.mem_cons_self
    exact ih (h.poolFree hs hx (hP _ hx).1) fun y hy => hl y (List.mem_cons_of_mem _ hy)

theorem HandedOver.reportChains (out : List Drained) {t : State} (h : HandedOver P s t)
    (hout : ∀ x ∈ out.flatMap (fun d => d.handles), P x.toNat) : HandedOver P s (reportChains out t) := by
  induction out generalizing t with
  | nil => exact h
  | cons d rest ih =>
    simp only [List.flatMap_cons, List.mem_append] at hout
    refine ih ?_ fun x hx => hout x (.inr hx)
    unfold reportChain
    split
    · exact h.emit _
    · exact (h.poolFrees hs hP d.handles fun x hx => hout x (.inl hx)).emit _

theorem handOver_handedOver (out : List Drained) (corrupt : Bool)
    (hout : ∀ x ∈ out.flatMap (fun d => d.handles), P x.toNat) : HandedOver P s (handOver out corrupt s) := by
  have hloans : HandedOver P s (unlock s.dq (Machine.setLoans none (out.flatMap fun d => d.handles) s)) :=
    ((HandedOver.refl P s).setLoans _ hout).of_same rfl rfl ⟨[], (List.append_nil _).symm⟩
  have hchains := hloans.reportChains hs hP out hout
  unfold handOver
  dsimp only
  split
  · exact hchains.emit _
  · exact hchains

end

/-! ## Turns of the dispatcher with nobody interfering (44 R239, R240) -/

/-- `t` is `s` after such turns: loans ended, events emitted, bus operations of its own, and of the device at most the
cause register read. -/
structure Delivered (s t : State) : Prop where
  rest : t = { s with queues := t.queues, pool := t.pool, disp := t.disp, isrLat := t.isrLat, dq := t.dq
                      walk := t.walk, dev := t.dev, mem := t.mem, eventPort := t.eventPort, bus := t.bus
                      draws := t.draws }
  dev : { t.dev with disr := s.dev.disr, irqLine := s.dev.irqLine } = s.dev
  loans : LoansEnd .disp s t
  bus : ∃ ops, t.bus = s.bus ++ ops ∧ ∀ o ∈ ops, o.agent = .disp
  events : ∃ ev, t.eventPort = s.eventPort ++ ev
  walk : (s.disp = .walk ∨ s.walk = .enter) → t.disp = .walk ∨ t.walk = .enter

section
variable {s t u : State}

theorem Delivered.trans (h : Delivered s t) (h' : Delivered t u) : Delivered s u := by
  obtain ⟨ops, hops, hg⟩ := h.bus
  obtain ⟨ops', hops', hg'⟩ := h'.bus
  obtain ⟨ev, hev⟩ := h.events
  obtain ⟨ev', hev'⟩ := h'.events
  refine ⟨?_, ?_, h.loans.trans h'.loans, ⟨ops ++ ops', by rw [hops', hops, List.append_assoc], fun o ho =>
    (List.mem_append.1 ho).elim (hg o) (hg' o)⟩, ⟨ev ++ ev', by rw [hev', hev, List.append_assoc]⟩,
    fun hw => h'.walk (h.walk hw)⟩
  · rw [h'.rest, h.rest]
  · exact (congrArg (fun d : Device => { d with disr := s.dev.disr, irqLine := s.dev.irqLine }) h'.dev).trans h.dev

/-- A turn that makes no access and ends no loan, with the words of an event or none. -/
theorem Delivered.of_events {qs : PerRole Queue} {d : Disp} {i : BitVec 8} {dq : Role} {w : WalkPos} {ev : List Word}
    (h : t = { s with queues := qs, disp := d, isrLat := i, dq := dq, walk := w, eventPort := s.eventPort ++ ev })
    (hw : (s.disp = .walk ∨ s.walk = .enter) → d = .walk ∨ w = .enter) : Delivered s t := by
  subst h
  exact ⟨rfl, rfl, .of_same rfl rfl, ⟨[], (List.append_nil _).symm, by simp⟩, ⟨ev, rfl⟩, hw⟩

theorem Delivered.of_move {qs : PerRole Queue} {d : Disp} {i : BitVec 8} {dq : Role} {w : WalkPos}
    (h : t = { s with queues := qs, disp := d, isrLat := i, dq := dq, walk := w })
    (hw : (s.disp = .walk ∨ s.walk = .enter) → d = .walk ∨ w = .enter) : Delivered s t :=
  .of_events (ev := []) (by rw [h, List.append_nil]) hw

theorem Delivered.refl (s : State) : Delivered s s := .of_move rfl id

theorem Drawn.delivered (h : Drawn .disp s t) : Delivered s t := by
  refine ⟨?_, ?_, h.loans, h.bus, ⟨[], ?_⟩, fun hw => ?_⟩
  · rw [h.rest]
  · rw [h.rest]
  · rw [h.rest, List.append_nil]
  · rw [h.rest]
    exact hw

theorem advanceWalk_delivered (s : State) (hd : s.disp = .walk) : Delivered s (advanceWalk s) := by
  unfold advanceWalk
  split
  · exact .of_move rfl fun _ => .inl hd
  · exact .of_move rfl fun _ => .inr rfl

theorem handOver_delivered (hs : s.PoolSound) (hd : s.disp = .walk) {out : List Drained} (corrupt : Bool)
    (hlent : ∀ x ∈ out.flatMap (fun d => d.handles), s.Lent s.dq x.toNat) :
    Delivered s (advanceWalk (handOver out corrupt s)) := by
  have hP : ∀ k, s.Lent s.dq k → (s.slot k).loan ≠ none ∧ (s.slot k).internal = false := fun k ⟨hi, i, hl⟩ =>
    ⟨by simp [hl], hi⟩
  have h := handOver_handedOver hs hP out corrupt hlent
  have heq := handOver_eq out corrupt s
  have hdisp : (handOver out corrupt s).disp = .walk := by
    rw [heq]
    exact hd
  refine Delivered.trans (t := handOver out corrupt s) ⟨?_, ?_, h.loansEnd hP, ⟨[], ?_, by simp⟩, h.events,
    fun _ => .inl hdisp⟩ (advanceWalk_delivered _ hdisp)
  · rw [heq]
  · rw [heq]
  · rw [heq, List.append_nil]

end

section
variable {k : Hold} {s : State} (h : Sound k s) (hpool : s.PoolSound) (hgaps : s.gaps = []) (hwbuf : s.wbuf = [])
include h hpool hgaps hwbuf

theorem walkDrain_delivered (hdisp : s.disp = .walk) {r : DrainRun} (hwalk : s.walk = .drain r) :
    Ensures (walkDrain r s) (Delivered s) := by
  have hdrain : s.drainOf = some r := by simp [State.drainOf, hdisp, hwalk]
  obtain ⟨hready, hlent⟩ := h.walk r hdrain
  have hdrawn : Ensures (drainStep dispCtx s.dq r s) (fun p => Drawn .disp s p.2) :=
    drainStep_drawn dispCtx_quiet hgaps hwbuf hready
  have hgathered : Ensures (drainStep dispCtx s.dq r s) (fun p => ∀ x ∈ p.1.gathered, p.2.Lent s.dq x.toNat) := by
    by_cases hfin : ∃ b, r.pos = .finished b
    · obtain ⟨b, hb⟩ := hfin
      rw [show drainStep dispCtx s.dq r s = .ok (r, s) by simp only [drainStep, hb]]
      exact .ok hlent
    · obtain ⟨p, hp, ⟨⟨-, -, -, hkept⟩, -, -⟩, hnew⟩ := drainStep_done (dispEnv hdrain r.gathered)
        ⟨h.toIntact, .refl k s, ⟨rfl, rfl, rfl⟩, hlent⟩ hready fun b hb => hfin ⟨b, hb⟩
      rw [hp]
      exact .ok fun x hx => (hnew rfl x hx).elim (hkept x) id
  unfold walkDrain
  refine fun t ht => ?_
  obtain ⟨⟨r1, s1⟩, hstep, ht⟩ := bind_ok.1 ht
  have hd1 := hdrawn _ hstep
  have hg1 := hgathered _ hstep
  dsimp only at hd1 hg1 ht
  have hdisp1 : s1.disp = .walk := by rw [hd1.rest]; exact hdisp
  have hdq1 : s1.dq = s.dq := by rw [hd1.rest]
  split at ht <;> cases ht
  · exact hd1.delivered.trans (handOver_delivered (hd1.loans.poolSound hpool) hdisp1 _ fun x hx => by
      rw [hdq1]
      exact hg1 x (List.mem_append.2 (.inl hx)))
  · exact hd1.delivered.trans (.of_move rfl fun _ => .inl hdisp1)

theorem dispWalk_delivered (hdisp : s.disp = .walk) : Ensures (dispWalk s) (Delivered s) := by
  unfold dispWalk
  split
  · rename_i hwalk
    have hunknown : ∃ ev, reportUnknown s = { s with eventPort := s.eventPort ++ ev } := by
      unfold reportUnknown
      split
      · exact ⟨[], by simp⟩
      · exact ⟨_, rfl⟩
    obtain ⟨ev, hev⟩ := hunknown
    unfold walkEnter
    rw [hev]
    split
    · exact .ok (.of_events (ev := ev) rfl fun _ => .inl hdisp)
    · exact .ok (.of_events (ev := ev) rfl fun _ => .inr hwalk)
  · unfold walkTest
    split
    · exact .ok (.of_move rfl fun _ => .inl hdisp)
    · exact .ok (advanceWalk_delivered s hdisp)
  · unfold walkLock
    split
    · exact .ok (.of_move rfl fun _ => .inl hdisp)
    · exact .ok (.refl s)
  · exact walkDrain_delivered h hpool hgaps hwbuf hdisp ‹_›

end

theorem Delivered.of_read {s : State} {d : Device} (hd : { d with disr := s.dev.disr, irqLine := s.dev.irqLine } = s.dev)
    (n : Nat) (op : BusOp) : Delivered s (State.log { s with dev := d, draws := n } .disp op) :=
  ⟨rfl, hd, .of_same rfl rfl, ⟨[_], rfl, by simp⟩, ⟨[], (List.append_nil _).symm⟩, id⟩

/-- A read of window 1 leaves the device (40 R135, 93 U4). -/
theorem State.windowRead_w1_snd (s : State) (off n : Nat) :
    (s.windowRead .w1 off n).2 = { s with draws := (s.windowRead .w1 off n).2.draws } := by
  simp only [State.windowRead, State.window1Read]
  split
  · exact s.drawBytes_snd n
  · split
    · rfl
    · split
      · rfl
      · exact s.drawBytes_snd n

theorem readLink_delivered (s : State) :
    Ensures (readLink dispCtx s) (fun r => Delivered s r.2 ∧ r.2.disp = s.disp) := by
  unfold readLink
  split
  · rw [regRead_of_gap (c := dispCtx) rfl, ok_bind]
    refine .ok ?_
    dsimp only
    rw [dispCtx_drainStores, State.windowRead_w1_snd]
    exact ⟨.of_read (d := s.dev) rfl _ _, rfl⟩
  · exact .ok ⟨.refl s, rfl⟩

theorem dispIsr_delivered {s : State} (hwf : s.cfg.wf = true) : Ensures (dispIsr s) (Delivered s) := by
  have hread : regRead dispCtx .w0 s.cfg.offIsr 1 s = .ok (_, _) := regRead_of_gap (c := dispCtx) rfl _ _ _
  rw [dispCtx_drainStores, show s.windowRead .w0 s.cfg.offIsr 1 = _ from
    State.windowRead_register (r := .isr) hwf rfl] at hread
  unfold dispIsr
  rw [hread]
  exact .ok (Delivered.trans (.of_read (d := s.dev.readEffect .isr) rfl s.draws _) (.of_move rfl fun _ => .inl rfl))

theorem dispTurn_delivered {k : Hold} {s : State} (h : Sound k s) (hwf : s.cfg.wf = true) (hpool : s.PoolSound)
    (hgaps : s.gaps = []) (hwbuf : s.wbuf = []) : Ensures (dispTurn s) (Delivered s) := by
  unfold dispTurn
  split
  · exact .ok (.refl s)
  · exact dispIsr_delivered hwf
  · exact dispWalk_delivered h hpool hgaps hwbuf ‹_›
  · rename_i hd
    have hleft : ∀ t : State, t.disp = s.disp → (t.disp = .walk ∨ t.walk = .enter) →
        Disp.ret = .walk ∨ t.walk = .enter :=
      fun t ht hw => hw.imp (fun h => by rw [ht, hd] at h; cases h) id
    unfold dispConfig
    split
    · exact (readLink_delivered s).bind fun r ⟨h1, hd1⟩ => .ok (h1.trans (.of_events rfl (hleft r.2 hd1)))
    · exact .ok (.of_move rfl (hleft s rfl))
  · rename_i hd
    exact .ok (.of_events rfl fun hw => hw.imp (fun h => by rw [hd] at h; cases h) id)

/-- A state in which the dispatcher alone moves and nothing stops it. -/
structure State.Awaiting (s : State) : Prop where
  sound : Sound .none s
  wf : s.cfg.wf = true
  pool : s.PoolSound
  gaps : s.gaps = []

theorem State.Awaiting.wbuf {s : State} (h : s.Awaiting) : s.wbuf = [] := h.sound.tidy.stores rfl

theorem dispTurn_awaiting {s : State} (h : s.Awaiting) :
    Ensures (dispTurn s) (fun t => t.Awaiting ∧ Delivered s t) := fun t ht => by
  have hd := dispTurn_delivered h.sound h.wf h.pool h.gaps h.wbuf t ht
  obtain ⟨u, hu, hsound, -⟩ := dispTurn_done h.sound
  cases ht.symm.trans hu
  refine ⟨⟨hsound, ?_, hd.loans.poolSound h.pool, ?_⟩, hd⟩
  · rw [hd.rest]
    exact h.wf
  · rw [hd.rest]
    exact h.gaps

/-- A wait for the dispatcher with nobody interfering is its delivery, to the end (43 R215, 60 R276). -/
theorem waitIdle_awaiting {s : State} (h : s.Awaiting) :
    Succeeds (waitIdle s) (fun t => t.Awaiting ∧ Delivered s t ∧ Rely .none s t ∧ t.disp = .idle) := by
  obtain ⟨t, ht, hon, hidle⟩ := waitIdle_succeeds rfl h.sound
  obtain ⟨-, hr⟩ := waitUntil_ok (r := fun s t => s.Awaiting → t.Awaiting ∧ Delivered s t)
    (fun s hs => ⟨hs, .refl s⟩)
    (fun _ _ _ hst htu hs => ⟨(htu (hst hs).1).1, (hst hs).2.trans (htu (hst hs).1).2⟩)
    (fun s hs => by
      rw [show s.waitGap = s by simp only [State.waitGap, hs.gaps]]
      exact ⟨hs, .refl s⟩)
    (fun _ _ ht hs => dispTurn_awaiting hs _ ht) patience ht
  exact ⟨t, ht, (hr h).1, (hr h).2, hon.2, hidle⟩

end Sys2Proof.Machine

namespace Sys2Proof.Machine

open Sys2Proof.Claims

/-! ## What a safe state says of slots, acquired resources and the dispatcher -/

section
variable {s : State} (h : s.safe = true)
include h

theorem State.safe_order : s.bringUpOk = true := by
  simp only [State.safe, Bool.and_eq_true] at h
  obtain ⟨⟨⟨⟨-, horder⟩, -⟩, -⟩, -⟩ := h
  exact horder

theorem State.safe_slotOk (k : Nat) : s.slotOk (s.slot k) = true := by
  by_cases hk : k < s.pool.length
  · rw [State.slot_eq_getElem hk]
    exact (State.safe_pool h).2 _ (List.getElem_mem hk)
  · have hfree : s.slot k = Slot.free := by
      by_contra hne
      exact hk (State.slot_lt hne)
    rw [hfree]
    rfl

theorem State.safe_slot_of_free {k : Nat} (hk : (s.slot k).state = .free) : s.slot k = Slot.free := by
  have hok := State.safe_slotOk h k
  have ha : (s.slot k).alloc = false := by
    by_contra ha
    have ha : (s.slot k).alloc = true := by simpa using ha
    revert hk
    simp only [Slot.state, ha, Bool.not_true, Bool.false_eq_true, if_false]
    split
    · simp
    · split
      · simp
      · split <;> simp
  rw [State.slotOk, ha] at hok
  exact beq_iff_eq.1 (by simpa using hok)

/-- A slot on loan is no orphan (10 R33). -/
theorem State.safe_lent_not_orphan {k : Nat} (hl : (s.slot k).loan ≠ none) : (s.slot k).orphan = false := by
  have hok := State.safe_slotOk h k
  have ha : (s.slot k).alloc = true := by
    by_contra ha
    exact hl (State.safe_unlent h k (by simpa using ha))
  simp only [State.slotOk, ha, if_true, Bool.and_eq_true, Bool.or_eq_true, Bool.not_eq_true', beq_iff_eq] at hok
  obtain ⟨⟨-, horphan⟩, -⟩ := hok
  exact horphan.resolve_right fun ⟨_, hn⟩ => hl hn

/-- A queue that does not exist is as hardware reset leaves it, and the dispatcher rests (41 R157, 43 R211). -/
theorem State.safe_queue_of_invalid {q : Role} (hv : (s.queue q).valid = false) :
    (s.queue q).wired = false ∧ (s.queue q).broken = false := by
  have hok := (State.safe_rings h).1 q
  rw [State.queueOk, hv] at hok
  have hempty : { s.queue q with lock := none } = Queue.empty := beq_iff_eq.1 hok
  exact ⟨congrArg Queue.wired hempty, congrArg Queue.broken hempty⟩

theorem State.safe_idle_of_invalid {q : Role} (hv : (s.queue q).valid = false) : s.disp = .idle := by
  by_contra hd
  rw [State.safe_busy h (.inr hd) q] at hv
  cases hv

theorem State.safe_awaiting (hgaps : s.gaps = []) : s.Awaiting :=
  ⟨State.safe_sound h, State.safe_wf h, State.safe_poolSound h, hgaps⟩

theorem State.safe_walk_rests : s.disp = .walk ∨ s.walk = .enter := by
  have hwalk := (State.safe_rings h).2.2
  simp only [State.walkOk, Bool.and_eq_true, Bool.or_eq_true, beq_iff_eq] at hwalk
  exact hwalk.1.1

/-- From BU.RESET to FAILED the windows are mapped and the acquired resources are the handler, if it is registered, the
valid queues and the windows (60 R277). -/
theorem State.safe_working_acq (hd : s.fsm ≠ .detached) (hf : s.fsm ≠ .failed) : s.winMapped = true
    ∧ ∃ qs : List Role, qs.Nodup ∧ s.acq = workingAcq s.irqEn qs ∧ ∀ q, q ∈ qs ↔ (s.queue q).valid = true := by
  have horder := State.safe_order h
  have hearly : s.Early → s.winMapped = true
      ∧ ∃ qs : List Role, qs.Nodup ∧ s.acq = workingAcq s.irqEn qs ∧ ∀ q, q ∈ qs ↔ (s.queue q).valid = true :=
    fun he => ⟨he.win, [], List.nodup_nil, by rw [he.acq, he.irq]; rfl, fun q => by simp [(he.queues q).1]⟩
  cases hfsm : s.fsm with
  | detached => exact absurd hfsm hd
  | reset => exact hearly ((State.bringUpOk_early (.inl hfsm)).1 horder).1
  | acknowledged => exact hearly ((State.bringUpOk_early (.inr (.inl hfsm))).1 horder).1
  | driverLoaded => exact hearly ((State.bringUpOk_early (.inr (.inr hfsm))).1 horder).1
  | featuresOk =>
    have hw := (State.bringUpOk_working (.inl hfsm)).1 horder
    exact ⟨hw.win, hw.acq⟩
  | driverReady =>
    have hw := (State.bringUpOk_working (.inr hfsm)).1 horder
    exact ⟨hw.win, hw.acq⟩
  | failed => exact absurd hfsm hf

end

/-! ## The dispatcher comes to rest (43 R215, 60 R276) -/

/-- `t` is `s` with the handler off and the delivery in progress, if any, finished. -/
structure Stopped (s t : State) : Prop where
  sound : Sound .still t
  pool : t.PoolSound
  delivered : Delivered { s with irqEn := false } t
  shape : ∀ q, (t.queue q).valid = (s.queue q).valid ∧ (t.queue q).region = (s.queue q).region
  idle : t.disp = .idle
  same : s.disp = .idle → t = { s with irqEn := false }

theorem waitIdle_of_idle {s : State} (h : s.disp = .idle) : waitIdle s = .ok s :=
  waitUntil_done (p := fun s => s.disp == .idle) (beq_iff_eq.2 h) _ _

theorem waitIdle_stopped {s : State} (h : s.Awaiting) :
    Succeeds (waitIdle { s with irqEn := false }) (Stopped s) := by
  have hoff : State.Awaiting { s with irqEn := false } :=
    ⟨h.sound.irqOff s.acq, h.wf, ⟨h.pool.apart, h.pool.lent⟩, h.gaps⟩
  obtain ⟨t, ht, ha, hd, hrely, hidle⟩ := waitIdle_awaiting hoff
  have hirq : t.irqEn = false := by rw [hd.rest]
  refine ⟨t, ht, ha.sound.still hidle hirq, ha.pool, hd, hrely.shape, hidle, fun hs => ?_⟩
  exact Except.ok.inj (ht.symm.trans (waitIdle_of_idle hs))

theorem Stopped.refl {s : State} (h : s.Awaiting) (hidle : s.disp = .idle) (hirq : s.irqEn = false) : Stopped s s := by
  have hself : s = { s with irqEn := false } := by rw [← hirq]
  exact ⟨h.sound.still hidle hirq, h.pool, hself ▸ .refl s, fun _ => ⟨rfl, rfl⟩, hidle, fun _ => hself⟩

theorem Stopped.gaps {s t : State} (h : Stopped s t) : t.gaps = s.gaps := by rw [h.delivered.rest]

theorem Stopped.walk {s t : State} (h : Stopped s t) (hw : s.disp = .walk ∨ s.walk = .enter) : t.walk = .enter :=
  (h.delivered.walk hw).resolve_left (by rw [h.idle]; decide)

/-- The valid queues of a state at rest can be freed. -/
theorem Sound.freeable {s : State} (h : Sound .still s) (hpool : s.PoolSound) {qs : List Role} (hnd : qs.Nodup)
    (hv : ∀ p ∈ qs, (s.queue p).valid = true) : s.Freeable qs := by
  refine ⟨hpool, h.size, fun p _ => h.tidy.lock_none_of_quiet rfl rfl p,
    fun p hp => (h.region p (hv p hp)).alloc, fun p hp => (h.region p (hv p hp)).loan, ?_⟩
  exact hnd.imp_of_mem fun {p p'} hp hp' hne => ⟨hne, fun hr => hne (h.apart p p' (hv p hp) (hv p' hp') hr)⟩

/-! ## BU.FAIL (43 R214) -/

/-- The state after the FAILED bit has been written, with `acq` holding these resources (60 R276). -/
def State.withFailedBit (s : State) (acq : List Resource) : State :=
  { s with
    stShadow := s.stShadow ||| s.cfg.stFailed
    dev := { s.dev with dstatus := s.stShadow ||| s.cfg.stFailed }
    bus := s.bus ++ [{ agent := .cmd, op := statusOp s (s.stShadow ||| s.cfg.stFailed) }]
    acq := acq }

theorem releaseAll_stops {s : State} (h : s.Awaiting) (hidle : s.disp = .idle ∨ s.irqEn = true) {qs : List Role}
    (hacq : s.acq = workingAcq s.irqEn qs) : ∃ t, releaseAll s.acq s = releaseAll (qs.map .qr ++ [.win]) t
      ∧ Stopped { s with acq := qs.map .qr ++ [.win] } t := by
  rcases Bool.eq_false_or_eq_true s.irqEn with hirq | hirq
  · obtain ⟨t, ht, hstop⟩ := waitIdle_stopped (s := { s with acq := qs.map .qr ++ [.win] })
      ⟨h.sound.move h.sound.tidy rfl rfl rfl rfl rfl id, h.wf, ⟨h.pool.apart, h.pool.lent⟩, h.gaps⟩
    have hrelease : releaseAll (.irq :: (qs.map .qr ++ [.win])) s
        = waitIdle { s with irqEn := false, acq := qs.map .qr ++ [.win] } >>= releaseAll (qs.map .qr ++ [.win]) := rfl
    refine ⟨t, ?_, hstop⟩
    rw [hacq, hirq, show workingAcq true qs = .irq :: (qs.map .qr ++ [.win]) from rfl, hrelease, ht, ok_bind]
  · have hself : { s with acq := qs.map .qr ++ [.win] } = s := by
      rw [show qs.map Resource.qr ++ [.win] = s.acq by rw [hacq, hirq]; rfl]
    have hdisp := hidle.resolve_right (by simp [hirq])
    refine ⟨s, by rw [hacq, hirq]; rfl, ?_⟩
    rw [hself]
    exact .refl h hdisp hirq

/-- What BU.FAIL goes through: the write of the FAILED bit, the end of the delivery in progress, the queues freed. -/
theorem exec_buFail_of_safe {s : State} (h : s.safe = true) (hgaps : s.gaps = []) (hd : s.fsm ≠ .detached)
    (hf : s.fsm ≠ .failed) : ∃ (qs : List Role) (s2 t : State),
      exec .buFail s = .next (State.respond { t with winMapped := false, acq := [], errLatch := 0, fsm := .failed } .ok [])
        ∧ (∀ q, q ∈ qs ↔ (s.queue q).valid = true)
        ∧ Stopped (s.withFailedBit (qs.map .qr ++ [.win])) s2 ∧ QueuesFreed qs .orphan s2 t := by
  obtain ⟨hwin, qs, hnd, hacq, hqs⟩ := State.safe_working_acq h hd hf
  have ha := State.safe_awaiting h hgaps
  have hne : s.stShadow ||| s.cfg.stFailed ≠ 0 := fun hz =>
    Config.wf_stFailed ha.wf (BitVec.or_eq_zero_iff.1 hz).2
  have hwrite : writeFailedBit .ok s = .ok (s.withFailedBit s.acq) :=
    (if_pos ⟨hwin, by decide⟩).trans (statusWrite_settled ha.wf hgaps ha.wbuf hne)
  have ha1 : (s.withFailedBit s.acq).Awaiting :=
    ⟨ha.sound.move ha.sound.tidy rfl rfl rfl rfl rfl id, ha.wf, ⟨ha.pool.apart, ha.pool.lent⟩, hgaps⟩
  have hdisp : s.disp = .idle ∨ s.irqEn = true := by
    simpa [State.dispOk] using (State.safe_bringUp h).2.2
  obtain ⟨s2, hrelease, hstop⟩ := releaseAll_stops ha1 hdisp hacq
  have hfreeable : s2.Freeable qs := hstop.sound.freeable hstop.pool hnd fun p hp =>
    (hstop.shape p).1.trans ((hqs p).1 hp)
  obtain ⟨t, ht, hfreed⟩ := releaseAll_frees hfreeable
  refine ⟨qs, s2, t, ?_, hqs, hstop, hfreed⟩
  show execBuFail s = _
  unfold execBuFail failWith failEntry
  rw [if_neg (by simp [hd, hf]), hwrite, ok_bind, hrelease, ht]
  rfl

end Sys2Proof.Machine

namespace Sys2Proof.Machine

open Sys2Proof.Claims

section
variable {qs : List Role} {mode : FreeMode} {s t : State} (h : QueuesFreed qs mode s t)
include h

/-- A buffer is no region, so that freeing queues ends its loan at most (41 R159). -/
theorem QueuesFreed.slot_of_external (hs : ∀ p ∈ qs, (s.slot (s.queue p).region.toNat).internal = true) {k : Nat}
    (hi : (s.slot k).internal = false) : t.slot k = (s.slot k).givenUp qs mode :=
  (h.slot k).trans (if_neg fun ⟨p, hp, hpk⟩ => by rw [← hpk, hs p hp] at hi; cases hi)

theorem QueuesFreed.slot_of_free {k : Nat} (hk : s.slot k = Slot.free) : t.slot k = Slot.free := by
  rw [h.slot, hk]
  split <;> rfl

end

/-! ### What BU.FAIL makes of the slots (60 R276, R277) -/

section
variable {s s1 s2 t : State} {qs : List Role} (hsafe : s.safe = true) (hqs : ∀ q, q ∈ qs ↔ (s.queue q).valid = true)
  (hpool : s1.pool = s.pool) (hqueues : s1.queues = s.queues) (hstop : Stopped s1 s2)
  (hfreed : QueuesFreed qs .orphan s2 t)
include hpool hstop

theorem Stopped.letGo (k : Nat) : (s.slot k).LetGo .disp (s2.slot k) := by
  have hk : s.slot k = s1.slot k := congrArg (fun p => p.getD k Slot.free) hpool.symm
  rw [hk]
  exact hstop.delivered.loans.slot k

include hqs hqueues

omit hpool in
theorem Stopped.regions_internal (q : Role) (hq : q ∈ qs) : (s2.slot (s2.queue q).region.toNat).internal = true := by
  refine (hstop.sound.region q ((hstop.shape q).1.trans ?_)).internal
  rw [show s1.queue q = s.queue q from congrArg (fun x => x.get q) hqueues]
  exact (hqs q).1 hq

include hfreed

theorem failed_slot_of_unlent {k : Nat} (hl : (s.slot k).loan = none) (hi : (s.slot k).internal = false) :
    t.slot k = s.slot k := by
  have h2 := (hstop.letGo hpool k).eq_of_owned hl hi
  rw [hfreed.slot_of_external (hstop.regions_internal hqs hqueues) (h2 ▸ hi), h2]
  exact Slot.givenUp_of_unlent (by simp [hl])

include hsafe

omit hpool in
/-- A buffer still on loan when its queue goes is quarantined (41 R159). -/
theorem failed_slot_of_kept {k : Nat} (hk2 : s2.slot k = s.slot k) (hk : (s.slot k).state = .loaned) :
    t.slot k = { s.slot k with loan := none, orphan := true } := by
  obtain ⟨⟨l, hl⟩, hi⟩ := Slot.state_loaned hk
  rw [hfreed.slot_of_external (hstop.regions_internal hqs hqueues) (hk2 ▸ hi), hk2,
    Slot.givenUp_of_lent hl ((hqs l.q).2 (State.safe_lent_valid hsafe hl)), if_neg (by simp [hi])]
  exact congrArg (fun b => { s.slot k with loan := none, orphan := b }) (Bool.or_true _)

theorem failed_slot_of_loaned {k : Nat} (hk : (s.slot k).state = .loaned) :
    t.slot k = { s.slot k with loan := none, orphan := true } ∨ t.slot k = { s.slot k with loan := none }
      ∨ t.slot k = Slot.free := by
  obtain ⟨⟨l, hl⟩, hi⟩ := Slot.state_loaned hk
  have hreg := hstop.regions_internal hqs hqueues
  rcases hstop.letGo hpool k with h2 | ⟨-, h2⟩ | ⟨-, -, h2⟩
  · exact .inl (failed_slot_of_kept hsafe hqs hqueues hstop hfreed h2 hk)
  · exact .inr (.inr (hfreed.slot_of_free h2))
  · right; left
    rw [hfreed.slot_of_external hreg (by rw [h2]; exact hi), h2]
    exact Slot.givenUp_of_unlent (by simp)

theorem failed_slot_of_internal {k : Nat} (hk : (s.slot k).state = .internal) : t.slot k = Slot.free := by
  have hi := Slot.state_internal hk
  rcases hstop.letGo hpool k with h2 | ⟨-, h2⟩ | ⟨-, hi', -⟩
  · cases hl : (s.slot k).loan with
    | none =>
      obtain ⟨p, hpv, hpk⟩ := State.safe_region_of_internal hsafe hl hi
      refine (hfreed.slot k).trans (if_pos ⟨p, (hqs p).2 hpv, ?_⟩)
      rw [(hstop.shape p).2, show s1.queue p = s.queue p from congrArg (fun x => x.get p) hqueues, hpk]
    | some l =>
      rw [hfreed.slot, h2]
      split
      · rfl
      · rw [Slot.givenUp_of_lent hl ((hqs l.q).2 (State.safe_lent_valid hsafe hl)), if_pos hi]
  · exact hfreed.slot_of_free h2
  · rw [hi] at hi'
    cases hi'

end

/-- Settles O46: the FAILED bit, the delivery in progress up to its end, then every queue freed. -/
theorem failReleasesEverything : Obligations.FailReleasesEverything := by
  intro s hsafe hgaps hd hf
  obtain ⟨qs, s2, t, hexec, hqs, hstop, hfreed⟩ := exec_buFail_of_safe hsafe hgaps hd hf
  have hwalk := hstop.walk (s := s.withFailedBit _) (State.safe_walk_rests (s := s) hsafe)
  obtain ⟨ops, hops, hdisp⟩ := hstop.delivered.bus
  have hloaned := fun k =>
    failed_slot_of_loaned (s1 := s.withFailedBit _) (k := k) hsafe hqs rfl rfl hstop hfreed
  have hinternal := fun k =>
    failed_slot_of_internal (s1 := s.withFailedBit _) (k := k) hsafe hqs rfl rfl hstop hfreed
  have hunlent := fun k =>
    failed_slot_of_unlent (s := s) (s1 := s.withFailedBit _) (k := k) hqs rfl rfl hstop hfreed
  have hnone : ∀ q, (t.queue q).valid = false ∧ (t.queue q).wired = false ∧ (t.queue q).broken = false := fun q => by
    rw [hfreed.queue]
    split
    · exact ⟨rfl, rfl, rfl⟩
    · rename_i hq
      have hv : (s.queue q).valid = false := Bool.eq_false_iff.2 fun hv => hq ((hqs q).2 hv)
      rw [hstop.same (s := s.withFailedBit _) (State.safe_idle_of_invalid (s := s) hsafe hv)]
      exact ⟨hv, State.safe_queue_of_invalid hsafe hv⟩
  have hpool := State.safe_poolSound hsafe
  have hbytes : SameLiveBytes s t :=
    sameLiveBytes_trans (hstop.delivered.loans.bytes ⟨hpool.apart, hpool.lent⟩) hfreed.bytes
  have hframe : t = { s.withFailedBit (qs.map .qr ++ [.win]) with
      irqEn := false, queues := t.queues, pool := t.pool, disp := .idle, isrLat := s2.isrLat, dq := s2.dq, walk := .enter
      dev := s2.dev, mem := t.mem, eventPort := s2.eventPort, bus := s2.bus, draws := s2.draws } := by
    rw [hfreed.rest, hstop.delivered.rest, hstop.idle, hwalk]
  refine ⟨_, hexec, ?_⟩
  rw [hframe]
  refine ⟨rfl, rfl, rfl, rfl, rfl, rfl, rfl, rfl, rfl, rfl, rfl, rfl, rfl, rfl, rfl, rfl, ⟨ops, ?_, hdisp⟩,
    hstop.delivered.events, hnone, hloaned, hinternal, fun k hk => ?_, hstop.delivered.dev, fun hidle => ?_, hbytes⟩
  · exact hops.trans (List.append_assoc ..)
  · rcases hk with hk | hk | hk
    · obtain ⟨-, hl, hi⟩ := Slot.state_unlent (.inl hk)
      exact hunlent k hl hi
    · obtain ⟨-, hl, hi⟩ := Slot.state_unlent (.inr hk)
      exact hunlent k hl hi
    · have hfree := State.safe_slot_of_free hsafe hk
      exact hunlent k (by rw [hfree]; rfl) (by rw [hfree]; rfl)
  · have hs2 := hstop.same hidle
    refine ⟨(congrArg State.bus hs2 :), (congrArg State.isrLat hs2 :), (congrArg State.dq hs2 :),
      (congrArg State.eventPort hs2 :), (congrArg State.dev hs2 :), fun k hk => ?_⟩
    have hk2 : s2.slot k = s.slot k := by rw [hs2]; rfl
    exact failed_slot_of_kept (s1 := s.withFailedBit _) hsafe hqs rfl hstop hfreed hk2 hk

end Sys2Proof.Machine

namespace Sys2Proof.Machine

open Sys2Proof.Claims

/-! ## The teardown of the queues (43 R215) -/

theorem Slot.LetGo.kept {g : Agent} {x y : Slot} (h : x.LetGo g y) (hy : y.loan ≠ none ∨ y.internal = true) : y = x := by
  rcases h with h | ⟨-, rfl⟩ | ⟨-, hi, rfl⟩
  · exact h
  · exact absurd hy (by simp [Slot.free])
  · exact absurd hy (by simp [hi])

/-- Every loan is to a valid queue, and every other internal slot is the region of one. -/
structure State.Attributed (s : State) : Prop where
  lent : ∀ k l, (s.slot k).loan = some l → (s.queue l.q).valid = true
  region : ∀ k, (s.slot k).loan = none → (s.slot k).internal = true →
    ∃ q, (s.queue q).valid = true ∧ (s.queue q).region.toNat = k

theorem State.safe_attributed {s : State} (h : s.safe = true) : s.Attributed :=
  ⟨fun _ _ => State.safe_lent_valid h, fun _ => State.safe_region_of_internal h⟩

theorem State.Attributed.unlent {s : State} (h : s.Attributed) (hv : ∀ q, (s.queue q).valid = false) (k : Nat) :
    (s.slot k).loan = none ∧ (s.slot k).internal = false := by
  cases hl : (s.slot k).loan with
  | some l => exact absurd (h.lent k l hl) (by simp [hv])
  | none =>
    refine ⟨rfl, Bool.eq_false_iff.2 fun hi => ?_⟩
    obtain ⟨q, hq, -⟩ := h.region k hl hi
    simp [hv] at hq

/-- Loans that end while every queue stands. -/
theorem State.Attributed.letGo {g : Agent} {s t : State} (h : s.Attributed) (hslot : ∀ k, (s.slot k).LetGo g (t.slot k))
    (hshape : ∀ q, (t.queue q).valid = (s.queue q).valid ∧ (t.queue q).region = (s.queue q).region) : t.Attributed := by
  refine ⟨fun k l hl => ?_, fun k hl hi => ?_⟩
  · rw [(hslot k).kept (.inl (by simp [hl]))] at hl
    exact (hshape l.q).1.trans (h.lent k l hl)
  · rw [(hslot k).kept (.inr hi)] at hl hi
    obtain ⟨p, hv, hr⟩ := h.region k hl hi
    exact ⟨p, (hshape p).1.trans hv, by rw [(hshape p).2, hr]⟩

/-- `t` is `s` with these queues gone, and what they held given back (43 R215). -/
structure TornDown (qs : List Role) (s t : State) : Prop where
  rest : t = { s with queues := t.queues, pool := t.pool, mem := t.mem, bus := t.bus }
  loans : LoansEnd .cmd s t
  queue : ∀ p, (t.queue p).valid = true → p ∉ qs ∧ (s.queue p).valid = true
  attributed : s.Attributed → t.Attributed

section
variable {s t u : State} {q : Role}

theorem TornDown.trans {ps qs : List Role} (h : TornDown ps s t) (h' : TornDown qs t u) : TornDown (ps ++ qs) s u := by
  refine ⟨?_, h.loans.trans h'.loans, fun p hp => ?_, fun hs => h'.attributed (h.attributed hs)⟩
  · rw [h'.rest, h.rest]
  · obtain ⟨hq, ht⟩ := h'.queue p hp
    obtain ⟨hp, hs⟩ := h.queue p ht
    exact ⟨fun hmem => (List.mem_append.1 hmem).elim hp hq, hs⟩

theorem LoansEnd.orphan {g : Agent} (h : LoansEnd g s t) (hs : ∀ k, (s.slot k).orphan = false) (k : Nat) :
    (t.slot k).orphan = false := by
  rcases h.slot k with hk | ⟨-, hk⟩ | ⟨-, -, hk⟩
  · rw [hk]
    exact hs k
  · rw [hk]
    rfl
  · rw [hk]
    exact hs k

/-- Steps that let every queue stand. -/
theorem TornDown.of_shape (hrest : t = { s with queues := t.queues, pool := t.pool, mem := t.mem, bus := t.bus })
    (hloans : LoansEnd .cmd s t)
    (hshape : ∀ p, (t.queue p).valid = (s.queue p).valid ∧ (t.queue p).region = (s.queue p).region) :
    TornDown [] s t :=
  ⟨hrest, hloans, fun p hp => ⟨List.not_mem_nil, (hshape p).1 ▸ hp⟩, fun hs => hs.letGo hloans.slot hshape⟩

theorem TornDown.setQueue (s : State) {x : Queue} (hv : x.valid = (s.queue q).valid)
    (hr : x.region = (s.queue q).region) : TornDown [] s (s.setQueue q x) := by
  refine .of_shape rfl (.of_same rfl rfl) fun p => ?_
  rw [State.queue_setQueue]
  split
  · rename_i hp
    rw [hp]
    exact ⟨hv, hr⟩
  · exact ⟨rfl, rfl⟩

theorem Drawn.tornDown (h : Drawn .cmd s t) : TornDown [] s t :=
  .of_shape h.rest h.loans fun p => ⟨(h.shape p).valid, (h.shape p).region⟩

theorem QueuesFreed.tornDown (h : QueuesFreed [q] .giveBack s t)
    (hreg : (s.slot (s.queue q).region.toNat).internal = true) : TornDown [q] s t := by
  have hslot : ∀ k, (s.slot k).LetGo .cmd (t.slot k) := fun k => by
    rw [h.slot]
    split
    · rename_i hk
      obtain ⟨p, hp, hk⟩ := hk
      rw [List.mem_singleton.1 hp] at hk
      exact .inr (.inl ⟨.inl (hk ▸ hreg), rfl⟩)
    · cases hl : (s.slot k).loan with
      | none => exact .inl (Slot.givenUp_of_unlent (by simp [hl]))
      | some l =>
        by_cases hlq : l.q ∈ [q]
        · rw [Slot.givenUp_of_lent hl hlq]
          split
          · exact .inr (.inl ⟨.inl ‹_›, rfl⟩)
          · rename_i hi
            refine .inr (.inr ⟨by simp [hl], Bool.eq_false_iff.2 hi, ?_⟩)
            exact congrArg (fun b => { s.slot k with loan := none, orphan := b }) (Bool.or_false _)
        · exact .inl (Slot.givenUp_of_unlent fun l' hl' => by rw [hl] at hl'; cases hl'; exact hlq)
  have hloans : LoansEnd .cmd s t := ⟨hslot, fun _ => h.bytes⟩
  refine ⟨?_, hloans, fun p hp => ?_, fun hs => ⟨fun k l hl => ?_, fun k hl hi => ?_⟩⟩
  · rw [h.rest]
  · rw [h.queue] at hp
    split at hp
    · cases hp
    · exact ⟨‹_›, hp⟩
  · have hk := (hslot k).kept (.inl (by simp [hl]))
    have hlq : l.q ∉ [q] := fun hlq => by
      have hgone := h.slot k
      rw [Slot.givenUp_of_lent (hk ▸ hl) hlq] at hgone
      rw [hgone] at hl
      split at hl
      · cases hl
      · split at hl <;> cases hl
    rw [h.queue, if_neg hlq]
    exact hs.lent k l (hk ▸ hl)
  · have hk := (hslot k).kept (.inr hi)
    obtain ⟨p, hv, hr⟩ := hs.region k (hk ▸ hl) (hk ▸ hi)
    have hpq : p ∉ [q] := fun hpq => by
      rw [h.slot, if_pos ⟨p, hpq, hr⟩] at hi
      cases hi
    exact ⟨p, by rw [h.queue, if_neg hpq]; exact hv, by rw [h.queue, if_neg hpq]; exact hr⟩

end

/-- CMD's drain with nobody interfering (41 R164). -/
theorem drainRun_drawn {k : Hold} {q : Role} (hk : k.lock = some q) (n : Nat) {r : DrainRun} {s : State} (h : Sound k s)
    (hd : s.DrainReady q r.pos) (hgaps : s.gaps = []) (hwbuf : s.wbuf = []) :
    Ensures (drainRun q n r s) (fun p => Drawn .cmd s p.2) := by
  induction n generalizing r s with
  | zero => exact .error _
  | succ n ih =>
    rw [drainRun]
    split
    · exact .ok (.refl ..)
    · rename_i hp
      obtain ⟨p, hstep, ⟨⟨h1, -⟩, hd1, -⟩, -⟩ := drainStep_done (cmdEnv hk) ⟨h, hd.valid⟩ hd hp
      have hdrawn : Drawn .cmd s p.2 := drainStep_drawn cmdCtx_quiet hgaps hwbuf hd p hstep
      rw [hstep, ok_bind]
      exact fun t ht => hdrawn.trans (ih h1 hd1 (hdrawn.gaps.trans hgaps) (hdrawn.wbuf.trans hwbuf) t ht)

section
variable {s : State} (h : Sound .still s) (hpool : s.PoolSound) (hgaps : s.gaps = [])
include h hgaps

theorem drainList_tornDown (q : Role) (hv : (s.queue q).valid = true) :
    Ensures (drainList q s) (fun p => TornDown [] s p.2) := by
  have hfree := h.tidy.lock_none_of_quiet rfl rfl q
  have hlocked := Sound.take rfl h hfree
  have hlock : TornDown [] s (s.setQueue q { s.queue q with lock := some .cmd }) := .setQueue s rfl rfl
  unfold drainList
  rw [lock_free hfree, ok_bind]
  refine (drainRun_drawn rfl patience hlocked (h.toIntact.locked_ready hfree hv _) hgaps (h.tidy.stores rfl)).bind
    fun p hp => .ok ?_
  exact (hlock.trans hp.tornDown).trans (.setQueue p.2 rfl rfl)

include hpool

omit hgaps in
theorem freeQueue_tornDown (q : Role) (hv : (s.queue q).valid = true) :
    Ensures (freeQueue q .giveBack s) (TornDown [q] s) := by
  obtain ⟨t, ht, hfreed, -⟩ := freeQueue_frees (h.freeable hpool (List.nodup_singleton q) (by simpa using hv)) .giveBack
  rw [ht]
  exact .ok (hfreed.tornDown (h.region q hv).internal)

theorem detachQueue_tornDown (q : Role) : Ensures (detachQueue q s) (TornDown [q] s) := by
  unfold detachQueue
  split
  · rename_i hv
    dsimp only
    split
    · exact freeQueue_tornDown h hpool q hv
    · obtain ⟨r, hr, hsound, hv1⟩ := drainList_succeeds rfl h hv
      have h1 := drainList_tornDown h hgaps q hv r hr
      rw [hr, ok_bind]
      exact fun t ht => h1.trans (freeQueue_tornDown hsound (h1.loans.poolSound hpool) q hv1 t ht)
  · rename_i hv
    refine .ok ⟨rfl, .of_same rfl rfl, fun p hp => ⟨fun hpq => ?_, hp⟩, id⟩
    rw [List.mem_singleton.1 hpq] at hp
    exact hv hp

end

theorem detachQueues_tornDown (qs : List Role) {s : State} (h : Sound .still s) (hpool : s.PoolSound)
    (hgaps : s.gaps = []) : Succeeds (detachQueues qs s) (TornDown qs s) := by
  induction qs generalizing s with
  | nil => exact .ok ⟨rfl, .of_same rfl rfl, fun p hp => ⟨List.not_mem_nil, hp⟩, id⟩
  | cons q rest ih =>
    obtain ⟨s1, hs1, hsound⟩ := detachQueue_succeeds h rfl rfl q
    have h1 := detachQueue_tornDown h hpool hgaps q s1 hs1
    obtain ⟨t, ht, h2⟩ := ih hsound (h1.loans.poolSound hpool) (by rw [h1.rest]; exact hgaps)
    exact ⟨t, by rw [detachQueues, hs1, ok_bind, ht], h1.trans h2⟩

end Sys2Proof.Machine

namespace Sys2Proof.Machine

open Sys2Proof.Claims

/-! ## BU.DETACH (43 R215) -/

theorem Slot.orphan_of_owned {x : Slot} (h : x.state = .owned) : x.orphan = false := by
  obtain ⟨ha, hl, hi⟩ := Slot.state_unlent (.inl h)
  by_contra ho
  simp [Slot.state, ha, hl, hi, ho] at h

theorem Slot.eq_of_not_orphan {x : Slot} (h : x.orphan = false) : { x with orphan := false } = x := by
  rw [← h]

/-- CMD ends the loan of a buffer by giving it back (42 R187). -/
theorem Slot.LetGo.given_back {x z : Slot} (h : x.LetGo .cmd z) (hl : x.loan ≠ none) (hi : x.internal = false)
    (hz : z.loan = none) : z = { x with loan := none } := by
  rcases h with rfl | ⟨h, -⟩ | ⟨-, -, h⟩
  · exact absurd hz hl
  · simp [hi] at h
  · exact h

/-- A buffer on loan through the end of the delivery, the reset of the device and the teardown of the queues. -/
theorem Slot.LetGo.torn_down {x y z : Slot} (hxy : x.LetGo .disp y) (hyz : Slot.LetGo .cmd { y with orphan := false } z)
    (hl : x.loan ≠ none) (hi : x.internal = false) (ho : x.orphan = false) (hz : z.loan = none) :
    z = Slot.free ∨ z = { x with loan := none } := by
  rcases hxy with rfl | ⟨-, rfl⟩ | ⟨-, -, rfl⟩
  · rw [Slot.eq_of_not_orphan ho] at hyz
    exact .inr (hyz.given_back hl hi hz)
  · exact .inl (hyz.eq_of_owned rfl rfl)
  · right
    rw [hyz.eq_of_owned rfl hi, ← ho]

/-- The state after zero has been written to the status register: the device reset, no buffer quarantined (43 R216). -/
def State.withDeviceReset (s : State) : State :=
  clearOrphans { s with
    stShadow := 0
    dev := s.dev.resetByStatus
    bus := s.bus ++ [{ agent := .cmd, op := statusOp s 0 }] }

section
variable {s : State}

theorem statusWrite0_settled (hwf : s.cfg.wf = true) (hgaps : s.gaps = []) (hwbuf : s.wbuf = []) :
    statusWrite0 s = .ok s.withDeviceReset := by
  rw [statusWrite0_register hwf (cmdGap_nil (s := { s with stShadow := 0 }) hgaps),
    State.settle_of_nil { s with stShadow := 0 } hwbuf]
  rfl

theorem State.slot_withDeviceReset (s : State) (k : Nat) :
    s.withDeviceReset.slot k = { s.slot k with orphan := false } :=
  State.slot_clearOrphans _ k

theorem Sound.withDeviceReset (h : Sound .still s) : Sound .still s.withDeviceReset :=
  have hmoved : Sound .still { s with stShadow := 0, dev := s.dev.resetByStatus, bus := _ } :=
    h.move h.tidy rfl rfl rfl rfl rfl id
  hmoved.toIntact.clearOrphans.sound rfl

theorem State.PoolSound.withDeviceReset (h : s.PoolSound) : s.withDeviceReset.PoolSound := by
  refine ⟨fun a i j hi hj => ?_, fun k hk => ?_⟩
  · rw [State.slot_withDeviceReset] at hi hj
    exact h.apart a i j hi hj
  · rw [State.slot_withDeviceReset] at hk ⊢
    exact h.lent k hk

theorem State.Attributed.withDeviceReset (h : s.Attributed) : s.withDeviceReset.Attributed := by
  refine ⟨fun k l hl => ?_, fun k hl hi => ?_⟩
  · rw [State.slot_withDeviceReset] at hl
    exact h.lent k l hl
  · rw [State.slot_withDeviceReset] at hl hi
    exact h.region k hl hi

theorem sameLiveBytes_withDeviceReset (s : State) : SameLiveBytes s s.withDeviceReset :=
  fun a _ => byteAt_clearOrphans _ a

theorem detachQueues_of_invalid (hv : ∀ q, (s.queue q).valid = false) (qs : List Role) : detachQueues qs s = .ok s := by
  induction qs with
  | nil => rfl
  | cons q rest ih =>
    have hq : detachQueue q s = .ok s := if_neg (by simp [hv])
    rw [detachQueues, hq, ok_bind, ih]

end

/-- What a safe state has become when BU.DETACH has taken its queues down, before it clears its own registers
(43 R215). -/
structure Undone (s t : State) : Prop where
  rest : t = { s with
    irqEn := false, disp := .idle, queues := t.queues, pool := t.pool, mem := t.mem, bus := t.bus, dev := t.dev
    isrLat := t.isrLat, dq := t.dq, walk := t.walk, eventPort := t.eventPort, stShadow := t.stShadow, draws := t.draws }
  queue : ∀ q, (t.queue q).valid = false
  unlent : ∀ k, (t.slot k).loan = none ∧ (t.slot k).internal = false
  owned : ∀ k, (s.slot k).state = .owned → t.slot k = s.slot k
  loaned : ∀ k, (s.slot k).state = .loaned → t.slot k = Slot.free ∨ t.slot k = { s.slot k with loan := none }
  mapped : s.winMapped = true → (∀ k, (t.slot k).orphan = false) ∧ t.dev.dstatus = 0 ∧ t.dev.daddr = ⟨0, 0, 0⟩
  idle : s.disp = .idle → (∀ k, (s.slot k).state = .loaned → t.slot k = { s.slot k with loan := none })
    ∧ t.eventPort = s.eventPort ∧ (s.winMapped = true → t.dev = s.dev.resetByStatus)
  bytes : SameLiveBytes s t
  unmapped : s.winMapped = false → t.dev = s.dev ∧ t.pool = s.pool ∧ t.mem = s.mem ∧ t.bus = s.bus

section
variable {s : State} (h : s.safe = true) (hd : s.fsm ≠ .detached)
include h hd

/-- The windows are unmapped in FAILED alone, where nothing is left to release (60 R277). -/
theorem detachDevice_of_unmapped (hwin : s.winMapped = false) :
    detachDevice s = .ok (State.afterDetach { s with irqEn := false }) ∧ Undone s { s with irqEn := false } := by
  have hf : s.fsm = .failed := by
    by_contra hf
    have := (State.safe_working_acq h hd hf).1
    simp [hwin] at this
  have hfallen := (State.bringUpOk_failed hf).1 (State.safe_order h)
  have hnone : ∀ q, (s.queue q).valid = false := fun q => (hfallen.queues q).1
  have hunlent := (State.safe_attributed h).unlent hnone
  have hloaned : ∀ k, (s.slot k).state ≠ .loaned := fun k hk => by
    obtain ⟨⟨l, hl⟩, -⟩ := Slot.state_loaned hk
    simp [(hunlent k).1] at hl
  refine ⟨?_, ?_⟩
  · unfold detachDevice
    rw [waitIdle_of_idle (s := { s with irqEn := false }) hfallen.disp, ok_bind, if_neg (by simp [hwin]), ok_bind]
    dsimp only
    rw [detachQueues_of_invalid (s := { s with irqEn := false }) hnone]
    rfl
  · exact ⟨by rw [← hfallen.disp], hnone, hunlent, fun _ _ => rfl, fun k hk => absurd hk (hloaned k),
      fun hm => by simp [hwin] at hm, fun _ => ⟨fun k hk => absurd hk (hloaned k), rfl, fun hm => by simp [hwin] at hm⟩,
      sameLiveBytes_refl s, fun _ => ⟨rfl, rfl, rfl, rfl⟩⟩

/-- With the windows mapped: the end of the delivery, the reset of the device, the teardown of every valid queue. -/
theorem detachDevice_of_mapped (hgaps : s.gaps = []) (hwin : s.winMapped = true) :
    ∃ s1 t, detachDevice s = .ok t.afterDetach ∧ Stopped s s1 ∧ (∀ q, (t.queue q).valid = false)
      ∧ TornDown s1.withDeviceReset.detachRoles s1.withDeviceReset t := by
  have ha := State.safe_awaiting h hgaps
  obtain ⟨s1, hwait, hstop⟩ := waitIdle_stopped ha
  have hrest := hstop.delivered.rest
  have hgaps1 : s1.gaps = [] := hstop.gaps.trans hgaps
  have hwin1 : s1.winMapped = true := by rw [hrest]; exact hwin
  have hwrite := statusWrite0_settled (s := s1) (by rw [hrest]; exact ha.wf) hgaps1 (hstop.sound.tidy.stores rfl)
  obtain ⟨t, ht, htorn⟩ := detachQueues_tornDown s1.withDeviceReset.detachRoles hstop.sound.withDeviceReset
    hstop.pool.withDeviceReset hgaps1
  refine ⟨s1, t, ?_, hstop, fun q => Bool.eq_false_iff.2 fun hq => ?_, htorn⟩
  · unfold detachDevice
    rw [hwait, ok_bind, if_pos hwin1, hwrite, ok_bind]
    dsimp only
    rw [ht]
    rfl
  · obtain ⟨hnot, hv⟩ := htorn.queue q hq
    have hacc := (State.accounted_of_bringUpOk (State.safe_order h) fun hf => absurd hf hd).queue q
    have hacq : s1.withDeviceReset.acq = s.acq := (congrArg State.acq hrest :)
    exact hnot (State.mem_detachRoles (hacq ▸ hacc ((hstop.shape q).1 ▸ hv)))

omit hd in
theorem undone_of_mapped (hwin : s.winMapped = true) {s1 t : State} {qs : List Role} (hstop : Stopped s s1)
    (hnone : ∀ q, (t.queue q).valid = false) (htorn : TornDown qs s1.withDeviceReset t) : Undone s t := by
  have hdisp : ∀ k, (s.slot k).LetGo .disp (s1.slot k) := hstop.letGo rfl
  have hcmd : ∀ k, Slot.LetGo .cmd { s1.slot k with orphan := false } (t.slot k) := fun k =>
    State.slot_withDeviceReset s1 k ▸ htorn.loans.slot k
  have hunlent := (htorn.attributed ((State.safe_attributed h).letGo hdisp hstop.shape).withDeviceReset).unlent hnone
  have horphan : ∀ k, (t.slot k).orphan = false := htorn.loans.orphan fun k => by rw [State.slot_withDeviceReset]
  have hdev : t.dev = s1.dev.resetByStatus := (congrArg State.dev htorn.rest :)
  refine ⟨?_, hnone, hunlent, fun k hk => ?_, fun k hk => ?_, fun _ => ⟨horphan, by rw [hdev]; rfl, by rw [hdev]; rfl⟩,
    fun hidle => ?_, ?_, fun hw => by simp [hwin] at hw⟩
  · rw [htorn.rest, show s1.withDeviceReset.disp = .idle from hstop.idle, hstop.delivered.rest]
    rfl
  · obtain ⟨-, hl, hi⟩ := Slot.state_unlent (.inl hk)
    have h1 := (hdisp k).eq_of_owned hl hi
    have h2 := hcmd k
    rw [h1, Slot.eq_of_not_orphan (Slot.orphan_of_owned hk)] at h2
    exact h2.eq_of_owned hl hi
  · obtain ⟨⟨l, hl⟩, hi⟩ := Slot.state_loaned hk
    have hl : (s.slot k).loan ≠ none := by simp [hl]
    exact (hdisp k).torn_down (hcmd k) hl hi (State.safe_lent_not_orphan h hl) (hunlent k).1
  · have hs1 := hstop.same hidle
    refine ⟨fun k hk => ?_, ?_, fun _ => ?_⟩
    · obtain ⟨⟨l, hl⟩, hi⟩ := Slot.state_loaned hk
      have hl : (s.slot k).loan ≠ none := by simp [hl]
      have h2 := hcmd k
      rw [show s1.slot k = s.slot k by rw [hs1]; rfl, Slot.eq_of_not_orphan (State.safe_lent_not_orphan h hl)] at h2
      exact h2.given_back hl hi (hunlent k).1
    · rw [htorn.rest, hs1]
      rfl
    · rw [hdev, hs1]
  · have hpool := State.safe_poolSound h
    exact sameLiveBytes_trans (hstop.delivered.loans.bytes ⟨hpool.apart, hpool.lent⟩)
      (sameLiveBytes_trans (sameLiveBytes_withDeviceReset s1) (htorn.loans.bytes hstop.pool.withDeviceReset))

theorem detachDevice_undone (hgaps : s.gaps = []) : ∃ t, detachDevice s = .ok t.afterDetach ∧ Undone s t := by
  rcases Bool.eq_false_or_eq_true s.winMapped with hwin | hwin
  · obtain ⟨s1, t, hdetach, hstop, hnone, htorn⟩ := detachDevice_of_mapped h hd hgaps hwin
    exact ⟨t, hdetach, undone_of_mapped h hwin hstop hnone htorn⟩
  · exact ⟨_, detachDevice_of_unmapped h hd hwin⟩

end

/-- Settles O48: the registers BU.DETACH clears, over what the teardown has left. -/
theorem detachTearsEverythingDown : Obligations.DetachTearsEverythingDown := by
  intro s h hgaps hd
  obtain ⟨t, hdetach, hundone⟩ := detachDevice_undone h hd hgaps
  have hexec : exec .buDetach s = .next (t.afterDetach.respond .ok []) := by
    show execBuDetach s = _
    unfold execBuDetach
    rw [if_neg hd, hdetach, ok_bind, finish_ok]
  obtain ⟨hrest, hnone, hunlent, howned, hloaned, hmapped, hidle, hbytes, hunmapped⟩ := hundone
  refine ⟨_, hexec, ?_⟩
  rw [hrest]
  exact ⟨rfl, rfl, rfl, rfl, rfl, rfl, rfl, rfl, rfl, rfl, rfl, rfl, rfl, rfl, hnone, hunlent, howned, hloaned, hmapped,
    hidle, rfl, rfl, rfl, rfl, hbytes, hunmapped⟩

end Sys2Proof.Machine

namespace Sys2Proof.Machine

open Sys2Proof.Claims

/-! ## A turn of another agent than CMD (44 R231, R239) -/

theorem step_of_act {s : State} {a : Act} {ts : List Turn} (h : s.turns = .act a :: ts) :
    step s = agentTurn a { s with turns := ts } :=
  step_of_nextTurn_act (State.nextTurn_of_turns_cons h)

/-- A turn of the dispatcher, from what one does in any state. -/
theorem step_of_dispTurn {s t : State} {ts : List Turn} (h : s.turns = .act .disp :: ts)
    (ht : dispTurn { s with turns := ts } = .ok t) : step s = .next t := by
  rw [step_of_act h, agentTurn_disp, ht, finish_ok]

theorem State.deliver_of_ready {s : State} (hirq : s.irqEn = true) (hidle : s.disp = .idle) :
    s.deliver = { s with disp := .isr } := if_pos ⟨hirq, hidle⟩

theorem State.deliver_of_not_ready {s : State} (h : s.irqEn = false ∨ s.disp ≠ .idle) : s.deliver = s :=
  if_neg fun ⟨hirq, hidle⟩ => h.elim (fun hoff => by simp [hirq] at hoff) fun hbusy => hbusy hidle

/-- The handler is registered in FEATURES_OK and DRIVER_READY alone (43 R211, 60 R277). -/
theorem State.working_of_irqEn {s : State} (h : s.bringUpOk = true) (hirq : s.irqEn = true) : s.Working := by
  have hnot : s.irqEn ≠ false := by simp [hirq]
  cases hf : s.fsm with
  | detached => exact absurd ((State.bringUpOk_detached hf).1 h).irq hnot
  | reset => exact absurd ((State.bringUpOk_early (.inl hf)).1 h).1.irq hnot
  | acknowledged => exact absurd ((State.bringUpOk_early (.inr (.inl hf))).1 h).1.irq hnot
  | driverLoaded => exact absurd ((State.bringUpOk_early (.inr (.inr hf))).1 h).1.irq hnot
  | featuresOk => exact (State.bringUpOk_working (.inl hf)).1 h
  | driverReady => exact (State.bringUpOk_working (.inr hf)).1 h
  | failed => exact absurd ((State.bringUpOk_failed hf).1 h).irq hnot

/-- Settles O49. -/
theorem deliveryAcceptedWhenIdle : Obligations.DeliveryAcceptedWhenIdle := by
  intro s ts
  refine ⟨fun hturns => ⟨fun hirq hidle => ?_, fun hno => ?_⟩, fun hok hirq => ?_⟩
  · rw [step_of_act hturns]
    exact congrArg Host.Outcome.next (State.deliver_of_ready (s := { s with turns := ts }) hirq hidle)
  · rw [step_of_act hturns]
    exact congrArg Host.Outcome.next (State.deliver_of_not_ready (s := { s with turns := ts }) hno)
  · have hw := State.working_of_irqEn hok hirq
    exact ⟨hw.win, fun q => ⟨hw.wired q (hw.handler hirq q), hw.handler hirq q⟩⟩

/-! ## D_ISR, D_CONFIG and D_RET (44 R232, R236, R237) -/

section
variable {s : State}

theorem dispTurn_isr (hwf : s.cfg.wf = true) (hdisp : s.disp = .isr) : dispTurn s = .ok { s with
    isrLat := s.dev.disr, disp := .walk, walk := .enter, dev := { s.dev with disr := 0, irqLine := false }
    bus := s.bus ++ [{ agent := .disp, op := .regRead .w0 s.cfg.offIsr [s.dev.disr] }] } := by
  have hread : regRead dispCtx .w0 s.cfg.offIsr 1 s = .ok (_, _) := regRead_of_gap (c := dispCtx) rfl ..
  rw [dispCtx_drainStores, show s.windowRead .w0 s.cfg.offIsr 1 = _ from
    State.windowRead_register (r := .isr) hwf rfl] at hread
  have hbyte : leBytes Reg0.isr.bytes s.dev.disr.toNat = [s.dev.disr] := by simp [leBytes, Reg0.bytes]
  rw [hbyte, busValue_singleton] at hread
  simp only [dispTurn, hdisp, dispIsr, hread, ok_bind, BitVec.ofNat_toNat, BitVec.setWidth_eq]
  rfl

theorem dispTurn_config_of_no_cause (hdisp : s.disp = .config) (hcause : s.isrLat &&& s.cfg.isrConfigChange = 0) :
    dispTurn s = .ok { s with disp := .ret } := by
  simp [dispTurn, hdisp, dispConfig, configChangeCause, hcause]

/-- With the cause set the event says what reading the link state gives. -/
theorem dispTurn_config_of_cause (hdisp : s.disp = .config) (hcause : s.isrLat &&& s.cfg.isrConfigChange ≠ 0) {up : Bool}
    {t : State} (hlink : readLink dispCtx s = .ok (up, t)) :
    dispTurn s = .ok { t with disp := .ret, eventPort := t.eventPort ++ [0x00000102#32, if up then 1 else 0] } := by
  simp only [dispTurn, hdisp, dispConfig, configChangeCause, bne_iff_ne.2 hcause, if_true, hlink, ok_bind]
  rfl

theorem readLink_of_not_negotiated (c : Ctx) (h : s.negotiated.getLsbD s.cfg.fStatus = false) :
    readLink c s = .ok (true, s) :=
  if_neg (by simpa [featureBit] using h)

theorem readLink_of_negotiated (h : s.negotiated.getLsbD s.cfg.fStatus = true) (hopen : s.dev.win1Open = false) :
    readLink dispCtx s = .ok
      ((BitVec.ofNat 16 (busValue s.cfg.hostEndian (leBytes 2 s.dev.link.toNat))).getLsbD s.cfg.linkUpBit,
        s.log .disp (.regRead .w1 s.cfg.offLinkStatus (leBytes 2 s.dev.link.toNat))) := by
  have hread : regRead dispCtx .w1 s.cfg.offLinkStatus 2 s = .ok (_, _) := regRead_of_gap (c := dispCtx) rfl ..
  rw [dispCtx_drainStores, State.windowRead_link hopen] at hread
  refine (if_pos (by exact h)).trans ?_
  rw [hread]
  rfl

theorem dispTurn_ret (hdisp : s.disp = .ret) : dispTurn s = .ok { s with
    disp := .idle, eventPort := s.eventPort ++ [0x00000105#32, if s.isrLat = 0 then 0 else 1] } := by
  have hclaimed : flagWord (s.isrLat != 0) = if s.isrLat = 0 then 0 else 1 := by
    by_cases h : s.isrLat = 0 <;> simp [flagWord, h]
  simp only [dispTurn, hdisp]
  rw [dispRet, State.emit, Event.words, Event.data, hclaimed]
  rfl

end

/-- Settles O50. -/
theorem isrIsReadOnce : Obligations.IsrIsReadOnce := fun s ts hwf hturns hdisp =>
  step_of_dispTurn hturns (dispTurn_isr (s := { s with turns := ts }) hwf hdisp)

/-- Settles O53. -/
theorem configAndReturnEvents : Obligations.ConfigAndReturnEvents := by
  intro s ts hturns
  refine ⟨fun hdisp hcause => ?_, fun hdisp hcause hoff => ?_, fun hdisp hcause hon hopen => ?_, fun hdisp => ?_⟩
  · exact step_of_dispTurn hturns (dispTurn_config_of_no_cause (s := { s with turns := ts }) hdisp hcause)
  · exact step_of_dispTurn hturns (dispTurn_config_of_cause (s := { s with turns := ts }) hdisp hcause
      (readLink_of_not_negotiated dispCtx hoff))
  · exact step_of_dispTurn hturns (dispTurn_config_of_cause (s := { s with turns := ts }) hdisp hcause
      (readLink_of_negotiated hon hopen))
  · exact step_of_dispTurn hturns (dispTurn_ret (s := { s with turns := ts }) hdisp)

end Sys2Proof.Machine

namespace Sys2Proof.Machine

open Sys2Proof.Claims

/-! ## What the end of a walk hands over, slot by slot and word by word (44 R234, R235) -/

/-- The first word of the event of each chain drained from the queue at hand (30 R116, R117). -/
def State.reportWord (s : State) : Word := if s.dq = s.cfg.qRx then 0x00000201#32 else 0x00000206#32

/-- The event of one drained chain. -/
def Drained.event (d : Drained) (report : Word) : List Word := [report, d.cookie.setWidth 32, d.len]

theorem slot_poolFrees (hs : List Handle) (s : State) (k : Nat) :
    (poolFrees hs s).slot k = if ∃ h ∈ hs, h.toNat = k then Slot.free else s.slot k := by
  induction hs generalizing s with
  | nil => simp [poolFrees]
  | cons h rest ih =>
    rw [poolFrees, ih, State.slot_poolFree]
    by_cases hk : k = h.toNat
    · simp [hk]
    · simp [hk, Ne.symm hk]

section
variable (d : Drained) (s : State)

theorem reportChain_eq : reportChain d s = { s with
    pool := (reportChain d s).pool, mem := (reportChain d s).mem
    eventPort := s.eventPort ++ d.event s.reportWord } := by
  unfold reportChain State.reportWord
  split
  · rfl
  · rw [poolFrees_eq]
    rfl

theorem reportChain_place : (reportChain d s).dq = s.dq ∧ (reportChain d s).cfg = s.cfg := by
  rw [reportChain_eq]
  exact ⟨rfl, rfl⟩

theorem slot_reportChain (k : Nat) : (reportChain d s).slot k
    = if s.dq ≠ s.cfg.qRx ∧ ∃ h ∈ d.handles, h.toNat = k then Slot.free else s.slot k := by
  unfold reportChain
  split
  · rename_i hrx
    rw [if_neg fun h => h.1 hrx]
    rfl
  · rename_i hrx
    rw [State.slot_emit, slot_poolFrees]
    simp only [ne_eq, hrx, not_false_eq_true, true_and]

end

theorem reportChains_eventPort (out : List Drained) (s : State) :
    (reportChains out s).eventPort = s.eventPort ++ out.flatMap (fun d => d.event s.reportWord) := by
  induction out generalizing s with
  | nil => exact (List.append_nil _).symm
  | cons d rest ih =>
    have hword : (reportChain d s).reportWord = s.reportWord := by
      unfold State.reportWord
      rw [(reportChain_place d s).1, (reportChain_place d s).2]
    rw [reportChains, ih, hword, reportChain_eq, List.flatMap_cons, List.append_assoc]

theorem slot_reportChains (out : List Drained) (s : State) (k : Nat) : (reportChains out s).slot k
    = if s.dq ≠ s.cfg.qRx ∧ ∃ d ∈ out, ∃ h ∈ d.handles, h.toNat = k then Slot.free else s.slot k := by
  induction out generalizing s with
  | nil => simp [reportChains]
  | cons d rest ih =>
    obtain ⟨hdq, hcfg⟩ := reportChain_place d s
    rw [reportChains, ih, slot_reportChain, hdq, hcfg]
    by_cases hrest : s.dq ≠ s.cfg.qRx ∧ ∃ d ∈ rest, ∃ h ∈ d.handles, h.toNat = k
    · rw [if_pos hrest, if_pos ⟨hrest.1, List.exists_mem_cons_of_exists hrest.2⟩]
    · rw [if_neg hrest]
      refine if_congr (and_congr_right fun hrx => ?_) rfl rfl
      rw [List.exists_mem_cons_iff, or_iff_left fun h => hrest ⟨hrx, h⟩]

theorem mem_gathered {out : List Drained} {k : Nat} : (∃ y ∈ out.flatMap fun d => d.handles, y.toNat = k)
    ↔ ∃ d ∈ out, ∃ y ∈ d.handles, y.toNat = k := by
  simp only [List.mem_flatMap]
  exact ⟨fun ⟨y, ⟨d, hd, hy⟩, hk⟩ => ⟨d, hd, y, hy, hk⟩, fun ⟨d, hd, y, hy, hk⟩ => ⟨y, ⟨d, hd, hy⟩, hk⟩⟩

/-- The walk of a queue whose loans have ended and whose lock has been dropped, before its frees and events. -/
def State.unlent (s : State) (out : List Drained) : State :=
  unlock s.dq (setLoans none (out.flatMap fun d => d.handles) s)

section
variable (out : List Drained) (corrupt : Bool) (s : State)

theorem State.unlent_eq : s.unlent out = { s with
    queues := s.queues.set s.dq { s.queue s.dq with lock := none }, pool := (s.unlent out).pool } := by
  unfold State.unlent
  rw [setLoans_eq]
  rfl

theorem State.slot_unlent (hlt : ∀ d ∈ out, ∀ h ∈ d.handles, h.toNat < s.pool.length) (k : Nat) : (s.unlent out).slot k
    = if ∃ d ∈ out, ∃ h ∈ d.handles, h.toNat = k then { s.slot k with loan := none } else s.slot k := by
  refine (slot_setLoans (fun h hh => ?_) none k).trans (if_congr mem_gathered rfl rfl)
  obtain ⟨d, hd, hh⟩ := List.mem_flatMap.1 hh
  exact hlt d hd h hh

theorem handOver_eq_reportChains : handOver out corrupt s
    = if corrupt then (reportChains out (s.unlent out)).emit (.ringCorrupt s.dq)
      else reportChains out (s.unlent out) := by
  have hdq : (reportChains out (s.unlent out)).dq = s.dq := by
    rw [reportChains_eq, State.unlent_eq]
  rw [← hdq]
  rfl

theorem handOver_eventPort : (handOver out corrupt s).eventPort
    = s.eventPort ++ out.flatMap (fun d => d.event s.reportWord)
      ++ (if corrupt then [0x00000104#32, BitVec.ofNat 32 s.dq.num] else []) := by
  have hport : (reportChains out (s.unlent out)).eventPort
      = s.eventPort ++ out.flatMap (fun d => d.event s.reportWord) := by
    rw [reportChains_eventPort, State.unlent_eq]
    rfl
  rw [handOver_eq_reportChains, ← hport]
  cases corrupt with
  | false => exact (List.append_nil _).symm
  | true => rfl

/-- A slot handed over is OWNED after a receive chain, FREE after any other. -/
theorem slot_handOver (hlt : ∀ d ∈ out, ∀ h ∈ d.handles, h.toNat < s.pool.length) (k : Nat) :
    (handOver out corrupt s).slot k = if ∃ d ∈ out, ∃ h ∈ d.handles, h.toNat = k
      then (if s.dq = s.cfg.qRx then { s.slot k with loan := none } else Slot.free) else s.slot k := by
  have hsame : (handOver out corrupt s).slot k = (reportChains out (s.unlent out)).slot k := by
    rw [handOver_eq_reportChains]
    split <;> rfl
  have hplace : (s.unlent out).dq = s.dq ∧ (s.unlent out).cfg = s.cfg := by
    rw [State.unlent_eq]
    exact ⟨rfl, rfl⟩
  rw [hsame, slot_reportChains, hplace.1, hplace.2, State.slot_unlent out s hlt]
  by_cases hout : ∃ d ∈ out, ∃ h ∈ d.handles, h.toNat = k
  · rw [if_pos hout, if_pos hout]
    by_cases hrx : s.dq = s.cfg.qRx
    · rw [if_neg fun h => h.1 hrx, if_pos hrx]
    · rw [if_pos ⟨hrx, hout⟩, if_neg hrx]
  · rw [if_neg fun h => hout h.2, if_neg hout, if_neg hout]

end

/-- Where the walk goes after a queue (44 R235). -/
def placeAfter : Role → Disp × Role × WalkPos
  | .q0 => (.walk, .q1, .test)
  | .q1 => (.walk, .q2, .test)
  | .q2 => (.config, .q2, .enter)

theorem advanceWalk_place {s : State} (hdisp : s.disp = .walk) :
    ((advanceWalk s).disp, (advanceWalk s).dq, (advanceWalk s).walk) = placeAfter s.dq := by
  unfold advanceWalk
  cases s.dq with
  | q0 => exact congrArg (·, Role.q1, WalkPos.test) hdisp
  | q1 => exact congrArg (·, Role.q2, WalkPos.test) hdisp
  | q2 => rfl

end Sys2Proof.Machine

namespace Sys2Proof.Machine

open Sys2Proof.Claims

/-! ## Two drains that go the same way (41 R164, R165) -/

/-- Where the first computation ends the second ends too, with a result related to the first one's. -/
def Mirrors {α β : Type} (x : Except Fault α) (y : Except Fault β) (r : α → β → Prop) : Prop :=
  Ensures x fun a => Succeeds y (r a)

section
variable {α β γ δ : Type} {r : α → β → Prop}

theorem Mirrors.ok {a : α} {b : β} (h : r a b) : Mirrors (.ok a) (.ok b) r := Ensures.ok (.ok h)

theorem Mirrors.bind {r' : γ → δ → Prop} {x : Except Fault α} {y : Except Fault β} {f : α → Except Fault γ}
    {g : β → Except Fault δ} (h : Mirrors x y r) (hf : ∀ a b, r a b → Mirrors (f a) (g b) r') :
    Mirrors (x >>= f) (y >>= g) r' :=
  Ensures.bind h fun a ⟨b, hy, hr⟩ c hc => by
    rw [hy, ok_bind]
    exact hf a b hr c hc

theorem Mirrors.ite {p : Prop} [Decidable p] {x x' : Except Fault α} {y y' : Except Fault β} (h : Mirrors x y r)
    (h' : Mirrors x' y' r) : Mirrors (if p then x else x') (if p then y else y') r := by
  split
  · exact h
  · exact h'

end

/-- The same result, and related states. -/
def SameAnd {α : Type} (R : State → State → Prop) (a b : α × State) : Prop := b.1 = a.1 ∧ R a.2 b.2

/-- The same move to a position within no chain's end, and related states. -/
def SameMove (R : State → State → Prop) (a b : DrainPos × State) : Prop := b.1 = a.1 ∧ a.1.ended = [] ∧ R a.2 b.2

/-- The same move of two drains, from runs `r` and `r'`. -/
def SameRun (r r' : DrainRun) (R : State → State → Prop) (a b : DrainRun × State) : Prop :=
  b.1 = { r' with pos := a.1.pos } ∧ a.1.pos.ended = [] ∧ a.1.out = r.out ∧ R a.2 b.2

/-- Drains of queue `q` by two agents, in related states, meet the same queue, but for who holds its lock, read the same,
and leave related states. -/
structure DrainsAlike (c c' : Ctx) (q : Role) (R : State → State → Prop) : Prop where
  cfg : ∀ {u d}, R u d → d.cfg = u.cfg
  queue : ∀ {u d}, R u d → d.queue q = { u.queue q with lock := (d.queue q).lock }
  write : ∀ {u d} (x : Queue), R u d → x.lock = (u.queue q).lock →
    R (u.setQueue q x) (d.setQueue q { x with lock := (d.queue q).lock })
  read : ∀ {u d} (a n : Nat), R u d → Mirrors (memRead c a n u) (memRead c' a n d) (SameAnd R)
  fence : ∀ {u d}, R u d → Mirrors (fence c u) (fence c' d) R

section
variable {c c' : Ctx} {q : Role} {R : State → State → Prop} (h : DrainsAlike c c' q R) {u d : State} (hR : R u d)
include h hR

theorem DrainsAlike.fault : SameMove R (drainFault q u) (drainFault q d) := by
  refine ⟨rfl, rfl, ?_⟩
  have hw := h.write { u.queue q with broken := true } hR rfl
  have hq : { d.queue q with broken := true } = { u.queue q with broken := true, lock := (d.queue q).lock } := by
    rw [h.queue hR]
  rwa [← hq] at hw

theorem DrainsAlike.visit (i : DescIdx) (t : Tag) :
    R (u.setQueue q ((u.queue q).setTag i t)) (d.setQueue q ((d.queue q).setTag i t)) := by
  have hw := h.write ((u.queue q).setTag i t) hR rfl
  have hq : (d.queue q).setTag i t = { (u.queue q).setTag i t with lock := (d.queue q).lock } := by
    rw [h.queue hR]
    rfl
  rwa [← hq] at hw

theorem DrainsAlike.start : Mirrors (drainStart c q u) (drainStart c' q d) (SameMove R) := by
  unfold drainStart
  rw [h.queue hR]
  refine .ite (.ok ⟨rfl, rfl, hR⟩) ((h.read _ _ hR).bind ?_)
  rintro ⟨idx, u1⟩ ⟨_, d1⟩ ⟨rfl, h1⟩
  refine (h.fence h1).bind fun u2 d2 h2 => ?_
  dsimp only
  rw [h.queue h2]
  exact .ite (.ok (h.fault h2)) (.ok ⟨rfl, nextElement_ended _, h2⟩)

theorem DrainsAlike.id (rest : Nat) : Mirrors (drainId c q rest u) (drainId c' q rest d) (SameMove R) := by
  unfold drainId
  rw [h.queue hR]
  refine (h.read _ _ hR).bind ?_
  rintro ⟨id, u1⟩ ⟨_, d1⟩ ⟨rfl, h1⟩
  exact .ok ⟨rfl, rfl, h1⟩

theorem DrainsAlike.length (rest id : Nat) :
    Mirrors (drainLength c q rest id u) (drainLength c' q rest id d) (SameMove R) := by
  unfold drainLength
  rw [h.queue hR]
  refine (h.read _ _ hR).bind ?_
  rintro ⟨len, u1⟩ ⟨_, d1⟩ ⟨rfl, h1⟩
  dsimp only
  rw [h.queue h1]
  exact .ite (.ok ⟨rfl, rfl, h1⟩) (.ok (h.fault h1))

theorem DrainsAlike.flags (v : Visit) : Mirrors (drainFlags c q v u) (drainFlags c' q v d) (SameMove R) := by
  have h0 := h.visit hR v.cur .completedPendingReturn
  unfold drainFlags
  dsimp only
  rw [h.queue h0]
  refine (h.read _ _ h0).bind ?_
  rintro ⟨fl, u1⟩ ⟨_, d1⟩ ⟨rfl, h1⟩
  dsimp only
  rw [h.cfg h1, h.queue h1]
  exact .ite (.ok ⟨rfl, rfl, h1⟩) (.ite (.ok ⟨rfl, rfl, h1⟩) (.ok (h.fault h1)))

theorem DrainsAlike.link (v : Visit) : Mirrors (drainLink c q v u) (drainLink c' q v d) (SameMove R) := by
  unfold drainLink
  rw [h.queue hR]
  refine (h.read _ _ hR).bind ?_
  rintro ⟨nx, u1⟩ ⟨_, d1⟩ ⟨rfl, h1⟩
  dsimp only
  rw [h.queue h1]
  exact .ite (.ok ⟨rfl, rfl, h1⟩) (.ok (h.fault h1))

/-- Every step of the drains but the end of a chain. -/
theorem DrainsAlike.step {r r' : DrainRun} (hpos : r'.pos = r.pos) (hnot : ∀ v done, r.pos ≠ .unlend v done) :
    Mirrors (drainStep c q r u) (drainStep c' q r' d) (SameRun r r' R) := by
  have hmove : ∀ {x y : Except Fault (DrainPos × State)}, Mirrors x y (SameMove R) →
      Mirrors (x >>= fun p => Except.ok ({ r with pos := p.1 }, p.2))
        (y >>= fun p => Except.ok ({ r' with pos := p.1 }, p.2))
        (SameRun r r' R) := fun hxy =>
    hxy.bind fun a b ⟨hsame, hended, hR'⟩ => .ok ⟨by rw [hsame], hended, rfl, hR'⟩
  unfold drainStep
  rw [hpos]
  cases hp : r.pos with
  | start => exact hmove (h.start hR)
  | element rest => exact hmove (h.id hR rest)
  | length rest id => exact hmove (h.length hR rest id)
  | flags v => exact hmove (h.flags hR v)
  | link v => exact hmove (h.link hR v)
  | unlend v done => exact absurd hp (hnot v done)
  | finished b => exact .ok ⟨by rw [← hpos], by rw [hp]; rfl, rfl, hR⟩

end

end Sys2Proof.Machine

namespace Sys2Proof.Machine

open Sys2Proof.Claims

/-! ## The step that ends the walk of a queue (44 R234, R235) -/

/-- From `s` to `t` the dispatcher hands over the chains of `out` and goes on to the next queue. -/
structure WalkEnded (s t : State) (out : List Drained) (corrupt : Bool) : Prop where
  events : t.eventPort = s.eventPort ++ out.flatMap (fun d => d.event s.reportWord)
    ++ (if corrupt then [0x00000104#32, BitVec.ofNat 32 s.dq.num] else [])
  slot : ∀ k, t.slot k = if ∃ d ∈ out, ∃ h ∈ d.handles, h.toNat = k
    then (if s.dq = s.cfg.qRx then { s.slot k with loan := none } else Slot.free) else s.slot k
  bytes : SameLiveBytes s t
  place : (t.disp, t.dq, t.walk) = placeAfter s.dq
  rest : t = { s with
    queues := s.queues.set s.dq { s.queue s.dq with lock := none }, pool := t.pool, disp := t.disp, dq := t.dq
    walk := t.walk, mem := t.mem, eventPort := t.eventPort }

/-- It does so in one step, when what it hands over are buffers on loan. -/
theorem advanceWalk_handOver_ended {s : State} (hdisp : s.disp = .walk) (hs : s.PoolSound) {out : List Drained}
    (corrupt : Bool)
    (hlent : ∀ d ∈ out, ∀ h ∈ d.handles, (s.slot h.toNat).loan ≠ none ∧ (s.slot h.toNat).internal = false) :
    WalkEnded s (advanceWalk (handOver out corrupt s)) out corrupt := by
  have hover := handOver_eq out corrupt s
  have hwalk := advanceWalk_eq (handOver out corrupt s)
  have hdisp' : (handOver out corrupt s).disp = .walk := by rw [hover, hdisp]
  have hdq : (handOver out corrupt s).dq = s.dq := by rw [hover]
  refine ⟨?_, fun k => ?_, fun a ha => ?_, ?_, ?_⟩
  · rw [hwalk]
    exact handOver_eventPort out corrupt s
  · rw [hwalk]
    refine slot_handOver out corrupt s (fun d hd h hh => State.slot_lt fun hf => ?_) k
    exact (hlent d hd h hh).1 (by rw [hf]; rfl)
  · rw [hwalk] at ha ⊢
    refine (handOver_handedOver (P := fun k => (s.slot k).loan ≠ none ∧ (s.slot k).internal = false) hs (fun _ => id)
      out corrupt fun x hx => ?_).bytes a ha
    obtain ⟨d, hd, hx⟩ := List.mem_flatMap.1 hx
    exact hlent d hd x hx
  · rw [advanceWalk_place hdisp', hdq]
  · rw [hwalk, hover, handOver_queues]
    rfl

/-- The turn that comes to the end of a drain. -/
theorem dispTurn_of_finished {s s1 : State} {r r1 : DrainRun} {corrupt : Bool} (hdisp : s.disp = .walk)
    (hwalk : s.walk = .drain r) (hstep : drainStep dispCtx s.dq r s = .ok (r1, s1))
    (hpos : r1.pos = .finished corrupt) :
    dispTurn s = .ok (advanceWalk (handOver r1.out corrupt s1)) := by
  simp only [dispTurn, hdisp, dispWalk, hwalk, walkDrain, hstep, ok_bind, hpos]

/-- The turn that goes on with a drain. -/
theorem dispTurn_of_unfinished {s s1 : State} {r r1 : DrainRun} (hdisp : s.disp = .walk)
    (hwalk : s.walk = .drain r) (hstep : drainStep dispCtx s.dq r s = .ok (r1, s1)) (hpos : ∀ c, r1.pos ≠ .finished c) :
    dispTurn s = .ok { s1 with walk := .drain r1 } := by
  simp only [dispTurn, hdisp, dispWalk, hwalk, walkDrain, hstep, ok_bind]

/-! ## One step of DISP's drain, whatever the schedule holds (41 R164, R165) -/

/-- Memory is read byte by byte. -/
theorem State.readBytes_congr {s t : State} (h : ∀ a, t.byteAt a = s.byteAt a) (a n : Nat) :
    t.readBytes a n = s.readBytes a n := by
  induction n generalizing a with
  | zero => rfl
  | succ n ih => simp only [State.readBytes, h, ih]

/-- Two agents before whose reads nothing happens read the same from the same bytes. -/
theorem memRead_mirrors {c c' : Ctx} {u d : State} {R : State → State → Prop} (hg : c.gap u = .ok u)
    (hg' : c'.gap d = .ok d) (hb : ∀ a, (c'.view d).byteAt a = (c.view u).byteAt a)
    (hR : ∀ op, R (u.log c.agent op) (d.log c'.agent op)) (a n : Nat) :
    Mirrors (memRead c a n u) (memRead c' a n d) (SameAnd R) := by
  unfold memRead
  rw [hg, hg', ok_bind, ok_bind, State.readBytes_congr hb]
  exact Mirrors.bind (r := fun x y => y = x) (fun x hx => ⟨x, hx, rfl⟩) fun x y hxy => .ok ⟨by rw [hxy], hxy ▸ hR _⟩

/-- DISP's drain does not look at what is to happen before CMD's accesses. -/
theorem drainsAlike_ungapped (q : Role) : DrainsAlike dispCtx dispCtx q fun u d => d = { u with gaps := [] } where
  cfg := by rintro u _ rfl; rfl
  queue := by rintro u _ rfl; rfl
  write := by
    rintro u _ x rfl hx
    have hx' : { x with lock := (u.queue q).lock } = x := by rw [← hx]
    exact congrArg (State.setQueue { u with gaps := [] } q) hx'
  read := by
    rintro u _ a n rfl
    exact memRead_mirrors (c := dispCtx) (c' := dispCtx) (u := u) (d := { u with gaps := [] })
      (R := fun u d => d = { u with gaps := [] }) rfl rfl (fun _ => rfl) (fun _ => rfl) a n
  fence := by rintro u _ rfl; exact .ok rfl

theorem reclaim_ungapped (q : Role) (id : DescIdx) (order : List DescIdx) (s : State) :
    reclaim q id order { s with gaps := [] } = { reclaim q id order s with gaps := [] } := by
  cases hind : ((s.queue q).descAt id).ind with
  | none =>
    rw [reclaim_of_no_table hind, reclaim_of_no_table (s := { s with gaps := [] }) hind]
    rfl
  | some t =>
    rw [reclaim_of_table hind, reclaim_of_table (s := { s with gaps := [] }) hind]
    rfl

/-- The dispatcher's step at the end of a chain (44 R234). -/
theorem drainStep_dispCtx_unlend {q : Role} {r : DrainRun} {v : Visit} {done : List Handle}
    (hpos : r.pos = .unlend v done) (s : State) : drainStep dispCtx q r s = .ok
      ({ out := r.out ++ [{ cookie := ((s.queue q).descAt v.id).cookie, len := v.len
                            handles := done ++ s.lentTo q v.id }]
         pos := nextElement v.rest }, reclaim q v.id v.visited s) := by
  simp only [drainStep, hpos]
  rfl

theorem drainStep_ungapped (q : Role) (r : DrainRun) (s : State) :
    Mirrors (drainStep dispCtx q r s) (drainStep dispCtx q r { s with gaps := [] })
      (fun a b => b = (a.1, { a.2 with gaps := [] })) := by
  by_cases hend : ∃ v done, r.pos = .unlend v done
  · obtain ⟨v, done, hpos⟩ := hend
    rw [drainStep_dispCtx_unlend hpos, drainStep_dispCtx_unlend hpos, reclaim_ungapped]
    exact .ok rfl
  · have hstep := (drainsAlike_ungapped q).step (u := s) rfl (r := r) rfl fun v done hpos => hend ⟨v, done, hpos⟩
    intro a ha
    obtain ⟨b, hb, hrun, -, hout, hstate⟩ := hstep a ha
    exact ⟨b, hb, Prod.ext (by rw [hrun, ← hout]) hstate⟩

end Sys2Proof.Machine

namespace Sys2Proof.Machine

open Sys2Proof.Claims

/-! ## The steps of the walk (44 R233 to R235) -/

/-- The words of the log of the unknown causes (44 R233). -/
def State.unknownReport (s : State) : List Word :=
  if s.isrLat &&& ~~~(s.cfg.isrQueueUpdate ||| s.cfg.isrConfigChange) = 0 then []
  else [0x00000103#32, (s.isrLat &&& ~~~(s.cfg.isrQueueUpdate ||| s.cfg.isrConfigChange)).setWidth 32]

theorem reportUnknown_eq (s : State) : reportUnknown s = { s with eventPort := s.eventPort ++ s.unknownReport } := by
  unfold reportUnknown State.unknownReport unknownCauses
  split
  · rw [List.append_nil]
  · rfl

section
variable {s : State} (hdisp : s.disp = .walk)
include hdisp

theorem dispTurn_enter_of_no_update (hwalk : s.walk = .enter) (hcause : s.isrLat &&& s.cfg.isrQueueUpdate = 0) :
    dispTurn s = .ok { s with disp := .config, eventPort := s.eventPort ++ s.unknownReport } := by
  simp [dispTurn, hdisp, dispWalk, hwalk, walkEnter, queueUpdateCause, hcause, reportUnknown_eq]

theorem dispTurn_enter_of_update (hwalk : s.walk = .enter) (hcause : s.isrLat &&& s.cfg.isrQueueUpdate ≠ 0) :
    dispTurn s = .ok { s with dq := .q0, walk := .test, eventPort := s.eventPort ++ s.unknownReport } := by
  simp only [dispTurn, hdisp, dispWalk, hwalk, walkEnter, queueUpdateCause, bne_iff_ne.2 hcause, if_true,
    reportUnknown_eq]

theorem dispTurn_test_of_passed (hwalk : s.walk = .test)
    (hno : (s.queue s.dq).valid = false ∨ (s.queue s.dq).broken = true) : dispTurn s = .ok (advanceWalk s) := by
  have htest : ¬((s.queue s.dq).valid && !(s.queue s.dq).broken) = true := by
    rcases hno with h | h <;> simp [h]
  simp only [dispTurn, hdisp, dispWalk, hwalk, walkTest, if_neg htest]

theorem dispTurn_test_of_present (hwalk : s.walk = .test) (hv : (s.queue s.dq).valid = true)
    (hb : (s.queue s.dq).broken = false) : dispTurn s = .ok { s with walk := .wantLock } := by
  simp [dispTurn, hdisp, dispWalk, hwalk, walkTest, hv, hb]

theorem dispTurn_wantLock_of_locked (hwalk : s.walk = .wantLock) (hlock : (s.queue s.dq).lock ≠ none) :
    dispTurn s = .ok s := by
  simp only [dispTurn, hdisp, dispWalk, hwalk, walkLock, if_neg hlock]

theorem dispTurn_wantLock_of_free (hwalk : s.walk = .wantLock) (hlock : (s.queue s.dq).lock = none) :
    dispTurn s = .ok { s.setQueue s.dq { s.queue s.dq with lock := some .disp } with
      walk := .drain { out := [], pos := .start } } := by
  simp only [dispTurn, hdisp, dispWalk, hwalk, walkLock, if_pos hlock]

end

/-! ## One step of the dispatcher's drain -/

theorem drainStep_dispCtx_keeps (q : Role) (r : DrainRun) (s : State) :
    Ensures (drainStep dispCtx q r s) fun p => p.2.gaps = s.gaps ∧ SameOtherQueues q s p.2 := by
  refine drainStep_keeps (P := fun t => t.gaps = s.gaps ∧ SameOtherQueues q s t)
    ⟨fun t h => Ensures.ok (a := t) h, fun t x ⟨hg, hq⟩ _ => ⟨hg, fun p hp => ?_⟩, fun _ _ _ _ _ h _ => h⟩
    ⟨rfl, fun _ _ => rfl⟩ r
  rw [State.queue_setQueue_ne t x hp]
  exact hq p hp

/-- It draws on nothing but its queue, whatever the schedule holds for CMD. -/
theorem drainStep_dispCtx_drawn {q : Role} {r : DrainRun} {s : State} (hwbuf : s.wbuf = [])
    (hready : s.DrainReady q r.pos) : Ensures (drainStep dispCtx q r s) fun p => Drawn .disp s p.2 := by
  rintro ⟨r1, s1⟩ hstep
  obtain ⟨hgaps, -⟩ := drainStep_dispCtx_keeps q r s _ hstep
  obtain ⟨_, hstep', rfl⟩ := drainStep_ungapped q r s _ hstep
  have hready' : State.DrainReady { s with gaps := [] } q r.pos := hready.keep ⟨rfl, rfl, fun _ _ _ => rfl⟩
  have hdrawn := drainStep_drawn (c := dispCtx) dispCtx_quiet (s := { s with gaps := [] }) rfl hwbuf hready' _ hstep'
  refine ⟨?_, hdrawn.shape, ⟨hdrawn.loans.slot, fun hs => hdrawn.loans.bytes ⟨hs.apart, hs.lent⟩⟩, hdrawn.bus⟩
  have hrest := congrArg (fun t : State => { t with gaps := s.gaps }) hdrawn.rest
  rwa [show ({ s1 with gaps := s.gaps } : State) = s1 by rw [← show s1.gaps = s.gaps from hgaps]] at hrest

/-- What it has gathered stays on loan. -/
theorem Sound.drainStep_gathered {k : Hold} {s : State} (h : Sound k s) {r : DrainRun} (hdrain : s.drainOf = some r) :
    Ensures (drainStep dispCtx s.dq r s) fun p => ∀ x ∈ p.1.gathered, p.2.Lent s.dq x.toNat := by
  obtain ⟨hready, hlent⟩ := h.walk r hdrain
  by_cases hfin : ∃ b, r.pos = .finished b
  · obtain ⟨b, hb⟩ := hfin
    rw [show drainStep dispCtx s.dq r s = .ok (r, s) by simp only [drainStep, hb]]
    exact .ok hlent
  · obtain ⟨p, hp, ⟨⟨-, -, -, hkept⟩, -, -⟩, hnew⟩ := drainStep_done (dispEnv hdrain r.gathered)
      ⟨h.toIntact, .refl k s, ⟨rfl, rfl, rfl⟩, hlent⟩ hready fun b hb => hfin ⟨b, hb⟩
    rw [hp]
    exact .ok fun x hx => (hnew rfl x hx).elim (hkept x) id

theorem State.Lent.not_none {s : State} {q : Role} {k : Nat} (h : s.Lent q k) :
    (s.slot k).loan ≠ none ∧ (s.slot k).internal = false := by
  obtain ⟨hint, i, hloan⟩ := h
  exact ⟨by simp [hloan], hint⟩

theorem Slot.LetGo.eq_of_lent {g : Agent} {x y : Slot} (h : x.LetGo g y) (hl : y.loan ≠ none) : y = x :=
  h.shrinks.resolve_right fun h' => hl h'.1

/-- The turn that ends a drain (44 R234, R235). -/
theorem Sound.walkEnded {k : Hold} {s s1 : State} {r r1 : DrainRun} (hsound : Sound k s) (hpool : s.PoolSound)
    (hwbuf : s.wbuf = []) (hdisp : s.disp = .walk) (hwalk : s.walk = .drain r)
    (hstep : drainStep dispCtx s.dq r s = .ok (r1, s1)) (corrupt : Bool) :
    WalkEnded s1 (advanceWalk (handOver r1.out corrupt s1)) r1.out corrupt ∧ Drawn .disp s s1
      ∧ ∀ d ∈ r1.out, ∀ h ∈ d.handles, s1.Lent s.dq h.toNat := by
  have hdrain : s.drainOf = some r := by simp [State.drainOf, hdisp, hwalk]
  have hdrawn : Drawn .disp s s1 := drainStep_dispCtx_drawn hwbuf (hsound.walk r hdrain).1 _ hstep
  have hlent : ∀ d ∈ r1.out, ∀ h ∈ d.handles, s1.Lent s.dq h.toNat := fun d hd h hh =>
    hsound.drainStep_gathered hdrain _ hstep h (List.mem_append.2 (.inl (List.mem_flatMap.2 ⟨d, hd, hh⟩)))
  have hdisp1 : s1.disp = .walk := by rw [hdrawn.rest, hdisp]
  exact ⟨advanceWalk_handOver_ended hdisp1 (hdrawn.loans.poolSound hpool) corrupt fun d hd h hh =>
    (hlent d hd h hh).not_none, hdrawn, hlent⟩

/-- A buffer on loan in a safe state is OWNED once the loan has ended. -/
theorem State.safe_owned_of_unlent {s : State} (hsafe : s.safe = true) {k : Nat} (hl : (s.slot k).loan ≠ none)
    (hi : (s.slot k).internal = false) : ({ s.slot k with loan := none } : Slot).state = .owned := by
  simp [Slot.state, (State.safe_poolSound hsafe).lent k hl, hi, State.safe_lent_not_orphan hsafe hl]

/-- Settles O51. -/
theorem walkTakesSingleSteps : Obligations.WalkTakesSingleSteps := by
  intro s ts unknown hturns hdisp hunknown
  subst hunknown
  refine ⟨fun hwalk hcause => ?_, fun hwalk hcause => ?_, fun hwalk hno => ?_, fun hwalk hv hb => ?_,
    fun hwalk hlock => ?_, fun r r1 s1 corrupt hsafe hwalk hstep hpos => ?_⟩
  · exact step_of_dispTurn hturns (dispTurn_enter_of_no_update (s := { s with turns := ts }) hdisp hwalk hcause)
  · exact step_of_dispTurn hturns (dispTurn_enter_of_update (s := { s with turns := ts }) hdisp hwalk hcause)
  · have hturn := step_of_dispTurn hturns (dispTurn_test_of_passed (s := { s with turns := ts }) hdisp hwalk hno)
    rw [hturn]
    refine ⟨fun hq => ?_, fun hq => ?_, fun hq => ?_⟩ <;> simp only [advanceWalk, hq, nextRole, ← hwalk]
  · exact step_of_dispTurn hturns (dispTurn_test_of_present (s := { s with turns := ts }) hdisp hwalk hv hb)
  · exact step_of_dispTurn hturns (dispTurn_wantLock_of_locked (s := { s with turns := ts }) hdisp hwalk hlock)
  · have hsound : Sound .none { s with turns := ts } := State.safe_sound (s := { s with turns := ts }) hsafe
    obtain ⟨hended, hdrawn, hlent⟩ := hsound.walkEnded (State.safe_poolSound (s := { s with turns := ts }) hsafe)
      (hsound.tidy.stores rfl) hdisp hwalk hstep corrupt
    have hothers := (drainStep_dispCtx_keeps s.dq r _ _ hstep).2
    have hturn := dispTurn_of_finished (s := { s with turns := ts }) hdisp hwalk hstep hpos
    have hdq : s1.dq = s.dq := by rw [hdrawn.rest]
    have hcfg : s1.cfg = s.cfg := by rw [hdrawn.rest]
    have hport : s1.eventPort = s.eventPort := by rw [hdrawn.rest]
    obtain ⟨hevents, hslot, hbytes, hplace, hrest⟩ := hended
    generalize advanceWalk (handOver r1.out corrupt s1) = t at *
    simp only [State.reportWord, Drained.event, hdq, hcfg, hport] at hevents hslot hplace hrest
    refine ⟨t, step_of_dispTurn hturns hturn, hevents, fun d hd h hh => ?_, hslot, ?_, fun p hp => ?_, ?_, ?_, ?_⟩
    · rw [hslot, if_pos ⟨d, hd, h, hh, rfl⟩]
      obtain ⟨hl, hi⟩ := (hlent d hd h hh).not_none
      split
      · have hslot1 := (hdrawn.loans.slot h.toNat).eq_of_lent hl
        rw [hslot1] at hl hi ⊢
        exact State.safe_owned_of_unlent (s := { s with turns := ts }) hsafe hl hi
      · rfl
    · rw [hrest]
      exact PerRole.get_set_self ..
    · rw [hrest]
      exact (PerRole.get_set_ne _ _ hp).trans (hothers p hp)
    · exact sameLiveBytes_trans (hdrawn.loans.bytes (State.safe_poolSound hsafe)) hbytes
    · rw [hplace]
      cases s.dq <;> rfl
    · rw [hrest, hdrawn.rest]

end Sys2Proof.Machine

namespace Sys2Proof.Machine

open Sys2Proof.Claims

/-! ## The drain of VQ.DRAIN, as a run (41 R164 to R166) -/

theorem frameWord_injective {a b n : Nat} (ha : a < 2 ^ 32) (hb : b < 2 ^ 32) (h : frameWord a n = frameWord b n) :
    a = b := by
  have := congrArg BitVec.toNat h
  simp only [frameWord, BitVec.toNat_ofNat] at this
  omega

theorem drainRun_of_vqDrain {s t : State} {q : Role} (hv : (s.queue q).valid = true) (hlock : (s.queue q).lock = none)
    (h : exec (.vqDrain q) s = .next t) : ∃ out c w,
      drainRun q patience { out := [], pos := .start } (s.setQueue q { s.queue q with lock := some .cmd })
        = .ok ((out, c), w)
      ∧ t = (unlock q w).respond (if c then .ringCorrupt else .ok) (drainWords out) := by
  have h' : finish (do
      let ((out, corrupt), s) ← drainList q s
      .ok (s.respond (if corrupt then .ringCorrupt else .ok) (drainWords out))) = .next t := (if_pos hv).symm.trans h
  obtain ⟨⟨⟨out, c⟩, s1⟩, hlist, ht⟩ := bind_ok.1 (finish_next.1 h')
  simp only [drainList, lock_free hlock, ok_bind] at hlist
  obtain ⟨⟨res, w⟩, hrun, hres⟩ := bind_ok.1 hlist
  cases hres
  cases ht
  exact ⟨out, c, w, hrun, rfl⟩

/-- A queue's context says what a drain has left of it. -/
theorem queueDrained_congr {s t u : State} {q : Role} {chains : List DoneChain} {visited : List DescIdx}
    {corrupt : Bool} (h : QueueDrained s t q chains visited corrupt) (hq : u.queue q = t.queue q) :
    QueueDrained s u q chains visited corrupt := by
  unfold QueueDrained
  rw [hq]
  exact h

/-- What a drain by CMD does with what it finds, whether it ends in order or in corruption. -/
theorem drainFinds_run {s : State} {q : Role} {chains : List DoneChain} {visited : List DescIdx} {corrupt : Bool}
    (hsafe : s.safe = true) (hgaps : s.gaps = []) (hv : (s.queue q).valid = true) (hb : (s.queue q).broken = false)
    (hlock : (s.queue q).lock = none) (hfinds : DrainFinds s q chains visited corrupt) : ∃ out w,
      drainRun q patience { out := [], pos := .start } (s.setQueue q { s.queue q with lock := some .cmd })
        = .ok ((out, corrupt), w)
      ∧ drainWords out = drainedWords (s.queue q) chains ∧ QueueDrained s (unlock q w) q chains visited corrupt
      ∧ LoansGivenBack s w q chains ∧ SameLiveBytes s w := by
  obtain ⟨t, hexec, hanswer, hqueue, hloans, hbytes⟩ : ∃ t, exec (.vqDrain q) s = .next t
      ∧ Answered (if corrupt then .ringCorrupt else .ok) (drainedWords (s.queue q) chains) s t
      ∧ QueueDrained s t q chains visited corrupt ∧ LoansGivenBack s t q chains ∧ SameLiveBytes s t := by
    cases corrupt with
    | false =>
      obtain rfl : visited = [] := hfinds.2.elim fun _ ⟨_, _, h⟩ => h
      obtain ⟨t, h, h1, h2, h3, -, -, -, h4⟩ := drainReturnsCompletedChains s q chains hsafe hgaps hv hb hlock hfinds
      exact ⟨t, h, h1, h2, h3, h4⟩
    | true =>
      obtain ⟨t, h, h1, h2, h3, -, -, -, h4⟩ := drainStopsAtCorruption s q chains visited hsafe hgaps hv hb hlock hfinds
      exact ⟨t, h, h1, h2, h3, h4⟩
  obtain ⟨out, c, w, hrun, rfl⟩ := drainRun_of_vqDrain hv hlock hexec
  have hport : w.respPort = s.respPort := (sameCmd_drainRun _ hrun).respPort
  have hframe : w.respPort ++ (_ :: drainWords out) = s.respPort ++ (_ :: drainedWords (s.queue q) chains) := hanswer
  rw [hport] at hframe
  obtain ⟨hcode, hwords⟩ := List.cons.inj (List.append_cancel_left hframe)
  rw [hwords] at hcode
  have hc : c = corrupt := by
    revert hcode
    cases c <;> cases corrupt <;> intro hcode
    · rfl
    · exact absurd (frameWord_injective (by decide) (by decide) hcode) (by decide)
    · exact absurd (frameWord_injective (by decide) (by decide) hcode) (by decide)
    · rfl
  subst hc
  exact ⟨out, w, hrun, hwords, hqueue, hloans, hbytes⟩

theorem drainFinds_ungapped {s : State} {q : Role} {chains : List DoneChain} {visited : List DescIdx}
    {corrupt : Bool} (h : DrainFinds s q chains visited corrupt) :
    DrainFinds { s with gaps := [] } q chains visited corrupt := by
  have hr : ∀ a n, State.readLe { s with gaps := [] } a n = s.readLe a n := fun a n => State.readLe_congr fun _ _ => rfl
  have hc : ∀ b d c, ChainedIs { s with gaps := [] } b d c ↔ ChainedIs s b d c := fun b d c => by
    simp only [ChainedIs, hr]
  have hl : ∀ b ds, LinkedInMemory { s with gaps := [] } b ds ↔ LinkedInMemory s b ds := by
    intro b ds
    induction ds with
    | nil => exact Iff.rfl
    | cons d ds ih =>
      cases ds with
      | nil => exact Iff.rfl
      | cons e ds => simp only [LinkedInMemory, hc, hr, ih]
  simp only [DrainFinds, ChainsCompleted, ElementCorrupt, UsedElement, hr, hc, hl] at h ⊢
  exact h

/-- The events of what was drained, from the words that VQ.DRAIN answers with. -/
theorem events_of_drainWords {x : Queue} (report : Word) {out : List Drained} {chains : List DoneChain}
    (h : drainWords out = drainedWords x chains) : out.flatMap (fun d => d.event report)
      = chains.flatMap fun c => [report, (x.descAt c.id).cookie.setWidth 32, BitVec.ofNat 32 c.len] := by
  induction out generalizing chains with
  | nil =>
    cases chains with
    | nil => rfl
    | cons c chains => cases h
  | cons d out ih =>
    cases chains with
    | nil => cases h
    | cons c chains =>
      simp only [drainWords, drainedWords, List.flatMap_cons, List.cons_append, List.nil_append, List.cons.injEq] at h
      obtain ⟨hcookie, hlen, hrest⟩ := h
      rw [List.flatMap_cons, List.flatMap_cons, ih hrest, Drained.event, hcookie, hlen]

end Sys2Proof.Machine

namespace Sys2Proof.Machine

open Sys2Proof.Claims

/-! ## The dispatcher's drain beside CMD's (41 R164, R165; 44 R234) -/

/-- Slot tables whose slots say the same of every address do so as a whole. -/
theorem poolKind_congr_slots {p p' : List Slot} {a : Nat} (hlen : p'.length = p.length)
    (hcovers : ∀ k, (p'.getD k Slot.free).covers a = (p.getD k Slot.free).covers a)
    (hfill : ∀ k, (p'.getD k Slot.free).fill = (p.getD k Slot.free).fill) : poolKind p' a = poolKind p a := by
  induction p generalizing p' with
  | nil => rw [List.eq_nil_of_length_eq_zero hlen]
  | cons x p ih =>
    cases p' with
    | nil => cases hlen
    | cons y p' =>
      rw [poolKind_cons, poolKind_cons, ih (Nat.succ.inj hlen) (fun k => hcovers (k + 1)) fun k => hfill (k + 1),
        show y.covers a = x.covers a from hcovers 0, show y.fill = x.fill from hfill 0]

theorem State.mem_lentTo_iff {s : State} {q : Role} {i : DescIdx} {h : Handle} : h ∈ s.lentTo q i ↔
    h ∈ s.handles ∧ (s.slot h.toNat).loan = some { q := q, head := i } ∧ (s.slot h.toNat).internal = false := by
  simp only [State.lentTo, List.mem_filter, Bool.and_eq_true, beq_iff_eq, Bool.not_eq_true']

/-- Who holds a queue has no part in what becomes of a chain. -/
theorem Queue.reclaimed_lock (x : Queue) (l : Option Agent) (order : List DescIdx) :
    { x with lock := l }.reclaimed order = { x.reclaimed order with lock := l } := by
  have htags : { x with lock := l }.setTags .free order = { x.setTags .free order with lock := l } := by
    induction order generalizing x with
    | nil => rfl
    | cons i rest ih => exact ih (x.setTag i .free)
  rw [Queue.reclaimed, htags]
  rfl

/-- The drain of queue `q` from `s` on has come as far by CMD in `u` as by DISP in `d`: DISP has yet to end the loans of
these handles, which CMD has ended. -/
structure Shadow (s : State) (q : Role) (ended : List Handle) (u d : State) : Prop where
  rest : d = { s with queues := s.queues.set q (d.queue q), pool := d.pool, mem := d.mem, walk := d.walk, bus := d.bus }
  queue : d.queue q = { u.queue q with lock := some .disp }
  slot : ∀ k, u.slot k = if ∃ h ∈ ended, h.toNat = k then { d.slot k with loan := none } else d.slot k
  length : u.pool.length = d.pool.length
  kept : ∀ k, d.slot k = s.slot k ∨ d.slot k = Slot.free
  mem : d.mem = u.mem
  cfg : u.cfg = s.cfg
  gaps : u.gaps = []
  wbuf : u.wbuf = []

section
variable {s u d : State} {q : Role} {ended : List Handle} (h : Shadow s q ended u d)
include h

theorem Shadow.slot_eq (k : Nat) : u.slot k = { d.slot k with loan := (u.slot k).loan } := by
  rw [h.slot]
  split <;> rfl

theorem Shadow.congr {ended' : List Handle} (hsame : ∀ x, x ∈ ended' ↔ x ∈ ended) : Shadow s q ended' u d :=
  { h with slot := fun k => by simp only [hsame, h.slot k] }

/-- Both read the same. -/
theorem Shadow.poolKind (a : Nat) : poolKind d.pool a = poolKind u.pool a := by
  have hcovers : ∀ k, (u.slot k).covers a = (d.slot k).covers a := fun k =>
    (congrArg (Slot.covers · a) (h.slot_eq k)).trans rfl
  have hfill : ∀ k, (u.slot k).fill = (d.slot k).fill := fun k => (congrArg Slot.fill (h.slot_eq k)).trans rfl
  exact (poolKind_congr_slots h.length hcovers hfill).symm

theorem Shadow.byteAt (a : Nat) : d.byteAt a = u.byteAt a := State.byteAt_congr (h.poolKind a) (by rw [h.mem])

theorem Shadow.walk (w : WalkPos) : Shadow s q ended u { d with walk := w } :=
  { h with rest := congrArg (fun d : State => { d with walk := w }) h.rest }

theorem Shadow.setQueue (x : Queue) :
    Shadow s q ended (u.setQueue q x) (d.setQueue q { x with lock := some .disp }) := by
  refine { h with rest := ?_, queue := ?_ }
  · rw [State.queue_setQueue_self]
    have hrest := congrArg (fun d : State => d.setQueue q { x with lock := some .disp }) h.rest
    simp only [State.setQueue, PerRole.set_set] at hrest
    exact hrest
  · rw [State.queue_setQueue_self, State.queue_setQueue_self]

theorem Shadow.log (op : BusOp) : Shadow s q ended (u.log .cmd op) (d.log .disp op) :=
  { h with rest := congrArg (fun e : State => e.log .disp op) h.rest }

theorem Shadow.poolFree (k : Nat) : Shadow s q ended (poolFree k u) (poolFree k d) := by
  refine { h with rest := ?_, slot := fun j => ?_, length := ?_, kept := fun j => ?_, mem := ?_ }
  · exact congrArg (fun e : State => { e with pool := (Machine.poolFree k d).pool, mem := (Machine.poolFree k d).mem })
      h.rest
  · rw [State.slot_poolFree, State.slot_poolFree, h.slot]
    by_cases hj : j = k
    · simp only [if_pos hj]
      exact (ite_self _).symm
    · simp only [if_neg hj]
  · exact (List.length_set ..).trans (h.length.trans (List.length_set ..).symm)
  · rw [State.slot_poolFree]
    split
    · exact .inr rfl
    · exact h.kept j
  · have hbus : (u.slot k).bus = (d.slot k).bus := (congrArg Slot.bus (h.slot_eq k)).trans rfl
    have hextent : (u.slot k).extent = (d.slot k).extent := (congrArg Slot.extent (h.slot_eq k)).trans rfl
    show Memory.eraseRange d.mem (d.slot k).bus.toNat ((d.slot k).bus.toNat + (d.slot k).extent)
      = Memory.eraseRange u.mem (u.slot k).bus.toNat ((u.slot k).bus.toNat + (u.slot k).extent)
    rw [h.mem, hbus, hextent]

theorem Shadow.reclaim (id : DescIdx) (order : List DescIdx) :
    Shadow s q ended (reclaim q id order u) (reclaim q id order d) := by
  have hqueue : (d.queue q).reclaimed order = { (u.queue q).reclaimed order with lock := some .disp } := by
    rw [h.queue, Queue.reclaimed_lock]
  have hind : ((d.queue q).descAt id).ind = ((u.queue q).descAt id).ind := by
    rw [h.queue]
    rfl
  cases hu : ((u.queue q).descAt id).ind with
  | none =>
    rw [reclaim_of_no_table hu, reclaim_of_no_table (hind.trans hu), hqueue]
    exact h.setQueue _
  | some t =>
    rw [reclaim_of_table hu, reclaim_of_table (hind.trans hu), hqueue]
    exact (h.setQueue _).poolFree _

/-- What CMD still finds on loan is what DISP has there. -/
theorem Shadow.slot_of_loan {k : Nat} (hl : (u.slot k).loan ≠ none) : d.slot k = u.slot k := by
  rw [h.slot] at hl ⊢
  split
  · rename_i hk
    rw [if_pos hk] at hl
    exact absurd rfl hl
  · rfl

theorem Shadow.lentTo {i : DescIdx} {x : Handle} (hx : x ∈ u.lentTo q i) : x ∈ d.lentTo q i := by
  rw [State.mem_lentTo_iff] at hx ⊢
  obtain ⟨hmem, hloan, hint⟩ := hx
  rw [h.slot_of_loan (by simp [hloan]), State.handles, ← h.length]
  exact ⟨hmem, hloan, hint⟩

/-- Once CMD has ended every loan of a chain DISP has gathered them all. -/
theorem Shadow.ended_of_lentTo {i : DescIdx} (hnone : u.lentTo q i = []) {x : Handle} (hx : x ∈ d.lentTo q i) :
    x ∈ ended := by
  by_contra hnot
  rw [State.mem_lentTo_iff, State.handles, ← h.length] at hx
  refine List.not_mem_nil (a := x) (hnone ▸ State.mem_lentTo_iff.2 ?_)
  rwa [h.slot, if_neg fun ⟨y, hy, heq⟩ => hnot (BitVec.eq_of_toNat_eq heq ▸ hy)]

theorem Shadow.endLoan {x : Handle} (hl : (u.slot x.toNat).loan ≠ none) :
    Shadow s q (ended ++ [x]) (endLoan x.toNat u) d := by
  have hlt : x.toNat < u.pool.length := State.slot_lt fun hf => hl (by rw [hf]; rfl)
  refine { h with slot := fun k => ?_, length := (List.length_set ..).trans h.length }
  rw [show (Machine.endLoan x.toNat u).slot k = _ from slot_setLoan hlt none k, h.slot]
  simp only [List.mem_append, List.mem_singleton, or_and_right, exists_or, exists_eq_left]
  by_cases hk : x.toNat = k
  · simp only [hk, or_true, if_true]
    split <;> rfl
  · simp only [hk, Ne.symm hk, or_false, if_false]

end

/-- The drains of the two go the same way. -/
theorem drainsAlike_shadow (s : State) (q : Role) (ended : List Handle) :
    DrainsAlike cmdCtx dispCtx q (Shadow s q ended) where
  cfg h := by rw [h.cfg, h.rest]
  queue h := by rw [h.queue]
  write x h _ := by
    rw [h.queue]
    exact h.setQueue x
  read {u d} a n h := by
    refine memRead_mirrors (c := cmdCtx) (c' := dispCtx) (cmdGap_nil h.gaps) rfl (fun b => ?_) h.log a n
    rw [show cmdCtx.view u = u from State.settle_of_nil u h.wbuf]
    exact h.byteAt b
  fence {u d} h := by
    rw [fence_of_gap (c := cmdCtx) (cmdGap_nil h.gaps), fence_of_gap (c := dispCtx) rfl,
      show cmdCtx.drainStores u = u from State.settle_of_nil u h.wbuf]
    exact .ok (h.log _)

end Sys2Proof.Machine

namespace Sys2Proof.Machine

open Sys2Proof.Claims

/-! ## The dispatcher follows CMD's drain to its end (44 R234, R235) -/

/-- Where DISP's drain stands when CMD's stands here: it ends no loan by itself. -/
def DrainPos.ungathered : DrainPos → DrainPos
  | .unlend v _ => .unlend v []
  | p => p

theorem DrainPos.ungathered_of_ended {p : DrainPos} (h : p.ended = []) : p.ungathered = p := by
  cases p with
  | unlend v done => exact congrArg (DrainPos.unlend v) (Eq.symm h)
  | _ => rfl

theorem DrainPos.ungathered_eq_finished {p : DrainPos} {b : Bool} : p.ungathered = .finished b ↔ p = .finished b := by
  cases p <;> simp [DrainPos.ungathered]

section
variable {q : Role} {r : DrainRun} {v : Visit} {done : List Handle} {s : State} (hpos : r.pos = .unlend v done)
  (hgaps : s.gaps = [])
include hpos hgaps

theorem drainStep_cmdCtx_of_lent {x : Handle} {rest : List Handle} (hlent : s.lentTo q v.id = x :: rest) :
    drainStep cmdCtx q r s = .ok ({ r with pos := .unlend v (done ++ [x]) }, endLoan x.toNat s) := by
  simp only [drainStep, hpos, show cmdCtx.gap s = .ok s from cmdGap_nil hgaps, ok_bind, hlent]
  rfl

theorem drainStep_cmdCtx_of_not_lent (hlent : s.lentTo q v.id = []) : drainStep cmdCtx q r s = .ok
    ({ out := r.out ++ [{ cookie := ((s.queue q).descAt v.id).cookie, len := v.len, handles := done ++ [] }]
       pos := nextElement v.rest }, reclaim q v.id v.visited s) := by
  simp only [drainStep, hpos, show cmdCtx.gap s = .ok s from cmdGap_nil hgaps, ok_bind, hlent]
  rfl

end

/-- DISP's run `rd` in `d` has come as far as CMD's run `ru` in `u`. -/
structure Follows (s : State) (q : Role) (ru : DrainRun) (u : State) (rd : DrainRun) (d : State) : Prop where
  shadow : Shadow s q (rd.out.flatMap (fun x => x.handles) ++ ru.pos.ended) u d
  pos : rd.pos = ru.pos.ungathered
  words : drainWords rd.out = drainWords ru.out
  ended : ∀ v done, ru.pos = .unlend v done → ∀ x ∈ done, x ∈ d.lentTo q v.id

section
variable {s u d : State} {q : Role} {ru rd : DrainRun} (h : Follows s q ru u rd d)
include h

theorem Follows.walk (w : WalkPos) : Follows s q ru u rd { d with walk := w } :=
  ⟨h.shadow.walk w, h.pos, h.words, h.ended⟩

/-- CMD ends a loan; DISP does nothing. -/
theorem Follows.endLoan {v : Visit} {done : List Handle} (hpos : ru.pos = .unlend v done) {x : Handle}
    (hx : x ∈ u.lentTo q v.id) :
    Follows s q { ru with pos := .unlend v (done ++ [x]) } (endLoan x.toNat u) rd d := by
  obtain ⟨hshadow, hrd, hwords, hended⟩ := h
  rw [hpos] at hshadow hrd
  refine ⟨?_, hrd, hwords, ?_⟩
  · have hloan := (State.mem_lentTo hx).1
    have := hshadow.endLoan (x := x) (by simp [hloan])
    rwa [List.append_assoc] at this
  · rintro _ _ ⟨⟩ y hy
    rcases List.mem_append.1 hy with hy | hy
    · exact hended v done hpos y hy
    · rw [List.mem_singleton.1 hy]
      exact hshadow.lentTo hx

/-- Both reclaim a chain whose loans CMD has ended. -/
theorem Follows.reclaim {v : Visit} {done : List Handle} (hpos : ru.pos = .unlend v done) (hnone : u.lentTo q v.id = [])
    (cookie : Handle) : Follows s q
      { out := ru.out ++ [{ cookie := cookie, len := v.len, handles := done ++ [] }], pos := nextElement v.rest }
      (reclaim q v.id v.visited u)
      { out := rd.out ++ [{ cookie := cookie, len := v.len, handles := [] ++ d.lentTo q v.id }]
        pos := nextElement v.rest }
      (reclaim q v.id v.visited d) := by
  obtain ⟨hshadow, -, hwords, hended⟩ := h
  rw [hpos] at hshadow
  refine ⟨?_, ?_, ?_, fun v' done' hp => ?_⟩
  · refine (hshadow.reclaim v.id v.visited).congr fun x => ?_
    simp only [List.flatMap_append, List.flatMap_cons, List.flatMap_nil, nextElement_ended, List.append_nil,
      List.nil_append, List.mem_append]
    refine ⟨fun hx => hx.elim .inl fun hx => ?_, fun hx => hx.imp_right (hended v done hpos x)⟩
    exact List.mem_append.1 (hshadow.ended_of_lentTo hnone hx)
  · exact (DrainPos.ungathered_of_ended (nextElement_ended _)).symm
  · rw [drainWords_append, drainWords_append, hwords]
    rfl
  · have hne : (nextElement v.rest).ended = [] := nextElement_ended _
    rw [show nextElement v.rest = _ from hp] at hne
    exact fun x hx => absurd hx (by rw [show done' = [] from hne]; exact List.not_mem_nil)

/-- A step of CMD's drain is one of DISP's, or ends one loan. -/
theorem Follows.step : Ensures (drainStep cmdCtx q ru u) fun a =>
    (∃ v done, a.1.pos = .unlend v done) ∧ Follows s q a.1 a.2 rd d
      ∨ Succeeds (drainStep dispCtx q rd d) fun b => Follows s q a.1 a.2 b.1 b.2 := by
  by_cases hend : ∃ v done, ru.pos = .unlend v done
  · obtain ⟨v, done, hpos⟩ := hend
    cases hlent : u.lentTo q v.id with
    | cons x rest =>
      rw [drainStep_cmdCtx_of_lent hpos h.shadow.gaps hlent]
      exact .ok (.inl ⟨⟨_, _, rfl⟩, h.endLoan hpos (hlent ▸ List.mem_cons_self)⟩)
    | nil =>
      have hrd : rd.pos = .unlend v [] := by rw [h.pos, hpos]; rfl
      have hcookie : ((d.queue q).descAt v.id).cookie = ((u.queue q).descAt v.id).cookie := by
        rw [h.shadow.queue]
        rfl
      rw [drainStep_cmdCtx_of_not_lent hpos h.shadow.gaps hlent, drainStep_dispCtx_unlend hrd, hcookie]
      exact .ok (.inr (.ok (h.reclaim hpos hlent _)))
  · have hnot : ∀ v done, ru.pos ≠ .unlend v done := fun v done hp => hend ⟨v, done, hp⟩
    have hended : ru.pos.ended = [] := by
      cases hp : ru.pos with
      | unlend v done => exact absurd hp (hnot v done)
      | _ => rfl
    have hrd : rd.pos = ru.pos := h.pos.trans (DrainPos.ungathered_of_ended hended)
    have hshadow := h.shadow
    rw [hended] at hshadow
    refine fun a ha => .inr ?_
    obtain ⟨b, hb, hrun, haended, hout, hR⟩ := (drainsAlike_shadow s q _).step hshadow hrd hnot a ha
    refine ⟨b, hb, ?_, ?_, ?_, fun v done hp => ?_⟩
    · rw [hrun, haended]
      exact hR
    · rw [hrun, DrainPos.ungathered_of_ended haended]
    · rw [hrun, hout, h.words]
    · rw [hp] at haended
      exact fun x hx => absurd hx (by rw [show done = [] from haended]; exact List.not_mem_nil)

end

theorem dispSteps_succ {s t : State} (h : dispTurn s = .ok t) (n : Nat) : dispSteps (n + 1) s = dispSteps n t := by
  rw [dispSteps, h]

theorem Shadow.poolSound {s u d : State} {q : Role} {ended : List Handle} (h : Shadow s q ended u d)
    (hs : s.PoolSound) : d.PoolSound := by
  refine hs.mono fun k => (h.kept k).imp_right fun hfree => ?_
  rw [hfree]
  exact ⟨rfl, fun a ha => by cases ha⟩

theorem drainRun_of_finished {q : Role} {n : Nat} {r : DrainRun} {s : State} {b : Bool}
    {res : (List Drained × Bool) × State} (hpos : r.pos = .finished b) (h : drainRun q n r s = .ok res) :
    res = ((r.out, b), s) := by
  cases n with
  | zero => cases h
  | succ n =>
    simp only [drainRun, hpos] at h
    exact (Except.ok.inj h).symm

theorem drainRun_of_unfinished {q : Role} {n : Nat} {r : DrainRun} {s : State} {res : (List Drained × Bool) × State}
    (hpos : ∀ b, r.pos ≠ .finished b) (h : drainRun q (n + 1) r s = .ok res) :
    ∃ r' s', drainStep cmdCtx q r s = .ok (r', s') ∧ drainRun q n r' s' = .ok res := by
  rw [drainRun] at h
  cases hp : r.pos with
  | finished b => exact absurd hp (hpos b)
  | _ =>
    rw [hp] at h
    obtain ⟨⟨r', s'⟩, hstep, hrun⟩ := bind_ok.1 h
    exact ⟨r', s', hstep, hrun⟩

/-- In `d` DISP has drained the chains `out'` of the walk that began in `s`; CMD's drain would have drained `out`, which
says the same, and left `w`. The next queue's turn comes when DISP hands them over. -/
structure WalkFollowed (s w d : State) (out out' : List Drained) (corrupt : Bool) : Prop where
  words : drainWords out' = drainWords out
  shadow : Shadow s s.dq (out'.flatMap fun x => x.handles) w d
  ended : WalkEnded d (advanceWalk (handOver out' corrupt d)) out' corrupt
  lent : ∀ x ∈ out', ∀ k ∈ x.handles, d.Lent s.dq k.toNat

section
variable {s u d : State} {ru rd : DrainRun} (hdisp : s.disp = .walk) (hpool : s.PoolSound)
  (h : Follows s s.dq ru u rd d) (hwalk : d.walk = .drain rd) (hsound : Sound .none d)
include hdisp h

theorem Follows.place : d.disp = .walk ∧ d.dq = s.dq := by
  rw [h.shadow.rest]
  exact ⟨hdisp, rfl⟩

include hpool hwalk hsound

/-- The step in which the drains end is the one in which DISP hands over. -/
theorem Follows.hands_over {ru1 rd1 : DrainRun} {u1 d1 : State} {b : Bool}
    (hstep : drainStep dispCtx s.dq rd d = .ok (rd1, d1)) (h1 : Follows s s.dq ru1 u1 rd1 d1)
    (hpos : ru1.pos = .finished b) :
    dispTurn d = .ok (advanceWalk (handOver rd1.out b d1)) ∧ WalkFollowed s u1 d1 ru1.out rd1.out b := by
  obtain ⟨hdisp', hdq⟩ := h.place hdisp
  rw [← hdq] at hstep
  have hrd : rd1.pos = .finished b := h1.pos.trans (DrainPos.ungathered_eq_finished.2 hpos)
  obtain ⟨hended, -, hlent⟩ :=
    hsound.walkEnded (h.shadow.poolSound hpool) (hsound.tidy.stores rfl) hdisp' hwalk hstep b
  have hshadow := h1.shadow
  rw [hpos, show DrainPos.ended (.finished b) = [] from rfl, List.append_nil] at hshadow
  exact ⟨dispTurn_of_finished hdisp' hwalk hstep hrd, h1.words, hshadow, hended, hdq ▸ hlent⟩

/-- When CMD's drain would come to its end, the dispatcher's does, and hands over the same chains. -/
theorem Follows.finishes {n : Nat} {w : State} {out : List Drained} {c : Bool} (hgoes : ∀ b, ru.pos ≠ .finished b)
    (hrun : drainRun s.dq n ru u = .ok ((out, c), w)) :
    ∃ m out' d', dispSteps m d = .ok (advanceWalk (handOver out' c d')) ∧ WalkFollowed s w d' out out' c := by
  induction n generalizing ru rd u d with
  | zero => cases hrun
  | succ n ih =>
    obtain ⟨ru1, u1, hstep, hrun1⟩ := drainRun_of_unfinished hgoes hrun
    rcases h.step _ hstep with ⟨⟨v, done, hpos⟩, h1⟩ | ⟨⟨rd1, d1⟩, hdstep, h1⟩
    · exact ih h1 hwalk hsound (fun b hb => by rw [hpos] at hb; cases hb) hrun1
    · by_cases hfin : ∃ b, ru1.pos = .finished b
      · obtain ⟨b, hpos⟩ := hfin
        cases drainRun_of_finished hpos hrun1
        obtain ⟨hturn, hfollowed⟩ := h.hands_over hdisp hpool hwalk hsound hdstep h1 hpos
        exact ⟨1, _, _, dispSteps_succ hturn 0, hfollowed⟩
      · obtain ⟨hdisp', hdq⟩ := h.place hdisp
        have hturn := dispTurn_of_unfinished hdisp' hwalk (hdq ▸ hdstep) fun b hb =>
          hfin ⟨b, DrainPos.ungathered_eq_finished.1 (h1.pos.symm.trans hb)⟩
        obtain ⟨t, ht, hsound1, -⟩ := dispTurn_done hsound
        cases hturn.symm.trans ht
        obtain ⟨m, out', d', hm, hfollowed⟩ :=
          ih (h1.walk (.drain rd1)) rfl hsound1 (fun b hb => hfin ⟨b, hb⟩) hrun1
        exact ⟨m + 1, out', d', (dispSteps_succ hturn m).trans hm, hfollowed⟩

end

end Sys2Proof.Machine

namespace Sys2Proof.Machine

open Sys2Proof.Claims

/-! ## The walk of one queue (44 R234, R235) -/

/-- The two turns in which the dispatcher comes to hold the lock of a queue to drain. -/
theorem dispSteps_takeLock {s : State} (hdisp : s.disp = .walk) (hwalk : s.walk = .test)
    (hv : (s.queue s.dq).valid = true) (hb : (s.queue s.dq).broken = false) (hlock : (s.queue s.dq).lock = none)
    (n : Nat) : dispSteps (n + 2) s = dispSteps n { s.setQueue s.dq { s.queue s.dq with lock := some .disp } with
      walk := .drain { out := [], pos := .start } } :=
  (dispSteps_succ (dispTurn_test_of_present hdisp hwalk hv hb) (n + 1)).trans
    (dispSteps_succ (dispTurn_wantLock_of_free (s := { s with walk := .wantLock }) hdisp rfl hlock) n)

theorem Sound.takeLock {s : State} (h : Sound .none s) (hdisp : s.disp = .walk) (hwalk : s.walk = .test)
    (hv : (s.queue s.dq).valid = true) (hb : (s.queue s.dq).broken = false) (hlock : (s.queue s.dq).lock = none) :
    Sound .none { s.setQueue s.dq { s.queue s.dq with lock := some .disp } with
      walk := .drain { out := [], pos := .start } } := by
  obtain ⟨t, ht, h1, -⟩ := dispTurn_done h
  cases (dispTurn_test_of_present hdisp hwalk hv hb).symm.trans ht
  obtain ⟨t, ht, h2, -⟩ := dispTurn_done h1
  cases (dispTurn_wantLock_of_free (s := { s with walk := .wantLock }) hdisp rfl hlock).symm.trans ht
  exact h2

/-- With the lock taken DISP's drain stands where CMD's would. -/
theorem follows_start (s : State) (q : Role) (w : WalkPos) (hwbuf : s.wbuf = []) :
    Follows s q { out := [], pos := .start } ({ s with gaps := [] }.setQueue q { s.queue q with lock := some .cmd })
      { out := [], pos := .start } { s.setQueue q { s.queue q with lock := some .disp } with walk := w } := by
  refine ⟨⟨?_, ?_, fun k => ?_, rfl, fun _ => .inl rfl, rfl, rfl, rfl, hwbuf⟩, rfl, rfl, fun _ _ hp => by cases hp⟩
  · show _ = { s with queues := s.queues.set q (PerRole.get (s.queues.set q _) q), walk := w }
    rw [PerRole.get_set_self]
    rfl
  · exact (PerRole.get_set_self ..).trans (by rw [State.queue_setQueue_self])
  · rw [if_neg (by simp [DrainPos.ended])]
    rfl

section
variable {s w d : State} {chains : List DoneChain} {out out' : List Drained} {corrupt : Bool}
variable (hf : WalkFollowed s w d out out' corrupt) (hpool : s.PoolSound) (hloans : LoansGivenBack s w s.dq chains)
  {k : Nat}
include hf hloans

/-- What has been gathered are buffers of the chains drained, as they were. -/
theorem WalkFollowed.slot_of_gathered (hk : ∃ x ∈ out', ∃ y ∈ x.handles, y.toNat = k) :
    d.slot k = s.slot k ∧ (s.slot k).internal = false
      ∧ ∃ c ∈ chains, (s.slot k).loan = some { q := s.dq, head := c.id } := by
  obtain ⟨-, h, -, hlent⟩ := hf
  have hd : d.Lent s.dq k := by
    obtain ⟨x, hx, y, hy, rfl⟩ := hk
    exact hlent x hx y hy
  obtain ⟨hl, hint⟩ := hd.not_none
  have hs : d.slot k = s.slot k := (h.kept k).resolve_right fun hfree => hl (by rw [hfree]; rfl)
  rw [hs] at hl hint
  refine ⟨hs, hint, ?_⟩
  by_contra hno
  have hback := hloans k
  rw [if_neg hno, h.slot k, if_pos (mem_gathered.2 hk), hs] at hback
  exact hl (congrArg Slot.loan hback).symm

include hpool

/-- What of the chains drained has not been gathered are their tables, FREE already. -/
theorem WalkFollowed.slot_of_not_gathered (hk : ¬∃ x ∈ out', ∃ y ∈ x.handles, y.toNat = k)
    (hchain : ∃ c ∈ chains, (s.slot k).loan = some { q := s.dq, head := c.id }) :
    d.slot k = Slot.free ∧ (s.slot k).internal = true := by
  have h := hf.shadow
  have hback := hloans k
  rw [if_pos hchain, h.slot k, if_neg (mt mem_gathered.1 hk)] at hback
  have hl : (s.slot k).loan ≠ none := by
    obtain ⟨c, -, hloan⟩ := hchain
    simp [hloan]
  have hfree : d.slot k = Slot.free := (h.kept k).resolve_left fun hs => hl <| by
    rw [← hs, hback]
    split <;> rfl
  refine ⟨hfree, ?_⟩
  by_contra hint
  rw [if_neg hint, hfree] at hback
  have halloc := hpool.lent k hl
  rw [show (s.slot k).alloc = false from (congrArg Slot.alloc hback).symm] at halloc
  cases halloc

/-- What the end of the walk leaves of the slots, from what CMD's drain would have left (41 R165, 44 R234). -/
theorem WalkFollowed.slot (k : Nat) : (advanceWalk (handOver out' corrupt d)).slot k
    = if (∃ c ∈ chains, (s.slot k).loan = some { q := s.dq, head := c.id })
      then (if (s.slot k).internal = true ∨ s.dq ≠ s.cfg.qRx then Slot.free else { s.slot k with loan := none })
      else s.slot k := by
  have hplace : d.dq = s.dq ∧ d.cfg = s.cfg := by
    rw [hf.shadow.rest]
    exact ⟨rfl, rfl⟩
  rw [hf.ended.slot, hplace.1, hplace.2]
  by_cases hk : ∃ x ∈ out', ∃ y ∈ x.handles, y.toNat = k
  · obtain ⟨hs, hint, hchain⟩ := hf.slot_of_gathered hloans hk
    rw [if_pos hk, if_pos hchain, hs]
    by_cases hrx : s.dq = s.cfg.qRx
    · rw [if_pos hrx, if_neg (by simp [hint, hrx])]
    · rw [if_neg hrx, if_pos (.inr hrx)]
  · rw [if_neg hk]
    split
    · rename_i hchain
      obtain ⟨hfree, hint⟩ := hf.slot_of_not_gathered hpool hloans hk hchain
      rw [hfree, if_pos (.inl hint)]
    · rename_i hno
      have hback := hloans k
      rwa [if_neg hno, hf.shadow.slot k, if_neg (mt mem_gathered.1 hk)] at hback

end

/-- Settles O52. -/
theorem walkReportsDrainedChains : Obligations.WalkReportsDrainedChains := by
  intro s chains visited corrupt hsafe hdisp hwalk hv hb hfinds
  have hsound := State.safe_sound hsafe
  have hpool := State.safe_poolSound hsafe
  have hlock := hsound.tidy.lock_none rfl (by simp [State.drainOf, hdisp, hwalk]) s.dq
  obtain ⟨out, w, hrun, hwords, hqueue, hloans, hbytes⟩ :=
    drainFinds_run (s := { s with gaps := [] }) hsafe rfl hv hb hlock (drainFinds_ungapped hfinds)
  have hstart := follows_start s s.dq (.drain { out := [], pos := .start }) (hsound.tidy.stores rfl)
  obtain ⟨m, out', d, hsteps, hfollowed⟩ := hstart.finishes hdisp hpool rfl (hsound.takeLock hdisp hwalk hv hb hlock)
    (by simp) hrun
  have hslot := hfollowed.slot hpool hloans
  obtain ⟨hwords', hshadow, ⟨hport, -, hkeep, hplace, hrest⟩, -⟩ := hfollowed
  have hevents := events_of_drainWords s.reportWord (hwords'.trans hwords)
  have hsteps' := (dispSteps_takeLock hdisp hwalk hv hb hlock m).trans hsteps
  generalize advanceWalk (handOver out' corrupt d) = t at hslot hport hkeep hplace hrest hsteps'
  have hd := hshadow.rest
  have hdq : d.dq = s.dq := by rw [hd]
  have hqueues : t.queues = d.queues.set s.dq { d.queue s.dq with lock := none } := by rw [hrest, hdq]
  refine ⟨m + 2, t, hsteps', queueDrained_congr hqueue ?_, ?_, ?_, hslot, fun p hp => ?_,
    sameLiveBytes_trans (fun a ha => ?_) hkeep, ?_⟩
  · rw [State.queue, hqueues, PerRole.get_set_self, hshadow.queue]
    exact (State.queue_setQueue_self ..).symm
  · rw [hplace, hdq]
    cases s.dq <;> rfl
  · rw [hport, hd]
    exact congrArg (fun ev => s.eventPort ++ ev ++ _) hevents
  · rw [State.queue, hqueues, PerRole.get_set_ne _ _ hp, hd]
    exact PerRole.get_set_ne _ _ hp
  · rw [hshadow.poolKind] at ha
    exact (hshadow.byteAt a).trans (hbytes a ha)
  · rw [hrest, hd]

end Sys2Proof.Machine
